-- ==== Sys2Proof/Word.lean ====
section
/-! DEFINITION. The words of the machine: 64-bit scalar words, bytes, and the contents of the vector, mask and tile
registers (02 R37, 07 R132, 11 R226). -/
namespace Sys2Proof

/-- A 64-bit scalar word (02 R37). -/
abbrev Word := BitVec 64
/-- One byte of memory (02 R4). -/
abbrev Byte := BitVec 8
/-- The 16,384 bits of a vector register (07 R132). -/
abbrev VReg := BitVec 16384
/-- The 4,096 bits of a mask register (07 R132). -/
abbrev MReg := BitVec 4096
/-- The 16 KiB of a tile register: 64 rows of 64 cells of 32 bits, row-major (04 R72, 11 R226). -/
abbrev TReg := BitVec 131072

end Sys2Proof
end

