-- ==== Sys2Proof/Types.lean ====
section
/-! DEFINITION. The data that events carry: a Brynlink message and the place of a register write. They stand apart
from the instructions because an event of the table has no encoding, only what it brings with it. -/
namespace Sys2Proof

/-- A Brynlink message without its TYPE, which the event that delivers it names (25 R397). The payload is the bytes
of its flits, lowest first. -/
structure Msg where
  /-- SRC, the sender's endpoint id. -/
  src     : BitVec 12
  /-- DST, the receiver's endpoint id. -/
  dst     : BitVec 12
  /-- TAG, chosen by the sender. -/
  tag     : Word
  /-- ADDR, PA[39:0] of a remote access with [63:40] zero. -/
  addr    : Word
  /-- LEN, the byte count of a WRITE. -/
  len     : BitVec 12
  /-- NFLIT, payload flits. -/
  nflit   : BitVec 4
  /-- ORD. -/
  ord     : Bool
  /-- STAT, the status in a reply. -/
  stat    : BitVec 8
  /-- Every reserved bit of the header, [127:88], [47:41] and [31:8] in this order. -/
  rsv     : BitVec 71
  /-- The payload bytes. -/
  payload : List Byte
  deriving DecidableEq, Repr

/-- Where a register write lands: a system register by number (17 R342), a device register by physical address
(03 R430), or a register of the core's control page by its offset in the page (04 R77). -/
inductive RegLoc where
  | sys (n : BitVec 12)
  | dev (pa : BitVec 52)
  | ctl (off : BitVec 16)
  deriving DecidableEq, Repr

end Sys2Proof
end

