-- ==== Sys2Proof/Syntax.lean ====
section
/-! DEFINITION. The instructions and events of the machine: one constructor per row of spec/opcode_table.json, in the table's
order. A constructor with an encoding has the operand fields of its word, named as the spec names them; a one-bit modifier is a
Bool. An event has no word and carries what it brings with it (Types). -/
namespace Sys2Proof

/-- Every row of the opcode table (02 R25 and the owning chapters): 329 words and 84 events. -/
inductive Instr where
  /-- R182: Writes x[d] := x[a] + x[b] modulo 2^64. -/
  | saAdd (d a b : BitVec 5)
  /-- R182: Writes x[d] := x[a] - x[b] modulo 2^64. -/
  | saSub (d a b : BitVec 5)
  /-- R182: Writes the bitwise and of x[a] and x[b]. -/
  | saAnd (d a b : BitVec 5)
  /-- R182: Writes the bitwise or of x[a] and x[b]. -/
  | saOr (d a b : BitVec 5)
  /-- R182: Writes the bitwise xor of x[a] and x[b]. -/
  | saXor (d a b : BitVec 5)
  /-- R182: Writes x[a] and not x[b]. -/
  | saAndn (d a b : BitVec 5)
  /-- R182: Shifts x[a] left by x[b]<5:0>. -/
  | saSll (d a b : BitVec 5)
  /-- R182: Shifts x[a] right logically by x[b]<5:0>. -/
  | saSrl (d a b : BitVec 5)
  /-- R182: Shifts x[a] right arithmetically by x[b]<5:0>. -/
  | saSra (d a b : BitVec 5)
  /-- R182: Rotates x[a] right by x[b]<5:0>. -/
  | saRotr (d a b : BitVec 5)
  /-- R182: Writes 1 if x[a] < x[b] signed, else 0. -/
  | saSlt (d a b : BitVec 5)
  /-- R182: Writes 1 if x[a] < x[b] unsigned, else 0. -/
  | saSltu (d a b : BitVec 5)
  /-- R182: Writes the signed minimum. -/
  | saMin (d a b : BitVec 5)
  /-- R182: Writes the signed maximum. -/
  | saMax (d a b : BitVec 5)
  /-- R182: Writes the unsigned minimum. -/
  | saMinu (d a b : BitVec 5)
  /-- R182: Writes the unsigned maximum. -/
  | saMaxu (d a b : BitVec 5)
  /-- R182: Writes the 32-bit sum sign-extended. -/
  | saAddw (d a b : BitVec 5)
  /-- R182: Writes the 32-bit difference sign-extended. -/
  | saSubw (d a b : BitVec 5)
  /-- R182: Counts leading zero bits of x[a]. -/
  | saClz (d a : BitVec 5)
  /-- R182: Counts trailing zero bits of x[a]. -/
  | saCtz (d a : BitVec 5)
  /-- R182: Counts one bits of x[a]. -/
  | saPopc (d a : BitVec 5)
  /-- R182: Signed saturating addition. -/
  | saAdds (d a b : BitVec 5)
  /-- R182: Signed saturating subtraction. -/
  | saSubs (d a b : BitVec 5)
  /-- R183: Adds the sign-extended immediate to x[a]. -/
  | siAddi (d a : BitVec 5) (i : BitVec 12)
  /-- R183: Ands x[a] with the immediate. -/
  | siAndi (d a : BitVec 5) (i : BitVec 12)
  /-- R183: Ors x[a] with the immediate. -/
  | siOri (d a : BitVec 5) (i : BitVec 12)
  /-- R183: Xors x[a] with the immediate. -/
  | siXori (d a : BitVec 5) (i : BitVec 12)
  /-- R183: Signed compare of x[a] with the immediate. -/
  | siSlti (d a : BitVec 5) (i : BitVec 12)
  /-- R183: Unsigned compare of x[a] with the immediate pattern. -/
  | siSltiu (d a : BitVec 5) (i : BitVec 12)
  /-- R183: Shifts x[a] left by imm12<5:0>. -/
  | siSlli (d a : BitVec 5) (i : BitVec 6)
  /-- R183: Shifts x[a] right logically by imm12<5:0>. -/
  | siSrli (d a : BitVec 5) (i : BitVec 6)
  /-- R183: Shifts x[a] right arithmetically by imm12<5:0>. -/
  | siSrai (d a : BitVec 5) (i : BitVec 6)
  /-- R183: Rotates x[a] right by imm12<5:0>. -/
  | siRotri (d a : BitVec 5) (i : BitVec 6)
  /-- R183: Adds the immediate and sign-extends 32 bits. -/
  | siAddiw (d a : BitVec 5) (i : BitVec 12)
  /-- R89: Writes the sign-extended imm20 shifted left by 12. -/
  | suAhi (d : BitVec 5) (i : BitVec 20)
  /-- R89: Writes pc plus the shifted imm20. -/
  | suApc (d : BitVec 5) (i : BitVec 20)
  /-- R85: Loads one byte sign-extended. -/
  | slLb (d a : BitVec 5) (i : BitVec 12)
  /-- R85: Loads two bytes sign-extended. -/
  | slLh (d a : BitVec 5) (i : BitVec 12)
  /-- R85: Loads four bytes sign-extended. -/
  | slLw (d a : BitVec 5) (i : BitVec 12)
  /-- R85: Loads eight bytes. -/
  | slLd (d a : BitVec 5) (i : BitVec 12)
  /-- R85: Loads one byte zero-extended. -/
  | slLbu (d a : BitVec 5) (i : BitVec 12)
  /-- R85: Loads two bytes zero-extended. -/
  | slLhu (d a : BitVec 5) (i : BitVec 12)
  /-- R85: Loads four bytes zero-extended. -/
  | slLwu (d a : BitVec 5) (i : BitVec 12)
  /-- R85: Loads sixteen bytes into the pair d, d+1. -/
  | slLq (d a : BitVec 5) (i : BitVec 12)
  /-- R86: Consuming 8-byte scratchpad load that waits for full and, with .C, clears the bit. -/
  | slLdf (d a : BitVec 5) (c : Bool) (i : BitVec 12)
  /-- R86: Consuming 16-byte scratchpad load that waits for full and, with .C, clears the bit. -/
  | slLqf (d a : BitVec 5) (c : Bool) (i : BitVec 12)
  /-- R87: Stores one byte of x[b]. -/
  | ssSb (i : BitVec 12) (a b : BitVec 5)
  /-- R87: Stores two bytes of x[b]. -/
  | ssSh (i : BitVec 12) (a b : BitVec 5)
  /-- R87: Stores four bytes of x[b]. -/
  | ssSw (i : BitVec 12) (a b : BitVec 5)
  /-- R87: Stores eight bytes of x[b]. -/
  | ssSd (i : BitVec 12) (a b : BitVec 5)
  /-- R87: Stores sixteen bytes from the pair b, b+1. -/
  | ssSq (i : BitVec 12) (a b : BitVec 5)
  /-- R310: Branches when x[a] = x[b]. -/
  | brEq (a b : BitVec 5) (o : BitVec 13)
  /-- R310: Branches when x[a] differs from x[b]. -/
  | brNe (a b : BitVec 5) (o : BitVec 13)
  /-- R310: Branches when x[a] < x[b] signed. -/
  | brLt (a b : BitVec 5) (o : BitVec 13)
  /-- R310: Branches when x[a] >= x[b] signed. -/
  | brGe (a b : BitVec 5) (o : BitVec 13)
  /-- R310: Branches when x[a] < x[b] unsigned. -/
  | brLtu (a b : BitVec 5) (o : BitVec 13)
  /-- R310: Branches when x[a] >= x[b] unsigned. -/
  | brGeu (a b : BitVec 5) (o : BitVec 13)
  /-- R311: Jumps pc-relative and writes the return address. -/
  | jlJal (d : BitVec 5) (o : BitVec 21)
  /-- R313: Jumps to x[a] and writes the return address. -/
  | jrJalr (d a : BitVec 5)
  /-- R314: Jumps through a bounded table of 32-bit pc-relative entries. -/
  | jrJtab (d a b : BitVec 5)
  /-- R213: Closes a strip: advances chosen registers and VREM, grants VL and branches back while elements remain. -/
  | lpLoop (adv : BitVec 4) (o : BitVec 22)
  /-- R184: Writes the low 64 bits of the product. -/
  | smMul (d a b : BitVec 5)
  /-- R184: Writes the high 64 bits of the product with per-operand signedness modifiers. -/
  | smMulh (d a b : BitVec 5) (sb sa : Bool)
  /-- R184: Accumulates x[a] x x[b] into x[d]. -/
  | smMadd (d a b : BitVec 5)
  /-- R184: Divides, unsigned or with .S signed, trapping RANGE on a zero divisor. -/
  | smDiv (d a b : BitVec 5) (s : Bool)
  /-- R184: Remainder, unsigned or with .S signed, trapping RANGE on a zero divisor. -/
  | smRem (d a b : BitVec 5) (s : Bool)
  /-- R187: Rounded floating addition of scalar bit patterns. -/
  | sfAdd (d a b : BitVec 5) (f : BitVec 2) (r : BitVec 3)
  /-- R187: Rounded floating subtraction. -/
  | sfSub (d a b : BitVec 5) (f : BitVec 2) (r : BitVec 3)
  /-- R187: Rounded floating multiplication. -/
  | sfMul (d a b : BitVec 5) (f : BitVec 2) (r : BitVec 3)
  /-- R187: Rounded floating division. -/
  | sfDiv (d a b : BitVec 5) (f : BitVec 2) (r : BitVec 3)
  /-- R187: Rounded floating square root. -/
  | sfSqrt (d a : BitVec 5) (f : BitVec 2) (r : BitVec 3)
  /-- R187: Fused multiply-add with x[d] as addend, one rounding. -/
  | sfFma (d a b : BitVec 5) (f : BitVec 2) (r : BitVec 3)
  /-- R187: Floating minimum. -/
  | sfMin (d a b : BitVec 5) (f : BitVec 2)
  /-- R187: Floating maximum. -/
  | sfMax (d a b : BitVec 5) (f : BitVec 2)
  /-- R187: Copies the sign of b onto a. -/
  | sfSgnj (d a b : BitVec 5) (f : BitVec 2)
  /-- R187: Copies the inverted sign of b onto a. -/
  | sfSgnjn (d a b : BitVec 5) (f : BitVec 2)
  /-- R187: Floating equality compare. -/
  | sfFeq (d a b : BitVec 5) (f : BitVec 2)
  /-- R187: Floating less-than compare. -/
  | sfFlt (d a b : BitVec 5) (f : BitVec 2)
  /-- R187: Floating less-or-equal compare. -/
  | sfFle (d a b : BitVec 5) (f : BitVec 2)
  /-- R187: Writes the class code of a. -/
  | sfClass (d a : BitVec 5) (f : BitVec 2)
  /-- R187: Converts a to a signed 64-bit integer. -/
  | sfCvti (d a : BitVec 5) (f : BitVec 2) (r : BitVec 3)
  /-- R187: Converts a to an unsigned 64-bit integer. -/
  | sfCvtu (d a : BitVec 5) (f : BitVec 2) (r : BitVec 3)
  /-- R187: Converts a signed integer to format fw. -/
  | sfIcvt (d a : BitVec 5) (f : BitVec 2) (r : BitVec 3)
  /-- R187: Converts an unsigned integer to format fw. -/
  | sfUcvt (d a : BitVec 5) (f : BitVec 2) (r : BitVec 3)
  /-- R187: Widens a to binary64 exactly. -/
  | sfWiden (d a : BitVec 5) (f : BitVec 2)
  /-- R187: Narrows a binary64 value to format fw. -/
  | sfNarrow (d a : BitVec 5) (f : BitVec 2) (r : BitVec 3)
  /-- R270: Atomic add, fetch or no-return form. -/
  | amAdd (d a b : BitVec 5) (w n : Bool)
  /-- R270: Atomic signed minimum. -/
  | amMin (d a b : BitVec 5) (w n : Bool)
  /-- R270: Atomic signed maximum. -/
  | amMax (d a b : BitVec 5) (w n : Bool)
  /-- R270: Atomic unsigned minimum. -/
  | amMinu (d a b : BitVec 5) (w n : Bool)
  /-- R270: Atomic unsigned maximum. -/
  | amMaxu (d a b : BitVec 5) (w n : Bool)
  /-- R270: Atomic and. -/
  | amAnd (d a b : BitVec 5) (w n : Bool)
  /-- R270: Atomic or. -/
  | amOr (d a b : BitVec 5) (w n : Bool)
  /-- R270: Atomic xor. -/
  | amXor (d a b : BitVec 5) (w n : Bool)
  /-- R270: Atomic swap returning the old value. -/
  | amSwap (d a b : BitVec 5) (w : Bool)
  /-- R270: Atomic compare-and-swap against x[d]. -/
  | amCas (d a b : BitVec 5) (w : Bool)
  /-- R345: Reads a system register into x[d]. -/
  | sySrd (d : BitVec 5) (s : BitVec 12)
  /-- R345: Writes x[a] to a system register under its map and rule. -/
  | sySwr (a : BitVec 5) (s : BitVec 12)
  /-- R294: Ends the current chunk. -/
  | syCend
  /-- R294: Ends the chunk as a singleton; under POD waits for remote acknowledgements. -/
  | syFence (c : BitVec 3)
  /-- R352: Invalidates fetched words on the dies of the scope. -/
  | syIcinv (c : BitVec 3)
  /-- R324: Reads a launch record and asks the primary MC to create contexts. -/
  | syLaunch (d a : BitVec 5)
  /-- R345: Traps TRAP with TVAL = n. -/
  | syTrap (n : BitVec 12)
  /-- R345: Returns from a trap to EPC, restoring mode and IE. -/
  | syRet
  /-- R345: Ends the context after its engines leave RUNNING. -/
  | syEnd
  /-- R361: Writes the core record, window block and engine state and completes UNBINDING. -/
  | syPark
  /-- R297: Configures barrier register bn from x[a]. -/
  | sqCfg (b : BitVec 3) (a : BitVec 5)
  /-- R299: Ends the chunk and counts one arrival at the hardware barrier. -/
  | sqArv (b : BitVec 3)
  /-- R300: Waits until the barrier generation advances past GEN. -/
  | sqWt (b : BitVec 3)
  /-- R301: Reads barrier register bn. -/
  | sqRd (d : BitVec 5) (b : BitVec 3)
  /-- R301: Writes barrier register bn, supervisor only. -/
  | sqWr (b : BitVec 3) (a : BitVec 5)
  /-- R301: Waits until every older VQ entry has retired. -/
  | sqVqd
  /-- R139: Sets VREM from a count and cap and grants VL. -/
  | vcSetl (d a b : BitVec 5)
  /-- R139: Sets VTYPE from x[a] and grants VL. -/
  | vcSett (d a : BitVec 5)
  /-- R139: Sets VTYPE from the immediate image and grants VL. -/
  | vcSetti (d : BitVec 5) (g : BitVec 2) (f : BitVec 5)
  /-- R139: Writes VLMAX to x[d]. -/
  | vcVlmax (d : BitVec 5)
  /-- R148: Unit-stride vector load. -/
  | vlLd (d a : BitVec 5) (m : BitVec 4) (o p : Bool)
  /-- R148: Strided vector load. -/
  | vlLds (d a b : BitVec 5) (m : BitVec 4) (o p : Bool)
  /-- R151: Whole-register load by groups. -/
  | vlLdr (d a : BitVec 5) (o p : Bool)
  /-- R148: Unit-stride fault-only-first load that trims VL. -/
  | vlLdff (d a : BitVec 5) (m : BitVec 4) (o p : Bool)
  /-- R152: Vector load from the own scratchpad by offset. -/
  | vlLdsp (d a : BitVec 5) (m : BitVec 4)
  /-- R152: Consuming scratchpad vector load waiting for full, clearing with .C. -/
  | vlLdf (d a : BitVec 5) (m : BitVec 4) (c : Bool)
  /-- R262: Unit-stride vector store. -/
  | vsSt (s a : BitVec 5) (m : BitVec 4) (o p : Bool)
  /-- R262: Strided vector store. -/
  | vsSts (s a b : BitVec 5) (m : BitVec 4) (o p : Bool)
  /-- R265: Whole-register store by groups. -/
  | vsStr (s a : BitVec 5) (o p : Bool)
  /-- R157: Gather with indices scaled by the element width. -/
  | vgGath (d a v : BitVec 5) (m : BitVec 4) (o p : Bool)
  /-- R157: Gather with byte indices. -/
  | vgGathb (d a v : BitVec 5) (m : BitVec 4) (o p : Bool)
  /-- R267: Scatter with indices scaled by the element width. -/
  | vgScat (s a v : BitVec 5) (m : BitVec 4) (o p : Bool)
  /-- R267: Scatter with byte indices. -/
  | vgScatb (s a v : BitVec 5) (m : BitVec 4) (o p : Bool)
  /-- R194: Vector integer addition. -/
  | vaAdd (d a b : BitVec 5) (m : BitVec 4) (x : Bool)
  /-- R194: Vector integer subtraction. -/
  | vaSub (d a b : BitVec 5) (m : BitVec 4) (x : Bool)
  /-- R194: Low bits of the product. -/
  | vaMul (d a b : BitVec 5) (m : BitVec 4) (x : Bool)
  /-- R194: High bits of the signed product. -/
  | vaMulh (d a b : BitVec 5) (m : BitVec 4) (x : Bool)
  /-- R194: High bits of the unsigned product. -/
  | vaMulhu (d a b : BitVec 5) (m : BitVec 4) (x : Bool)
  /-- R194: Element-wise and. -/
  | vaAnd (d a b : BitVec 5) (m : BitVec 4) (x : Bool)
  /-- R194: Element-wise or. -/
  | vaOr (d a b : BitVec 5) (m : BitVec 4) (x : Bool)
  /-- R194: Element-wise xor. -/
  | vaXor (d a b : BitVec 5) (m : BitVec 4) (x : Bool)
  /-- R194: Element-wise left shift. -/
  | vaSll (d a b : BitVec 5) (m : BitVec 4) (x : Bool)
  /-- R194: Element-wise logical right shift. -/
  | vaSrl (d a b : BitVec 5) (m : BitVec 4) (x : Bool)
  /-- R194: Element-wise arithmetic right shift. -/
  | vaSra (d a b : BitVec 5) (m : BitVec 4) (x : Bool)
  /-- R194: Signed minimum. -/
  | vaMin (d a b : BitVec 5) (m : BitVec 4) (x : Bool)
  /-- R194: Signed maximum. -/
  | vaMax (d a b : BitVec 5) (m : BitVec 4) (x : Bool)
  /-- R194: Unsigned minimum. -/
  | vaMinu (d a b : BitVec 5) (m : BitVec 4) (x : Bool)
  /-- R194: Unsigned maximum. -/
  | vaMaxu (d a b : BitVec 5) (m : BitVec 4) (x : Bool)
  /-- R194: Signed saturating addition. -/
  | vaAdds (d a b : BitVec 5) (m : BitVec 4) (x : Bool)
  /-- R194: Unsigned saturating addition. -/
  | vaAddsu (d a b : BitVec 5) (m : BitVec 4) (x : Bool)
  /-- R194: Signed saturating subtraction. -/
  | vaSubs (d a b : BitVec 5) (m : BitVec 4) (x : Bool)
  /-- R194: Unsigned saturating subtraction. -/
  | vaSubsu (d a b : BitVec 5) (m : BitVec 4) (x : Bool)
  /-- R194: Multiply-accumulate into vd, low bits. -/
  | vaMacc (d a b : BitVec 5) (m : BitVec 4) (x : Bool)
  /-- R195: Signed widening multiply-accumulate. -/
  | vaWmacc (d a b : BitVec 5) (m : BitVec 4) (x : Bool)
  /-- R195: Unsigned widening multiply-accumulate. -/
  | vaWmaccu (d a b : BitVec 5) (m : BitVec 4) (x : Bool)
  /-- R191: Integer equality compare into a mask. -/
  | vaCeq (d : BitVec 4) (a b : BitVec 5) (m : BitVec 4) (x : Bool)
  /-- R191: Integer inequality compare into a mask. -/
  | vaCne (d : BitVec 4) (a b : BitVec 5) (m : BitVec 4) (x : Bool)
  /-- R191: Signed less-than compare into a mask. -/
  | vaClt (d : BitVec 4) (a b : BitVec 5) (m : BitVec 4) (x : Bool)
  /-- R191: Signed less-or-equal compare into a mask. -/
  | vaCle (d : BitVec 4) (a b : BitVec 5) (m : BitVec 4) (x : Bool)
  /-- R191: Unsigned less-than compare into a mask. -/
  | vaCltu (d : BitVec 4) (a b : BitVec 5) (m : BitVec 4) (x : Bool)
  /-- R191: Unsigned less-or-equal compare into a mask. -/
  | vaCleu (d : BitVec 4) (a b : BitVec 5) (m : BitVec 4) (x : Bool)
  /-- R196: Vector floating addition. -/
  | vfAdd (d a b : BitVec 5) (m : BitVec 4) (x : Bool)
  /-- R196: Vector floating subtraction. -/
  | vfSub (d a b : BitVec 5) (m : BitVec 4) (x : Bool)
  /-- R196: Vector floating multiplication. -/
  | vfMul (d a b : BitVec 5) (m : BitVec 4) (x : Bool)
  /-- R196: Vector floating division. -/
  | vfDiv (d a b : BitVec 5) (m : BitVec 4) (x : Bool)
  /-- R196: Vector floating square root. -/
  | vfSqrt (d a : BitVec 5) (m : BitVec 4)
  /-- R196: Fused a x b + vd. -/
  | vfFma (d a b : BitVec 5) (m : BitVec 4) (x : Bool)
  /-- R196: Fused a x b - vd. -/
  | vfFms (d a b : BitVec 5) (m : BitVec 4) (x : Bool)
  /-- R196: Fused -(a x b) + vd. -/
  | vfFnma (d a b : BitVec 5) (m : BitVec 4) (x : Bool)
  /-- R196: Vector floating minimum. -/
  | vfMin (d a b : BitVec 5) (m : BitVec 4) (x : Bool)
  /-- R196: Vector floating maximum. -/
  | vfMax (d a b : BitVec 5) (m : BitVec 4) (x : Bool)
  /-- R196: Sign injection. -/
  | vfSgnj (d a b : BitVec 5) (m : BitVec 4) (x : Bool)
  /-- R196: Inverted sign injection. -/
  | vfSgnjn (d a b : BitVec 5) (m : BitVec 4) (x : Bool)
  /-- R196: Xor sign injection. -/
  | vfSgnjx (d a b : BitVec 5) (m : BitVec 4) (x : Bool)
  /-- R195: Floating widening multiply-accumulate. -/
  | vfWmacc (d a b : BitVec 5) (m : BitVec 4) (x : Bool)
  /-- R196: Floating equality compare into a mask. -/
  | vfCeq (d : BitVec 4) (a b : BitVec 5) (m : BitVec 4) (x : Bool)
  /-- R196: Floating less-than compare into a mask. -/
  | vfClt (d : BitVec 4) (a b : BitVec 5) (m : BitVec 4) (x : Bool)
  /-- R196: Floating less-or-equal compare into a mask. -/
  | vfCle (d : BitVec 4) (a b : BitVec 5) (m : BitVec 4) (x : Bool)
  /-- R196: Unordered compare into a mask. -/
  | vfCun (d : BitVec 4) (a b : BitVec 5) (m : BitVec 4) (x : Bool)
  /-- R198: Copies elements of va to vd. -/
  | vxMov (d a : BitVec 5) (m : BitVec 4)
  /-- R198: Broadcasts x[a] into vd. -/
  | vxBcst (d a : BitVec 5) (m : BitVec 4)
  /-- R200: Extracts one element to x[d] through the RQ. -/
  | vxXtr (d a b : BitVec 5)
  /-- R198: Inserts x[a] at element x[b]. -/
  | vxIns (d a b : BitVec 5)
  /-- R198: Writes each element's index. -/
  | vxIdx (d : BitVec 5) (m : BitVec 4)
  /-- R198: Permutes va by the indices in vb. -/
  | vxPerm (d a b : BitVec 5) (m : BitVec 4)
  /-- R198: Slides elements up by x[b]. -/
  | vxSlup (d a b : BitVec 5) (m : BitVec 4)
  /-- R198: Slides elements down by x[b]. -/
  | vxSldn (d a b : BitVec 5) (m : BitVec 4)
  /-- R198: Slides up by one inserting x[b] at element 0. -/
  | vxSl1up (d a b : BitVec 5) (m : BitVec 4)
  /-- R198: Packs selected elements of va to the front of vd. -/
  | vxCompress (d a : BitVec 5) (m : BitVec 4)
  /-- R198: Spreads leading elements of va to the selected positions. -/
  | vxExpand (d a : BitVec 5) (m : BitVec 4)
  /-- R199: Shifts the whole group bit string left. -/
  | vxShlw (d a b : BitVec 5)
  /-- R199: Shifts the whole group bit string right. -/
  | vxShrw (d a b : BitVec 5)
  /-- R199: Funnel-shifts vd:va right. -/
  | vxFshw (d a b : BitVec 5)
  /-- R203: Sums each segment in the fixed order. -/
  | vrSum (d a : BitVec 5) (m : BitVec 4) (s : Bool)
  /-- R203: Maximum of each segment. -/
  | vrMax (d a : BitVec 5) (m : BitVec 4) (s : Bool)
  /-- R203: Minimum of each segment. -/
  | vrMin (d a : BitVec 5) (m : BitVec 4) (s : Bool)
  /-- R203: Unsigned maximum of each segment. -/
  | vrMaxu (d a : BitVec 5) (m : BitVec 4) (s : Bool)
  /-- R203: Unsigned minimum of each segment. -/
  | vrMinu (d a : BitVec 5) (m : BitVec 4) (s : Bool)
  /-- R203: And-fold of each segment. -/
  | vrAnd (d a : BitVec 5) (m : BitVec 4) (s : Bool)
  /-- R203: Or-fold of each segment. -/
  | vrOr (d a : BitVec 5) (m : BitVec 4) (s : Bool)
  /-- R203: Xor-fold of each segment. -/
  | vrXor (d a : BitVec 5) (m : BitVec 4) (s : Bool)
  /-- R203: Signed or floating dot product per segment. -/
  | vrDot (d a b : BitVec 5) (m : BitVec 4) (s : Bool)
  /-- R203: Unsigned integer dot product per segment. -/
  | vrDotu (d a b : BitVec 5) (m : BitVec 4) (s : Bool)
  /-- R203: Largest magnitude of each segment. -/
  | vrMaxabs (d a : BitVec 5) (m : BitVec 4) (s : Bool)
  /-- R223: Returns the last active element to x[d] through the RQ. -/
  | vrLasta (d a : BitVec 5) (m : BitVec 4)
  /-- R202: Prefix sum within each segment. -/
  | vrScan (d a : BitVec 5) (m : BitVec 4) (s : Bool)
  /-- R202: Prefix maximum within each segment. -/
  | vrScanmax (d a : BitVec 5) (m : BitVec 4) (s : Bool)
  /-- R204: Exact-block dot product against BFPm weights. -/
  | vrDotb (d a b : BitVec 5) (m : BitVec 4) (s : Bool) (k : BitVec 3)
  /-- R216: Mask and. -/
  | vpAnd (d a b m : BitVec 4)
  /-- R216: Mask or. -/
  | vpOr (d a b m : BitVec 4)
  /-- R216: Mask xor. -/
  | vpXor (d a b m : BitVec 4)
  /-- R216: Mask and-not. -/
  | vpAndn (d a b m : BitVec 4)
  /-- R216: Sets active mask bits. -/
  | vpSet (d m : BitVec 4)
  /-- R216: Clears active mask bits. -/
  | vpClr (d m : BitVec 4)
  /-- R217: Counts set active mask bits, result through the RQ. -/
  | vpCnt (d : BitVec 5) (a m : BitVec 4)
  /-- R217: Finds the first set active mask bit, result through the RQ. -/
  | vpFfs (d : BitVec 5) (a m : BitVec 4)
  /-- R217: Reads 64 mask bits to x[d] through the RQ. -/
  | vpMrd (d : BitVec 5) (a : BitVec 4) (b : BitVec 5)
  /-- R218: Writes 64 mask bits from x[a]. -/
  | vpMwr (d : BitVec 4) (a b : BitVec 5)
  /-- R218: Copies the zero maps of a group into a mask. -/
  | vpZmap (d : BitVec 4) (a : BitVec 5)
  /-- R219: Marks selected elements before (or including) the first set bit. -/
  | vpUpto (d a m : BitVec 4) (i : Bool)
  /-- R220: Writes each element's last earlier equal-key dependence. -/
  | vpConf (d a : BitVec 5) (b m : BitVec 4)
  /-- R221: Carves a conflict-free run into a mask, and with .SETVL trims VL. -/
  | vpPart (d : BitVec 4) (a b : BitVec 5) (m : BitVec 4) (t : Bool)
  /-- R207: Floating conversion by one width step. -/
  | vvCvt (d a f : BitVec 5) (m : BitVec 4) (r : BitVec 3)
  /-- R207: Converts FP32 to E2M1 with one rounding. -/
  | vvF32f4 (d a f : BitVec 5) (m : BitVec 4) (r : BitVec 3)
  /-- R209: Quantises FP32 into BFP blocks. -/
  | vvTobfp (d a f : BitVec 5) (m : BitVec 4) (r : BitVec 3)
  /-- R209: Expands BFP elements to FP32. -/
  | vvFrombfp (d a f : BitVec 5) (m : BitVec 4)
  /-- R206: Floating to signed integer of equal width. -/
  | vvFtoi (d a f : BitVec 5) (m : BitVec 4) (r : BitVec 3)
  /-- R206: Floating to unsigned integer of equal width. -/
  | vvFtou (d a f : BitVec 5) (m : BitVec 4) (r : BitVec 3)
  /-- R206: Signed integer to floating of equal width. -/
  | vvItof (d a f : BitVec 5) (m : BitVec 4) (r : BitVec 3)
  /-- R206: Unsigned integer to floating of equal width. -/
  | vvUtof (d a f : BitVec 5) (m : BitVec 4) (r : BitVec 3)
  /-- R206: Sign-extends integers to double width. -/
  | vvSext (d a f : BitVec 5) (m : BitVec 4)
  /-- R206: Zero-extends integers to double width. -/
  | vvZext (d a f : BitVec 5) (m : BitVec 4)
  /-- R206: Narrows integers to half width, wrapping. -/
  | vvNrw (d a f : BitVec 5) (m : BitVec 4)
  /-- R206: Narrows signed integers with saturation. -/
  | vvNrws (d a f : BitVec 5) (m : BitVec 4)
  /-- R206: Narrows unsigned integers with saturation. -/
  | vvNrwu (d a f : BitVec 5) (m : BitVec 4)
  /-- R230: Adds the exact outer product of va and vb into a tile with one rounding. -/
  | mxOpa (t : BitVec 4) (a b : BitVec 5) (m f : BitVec 4)
  /-- R230: Outer product with B shifted by the repeat-frame iteration. -/
  | mxSlide (t : BitVec 4) (a b : BitVec 5) (m f : BitVec 4)
  /-- R234: Zeroes the active rows of a tile. -/
  | mtZero (t m : BitVec 4) (f64 : Bool)
  /-- R235: Loads tile rows from memory. -/
  | mtLd (t : BitVec 4) (a b : BitVec 5) (m : BitVec 4) (f64 : Bool)
  /-- R235: Stores tile rows, with .Z also the row-zero bitmap. -/
  | mtSt (t : BitVec 4) (a b : BitVec 5) (m : BitVec 4) (f64 z : Bool)
  /-- R239: Copies one tile row into a vector register. -/
  | mtRdrow (t : BitVec 4) (d b : BitVec 5) (f64 : Bool)
  /-- R239: Copies a vector register into one tile row. -/
  | mtWrrow (t : BitVec 4) (a b : BitVec 5) (f64 : Bool)
  /-- R246: Segmented dot product that may be abandoned with a verdict token. -/
  | vdDotv (d a b : BitVec 5) (s : BitVec 4) (p : BitVec 2) (x : BitVec 5)
  /-- R253: Writes tail bounds into BFP weight headers. -/
  | vdTail (d : BitVec 5) (s : BitVec 4)
  /-- R258: Marks tokens and their verdicts in two masks. -/
  | vdTest (d : BitVec 4) (a : BitVec 5) (b m : BitVec 4)
  /-- R256: Sets TK.THRESH from x[a]. -/
  | vdTkset (a : BitVec 5)
  /-- R257: Raises TK to the k-th largest survivor. -/
  | vdTkupd (a b : BitVec 5) (m : BitVec 4)
  /-- R97: Starts an engine run and returns its handle. -/
  | ceFork (d a b : BitVec 5) (e : BitVec 3)
  /-- R98: Joins an engine run, waiting while it runs. -/
  | ceRend (d a : BitVec 5)
  /-- R98: Returns the engine status without waiting. -/
  | ceTest (d a : BitVec 5)
  /-- R99: Opens a register for engine writes. -/
  | ceOpen (n : BitVec 5) (e : BitVec 3) (k : BitVec 4)
  /-- R99: Withdraws a register opening. -/
  | ceClose (n : BitVec 5) (e : BitVec 3) (k : BitVec 4)
  /-- R98: Waits for the engine and reads a register, pc or error word. -/
  | ceErd (d a s : BitVec 5)
  /-- R292: Cross-path fence ordering path A before path B. -/
  | ceFencex (a b : BitVec 5) (c : BitVec 3)
  /-- R403: Starts a collective run on the die's collective engine. -/
  | ceColl (d a : BitVec 5) (o : BitVec 3)
  /-- R274: Configures an accumulation window and fills its copies with the identity. -/
  | awWin (a b : BitVec 5) (w : BitVec 2) (p : BitVec 3)
  /-- R275: Applies updates into per-lane copies. -/
  | awUpd (s b : BitVec 5) (m : BitVec 4) (w : BitVec 2)
  /-- R276: Folds the 32 copies into memory in lane order. -/
  | awMerge (w : BitVec 2)
  /-- R277: Resets every copy element to the identity. -/
  | awClr (w : BitVec 2)
  /-- R318: Runs the following frame of words N times with staggered register fields. -/
  | rpRep (c : BitVec 5) (s stag : BitVec 3)
  /-- R160: Tensor load through a shape record. -/
  | tlLd (d a s : BitVec 5) (m : BitVec 4) (o p : Bool)
  /-- R268: Tensor store through a shape record. -/
  | tlSt (v a s : BitVec 5) (m : BitVec 4) (o p : Bool)
  /-- R105: Copy-engine byte copy in steps. -/
  | emCopy (d a b : BitVec 4) (dl sl : Bool)
  /-- R105: Copy-engine two-dimensional copy by rows. -/
  | emCopy2 (d a b c : BitVec 4) (dl sl : Bool)
  /-- R105: Copy-engine pattern fill. -/
  | emFill (d a b : BitVec 4) (dl : Bool)
  /-- R105: Copy-engine 8-byte load into a register. -/
  | emLd (d a : BitVec 4) (sl : Bool)
  /-- R105: Copy-engine 8-byte store of a register. -/
  | emSt (a b : BitVec 4) (dl : Bool)
  /-- R106: Engine register addition. -/
  | eaAdd (d a b : BitVec 4)
  /-- R106: Engine register subtraction. -/
  | eaSub (d a b : BitVec 4)
  /-- R106: Engine register and. -/
  | eaAnd (d a b : BitVec 4)
  /-- R106: Engine register or. -/
  | eaOr (d a b : BitVec 4)
  /-- R106: Engine register xor. -/
  | eaXor (d a b : BitVec 4)
  /-- R106: Engine left shift. -/
  | eaSll (d a b : BitVec 4)
  /-- R106: Engine logical right shift. -/
  | eaSrl (d a b : BitVec 4)
  /-- R106: Engine arithmetic right shift. -/
  | eaSra (d a b : BitVec 4)
  /-- R106: Engine multiplication, low 64 bits. -/
  | eaMul (d a b : BitVec 4)
  /-- R106: Engine unsigned minimum. -/
  | eaMinu (d a b : BitVec 4)
  /-- R106: Engine unsigned maximum. -/
  | eaMaxu (d a b : BitVec 4)
  /-- R106: Engine unsigned less-than. -/
  | eaSltu (d a b : BitVec 4)
  /-- R106: Engine add immediate. -/
  | esAddi (d a : BitVec 4) (i : BitVec 14)
  /-- R106: Engine or with unsigned immediate. -/
  | esOri (d a : BitVec 4) (i : BitVec 14)
  /-- R106: Engine left shift by immediate. -/
  | esSlli (d a : BitVec 4) (i : BitVec 6)
  /-- R106: Waits until earlier engine writes are acknowledged. -/
  | esDrain
  /-- R106: Stops the engine in ENDED. -/
  | esEnd
  /-- R106: Stops the engine in FAILED with code USER. -/
  | esErr (i : BitVec 14)
  /-- R106: Engine branch if equal. -/
  | ebEq (a b : BitVec 4) (o : BitVec 15)
  /-- R106: Engine branch if not equal. -/
  | ebNe (a b : BitVec 4) (o : BitVec 15)
  /-- R106: Engine branch if signed less. -/
  | ebLt (a b : BitVec 4) (o : BitVec 15)
  /-- R106: Engine branch if signed greater or equal. -/
  | ebGe (a b : BitVec 4) (o : BitVec 15)
  /-- R106: Engine branch if unsigned less. -/
  | ebLtu (a b : BitVec 4) (o : BitVec 15)
  /-- R106: Engine branch if unsigned greater or equal. -/
  | ebGeu (a b : BitVec 4) (o : BitVec 15)
  /-- R106: Engine branch always. -/
  | ebAl (o : BitVec 15)
  /-- R124: Forager byte load, zero-extended. -/
  | gwLb (d a : BitVec 4) (l inc : Bool)
  /-- R124: Forager halfword load. -/
  | gwLh (d a : BitVec 4) (l inc : Bool)
  /-- R124: Forager word load. -/
  | gwLw (d a : BitVec 4) (l inc : Bool)
  /-- R124: Forager doubleword load. -/
  | gwLd (d a : BitVec 4) (l inc : Bool)
  /-- R124: Forager byte store. -/
  | gwSb (a b : BitVec 4) (l inc : Bool)
  /-- R124: Forager halfword store. -/
  | gwSh (a b : BitVec 4) (l inc : Bool)
  /-- R124: Forager word store. -/
  | gwSw (a b : BitVec 4) (l inc : Bool)
  /-- R124: Forager doubleword store. -/
  | gwSd (a b : BitVec 4) (l inc : Bool)
  /-- R124: Forager 16-byte store from a register pair. -/
  | gwSq (a b : BitVec 4) (l inc : Bool)
  /-- R125: Spreads a sparse row of bytes into a dense row. -/
  | gwSprb (d a b c : BitVec 4) (l inc : Bool)
  /-- R125: Spreads a sparse row of halfwords. -/
  | gwSprh (d a b c : BitVec 4) (l inc : Bool)
  /-- R125: Spreads a sparse row of words. -/
  | gwSprw (d a b c : BitVec 4) (l inc : Bool)
  /-- R125: Spreads a sparse row of doublewords. -/
  | gwSprd (d a b c : BitVec 4) (l inc : Bool)
  /-- R126: Forager addition. -/
  | gaAdd (d a b : BitVec 4)
  /-- R126: Forager subtraction. -/
  | gaSub (d a b : BitVec 4)
  /-- R126: Forager and. -/
  | gaAnd (d a b : BitVec 4)
  /-- R126: Forager or. -/
  | gaOr (d a b : BitVec 4)
  /-- R126: Forager xor. -/
  | gaXor (d a b : BitVec 4)
  /-- R126: Forager left shift. -/
  | gaSll (d a b : BitVec 4)
  /-- R126: Forager logical right shift. -/
  | gaSrl (d a b : BitVec 4)
  /-- R126: Forager multiplication. -/
  | gaMul (d a b : BitVec 4)
  /-- R126: Forager unsigned minimum. -/
  | gaMinu (d a b : BitVec 4)
  /-- R126: Forager unsigned maximum. -/
  | gaMaxu (d a b : BitVec 4)
  /-- R126: Forager unsigned less-than. -/
  | gaSltu (d a b : BitVec 4)
  /-- R126: Forager trailing-zero count. -/
  | gaCtz (d a : BitVec 4)
  /-- R126: Forager population count. -/
  | gaPopc (d a : BitVec 4)
  /-- R126: Forager clear of the lowest set bit. -/
  | gaBclr (d a : BitVec 4)
  /-- R127: Forager add immediate. -/
  | geAddi (d a : BitVec 4) (i : BitVec 14)
  /-- R127: Forager or immediate. -/
  | geOri (d a : BitVec 4) (i : BitVec 14)
  /-- R127: Forager left shift by immediate. -/
  | geSlli (d a : BitVec 4) (i : BitVec 6)
  /-- R127: Waits until earlier forager writes are acknowledged. -/
  | geDrain
  /-- R127: Stops the forager in ENDED. -/
  | geEnd
  /-- R127: Stops the forager in FAILED with code USER. -/
  | geErr (i : BitVec 14)
  /-- R127: Forager logical right shift by immediate. -/
  | geSrli (d a : BitVec 4) (i : BitVec 6)
  /-- R128: Forager branch if equal. -/
  | gbEq (a b : BitVec 4) (o : BitVec 15)
  /-- R128: Forager branch if not equal. -/
  | gbNe (a b : BitVec 4) (o : BitVec 15)
  /-- R128: Forager branch if signed less. -/
  | gbLt (a b : BitVec 4) (o : BitVec 15)
  /-- R128: Forager branch if signed greater or equal. -/
  | gbGe (a b : BitVec 4) (o : BitVec 15)
  /-- R128: Forager branch if unsigned less. -/
  | gbLtu (a b : BitVec 4) (o : BitVec 15)
  /-- R128: Forager branch if unsigned greater or equal. -/
  | gbGeu (a b : BitVec 4) (o : BitVec 15)
  /-- R128: Forager branch always. -/
  | gbAl (o : BitVec 15)
  /-- R63: MIGCMD operation that starts copying the old frame to the new frame. -/
  | migrate
  /-- R63: MIGCMD operation that starts retiring a frame by copying it. -/
  | retire
  /-- R63: MIGCMD operation that moves a SWITCH operation to REDIRECT or DONE. -/
  | switched
  /-- R63: MIGCMD operation that removes a redirection entry and ends its operation. -/
  | release
  /-- R62: When every line of the frame is copied the operation enters SWITCH and sets EVT. -/
  | migrationCopyComplete
  /-- R78: Write of the control-page FEOP register that sets a range of full/empty bits. -/
  | feop (v : Word)
  /-- R331: Slot command BIND that checks and starts loading a context into a core. -/
  | bind
  /-- R331: Slot command UNBIND that starts pre-emption of the bound context. -/
  | unbind
  /-- R360: The bind finishes loading state, the slot becomes BOUND and the context resumes. -/
  | bindLoadComplete
  /-- R334: Supervisor write of YIELD that unbinds the context into WAITING. -/
  | yield (v : Word)
  /-- R340: Write of a core's INTR register that ORs bits into its pending interrupts. -/
  | intr (v : Word)
  /-- R334: A release from the page service makes a WAITING context RUNNABLE. -/
  | pageServiceRelease (ctxid : Word)
  /-- R61: TINV of kind 0 invalidating every entry of a tenant. -/
  | tinvTenant (ten : BitVec 16) (scope : BitVec 3)
  /-- R61: TINV of kind 1 invalidating non-global entries of a tenant and ASID. -/
  | tinvAsid (ten asid : BitVec 16) (scope : BitVec 3)
  /-- R61: TINV of kind 2 invalidating the entry covering TIVA. -/
  | tinvVa (ten asid : BitVec 16) (scope : BitVec 3)
  /-- R61: TINV of kind 3 invalidating every entry of every tenant. -/
  | tinvAll (scope : BitVec 3)
  /-- R61: Every die in the scope acknowledges the invalidation and the TINV write retires. -/
  | tinvAcknowledged
  /-- R352: Every die in the scope acknowledges and SY.ICINV retires. -/
  | icinvAcknowledged
  /-- R60: Write of TEN that ends the chunk and changes translation. -/
  | tenWrite (v : Word)
  /-- R60: Write of ASID that ends the chunk and changes translation. -/
  | asidWrite (v : Word)
  /-- R60: Write of PTB that ends the chunk and changes translation. -/
  | ptbWrite (v : Word)
  /-- R137: Write of VTYPE through settype, then VL clamped to VLMAX. -/
  | vtypeWrite (v : Word)
  /-- R136: Write of VL that stores min(x, VLMAX). -/
  | vlWrite (v : Word)
  /-- R137: Write of VREM that stores both fields and leaves VL. -/
  | vremWrite (v : Word)
  /-- R256: Write of TK that refuses a verdict token. -/
  | tkWrite (v : Word)
  /-- R280: Write of CHB with the budget clamped to 64..65,536. -/
  | chbWrite (v : Word)
  /-- R168: Write of FST that ignores rounding-mode codes 5 to 7. -/
  | fstWrite (v : Word)
  /-- R343: Write of STAT changing mode, IE and state fields at the next instruction. -/
  | statWrite (v : Word)
  /-- R286: Read of CSN that first ends the current chunk. -/
  | csnRead (d : BitVec 5)
  /-- R6: Write of any register without behaviour of its own, under its access codes. -/
  | registerWrite (loc : RegLoc) (v : Word)
  /-- R339: A pending interrupt is taken at an instruction boundary. -/
  | interrupt
  /-- R333: An UNBINDING slot stops its user-mode context at an instruction boundary and traps. -/
  | preempt
  /-- R357: A hardware fault not tied to an instruction raises MACHINE-CHECK as an event. -/
  | machineCheck
  /-- R353: A matching user-mode instruction traps before it performs anything. -/
  | breakpoint
  /-- R284: A chunk takes the next CSN, broadcasts its write signature and passes its writes to their homes. -/
  | chunkCommit (reason : BitVec 4)
  /-- R279: The chunk reaches CHB.BUDGET instructions and ends. -/
  | chunkBudgetExhausted
  /-- R281: The write set would pass 4,096 lines and the chunk ends, inside an instruction if need be. -/
  | writeSetLimit
  /-- R288: The arbiter grants a thrice-squashed chunk its reservation and it re-executes. -/
  | reservationGrant
  /-- R81: A consuming load waiting on an empty granule is released when the bit becomes full. -/
  | fullEmptyRelease
  /-- R300: A waiting SQ.WT completes when the barrier generation advances. -/
  | barrierRelease
  /-- R98: A waiting CE.REND or CE.ERD completes once the engine leaves RUNNING. -/
  | rendRelease
  /-- R109: A waiting drain completes when the engine's earlier writes are acknowledged. -/
  | engineDrainComplete (e : BitVec 2)
  /-- R305: A read-queue result arrives and a waiting scalar reader proceeds. -/
  | rqResult
  /-- R335: A quantum expires and the policy firmware remaps queues by priority, rotation and aging. -/
  | quantumBoundary
  /-- R428: A 1 ms power window ends and TLVL may step up or down. -/
  | powerWindowEnd (pwr : BitVec 16)
  /-- R429: TEMP reaches 95 degrees and TLVL is forced to 4. -/
  | thermalThrottle (temp : BitVec 8)
  /-- R429: TEMP reaches 105 degrees and firmware declares a fatal fault leading to HOLD. -/
  | thermalTrip (temp : BitVec 8)
  /-- R422: Power applied: the package resets keeping nothing. -/
  | coldReset
  /-- R422: The WRST pin resets the package keeping CSN, counters, rings and capsules. -/
  | warmReset
  /-- R422: A reset requested over Brynlink link control, acting as a warm reset. -/
  | fabricCommandedReset
  /-- R419: Loss of power loses retained SRAM and its capsules. -/
  | powerLoss
  /-- R423: The primary MC has verified firmware, finished any sealing and trained LPDDR; REDUCED begins. -/
  | mcBootComplete
  /-- R424: An HBM stack finishes or fails training; when all succeed the package leaves REDUCED. -/
  | hbmTrainingComplete (stack : BitVec 4) (ok : Bool)
  /-- R424: A quad's current step settles, its cores accept binds and the next quad or die starts. -/
  | quadStart (die : BitVec 2)
  /-- R421: The debug-freeze pin stops every clock of a debug-unlocked part. -/
  | dbgfrz
  /-- R416: Every unit has written its FREEZE and the recorder enters SEALING. -/
  | freezeComplete
  /-- R419: Every capsule is stored or dropped and the recorder is re-armed. -/
  | sealingComplete
  /-- R398: Inbound READ message applied at the home and answered with READ-DATA. -/
  | read (m : Msg)
  /-- R398: Inbound WRITE message applied at the home and answered with WRITE-ACK. -/
  | write (m : Msg)
  /-- R398: Inbound ATOMIC message performed at the home and answered with ATOMIC-ACK. -/
  | atomic (m : Msg)
  /-- R398: Reply to a READ returning the bytes to the requesting unit. -/
  | readData (m : Msg)
  /-- R398: Reply acknowledging a WRITE, completing the put. -/
  | writeAck (m : Msg)
  /-- R398: Reply acknowledging an ATOMIC, with the old value for a fetch form. -/
  | atomicAck (m : Msg)
  /-- R327: Host launch message checked by the primary MC and answered with LAUNCH-REPLY. -/
  | launch (m : Msg)
  /-- R405: A collective segment arrives from another member's engine and is combined. -/
  | coll (m : Msg)
  /-- R405: A collective run finishes writing its destination and ends. -/
  | collectiveComplete
  /-- R385: MGMT object-load fragment; the last fragment starts the load. -/
  | load (m : Msg)
  /-- R384: MGMT request that unmaps a loaded image. -/
  | unload (m : Msg)
  /-- R385: MGMT request that returns kernel entries of a loaded image. -/
  | klist (m : Msg)
  /-- R400: MGMT operation that writes a queue descriptor. -/
  | queueSet (m : Msg)
  /-- R400: MGMT operation that sets the aging limit. -/
  | agingSet (m : Msg)
  /-- R420: MGMT request listing capsule index entries. -/
  | capsuleList (m : Msg)
  /-- R420: MGMT request returning 256 bytes of a held capsule. -/
  | capsuleGet (m : Msg)
  /-- R420: MGMT request freeing a capsule and its index entry. -/
  | capsuleAck (m : Msg)
  /-- R420: MGMT request returning the package identity public key. -/
  | idkey (m : Msg)
  /-- R421: MGMT operation that stops every clock of a debug-unlocked part. -/
  | debugFreeze (m : Msg)
  /-- R404: MGMT operation that writes a collective membership entry. -/
  | groupSet (m : Msg)
  /-- R407: MGMT operation that removes a package from a group and restarts its runs. -/
  | memberFail (m : Msg)
  /-- R400: MGMT operation reporting that no package still addresses a retired PA. -/
  | redirectClear (m : Msg)
  /-- R26: A word reached in program order whose major is 0x00, 0x3F, reserved or an engine major, or whose func or fields are undefined, traps ILLEGAL or RESERVED-MAJOR. -/
  | notAnInstruction (w : BitVec 32)
  /-- R26: A core fetch, reached in program order, that fails translation or permission traps FETCH-PAGE with TVAL = EPC = the word's address. -/
  | fetchPage
  /-- R104: A copy-engine or forager word that the engine cannot execute stops the engine in FAILED with error ILLEGAL-WORD. -/
  | illegalWord (e : BitVec 2)
  /-- R110: An engine fetch that fails R53 or lands outside a text page stops the engine in FAILED with code FETCH. -/
  | fetchError (e : BitVec 2)
  /-- R397: A received message with a TYPE the receiver does not know, or nonzero reserved fields, is discarded, and a reply with STAT = 0xFF is sent when one is expected. -/
  | unknownMessageType (ty : BitVec 8) (m : Msg)
  deriving DecidableEq, Repr

end Sys2Proof
end

