-- ==== Sys2Proof/WellFormed.lean ====
section
/-! DEFINITION. The limits an instruction puts on its operand fields (02 R26 step 5 and the owning chapters): what the
types of the fields do not already say. A word that breaks one is not an instruction. -/
namespace Sys2Proof

/-- The system-register numbers the table of 17 R342 lists. -/
def sysRegListed (s : BitVec 12) : Bool :=
  let n := s.toNat
  n ≤ 0x007 || (0x010 ≤ n && n ≤ 0x017) || n == 0x020 || (0x030 ≤ n && n ≤ 0x038) || n == 0x040 || n == 0x041 ||
  (0x050 ≤ n && n ≤ 0x053) || n == 0x060 || n == 0x061 || (0x070 ≤ n && n ≤ 0x074) || (0x080 ≤ n && n ≤ 0x082)

/-- The operand limits of every instruction. -/
def Instr.wellFormed : Instr → Bool
  | .saAdd _ _ _ => true
  | .saSub _ _ _ => true
  | .saAnd _ _ _ => true
  | .saOr _ _ _ => true
  | .saXor _ _ _ => true
  | .saAndn _ _ _ => true
  | .saSll _ _ _ => true
  | .saSrl _ _ _ => true
  | .saSra _ _ _ => true
  | .saRotr _ _ _ => true
  | .saSlt _ _ _ => true
  | .saSltu _ _ _ => true
  | .saMin _ _ _ => true
  | .saMax _ _ _ => true
  | .saMinu _ _ _ => true
  | .saMaxu _ _ _ => true
  | .saAddw _ _ _ => true
  | .saSubw _ _ _ => true
  | .saClz _ _ => true
  | .saCtz _ _ => true
  | .saPopc _ _ => true
  | .saAdds _ _ _ => true
  | .saSubs _ _ _ => true
  | .siAddi _ _ _ => true
  | .siAndi _ _ _ => true
  | .siOri _ _ _ => true
  | .siXori _ _ _ => true
  | .siSlti _ _ _ => true
  | .siSltiu _ _ _ => true
  | .siSlli _ _ _ => true
  | .siSrli _ _ _ => true
  | .siSrai _ _ _ => true
  | .siRotri _ _ _ => true
  | .siAddiw _ _ _ => true
  | .suAhi _ _ => true
  | .suApc _ _ => true
  | .slLb _ _ _ => true
  | .slLh _ _ _ => true
  | .slLw _ _ _ => true
  | .slLd _ _ _ => true
  | .slLbu _ _ _ => true
  | .slLhu _ _ _ => true
  | .slLwu _ _ _ => true
  | .slLq d _ _ => d.getLsbD 0 == false
  | .slLdf _ _ _ _ => true
  | .slLqf d _ _ _ => d.getLsbD 0 == false
  | .ssSb _ _ _ => true
  | .ssSh _ _ _ => true
  | .ssSw _ _ _ => true
  | .ssSd _ _ _ => true
  | .ssSq _ _ b => b.getLsbD 0 == false
  | .brEq _ _ _ => true
  | .brNe _ _ _ => true
  | .brLt _ _ _ => true
  | .brGe _ _ _ => true
  | .brLtu _ _ _ => true
  | .brGeu _ _ _ => true
  | .jlJal _ _ => true
  | .jrJalr _ _ => true
  | .jrJtab _ _ _ => true
  | .lpLoop _ _ => true
  | .smMul _ _ _ => true
  | .smMulh _ _ _ _ _ => true
  | .smMadd _ _ _ => true
  | .smDiv _ _ _ _ => true
  | .smRem _ _ _ _ => true
  | .sfAdd _ _ _ _ r => r != 6#3 && r != 7#3
  | .sfSub _ _ _ _ r => r != 6#3 && r != 7#3
  | .sfMul _ _ _ _ r => r != 6#3 && r != 7#3
  | .sfDiv _ _ _ _ r => r != 6#3 && r != 7#3
  | .sfSqrt _ _ _ r => r != 6#3 && r != 7#3
  | .sfFma _ _ _ _ r => r != 6#3 && r != 7#3
  | .sfMin _ _ _ _ => true
  | .sfMax _ _ _ _ => true
  | .sfSgnj _ _ _ _ => true
  | .sfSgnjn _ _ _ _ => true
  | .sfFeq _ _ _ _ => true
  | .sfFlt _ _ _ _ => true
  | .sfFle _ _ _ _ => true
  | .sfClass _ _ _ => true
  | .sfCvti _ _ _ r => r != 7#3
  | .sfCvtu _ _ _ r => r != 7#3
  | .sfIcvt _ _ _ r => r != 7#3
  | .sfUcvt _ _ _ r => r != 7#3
  | .sfWiden _ _ f => f != 0#2
  | .sfNarrow _ _ f r => r != 7#3 && f != 0#2
  | .amAdd d _ _ _ n => (!n || d == 0#5)
  | .amMin d _ _ _ n => (!n || d == 0#5)
  | .amMax d _ _ _ n => (!n || d == 0#5)
  | .amMinu d _ _ _ n => (!n || d == 0#5)
  | .amMaxu d _ _ _ n => (!n || d == 0#5)
  | .amAnd d _ _ _ n => (!n || d == 0#5)
  | .amOr d _ _ _ n => (!n || d == 0#5)
  | .amXor d _ _ _ n => (!n || d == 0#5)
  | .amSwap _ _ _ _ => true
  | .amCas _ _ _ _ => true
  | .sySrd _ s => sysRegListed s
  | .sySwr _ s => sysRegListed s
  | .syCend => true
  | .syFence c => (1 ≤ c.toNat && c.toNat ≤ 5)
  | .syIcinv c => (c == 3#3 || c == 4#3)
  | .syLaunch _ _ => true
  | .syTrap _ => true
  | .syRet => true
  | .syEnd => true
  | .syPark => true
  | .sqCfg _ _ => true
  | .sqArv _ => true
  | .sqWt _ => true
  | .sqRd _ _ => true
  | .sqWr _ _ => true
  | .sqVqd => true
  | .vcSetl _ _ _ => true
  | .vcSett _ _ => true
  | .vcSetti _ _ _ => true
  | .vcVlmax _ => true
  | .vlLd _ _ _ _ _ => true
  | .vlLds _ _ _ _ _ _ => true
  | .vlLdr _ _ _ _ => true
  | .vlLdff _ _ _ _ _ => true
  | .vlLdsp _ _ _ => true
  | .vlLdf _ _ _ _ => true
  | .vsSt _ _ _ _ _ => true
  | .vsSts _ _ _ _ _ _ => true
  | .vsStr _ _ _ _ => true
  | .vgGath _ _ _ _ _ _ => true
  | .vgGathb _ _ _ _ _ _ => true
  | .vgScat _ _ _ _ _ _ => true
  | .vgScatb _ _ _ _ _ _ => true
  | .vaAdd _ _ _ _ _ => true
  | .vaSub _ _ _ _ _ => true
  | .vaMul _ _ _ _ _ => true
  | .vaMulh _ _ _ _ _ => true
  | .vaMulhu _ _ _ _ _ => true
  | .vaAnd _ _ _ _ _ => true
  | .vaOr _ _ _ _ _ => true
  | .vaXor _ _ _ _ _ => true
  | .vaSll _ _ _ _ _ => true
  | .vaSrl _ _ _ _ _ => true
  | .vaSra _ _ _ _ _ => true
  | .vaMin _ _ _ _ _ => true
  | .vaMax _ _ _ _ _ => true
  | .vaMinu _ _ _ _ _ => true
  | .vaMaxu _ _ _ _ _ => true
  | .vaAdds _ _ _ _ _ => true
  | .vaAddsu _ _ _ _ _ => true
  | .vaSubs _ _ _ _ _ => true
  | .vaSubsu _ _ _ _ _ => true
  | .vaMacc _ _ _ _ _ => true
  | .vaWmacc _ _ _ _ _ => true
  | .vaWmaccu _ _ _ _ _ => true
  | .vaCeq _ _ _ _ _ => true
  | .vaCne _ _ _ _ _ => true
  | .vaClt _ _ _ _ _ => true
  | .vaCle _ _ _ _ _ => true
  | .vaCltu _ _ _ _ _ => true
  | .vaCleu _ _ _ _ _ => true
  | .vfAdd _ _ _ _ _ => true
  | .vfSub _ _ _ _ _ => true
  | .vfMul _ _ _ _ _ => true
  | .vfDiv _ _ _ _ _ => true
  | .vfSqrt _ _ _ => true
  | .vfFma _ _ _ _ _ => true
  | .vfFms _ _ _ _ _ => true
  | .vfFnma _ _ _ _ _ => true
  | .vfMin _ _ _ _ _ => true
  | .vfMax _ _ _ _ _ => true
  | .vfSgnj _ _ _ _ _ => true
  | .vfSgnjn _ _ _ _ _ => true
  | .vfSgnjx _ _ _ _ _ => true
  | .vfWmacc _ _ _ _ _ => true
  | .vfCeq _ _ _ _ _ => true
  | .vfClt _ _ _ _ _ => true
  | .vfCle _ _ _ _ _ => true
  | .vfCun _ _ _ _ _ => true
  | .vxMov _ _ _ => true
  | .vxBcst _ _ _ => true
  | .vxXtr _ _ _ => true
  | .vxIns _ _ _ => true
  | .vxIdx _ _ => true
  | .vxPerm _ _ _ _ => true
  | .vxSlup _ _ _ _ => true
  | .vxSldn _ _ _ _ => true
  | .vxSl1up _ _ _ _ => true
  | .vxCompress _ _ _ => true
  | .vxExpand _ _ _ => true
  | .vxShlw _ _ _ => true
  | .vxShrw _ _ _ => true
  | .vxFshw _ _ _ => true
  | .vrSum _ _ _ _ => true
  | .vrMax _ _ _ _ => true
  | .vrMin _ _ _ _ => true
  | .vrMaxu _ _ _ _ => true
  | .vrMinu _ _ _ _ => true
  | .vrAnd _ _ _ _ => true
  | .vrOr _ _ _ _ => true
  | .vrXor _ _ _ _ => true
  | .vrDot _ _ _ _ _ => true
  | .vrDotu _ _ _ _ _ => true
  | .vrMaxabs _ _ _ _ => true
  | .vrLasta _ _ _ => true
  | .vrScan _ _ _ _ => true
  | .vrScanmax _ _ _ _ => true
  | .vrDotb _ _ _ _ _ k => k != 7#3
  | .vpAnd _ _ _ _ => true
  | .vpOr _ _ _ _ => true
  | .vpXor _ _ _ _ => true
  | .vpAndn _ _ _ _ => true
  | .vpSet _ _ => true
  | .vpClr _ _ => true
  | .vpCnt _ _ _ => true
  | .vpFfs _ _ _ => true
  | .vpMrd _ _ _ => true
  | .vpMwr _ _ _ => true
  | .vpZmap _ _ => true
  | .vpUpto _ _ _ _ => true
  | .vpConf _ _ _ _ => true
  | .vpPart _ _ _ _ _ => true
  | .vvCvt _ _ _ _ r => r != 7#3
  | .vvF32f4 _ _ _ _ r => r != 7#3
  | .vvTobfp _ _ _ _ r => r != 7#3
  | .vvFrombfp _ _ _ _ => true
  | .vvFtoi _ _ _ _ r => r != 7#3
  | .vvFtou _ _ _ _ r => r != 7#3
  | .vvItof _ _ _ _ r => r != 7#3
  | .vvUtof _ _ _ _ r => r != 7#3
  | .vvSext _ _ _ _ => true
  | .vvZext _ _ _ _ => true
  | .vvNrw _ _ _ _ => true
  | .vvNrws _ _ _ _ => true
  | .vvNrwu _ _ _ _ => true
  | .mxOpa t _ _ _ f => (f != 1#4 || t.getLsbD 0 == false)
  | .mxSlide t _ _ _ f => (f != 1#4 || t.getLsbD 0 == false)
  | .mtZero t _ f64 => (!f64 || t.getLsbD 0 == false)
  | .mtLd t _ _ _ f64 => (!f64 || t.getLsbD 0 == false)
  | .mtSt t _ _ _ f64 _ => (!f64 || t.getLsbD 0 == false)
  | .mtRdrow t _ _ f64 => (!f64 || t.getLsbD 0 == false)
  | .mtWrrow t _ _ f64 => (!f64 || t.getLsbD 0 == false)
  | .vdDotv _ _ _ _ p x => p != 3#2 && x != 31#5
  | .vdTail _ _ => true
  | .vdTest _ _ _ _ => true
  | .vdTkset _ => true
  | .vdTkupd _ _ _ => true
  | .ceFork _ _ b e => b.toNat ≤ 28 && e.toNat ≤ 2
  | .ceRend _ _ => true
  | .ceTest _ _ => true
  | .ceOpen n e k => e.toNat ≤ 2 && k.toNat ≤ 2 && (k == 0#4 || n.toNat ≤ 15)
  | .ceClose n e k => e.toNat ≤ 2 && k.toNat ≤ 2 && (k == 0#4 || n.toNat ≤ 15)
  | .ceErd _ _ s => s.toNat ≤ 17
  | .ceFencex a b c => a.toNat ≤ 5 && b.toNat ≤ 5 && (c == 1#3 || c == 3#3 || c == 4#3 || c == 5#3)
  | .ceColl _ _ o => o.toNat ≤ 2
  | .awWin _ _ _ _ => true
  | .awUpd _ _ _ _ => true
  | .awMerge _ => true
  | .awClr _ => true
  | .rpRep _ _ _ => true
  | .tlLd _ _ _ _ _ _ => true
  | .tlSt _ _ _ _ _ _ => true
  | .emCopy d a b _ _ => d != a && d != b && a != b
  | .emCopy2 d a b c _ _ => d != a && d != b && a != b && c.toNat ≤ 14 && d != c && a != c && b != c && d != c + 1#4 && a != c + 1#4 && b != c + 1#4
  | .emFill d a b _ => d != a && d != b && a != b
  | .emLd _ _ _ => true
  | .emSt _ _ _ => true
  | .eaAdd _ _ _ => true
  | .eaSub _ _ _ => true
  | .eaAnd _ _ _ => true
  | .eaOr _ _ _ => true
  | .eaXor _ _ _ => true
  | .eaSll _ _ _ => true
  | .eaSrl _ _ _ => true
  | .eaSra _ _ _ => true
  | .eaMul _ _ _ => true
  | .eaMinu _ _ _ => true
  | .eaMaxu _ _ _ => true
  | .eaSltu _ _ _ => true
  | .esAddi _ _ _ => true
  | .esOri _ _ _ => true
  | .esSlli _ _ _ => true
  | .esDrain => true
  | .esEnd => true
  | .esErr _ => true
  | .ebEq _ _ _ => true
  | .ebNe _ _ _ => true
  | .ebLt _ _ _ => true
  | .ebGe _ _ _ => true
  | .ebLtu _ _ _ => true
  | .ebGeu _ _ _ => true
  | .ebAl _ => true
  | .gwLb d a _ inc => (!inc || d != a)
  | .gwLh d a _ inc => (!inc || d != a)
  | .gwLw d a _ inc => (!inc || d != a)
  | .gwLd d a _ inc => (!inc || d != a)
  | .gwSb _ _ _ _ => true
  | .gwSh _ _ _ _ => true
  | .gwSw _ _ _ _ => true
  | .gwSd _ _ _ _ => true
  | .gwSq _ b _ _ => b.getLsbD 0 == false
  | .gwSprb d a b c _ _ => d != a && d != b && d != c && a != b && a != c && b != c
  | .gwSprh d a b c _ _ => d != a && d != b && d != c && a != b && a != c && b != c
  | .gwSprw d a b c _ _ => d != a && d != b && d != c && a != b && a != c && b != c
  | .gwSprd d a b c _ _ => d != a && d != b && d != c && a != b && a != c && b != c
  | .gaAdd _ _ _ => true
  | .gaSub _ _ _ => true
  | .gaAnd _ _ _ => true
  | .gaOr _ _ _ => true
  | .gaXor _ _ _ => true
  | .gaSll _ _ _ => true
  | .gaSrl _ _ _ => true
  | .gaMul _ _ _ => true
  | .gaMinu _ _ _ => true
  | .gaMaxu _ _ _ => true
  | .gaSltu _ _ _ => true
  | .gaCtz _ _ => true
  | .gaPopc _ _ => true
  | .gaBclr _ _ => true
  | .geAddi _ _ _ => true
  | .geOri _ _ _ => true
  | .geSlli _ _ _ => true
  | .geDrain => true
  | .geEnd => true
  | .geErr _ => true
  | .geSrli _ _ _ => true
  | .gbEq _ _ _ => true
  | .gbNe _ _ _ => true
  | .gbLt _ _ _ => true
  | .gbGe _ _ _ => true
  | .gbLtu _ _ _ => true
  | .gbGeu _ _ _ => true
  | .gbAl _ => true
  | .migrate => true
  | .retire => true
  | .switched => true
  | .release => true
  | .migrationCopyComplete => true
  | .feop _ => true
  | .bind => true
  | .unbind => true
  | .bindLoadComplete => true
  | .yield _ => true
  | .intr _ => true
  | .pageServiceRelease _ => true
  | .tinvTenant _ _ => true
  | .tinvAsid _ _ _ => true
  | .tinvVa _ _ _ => true
  | .tinvAll _ => true
  | .tinvAcknowledged => true
  | .icinvAcknowledged => true
  | .tenWrite _ => true
  | .asidWrite _ => true
  | .ptbWrite _ => true
  | .vtypeWrite _ => true
  | .vlWrite _ => true
  | .vremWrite _ => true
  | .tkWrite _ => true
  | .chbWrite _ => true
  | .fstWrite _ => true
  | .statWrite _ => true
  | .csnRead _ => true
  | .registerWrite _ _ => true
  | .interrupt => true
  | .preempt => true
  | .machineCheck => true
  | .breakpoint => true
  | .chunkCommit reason => reason.toNat ≤ 9
  | .chunkBudgetExhausted => true
  | .writeSetLimit => true
  | .reservationGrant => true
  | .fullEmptyRelease => true
  | .barrierRelease => true
  | .rendRelease => true
  | .engineDrainComplete _ => true
  | .rqResult => true
  | .quantumBoundary => true
  | .powerWindowEnd _ => true
  | .thermalThrottle _ => true
  | .thermalTrip _ => true
  | .coldReset => true
  | .warmReset => true
  | .fabricCommandedReset => true
  | .powerLoss => true
  | .mcBootComplete => true
  | .hbmTrainingComplete stack _ => stack.toNat ≤ 11
  | .quadStart die => die.toNat ≤ 2
  | .dbgfrz => true
  | .freezeComplete => true
  | .sealingComplete => true
  | .read _ => true
  | .write _ => true
  | .atomic _ => true
  | .readData _ => true
  | .writeAck _ => true
  | .atomicAck _ => true
  | .launch _ => true
  | .coll _ => true
  | .collectiveComplete => true
  | .load _ => true
  | .unload _ => true
  | .klist _ => true
  | .queueSet _ => true
  | .agingSet _ => true
  | .capsuleList _ => true
  | .capsuleGet _ => true
  | .capsuleAck _ => true
  | .idkey _ => true
  | .debugFreeze _ => true
  | .groupSet _ => true
  | .memberFail _ => true
  | .redirectClear _ => true
  | .notAnInstruction _ => true
  | .fetchPage => true
  | .illegalWord e => e != 3#2
  | .fetchError e => e != 3#2
  | .unknownMessageType _ _ => true

end Sys2Proof
end

