-- ==== Sys2Proof/Decode.lean ====
section
/-! DEFINITION. The decoder and the encoder, both written from the encoding diagrams of spec/ (02 R22, R23 and the func table of
each major), field by field. Decoding is total and rejects by name. The definitions that build an instruction
are marked noncomputable only because Lean's compiler holds at most 244 constructors with fields in one type; the kernel
evaluates them. -/
namespace Sys2Proof

/-- Bits [lo+len-1:lo] of a word (02 R4). -/
def bits (w : BitVec 32) (lo len : Nat) : BitVec len := w.extractLsb' lo len
/-- Bit i of a word. -/
def bit (w : BitVec 32) (i : Nat) : Bool := w.getLsbD i

/-- Why a word is not an instruction (02 R26 steps 2, 3 and 5). A safe stop: the machine traps on it. -/
inductive Reject where
  /-- Fewer than four bytes. -/
  | short
  /-- Major 0x00 or 0x3F (step 2). -/
  | illegalMajor
  /-- Major 0x20-0x2F or 0x38-0x3E (step 3). -/
  | reservedMajor
  /-- The func value is undefined or a field marked zero is not zero (step 5). -/
  | undefinedWord
  /-- An operand field holds a value the instruction does not permit (step 5). -/
  | badOperand
  deriving DecidableEq, Repr

/-- The words of major SA, 0x01 (rule R182). -/
def decodeSA (w : BitVec 32) : Option Instr :=
  if bits w 0 11 = 0x000#11 then some (.saAdd (bits w 21 5) (bits w 16 5) (bits w 11 5))
  else if bits w 0 11 = 0x001#11 then some (.saSub (bits w 21 5) (bits w 16 5) (bits w 11 5))
  else if bits w 0 11 = 0x002#11 then some (.saAnd (bits w 21 5) (bits w 16 5) (bits w 11 5))
  else if bits w 0 11 = 0x003#11 then some (.saOr (bits w 21 5) (bits w 16 5) (bits w 11 5))
  else if bits w 0 11 = 0x004#11 then some (.saXor (bits w 21 5) (bits w 16 5) (bits w 11 5))
  else if bits w 0 11 = 0x005#11 then some (.saAndn (bits w 21 5) (bits w 16 5) (bits w 11 5))
  else if bits w 0 11 = 0x006#11 then some (.saSll (bits w 21 5) (bits w 16 5) (bits w 11 5))
  else if bits w 0 11 = 0x007#11 then some (.saSrl (bits w 21 5) (bits w 16 5) (bits w 11 5))
  else if bits w 0 11 = 0x008#11 then some (.saSra (bits w 21 5) (bits w 16 5) (bits w 11 5))
  else if bits w 0 11 = 0x009#11 then some (.saRotr (bits w 21 5) (bits w 16 5) (bits w 11 5))
  else if bits w 0 11 = 0x00A#11 then some (.saSlt (bits w 21 5) (bits w 16 5) (bits w 11 5))
  else if bits w 0 11 = 0x00B#11 then some (.saSltu (bits w 21 5) (bits w 16 5) (bits w 11 5))
  else if bits w 0 11 = 0x00C#11 then some (.saMin (bits w 21 5) (bits w 16 5) (bits w 11 5))
  else if bits w 0 11 = 0x00D#11 then some (.saMax (bits w 21 5) (bits w 16 5) (bits w 11 5))
  else if bits w 0 11 = 0x00E#11 then some (.saMinu (bits w 21 5) (bits w 16 5) (bits w 11 5))
  else if bits w 0 11 = 0x00F#11 then some (.saMaxu (bits w 21 5) (bits w 16 5) (bits w 11 5))
  else if bits w 0 11 = 0x010#11 then some (.saAddw (bits w 21 5) (bits w 16 5) (bits w 11 5))
  else if bits w 0 11 = 0x011#11 then some (.saSubw (bits w 21 5) (bits w 16 5) (bits w 11 5))
  else if bits w 0 16 = 0x0012#16 then some (.saClz (bits w 21 5) (bits w 16 5))
  else if bits w 0 16 = 0x0013#16 then some (.saCtz (bits w 21 5) (bits w 16 5))
  else if bits w 0 16 = 0x0014#16 then some (.saPopc (bits w 21 5) (bits w 16 5))
  else if bits w 0 11 = 0x015#11 then some (.saAdds (bits w 21 5) (bits w 16 5) (bits w 11 5))
  else if bits w 0 11 = 0x016#11 then some (.saSubs (bits w 21 5) (bits w 16 5) (bits w 11 5))
  else none

/-- The words of major SI, 0x02 (rule R183). -/
def decodeSI (w : BitVec 32) : Option Instr :=
  if bits w 12 4 = 0x0#4 then some (.siAddi (bits w 21 5) (bits w 16 5) (bits w 0 12))
  else if bits w 12 4 = 0x1#4 then some (.siAndi (bits w 21 5) (bits w 16 5) (bits w 0 12))
  else if bits w 12 4 = 0x2#4 then some (.siOri (bits w 21 5) (bits w 16 5) (bits w 0 12))
  else if bits w 12 4 = 0x3#4 then some (.siXori (bits w 21 5) (bits w 16 5) (bits w 0 12))
  else if bits w 12 4 = 0x4#4 then some (.siSlti (bits w 21 5) (bits w 16 5) (bits w 0 12))
  else if bits w 12 4 = 0x5#4 then some (.siSltiu (bits w 21 5) (bits w 16 5) (bits w 0 12))
  else if bits w 6 10 = 0x180#10 then some (.siSlli (bits w 21 5) (bits w 16 5) (bits w 0 6))
  else if bits w 6 10 = 0x1C0#10 then some (.siSrli (bits w 21 5) (bits w 16 5) (bits w 0 6))
  else if bits w 6 10 = 0x200#10 then some (.siSrai (bits w 21 5) (bits w 16 5) (bits w 0 6))
  else if bits w 6 10 = 0x240#10 then some (.siRotri (bits w 21 5) (bits w 16 5) (bits w 0 6))
  else if bits w 12 4 = 0xA#4 then some (.siAddiw (bits w 21 5) (bits w 16 5) (bits w 0 12))
  else none

/-- The words of major SU, 0x03 (rule R89). -/
def decodeSU (w : BitVec 32) : Option Instr :=
  if bits w 20 1 = 0x0#1 then some (.suAhi (bits w 21 5) (bits w 0 20))
  else if bits w 20 1 = 0x1#1 then some (.suApc (bits w 21 5) (bits w 0 20))
  else none

/-- The words of major SL, 0x04 (rules R85, R86). -/
def decodeSL (w : BitVec 32) : Option Instr :=
  if bits w 12 4 = 0x0#4 then some (.slLb (bits w 21 5) (bits w 16 5) (bits w 0 12))
  else if bits w 12 4 = 0x1#4 then some (.slLh (bits w 21 5) (bits w 16 5) (bits w 0 12))
  else if bits w 12 4 = 0x2#4 then some (.slLw (bits w 21 5) (bits w 16 5) (bits w 0 12))
  else if bits w 12 4 = 0x3#4 then some (.slLd (bits w 21 5) (bits w 16 5) (bits w 0 12))
  else if bits w 12 4 = 0x4#4 then some (.slLbu (bits w 21 5) (bits w 16 5) (bits w 0 12))
  else if bits w 12 4 = 0x5#4 then some (.slLhu (bits w 21 5) (bits w 16 5) (bits w 0 12))
  else if bits w 12 4 = 0x6#4 then some (.slLwu (bits w 21 5) (bits w 16 5) (bits w 0 12))
  else if bits w 12 4 = 0x7#4 then some (.slLq (bits w 21 5) (bits w 16 5) (bits w 0 12))
  else if bits w 14 2 = 0x3#2 ∧ bits w 12 1 = 0x0#1 then some (.slLdf (bits w 21 5) (bits w 16 5) (bit w 13) (bits w 0 12))
  else if bits w 14 2 = 0x3#2 ∧ bits w 12 1 = 0x1#1 then some (.slLqf (bits w 21 5) (bits w 16 5) (bit w 13) (bits w 0 12))
  else none

/-- The words of major SS, 0x05 (rule R87). -/
def decodeSS (w : BitVec 32) : Option Instr :=
  if bits w 7 4 = 0x0#4 then some (.ssSb (bits w 21 5 ++ bits w 0 7) (bits w 16 5) (bits w 11 5))
  else if bits w 7 4 = 0x1#4 then some (.ssSh (bits w 21 5 ++ bits w 0 7) (bits w 16 5) (bits w 11 5))
  else if bits w 7 4 = 0x2#4 then some (.ssSw (bits w 21 5 ++ bits w 0 7) (bits w 16 5) (bits w 11 5))
  else if bits w 7 4 = 0x3#4 then some (.ssSd (bits w 21 5 ++ bits w 0 7) (bits w 16 5) (bits w 11 5))
  else if bits w 7 4 = 0x4#4 then some (.ssSq (bits w 21 5 ++ bits w 0 7) (bits w 16 5) (bits w 11 5))
  else none

/-- The words of major BR, 0x06 (rule R310). -/
def decodeBR (w : BitVec 32) : Option Instr :=
  if bits w 13 3 = 0x0#3 then some (.brEq (bits w 21 5) (bits w 16 5) (bits w 0 13))
  else if bits w 13 3 = 0x1#3 then some (.brNe (bits w 21 5) (bits w 16 5) (bits w 0 13))
  else if bits w 13 3 = 0x2#3 then some (.brLt (bits w 21 5) (bits w 16 5) (bits w 0 13))
  else if bits w 13 3 = 0x3#3 then some (.brGe (bits w 21 5) (bits w 16 5) (bits w 0 13))
  else if bits w 13 3 = 0x4#3 then some (.brLtu (bits w 21 5) (bits w 16 5) (bits w 0 13))
  else if bits w 13 3 = 0x5#3 then some (.brGeu (bits w 21 5) (bits w 16 5) (bits w 0 13))
  else none

/-- The words of major JL, 0x07 (rule R311). -/
def decodeJL (w : BitVec 32) : Option Instr :=
  some (.jlJal (bits w 21 5) (bits w 0 21))

/-- The words of major JR, 0x08 (rules R313, R314). -/
def decodeJR (w : BitVec 32) : Option Instr :=
  if bits w 0 16 = 0x0000#16 then some (.jrJalr (bits w 21 5) (bits w 16 5))
  else if bits w 0 11 = 0x001#11 then some (.jrJtab (bits w 21 5) (bits w 16 5) (bits w 11 5))
  else none

/-- The words of major LP, 0x09 (rule R213). -/
def decodeLP (w : BitVec 32) : Option Instr :=
  some (.lpLoop (bits w 22 4) (bits w 0 22))

/-- The words of major SM, 0x0A (rule R184). -/
def decodeSM (w : BitVec 32) : Option Instr :=
  if bits w 0 11 = 0x000#11 then some (.smMul (bits w 21 5) (bits w 16 5) (bits w 11 5))
  else if bits w 6 5 = 0x00#5 ∧ bits w 0 4 = 0x1#4 then some (.smMulh (bits w 21 5) (bits w 16 5) (bits w 11 5) (bit w 5) (bit w 4))
  else if bits w 0 11 = 0x002#11 then some (.smMadd (bits w 21 5) (bits w 16 5) (bits w 11 5))
  else if bits w 5 6 = 0x00#6 ∧ bits w 0 4 = 0x3#4 then some (.smDiv (bits w 21 5) (bits w 16 5) (bits w 11 5) (bit w 4))
  else if bits w 5 6 = 0x00#6 ∧ bits w 0 4 = 0x4#4 then some (.smRem (bits w 21 5) (bits w 16 5) (bits w 11 5) (bit w 4))
  else none

/-- The words of major SF, 0x0B (rule R187). -/
def decodeSF (w : BitVec 32) : Option Instr :=
  if bits w 0 6 = 0x00#6 then some (.sfAdd (bits w 21 5) (bits w 16 5) (bits w 11 5) (bits w 9 2) (bits w 6 3))
  else if bits w 0 6 = 0x01#6 then some (.sfSub (bits w 21 5) (bits w 16 5) (bits w 11 5) (bits w 9 2) (bits w 6 3))
  else if bits w 0 6 = 0x02#6 then some (.sfMul (bits w 21 5) (bits w 16 5) (bits w 11 5) (bits w 9 2) (bits w 6 3))
  else if bits w 0 6 = 0x03#6 then some (.sfDiv (bits w 21 5) (bits w 16 5) (bits w 11 5) (bits w 9 2) (bits w 6 3))
  else if bits w 11 5 = 0x00#5 ∧ bits w 0 6 = 0x04#6 then some (.sfSqrt (bits w 21 5) (bits w 16 5) (bits w 9 2) (bits w 6 3))
  else if bits w 0 6 = 0x05#6 then some (.sfFma (bits w 21 5) (bits w 16 5) (bits w 11 5) (bits w 9 2) (bits w 6 3))
  else if bits w 0 9 = 0x006#9 then some (.sfMin (bits w 21 5) (bits w 16 5) (bits w 11 5) (bits w 9 2))
  else if bits w 0 9 = 0x007#9 then some (.sfMax (bits w 21 5) (bits w 16 5) (bits w 11 5) (bits w 9 2))
  else if bits w 0 9 = 0x008#9 then some (.sfSgnj (bits w 21 5) (bits w 16 5) (bits w 11 5) (bits w 9 2))
  else if bits w 0 9 = 0x009#9 then some (.sfSgnjn (bits w 21 5) (bits w 16 5) (bits w 11 5) (bits w 9 2))
  else if bits w 0 9 = 0x00A#9 then some (.sfFeq (bits w 21 5) (bits w 16 5) (bits w 11 5) (bits w 9 2))
  else if bits w 0 9 = 0x00B#9 then some (.sfFlt (bits w 21 5) (bits w 16 5) (bits w 11 5) (bits w 9 2))
  else if bits w 0 9 = 0x00C#9 then some (.sfFle (bits w 21 5) (bits w 16 5) (bits w 11 5) (bits w 9 2))
  else if bits w 11 5 = 0x00#5 ∧ bits w 0 9 = 0x00D#9 then some (.sfClass (bits w 21 5) (bits w 16 5) (bits w 9 2))
  else if bits w 11 5 = 0x00#5 ∧ bits w 0 6 = 0x0E#6 then some (.sfCvti (bits w 21 5) (bits w 16 5) (bits w 9 2) (bits w 6 3))
  else if bits w 11 5 = 0x00#5 ∧ bits w 0 6 = 0x0F#6 then some (.sfCvtu (bits w 21 5) (bits w 16 5) (bits w 9 2) (bits w 6 3))
  else if bits w 11 5 = 0x00#5 ∧ bits w 0 6 = 0x10#6 then some (.sfIcvt (bits w 21 5) (bits w 16 5) (bits w 9 2) (bits w 6 3))
  else if bits w 11 5 = 0x00#5 ∧ bits w 0 6 = 0x11#6 then some (.sfUcvt (bits w 21 5) (bits w 16 5) (bits w 9 2) (bits w 6 3))
  else if bits w 11 5 = 0x00#5 ∧ bits w 0 9 = 0x012#9 then some (.sfWiden (bits w 21 5) (bits w 16 5) (bits w 9 2))
  else if bits w 11 5 = 0x00#5 ∧ bits w 0 6 = 0x13#6 then some (.sfNarrow (bits w 21 5) (bits w 16 5) (bits w 9 2) (bits w 6 3))
  else none

/-- The words of major AM, 0x0C (rule R270). -/
def decodeAM (w : BitVec 32) : Option Instr :=
  if bits w 6 5 = 0x00#5 ∧ bits w 0 4 = 0x0#4 then some (.amAdd (bits w 21 5) (bits w 16 5) (bits w 11 5) (bit w 5) (bit w 4))
  else if bits w 6 5 = 0x00#5 ∧ bits w 0 4 = 0x1#4 then some (.amMin (bits w 21 5) (bits w 16 5) (bits w 11 5) (bit w 5) (bit w 4))
  else if bits w 6 5 = 0x00#5 ∧ bits w 0 4 = 0x2#4 then some (.amMax (bits w 21 5) (bits w 16 5) (bits w 11 5) (bit w 5) (bit w 4))
  else if bits w 6 5 = 0x00#5 ∧ bits w 0 4 = 0x3#4 then some (.amMinu (bits w 21 5) (bits w 16 5) (bits w 11 5) (bit w 5) (bit w 4))
  else if bits w 6 5 = 0x00#5 ∧ bits w 0 4 = 0x4#4 then some (.amMaxu (bits w 21 5) (bits w 16 5) (bits w 11 5) (bit w 5) (bit w 4))
  else if bits w 6 5 = 0x00#5 ∧ bits w 0 4 = 0x5#4 then some (.amAnd (bits w 21 5) (bits w 16 5) (bits w 11 5) (bit w 5) (bit w 4))
  else if bits w 6 5 = 0x00#5 ∧ bits w 0 4 = 0x6#4 then some (.amOr (bits w 21 5) (bits w 16 5) (bits w 11 5) (bit w 5) (bit w 4))
  else if bits w 6 5 = 0x00#5 ∧ bits w 0 4 = 0x7#4 then some (.amXor (bits w 21 5) (bits w 16 5) (bits w 11 5) (bit w 5) (bit w 4))
  else if bits w 6 5 = 0x00#5 ∧ bits w 0 5 = 0x08#5 then some (.amSwap (bits w 21 5) (bits w 16 5) (bits w 11 5) (bit w 5))
  else if bits w 6 5 = 0x00#5 ∧ bits w 0 5 = 0x09#5 then some (.amCas (bits w 21 5) (bits w 16 5) (bits w 11 5) (bit w 5))
  else none

/-- The words of major SY, 0x0D (rules R345, R294, R352, R324, R361). -/
def decodeSY (w : BitVec 32) : Option Instr :=
  if bits w 12 9 = 0x000#9 then some (.sySrd (bits w 21 5) (bits w 0 12))
  else if bits w 21 5 = 0x00#5 ∧ bits w 12 4 = 0x1#4 then some (.sySwr (bits w 16 5) (bits w 0 12))
  else if bits w 0 26 = 0x0002000#26 then some (.syCend)
  else if bits w 3 23 = 0x000600#23 then some (.syFence (bits w 0 3))
  else if bits w 3 23 = 0x000800#23 then some (.syIcinv (bits w 0 3))
  else if bits w 0 16 = 0x5000#16 then some (.syLaunch (bits w 21 5) (bits w 16 5))
  else if bits w 12 14 = 0x0006#14 then some (.syTrap (bits w 0 12))
  else if bits w 0 26 = 0x0007000#26 then some (.syRet)
  else if bits w 0 26 = 0x0008000#26 then some (.syEnd)
  else if bits w 0 26 = 0x0009000#26 then some (.syPark)
  else none

/-- The words of major SQ, 0x0E (rules R297, R299, R300, R301). -/
def decodeSQ (w : BitVec 32) : Option Instr :=
  if bits w 24 2 = 0x0#2 ∧ bits w 0 16 = 0x0000#16 then some (.sqCfg (bits w 21 3) (bits w 16 5))
  else if bits w 24 2 = 0x0#2 ∧ bits w 0 21 = 0x001000#21 then some (.sqArv (bits w 21 3))
  else if bits w 24 2 = 0x0#2 ∧ bits w 0 21 = 0x002000#21 then some (.sqWt (bits w 21 3))
  else if bits w 19 2 = 0x0#2 ∧ bits w 0 16 = 0x3000#16 then some (.sqRd (bits w 21 5) (bits w 16 3))
  else if bits w 24 2 = 0x0#2 ∧ bits w 0 16 = 0x4000#16 then some (.sqWr (bits w 21 3) (bits w 16 5))
  else if bits w 0 26 = 0x0005000#26 then some (.sqVqd)
  else none

/-- The words of major VC, 0x0F (rule R139). -/
def decodeVC (w : BitVec 32) : Option Instr :=
  if bits w 0 11 = 0x000#11 then some (.vcSetl (bits w 21 5) (bits w 16 5) (bits w 11 5))
  else if bits w 0 16 = 0x0080#16 then some (.vcSett (bits w 21 5) (bits w 16 5))
  else if bits w 7 14 = 0x0002#14 then some (.vcSetti (bits w 21 5) (bits w 5 2) (bits w 0 5))
  else if bits w 0 21 = 0x000180#21 then some (.vcVlmax (bits w 21 5))
  else none

/-- The words of major VL, 0x10 (rules R148, R151, R152). -/
def decodeVL (w : BitVec 32) : Option Instr :=
  if bits w 11 5 = 0x00#5 ∧ bits w 0 5 = 0x00#5 then some (.vlLd (bits w 21 5) (bits w 16 5) (bits w 7 4) (bit w 6) (bit w 5))
  else if bits w 0 5 = 0x01#5 then some (.vlLds (bits w 21 5) (bits w 16 5) (bits w 11 5) (bits w 7 4) (bit w 6) (bit w 5))
  else if bits w 7 9 = 0x000#9 ∧ bits w 0 5 = 0x02#5 then some (.vlLdr (bits w 21 5) (bits w 16 5) (bit w 6) (bit w 5))
  else if bits w 11 5 = 0x00#5 ∧ bits w 0 5 = 0x03#5 then some (.vlLdff (bits w 21 5) (bits w 16 5) (bits w 7 4) (bit w 6) (bit w 5))
  else if bits w 11 5 = 0x00#5 ∧ bits w 0 7 = 0x04#7 then some (.vlLdsp (bits w 21 5) (bits w 16 5) (bits w 7 4))
  else if bits w 11 5 = 0x00#5 ∧ bits w 2 5 = 0x01#5 ∧ bits w 0 1 = 0x1#1 then some (.vlLdf (bits w 21 5) (bits w 16 5) (bits w 7 4) (bit w 1))
  else none

/-- The words of major VS, 0x11 (rules R262, R265). -/
def decodeVS (w : BitVec 32) : Option Instr :=
  if bits w 11 5 = 0x00#5 ∧ bits w 0 5 = 0x00#5 then some (.vsSt (bits w 21 5) (bits w 16 5) (bits w 7 4) (bit w 6) (bit w 5))
  else if bits w 0 5 = 0x01#5 then some (.vsSts (bits w 21 5) (bits w 16 5) (bits w 11 5) (bits w 7 4) (bit w 6) (bit w 5))
  else if bits w 7 9 = 0x000#9 ∧ bits w 0 5 = 0x02#5 then some (.vsStr (bits w 21 5) (bits w 16 5) (bit w 6) (bit w 5))
  else none

/-- The words of major VG, 0x12 (rules R157, R267). -/
def decodeVG (w : BitVec 32) : Option Instr :=
  if bits w 0 5 = 0x00#5 then some (.vgGath (bits w 21 5) (bits w 16 5) (bits w 11 5) (bits w 7 4) (bit w 6) (bit w 5))
  else if bits w 0 5 = 0x01#5 then some (.vgGathb (bits w 21 5) (bits w 16 5) (bits w 11 5) (bits w 7 4) (bit w 6) (bit w 5))
  else if bits w 0 5 = 0x02#5 then some (.vgScat (bits w 21 5) (bits w 16 5) (bits w 11 5) (bits w 7 4) (bit w 6) (bit w 5))
  else if bits w 0 5 = 0x03#5 then some (.vgScatb (bits w 21 5) (bits w 16 5) (bits w 11 5) (bits w 7 4) (bit w 6) (bit w 5))
  else none

/-- The words of major VA, 0x13 (rules R194, R195, R191). -/
def decodeVA (w : BitVec 32) : Option Instr :=
  if bits w 0 6 = 0x00#6 then some (.vaAdd (bits w 21 5) (bits w 16 5) (bits w 11 5) (bits w 7 4) (bit w 6))
  else if bits w 0 6 = 0x01#6 then some (.vaSub (bits w 21 5) (bits w 16 5) (bits w 11 5) (bits w 7 4) (bit w 6))
  else if bits w 0 6 = 0x02#6 then some (.vaMul (bits w 21 5) (bits w 16 5) (bits w 11 5) (bits w 7 4) (bit w 6))
  else if bits w 0 6 = 0x03#6 then some (.vaMulh (bits w 21 5) (bits w 16 5) (bits w 11 5) (bits w 7 4) (bit w 6))
  else if bits w 0 6 = 0x04#6 then some (.vaMulhu (bits w 21 5) (bits w 16 5) (bits w 11 5) (bits w 7 4) (bit w 6))
  else if bits w 0 6 = 0x05#6 then some (.vaAnd (bits w 21 5) (bits w 16 5) (bits w 11 5) (bits w 7 4) (bit w 6))
  else if bits w 0 6 = 0x06#6 then some (.vaOr (bits w 21 5) (bits w 16 5) (bits w 11 5) (bits w 7 4) (bit w 6))
  else if bits w 0 6 = 0x07#6 then some (.vaXor (bits w 21 5) (bits w 16 5) (bits w 11 5) (bits w 7 4) (bit w 6))
  else if bits w 0 6 = 0x08#6 then some (.vaSll (bits w 21 5) (bits w 16 5) (bits w 11 5) (bits w 7 4) (bit w 6))
  else if bits w 0 6 = 0x09#6 then some (.vaSrl (bits w 21 5) (bits w 16 5) (bits w 11 5) (bits w 7 4) (bit w 6))
  else if bits w 0 6 = 0x0A#6 then some (.vaSra (bits w 21 5) (bits w 16 5) (bits w 11 5) (bits w 7 4) (bit w 6))
  else if bits w 0 6 = 0x0B#6 then some (.vaMin (bits w 21 5) (bits w 16 5) (bits w 11 5) (bits w 7 4) (bit w 6))
  else if bits w 0 6 = 0x0C#6 then some (.vaMax (bits w 21 5) (bits w 16 5) (bits w 11 5) (bits w 7 4) (bit w 6))
  else if bits w 0 6 = 0x0D#6 then some (.vaMinu (bits w 21 5) (bits w 16 5) (bits w 11 5) (bits w 7 4) (bit w 6))
  else if bits w 0 6 = 0x0E#6 then some (.vaMaxu (bits w 21 5) (bits w 16 5) (bits w 11 5) (bits w 7 4) (bit w 6))
  else if bits w 0 6 = 0x0F#6 then some (.vaAdds (bits w 21 5) (bits w 16 5) (bits w 11 5) (bits w 7 4) (bit w 6))
  else if bits w 0 6 = 0x10#6 then some (.vaAddsu (bits w 21 5) (bits w 16 5) (bits w 11 5) (bits w 7 4) (bit w 6))
  else if bits w 0 6 = 0x11#6 then some (.vaSubs (bits w 21 5) (bits w 16 5) (bits w 11 5) (bits w 7 4) (bit w 6))
  else if bits w 0 6 = 0x12#6 then some (.vaSubsu (bits w 21 5) (bits w 16 5) (bits w 11 5) (bits w 7 4) (bit w 6))
  else if bits w 0 6 = 0x13#6 then some (.vaMacc (bits w 21 5) (bits w 16 5) (bits w 11 5) (bits w 7 4) (bit w 6))
  else if bits w 0 6 = 0x14#6 then some (.vaWmacc (bits w 21 5) (bits w 16 5) (bits w 11 5) (bits w 7 4) (bit w 6))
  else if bits w 0 6 = 0x15#6 then some (.vaWmaccu (bits w 21 5) (bits w 16 5) (bits w 11 5) (bits w 7 4) (bit w 6))
  else if bits w 25 1 = 0x0#1 ∧ bits w 0 6 = 0x20#6 then some (.vaCeq (bits w 21 4) (bits w 16 5) (bits w 11 5) (bits w 7 4) (bit w 6))
  else if bits w 25 1 = 0x0#1 ∧ bits w 0 6 = 0x21#6 then some (.vaCne (bits w 21 4) (bits w 16 5) (bits w 11 5) (bits w 7 4) (bit w 6))
  else if bits w 25 1 = 0x0#1 ∧ bits w 0 6 = 0x22#6 then some (.vaClt (bits w 21 4) (bits w 16 5) (bits w 11 5) (bits w 7 4) (bit w 6))
  else if bits w 25 1 = 0x0#1 ∧ bits w 0 6 = 0x23#6 then some (.vaCle (bits w 21 4) (bits w 16 5) (bits w 11 5) (bits w 7 4) (bit w 6))
  else if bits w 25 1 = 0x0#1 ∧ bits w 0 6 = 0x24#6 then some (.vaCltu (bits w 21 4) (bits w 16 5) (bits w 11 5) (bits w 7 4) (bit w 6))
  else if bits w 25 1 = 0x0#1 ∧ bits w 0 6 = 0x25#6 then some (.vaCleu (bits w 21 4) (bits w 16 5) (bits w 11 5) (bits w 7 4) (bit w 6))
  else none

/-- The words of major VF, 0x14 (rules R196, R195). -/
def decodeVF (w : BitVec 32) : Option Instr :=
  if bits w 0 6 = 0x00#6 then some (.vfAdd (bits w 21 5) (bits w 16 5) (bits w 11 5) (bits w 7 4) (bit w 6))
  else if bits w 0 6 = 0x01#6 then some (.vfSub (bits w 21 5) (bits w 16 5) (bits w 11 5) (bits w 7 4) (bit w 6))
  else if bits w 0 6 = 0x02#6 then some (.vfMul (bits w 21 5) (bits w 16 5) (bits w 11 5) (bits w 7 4) (bit w 6))
  else if bits w 0 6 = 0x03#6 then some (.vfDiv (bits w 21 5) (bits w 16 5) (bits w 11 5) (bits w 7 4) (bit w 6))
  else if bits w 11 5 = 0x00#5 ∧ bits w 0 7 = 0x04#7 then some (.vfSqrt (bits w 21 5) (bits w 16 5) (bits w 7 4))
  else if bits w 0 6 = 0x05#6 then some (.vfFma (bits w 21 5) (bits w 16 5) (bits w 11 5) (bits w 7 4) (bit w 6))
  else if bits w 0 6 = 0x06#6 then some (.vfFms (bits w 21 5) (bits w 16 5) (bits w 11 5) (bits w 7 4) (bit w 6))
  else if bits w 0 6 = 0x07#6 then some (.vfFnma (bits w 21 5) (bits w 16 5) (bits w 11 5) (bits w 7 4) (bit w 6))
  else if bits w 0 6 = 0x08#6 then some (.vfMin (bits w 21 5) (bits w 16 5) (bits w 11 5) (bits w 7 4) (bit w 6))
  else if bits w 0 6 = 0x09#6 then some (.vfMax (bits w 21 5) (bits w 16 5) (bits w 11 5) (bits w 7 4) (bit w 6))
  else if bits w 0 6 = 0x0A#6 then some (.vfSgnj (bits w 21 5) (bits w 16 5) (bits w 11 5) (bits w 7 4) (bit w 6))
  else if bits w 0 6 = 0x0B#6 then some (.vfSgnjn (bits w 21 5) (bits w 16 5) (bits w 11 5) (bits w 7 4) (bit w 6))
  else if bits w 0 6 = 0x0C#6 then some (.vfSgnjx (bits w 21 5) (bits w 16 5) (bits w 11 5) (bits w 7 4) (bit w 6))
  else if bits w 0 6 = 0x10#6 then some (.vfWmacc (bits w 21 5) (bits w 16 5) (bits w 11 5) (bits w 7 4) (bit w 6))
  else if bits w 25 1 = 0x0#1 ∧ bits w 0 6 = 0x20#6 then some (.vfCeq (bits w 21 4) (bits w 16 5) (bits w 11 5) (bits w 7 4) (bit w 6))
  else if bits w 25 1 = 0x0#1 ∧ bits w 0 6 = 0x21#6 then some (.vfClt (bits w 21 4) (bits w 16 5) (bits w 11 5) (bits w 7 4) (bit w 6))
  else if bits w 25 1 = 0x0#1 ∧ bits w 0 6 = 0x22#6 then some (.vfCle (bits w 21 4) (bits w 16 5) (bits w 11 5) (bits w 7 4) (bit w 6))
  else if bits w 25 1 = 0x0#1 ∧ bits w 0 6 = 0x23#6 then some (.vfCun (bits w 21 4) (bits w 16 5) (bits w 11 5) (bits w 7 4) (bit w 6))
  else none

/-- The words of major VX, 0x15 (rules R198, R200, R199). -/
def decodeVX (w : BitVec 32) : Option Instr :=
  if bits w 11 5 = 0x00#5 ∧ bits w 0 7 = 0x00#7 then some (.vxMov (bits w 21 5) (bits w 16 5) (bits w 7 4))
  else if bits w 11 5 = 0x00#5 ∧ bits w 0 7 = 0x01#7 then some (.vxBcst (bits w 21 5) (bits w 16 5) (bits w 7 4))
  else if bits w 0 11 = 0x002#11 then some (.vxXtr (bits w 21 5) (bits w 16 5) (bits w 11 5))
  else if bits w 0 11 = 0x003#11 then some (.vxIns (bits w 21 5) (bits w 16 5) (bits w 11 5))
  else if bits w 11 10 = 0x000#10 ∧ bits w 0 7 = 0x04#7 then some (.vxIdx (bits w 21 5) (bits w 7 4))
  else if bits w 0 7 = 0x05#7 then some (.vxPerm (bits w 21 5) (bits w 16 5) (bits w 11 5) (bits w 7 4))
  else if bits w 0 7 = 0x06#7 then some (.vxSlup (bits w 21 5) (bits w 16 5) (bits w 11 5) (bits w 7 4))
  else if bits w 0 7 = 0x07#7 then some (.vxSldn (bits w 21 5) (bits w 16 5) (bits w 11 5) (bits w 7 4))
  else if bits w 0 7 = 0x08#7 then some (.vxSl1up (bits w 21 5) (bits w 16 5) (bits w 11 5) (bits w 7 4))
  else if bits w 11 5 = 0x00#5 ∧ bits w 0 7 = 0x09#7 then some (.vxCompress (bits w 21 5) (bits w 16 5) (bits w 7 4))
  else if bits w 11 5 = 0x00#5 ∧ bits w 0 7 = 0x0A#7 then some (.vxExpand (bits w 21 5) (bits w 16 5) (bits w 7 4))
  else if bits w 0 11 = 0x00B#11 then some (.vxShlw (bits w 21 5) (bits w 16 5) (bits w 11 5))
  else if bits w 0 11 = 0x00C#11 then some (.vxShrw (bits w 21 5) (bits w 16 5) (bits w 11 5))
  else if bits w 0 11 = 0x00D#11 then some (.vxFshw (bits w 21 5) (bits w 16 5) (bits w 11 5))
  else none

/-- The words of major VR, 0x16 (rules R203, R223, R202, R204). -/
def decodeVR (w : BitVec 32) : Option Instr :=
  if bits w 11 5 = 0x00#5 ∧ bits w 0 6 = 0x00#6 then some (.vrSum (bits w 21 5) (bits w 16 5) (bits w 7 4) (bit w 6))
  else if bits w 11 5 = 0x00#5 ∧ bits w 0 6 = 0x01#6 then some (.vrMax (bits w 21 5) (bits w 16 5) (bits w 7 4) (bit w 6))
  else if bits w 11 5 = 0x00#5 ∧ bits w 0 6 = 0x02#6 then some (.vrMin (bits w 21 5) (bits w 16 5) (bits w 7 4) (bit w 6))
  else if bits w 11 5 = 0x00#5 ∧ bits w 0 6 = 0x03#6 then some (.vrMaxu (bits w 21 5) (bits w 16 5) (bits w 7 4) (bit w 6))
  else if bits w 11 5 = 0x00#5 ∧ bits w 0 6 = 0x04#6 then some (.vrMinu (bits w 21 5) (bits w 16 5) (bits w 7 4) (bit w 6))
  else if bits w 11 5 = 0x00#5 ∧ bits w 0 6 = 0x05#6 then some (.vrAnd (bits w 21 5) (bits w 16 5) (bits w 7 4) (bit w 6))
  else if bits w 11 5 = 0x00#5 ∧ bits w 0 6 = 0x06#6 then some (.vrOr (bits w 21 5) (bits w 16 5) (bits w 7 4) (bit w 6))
  else if bits w 11 5 = 0x00#5 ∧ bits w 0 6 = 0x07#6 then some (.vrXor (bits w 21 5) (bits w 16 5) (bits w 7 4) (bit w 6))
  else if bits w 0 6 = 0x08#6 then some (.vrDot (bits w 21 5) (bits w 16 5) (bits w 11 5) (bits w 7 4) (bit w 6))
  else if bits w 0 6 = 0x09#6 then some (.vrDotu (bits w 21 5) (bits w 16 5) (bits w 11 5) (bits w 7 4) (bit w 6))
  else if bits w 11 5 = 0x00#5 ∧ bits w 0 6 = 0x0A#6 then some (.vrMaxabs (bits w 21 5) (bits w 16 5) (bits w 7 4) (bit w 6))
  else if bits w 11 5 = 0x00#5 ∧ bits w 0 7 = 0x0B#7 then some (.vrLasta (bits w 21 5) (bits w 16 5) (bits w 7 4))
  else if bits w 11 5 = 0x00#5 ∧ bits w 0 6 = 0x0C#6 then some (.vrScan (bits w 21 5) (bits w 16 5) (bits w 7 4) (bit w 6))
  else if bits w 11 5 = 0x00#5 ∧ bits w 0 6 = 0x0D#6 then some (.vrScanmax (bits w 21 5) (bits w 16 5) (bits w 7 4) (bit w 6))
  else if bits w 3 3 = 0x2#3 then some (.vrDotb (bits w 21 5) (bits w 16 5) (bits w 11 5) (bits w 7 4) (bit w 6) (bits w 0 3))
  else none

/-- The words of major VP, 0x17 (rules R216, R217, R218, R219, R220, R221). -/
def decodeVP (w : BitVec 32) : Option Instr :=
  if bits w 25 1 = 0x0#1 ∧ bits w 20 1 = 0x0#1 ∧ bits w 15 1 = 0x0#1 ∧ bits w 0 7 = 0x00#7 then some (.vpAnd (bits w 21 4) (bits w 16 4) (bits w 11 4) (bits w 7 4))
  else if bits w 25 1 = 0x0#1 ∧ bits w 20 1 = 0x0#1 ∧ bits w 15 1 = 0x0#1 ∧ bits w 0 7 = 0x01#7 then some (.vpOr (bits w 21 4) (bits w 16 4) (bits w 11 4) (bits w 7 4))
  else if bits w 25 1 = 0x0#1 ∧ bits w 20 1 = 0x0#1 ∧ bits w 15 1 = 0x0#1 ∧ bits w 0 7 = 0x02#7 then some (.vpXor (bits w 21 4) (bits w 16 4) (bits w 11 4) (bits w 7 4))
  else if bits w 25 1 = 0x0#1 ∧ bits w 20 1 = 0x0#1 ∧ bits w 15 1 = 0x0#1 ∧ bits w 0 7 = 0x03#7 then some (.vpAndn (bits w 21 4) (bits w 16 4) (bits w 11 4) (bits w 7 4))
  else if bits w 25 1 = 0x0#1 ∧ bits w 11 10 = 0x000#10 ∧ bits w 0 7 = 0x04#7 then some (.vpSet (bits w 21 4) (bits w 7 4))
  else if bits w 25 1 = 0x0#1 ∧ bits w 11 10 = 0x000#10 ∧ bits w 0 7 = 0x05#7 then some (.vpClr (bits w 21 4) (bits w 7 4))
  else if bits w 20 1 = 0x0#1 ∧ bits w 11 5 = 0x00#5 ∧ bits w 0 7 = 0x08#7 then some (.vpCnt (bits w 21 5) (bits w 16 4) (bits w 7 4))
  else if bits w 20 1 = 0x0#1 ∧ bits w 11 5 = 0x00#5 ∧ bits w 0 7 = 0x09#7 then some (.vpFfs (bits w 21 5) (bits w 16 4) (bits w 7 4))
  else if bits w 20 1 = 0x0#1 ∧ bits w 0 11 = 0x00A#11 then some (.vpMrd (bits w 21 5) (bits w 16 4) (bits w 11 5))
  else if bits w 25 1 = 0x0#1 ∧ bits w 0 11 = 0x00B#11 then some (.vpMwr (bits w 21 4) (bits w 16 5) (bits w 11 5))
  else if bits w 25 1 = 0x0#1 ∧ bits w 0 16 = 0x000C#16 then some (.vpZmap (bits w 21 4) (bits w 16 5))
  else if bits w 25 1 = 0x0#1 ∧ bits w 20 1 = 0x0#1 ∧ bits w 11 5 = 0x00#5 ∧ bits w 0 6 = 0x10#6 then some (.vpUpto (bits w 21 4) (bits w 16 4) (bits w 7 4) (bit w 6))
  else if bits w 15 1 = 0x0#1 ∧ bits w 0 7 = 0x18#7 then some (.vpConf (bits w 21 5) (bits w 16 5) (bits w 11 4) (bits w 7 4))
  else if bits w 25 1 = 0x0#1 ∧ bits w 0 6 = 0x19#6 then some (.vpPart (bits w 21 4) (bits w 16 5) (bits w 11 5) (bits w 7 4) (bit w 6))
  else none

/-- The words of major VV, 0x18 (rules R207, R209, R206). -/
def decodeVV (w : BitVec 32) : Option Instr :=
  if bits w 0 4 = 0x0#4 then some (.vvCvt (bits w 21 5) (bits w 16 5) (bits w 11 5) (bits w 7 4) (bits w 4 3))
  else if bits w 0 4 = 0x1#4 then some (.vvF32f4 (bits w 21 5) (bits w 16 5) (bits w 11 5) (bits w 7 4) (bits w 4 3))
  else if bits w 0 4 = 0x2#4 then some (.vvTobfp (bits w 21 5) (bits w 16 5) (bits w 11 5) (bits w 7 4) (bits w 4 3))
  else if bits w 0 7 = 0x03#7 then some (.vvFrombfp (bits w 21 5) (bits w 16 5) (bits w 11 5) (bits w 7 4))
  else if bits w 0 4 = 0x4#4 then some (.vvFtoi (bits w 21 5) (bits w 16 5) (bits w 11 5) (bits w 7 4) (bits w 4 3))
  else if bits w 0 4 = 0x5#4 then some (.vvFtou (bits w 21 5) (bits w 16 5) (bits w 11 5) (bits w 7 4) (bits w 4 3))
  else if bits w 0 4 = 0x6#4 then some (.vvItof (bits w 21 5) (bits w 16 5) (bits w 11 5) (bits w 7 4) (bits w 4 3))
  else if bits w 0 4 = 0x7#4 then some (.vvUtof (bits w 21 5) (bits w 16 5) (bits w 11 5) (bits w 7 4) (bits w 4 3))
  else if bits w 0 7 = 0x08#7 then some (.vvSext (bits w 21 5) (bits w 16 5) (bits w 11 5) (bits w 7 4))
  else if bits w 0 7 = 0x09#7 then some (.vvZext (bits w 21 5) (bits w 16 5) (bits w 11 5) (bits w 7 4))
  else if bits w 0 7 = 0x0A#7 then some (.vvNrw (bits w 21 5) (bits w 16 5) (bits w 11 5) (bits w 7 4))
  else if bits w 0 7 = 0x0B#7 then some (.vvNrws (bits w 21 5) (bits w 16 5) (bits w 11 5) (bits w 7 4))
  else if bits w 0 7 = 0x0C#7 then some (.vvNrwu (bits w 21 5) (bits w 16 5) (bits w 11 5) (bits w 7 4))
  else none

/-- The words of major MX, 0x19 (rule R230). -/
def decodeMX (w : BitVec 32) : Option Instr :=
  if bits w 0 4 = 0x0#4 then some (.mxOpa (bits w 22 4) (bits w 17 5) (bits w 12 5) (bits w 8 4) (bits w 4 4))
  else if bits w 0 4 = 0x1#4 then some (.mxSlide (bits w 22 4) (bits w 17 5) (bits w 12 5) (bits w 8 4) (bits w 4 4))
  else none

/-- The words of major MT, 0x1A (rules R234, R235, R239). -/
def decodeMT (w : BitVec 32) : Option Instr :=
  if bits w 12 10 = 0x000#10 ∧ bits w 5 3 = 0x0#3 ∧ bits w 0 4 = 0x0#4 then some (.mtZero (bits w 22 4) (bits w 8 4) (bit w 4))
  else if bits w 5 3 = 0x0#3 ∧ bits w 0 4 = 0x1#4 then some (.mtLd (bits w 22 4) (bits w 17 5) (bits w 12 5) (bits w 8 4) (bit w 4))
  else if bits w 5 3 = 0x0#3 ∧ bits w 0 3 = 0x2#3 then some (.mtSt (bits w 22 4) (bits w 17 5) (bits w 12 5) (bits w 8 4) (bit w 4) (bit w 3))
  else if bits w 5 7 = 0x00#7 ∧ bits w 0 4 = 0x3#4 then some (.mtRdrow (bits w 22 4) (bits w 17 5) (bits w 12 5) (bit w 4))
  else if bits w 5 7 = 0x00#7 ∧ bits w 0 4 = 0x4#4 then some (.mtWrrow (bits w 22 4) (bits w 17 5) (bits w 12 5) (bit w 4))
  else none

/-- The words of major VD, 0x1B (rules R253, R258, R256, R257, R246). -/
def decodeVD (w : BitVec 32) : Option Instr :=
  if bits w 11 10 = 0x000#10 ∧ bits w 0 7 = 0x60#7 then some (.vdTail (bits w 21 5) (bits w 7 4))
  else if bits w 25 1 = 0x0#1 ∧ bits w 15 1 = 0x0#1 ∧ bits w 0 7 = 0x61#7 then some (.vdTest (bits w 21 4) (bits w 16 5) (bits w 11 4) (bits w 7 4))
  else if bits w 21 5 = 0x00#5 ∧ bits w 0 16 = 0x0062#16 then some (.vdTkset (bits w 16 5))
  else if bits w 21 5 = 0x00#5 ∧ bits w 0 7 = 0x63#7 then some (.vdTkupd (bits w 16 5) (bits w 11 5) (bits w 7 4))
  else if bits w 5 2 ≠ 0x3#2 then some (.vdDotv (bits w 21 5) (bits w 16 5) (bits w 11 5) (bits w 7 4) (bits w 5 2) (bits w 0 5))
  else none

/-- The words of major CE, 0x1C (rules R97, R98, R99, R292, R403). -/
noncomputable def decodeCE (w : BitVec 32) : Option Instr :=
  if bits w 0 8 = 0x00#8 then some (.ceFork (bits w 21 5) (bits w 16 5) (bits w 11 5) (bits w 8 3))
  else if bits w 0 16 = 0x0001#16 then some (.ceRend (bits w 21 5) (bits w 16 5))
  else if bits w 0 16 = 0x0002#16 then some (.ceTest (bits w 21 5) (bits w 16 5))
  else if bits w 11 10 = 0x000#10 ∧ bits w 0 4 = 0x3#4 then some (.ceOpen (bits w 21 5) (bits w 8 3) (bits w 4 4))
  else if bits w 11 10 = 0x000#10 ∧ bits w 0 4 = 0x4#4 then some (.ceClose (bits w 21 5) (bits w 8 3) (bits w 4 4))
  else if bits w 0 11 = 0x005#11 then some (.ceErd (bits w 21 5) (bits w 16 5) (bits w 11 5))
  else if bits w 21 5 = 0x00#5 ∧ bits w 0 8 = 0x06#8 then some (.ceFencex (bits w 16 5) (bits w 11 5) (bits w 8 3))
  else if bits w 11 5 = 0x00#5 ∧ bits w 0 8 = 0x07#8 then some (.ceColl (bits w 21 5) (bits w 16 5) (bits w 8 3))
  else none

/-- The words of major AW, 0x1D (rules R274, R275, R276, R277). -/
noncomputable def decodeAW (w : BitVec 32) : Option Instr :=
  if bits w 21 5 = 0x00#5 ∧ bits w 7 4 = 0x0#4 ∧ bits w 0 2 = 0x0#2 then some (.awWin (bits w 16 5) (bits w 11 5) (bits w 5 2) (bits w 2 3))
  else if bits w 16 5 = 0x00#5 ∧ bits w 0 5 = 0x01#5 then some (.awUpd (bits w 21 5) (bits w 11 5) (bits w 7 4) (bits w 5 2))
  else if bits w 7 19 = 0x00000#19 ∧ bits w 0 5 = 0x02#5 then some (.awMerge (bits w 5 2))
  else if bits w 7 19 = 0x00000#19 ∧ bits w 0 5 = 0x03#5 then some (.awClr (bits w 5 2))
  else none

/-- The words of major RP, 0x1E (rule R318). -/
noncomputable def decodeRP (w : BitVec 32) : Option Instr :=
  if bits w 0 15 = 0x0000#15 then some (.rpRep (bits w 21 5) (bits w 18 3) (bits w 15 3))
  else none

/-- The words of major TL, 0x1F (rules R160, R268). -/
noncomputable def decodeTL (w : BitVec 32) : Option Instr :=
  if bits w 0 5 = 0x00#5 then some (.tlLd (bits w 21 5) (bits w 16 5) (bits w 11 5) (bits w 7 4) (bit w 6) (bit w 5))
  else if bits w 0 5 = 0x01#5 then some (.tlSt (bits w 21 5) (bits w 16 5) (bits w 11 5) (bits w 7 4) (bit w 6) (bit w 5))
  else none

/-- The words of major EM, 0x30 (rule R105). -/
noncomputable def decodeEM (w : BitVec 32) : Option Instr :=
  if bits w 6 8 = 0x00#8 ∧ bits w 0 4 = 0x0#4 then some (.emCopy (bits w 22 4) (bits w 18 4) (bits w 14 4) (bit w 5) (bit w 4))
  else if bits w 6 4 = 0x1#4 ∧ bits w 0 4 = 0x0#4 then some (.emCopy2 (bits w 22 4) (bits w 18 4) (bits w 14 4) (bits w 10 4) (bit w 5) (bit w 4))
  else if bits w 6 8 = 0x02#8 ∧ bits w 0 5 = 0x00#5 then some (.emFill (bits w 22 4) (bits w 18 4) (bits w 14 4) (bit w 5))
  else if bits w 5 13 = 0x0006#13 ∧ bits w 0 4 = 0x0#4 then some (.emLd (bits w 22 4) (bits w 18 4) (bit w 4))
  else if bits w 22 4 = 0x0#4 ∧ bits w 6 8 = 0x04#8 ∧ bits w 0 5 = 0x00#5 then some (.emSt (bits w 18 4) (bits w 14 4) (bit w 5))
  else none

/-- The words of major EA, 0x31 (rule R106). -/
noncomputable def decodeEA (w : BitVec 32) : Option Instr :=
  if bits w 0 14 = 0x0000#14 then some (.eaAdd (bits w 22 4) (bits w 18 4) (bits w 14 4))
  else if bits w 0 14 = 0x0040#14 then some (.eaSub (bits w 22 4) (bits w 18 4) (bits w 14 4))
  else if bits w 0 14 = 0x0080#14 then some (.eaAnd (bits w 22 4) (bits w 18 4) (bits w 14 4))
  else if bits w 0 14 = 0x00C0#14 then some (.eaOr (bits w 22 4) (bits w 18 4) (bits w 14 4))
  else if bits w 0 14 = 0x0100#14 then some (.eaXor (bits w 22 4) (bits w 18 4) (bits w 14 4))
  else if bits w 0 14 = 0x0140#14 then some (.eaSll (bits w 22 4) (bits w 18 4) (bits w 14 4))
  else if bits w 0 14 = 0x0180#14 then some (.eaSrl (bits w 22 4) (bits w 18 4) (bits w 14 4))
  else if bits w 0 14 = 0x01C0#14 then some (.eaSra (bits w 22 4) (bits w 18 4) (bits w 14 4))
  else if bits w 0 14 = 0x0200#14 then some (.eaMul (bits w 22 4) (bits w 18 4) (bits w 14 4))
  else if bits w 0 14 = 0x0240#14 then some (.eaMinu (bits w 22 4) (bits w 18 4) (bits w 14 4))
  else if bits w 0 14 = 0x0280#14 then some (.eaMaxu (bits w 22 4) (bits w 18 4) (bits w 14 4))
  else if bits w 0 14 = 0x02C0#14 then some (.eaSltu (bits w 22 4) (bits w 18 4) (bits w 14 4))
  else none

/-- The words of major ES, 0x33 (rule R106). -/
noncomputable def decodeES (w : BitVec 32) : Option Instr :=
  if bits w 14 4 = 0x0#4 then some (.esAddi (bits w 22 4) (bits w 18 4) (bits w 0 14))
  else if bits w 14 4 = 0x1#4 then some (.esOri (bits w 22 4) (bits w 18 4) (bits w 0 14))
  else if bits w 6 12 = 0x200#12 then some (.esSlli (bits w 22 4) (bits w 18 4) (bits w 0 6))
  else if bits w 0 26 = 0x000C000#26 then some (.esDrain)
  else if bits w 0 26 = 0x0010000#26 then some (.esEnd)
  else if bits w 14 12 = 0x005#12 then some (.esErr (bits w 0 14))
  else none

/-- The words of major EB, 0x32 (rule R106). -/
noncomputable def decodeEB (w : BitVec 32) : Option Instr :=
  if bits w 15 3 = 0x0#3 then some (.ebEq (bits w 22 4) (bits w 18 4) (bits w 0 15))
  else if bits w 15 3 = 0x1#3 then some (.ebNe (bits w 22 4) (bits w 18 4) (bits w 0 15))
  else if bits w 15 3 = 0x2#3 then some (.ebLt (bits w 22 4) (bits w 18 4) (bits w 0 15))
  else if bits w 15 3 = 0x3#3 then some (.ebGe (bits w 22 4) (bits w 18 4) (bits w 0 15))
  else if bits w 15 3 = 0x4#3 then some (.ebLtu (bits w 22 4) (bits w 18 4) (bits w 0 15))
  else if bits w 15 3 = 0x5#3 then some (.ebGeu (bits w 22 4) (bits w 18 4) (bits w 0 15))
  else if bits w 15 11 = 0x006#11 then some (.ebAl (bits w 0 15))
  else none

/-- The words of major GW, 0x34 (rules R124, R125). -/
noncomputable def decodeGW (w : BitVec 32) : Option Instr :=
  if bits w 6 12 = 0x000#12 ∧ bits w 0 4 = 0x0#4 then some (.gwLb (bits w 22 4) (bits w 18 4) (bit w 5) (bit w 4))
  else if bits w 6 12 = 0x001#12 ∧ bits w 0 4 = 0x0#4 then some (.gwLh (bits w 22 4) (bits w 18 4) (bit w 5) (bit w 4))
  else if bits w 6 12 = 0x002#12 ∧ bits w 0 4 = 0x0#4 then some (.gwLw (bits w 22 4) (bits w 18 4) (bit w 5) (bit w 4))
  else if bits w 6 12 = 0x003#12 ∧ bits w 0 4 = 0x0#4 then some (.gwLd (bits w 22 4) (bits w 18 4) (bit w 5) (bit w 4))
  else if bits w 22 4 = 0x0#4 ∧ bits w 6 8 = 0x04#8 ∧ bits w 0 4 = 0x0#4 then some (.gwSb (bits w 18 4) (bits w 14 4) (bit w 5) (bit w 4))
  else if bits w 22 4 = 0x0#4 ∧ bits w 6 8 = 0x05#8 ∧ bits w 0 4 = 0x0#4 then some (.gwSh (bits w 18 4) (bits w 14 4) (bit w 5) (bit w 4))
  else if bits w 22 4 = 0x0#4 ∧ bits w 6 8 = 0x06#8 ∧ bits w 0 4 = 0x0#4 then some (.gwSw (bits w 18 4) (bits w 14 4) (bit w 5) (bit w 4))
  else if bits w 22 4 = 0x0#4 ∧ bits w 6 8 = 0x07#8 ∧ bits w 0 4 = 0x0#4 then some (.gwSd (bits w 18 4) (bits w 14 4) (bit w 5) (bit w 4))
  else if bits w 22 4 = 0x0#4 ∧ bits w 6 8 = 0x08#8 ∧ bits w 0 4 = 0x0#4 then some (.gwSq (bits w 18 4) (bits w 14 4) (bit w 5) (bit w 4))
  else if bits w 6 4 = 0x9#4 ∧ bits w 0 4 = 0x0#4 then some (.gwSprb (bits w 22 4) (bits w 18 4) (bits w 14 4) (bits w 10 4) (bit w 5) (bit w 4))
  else if bits w 6 4 = 0xA#4 ∧ bits w 0 4 = 0x0#4 then some (.gwSprh (bits w 22 4) (bits w 18 4) (bits w 14 4) (bits w 10 4) (bit w 5) (bit w 4))
  else if bits w 6 4 = 0xB#4 ∧ bits w 0 4 = 0x0#4 then some (.gwSprw (bits w 22 4) (bits w 18 4) (bits w 14 4) (bits w 10 4) (bit w 5) (bit w 4))
  else if bits w 6 4 = 0xC#4 ∧ bits w 0 4 = 0x0#4 then some (.gwSprd (bits w 22 4) (bits w 18 4) (bits w 14 4) (bits w 10 4) (bit w 5) (bit w 4))
  else none

/-- The words of major GA, 0x35 (rule R126). -/
noncomputable def decodeGA (w : BitVec 32) : Option Instr :=
  if bits w 0 14 = 0x0000#14 then some (.gaAdd (bits w 22 4) (bits w 18 4) (bits w 14 4))
  else if bits w 0 14 = 0x0040#14 then some (.gaSub (bits w 22 4) (bits w 18 4) (bits w 14 4))
  else if bits w 0 14 = 0x0080#14 then some (.gaAnd (bits w 22 4) (bits w 18 4) (bits w 14 4))
  else if bits w 0 14 = 0x00C0#14 then some (.gaOr (bits w 22 4) (bits w 18 4) (bits w 14 4))
  else if bits w 0 14 = 0x0100#14 then some (.gaXor (bits w 22 4) (bits w 18 4) (bits w 14 4))
  else if bits w 0 14 = 0x0140#14 then some (.gaSll (bits w 22 4) (bits w 18 4) (bits w 14 4))
  else if bits w 0 14 = 0x0180#14 then some (.gaSrl (bits w 22 4) (bits w 18 4) (bits w 14 4))
  else if bits w 0 14 = 0x01C0#14 then some (.gaMul (bits w 22 4) (bits w 18 4) (bits w 14 4))
  else if bits w 0 14 = 0x0200#14 then some (.gaMinu (bits w 22 4) (bits w 18 4) (bits w 14 4))
  else if bits w 0 14 = 0x0240#14 then some (.gaMaxu (bits w 22 4) (bits w 18 4) (bits w 14 4))
  else if bits w 0 14 = 0x0280#14 then some (.gaSltu (bits w 22 4) (bits w 18 4) (bits w 14 4))
  else if bits w 0 18 = 0x002C0#18 then some (.gaCtz (bits w 22 4) (bits w 18 4))
  else if bits w 0 18 = 0x00300#18 then some (.gaPopc (bits w 22 4) (bits w 18 4))
  else if bits w 0 18 = 0x00340#18 then some (.gaBclr (bits w 22 4) (bits w 18 4))
  else none

/-- The words of major GE, 0x37 (rule R127). -/
noncomputable def decodeGE (w : BitVec 32) : Option Instr :=
  if bits w 14 4 = 0x0#4 then some (.geAddi (bits w 22 4) (bits w 18 4) (bits w 0 14))
  else if bits w 14 4 = 0x1#4 then some (.geOri (bits w 22 4) (bits w 18 4) (bits w 0 14))
  else if bits w 6 12 = 0x200#12 then some (.geSlli (bits w 22 4) (bits w 18 4) (bits w 0 6))
  else if bits w 0 26 = 0x000C000#26 then some (.geDrain)
  else if bits w 0 26 = 0x0010000#26 then some (.geEnd)
  else if bits w 14 12 = 0x005#12 then some (.geErr (bits w 0 14))
  else if bits w 6 12 = 0x600#12 then some (.geSrli (bits w 22 4) (bits w 18 4) (bits w 0 6))
  else none

/-- The words of major GB, 0x36 (rule R128). -/
noncomputable def decodeGB (w : BitVec 32) : Option Instr :=
  if bits w 15 3 = 0x0#3 then some (.gbEq (bits w 22 4) (bits w 18 4) (bits w 0 15))
  else if bits w 15 3 = 0x1#3 then some (.gbNe (bits w 22 4) (bits w 18 4) (bits w 0 15))
  else if bits w 15 3 = 0x2#3 then some (.gbLt (bits w 22 4) (bits w 18 4) (bits w 0 15))
  else if bits w 15 3 = 0x3#3 then some (.gbGe (bits w 22 4) (bits w 18 4) (bits w 0 15))
  else if bits w 15 3 = 0x4#3 then some (.gbLtu (bits w 22 4) (bits w 18 4) (bits w 0 15))
  else if bits w 15 3 = 0x5#3 then some (.gbGeu (bits w 22 4) (bits w 18 4) (bits w 0 15))
  else if bits w 15 11 = 0x006#11 then some (.gbAl (bits w 0 15))
  else none

/-- The instruction a word encodes, before the limits of its operands are checked: the major selects the table (02 R25). -/
noncomputable def rawDecode (w : BitVec 32) : Option Instr :=
  match bits w 26 6 with
  | 0x01#6 => decodeSA w
  | 0x02#6 => decodeSI w
  | 0x03#6 => decodeSU w
  | 0x04#6 => decodeSL w
  | 0x05#6 => decodeSS w
  | 0x06#6 => decodeBR w
  | 0x07#6 => decodeJL w
  | 0x08#6 => decodeJR w
  | 0x09#6 => decodeLP w
  | 0x0A#6 => decodeSM w
  | 0x0B#6 => decodeSF w
  | 0x0C#6 => decodeAM w
  | 0x0D#6 => decodeSY w
  | 0x0E#6 => decodeSQ w
  | 0x0F#6 => decodeVC w
  | 0x10#6 => decodeVL w
  | 0x11#6 => decodeVS w
  | 0x12#6 => decodeVG w
  | 0x13#6 => decodeVA w
  | 0x14#6 => decodeVF w
  | 0x15#6 => decodeVX w
  | 0x16#6 => decodeVR w
  | 0x17#6 => decodeVP w
  | 0x18#6 => decodeVV w
  | 0x19#6 => decodeMX w
  | 0x1A#6 => decodeMT w
  | 0x1B#6 => decodeVD w
  | 0x1C#6 => decodeCE w
  | 0x1D#6 => decodeAW w
  | 0x1E#6 => decodeRP w
  | 0x1F#6 => decodeTL w
  | 0x30#6 => decodeEM w
  | 0x31#6 => decodeEA w
  | 0x33#6 => decodeES w
  | 0x32#6 => decodeEB w
  | 0x34#6 => decodeGW w
  | 0x35#6 => decodeGA w
  | 0x37#6 => decodeGE w
  | 0x36#6 => decodeGB w
  | _ => none

/-- Majors 0x20-0x2F and 0x38-0x3E (02 R25, R28). -/
def reservedMajor (w : BitVec 32) : Bool :=
  let m := (bits w 26 6).toNat
  (0x20 ≤ m && m ≤ 0x2F) || (0x38 ≤ m && m ≤ 0x3E)

/-- Majors 0x30-0x37, of engine programs only (02 R25, R30). -/
def engineMajor (w : BitVec 32) : Bool :=
  let m := (bits w 26 6).toNat
  0x30 ≤ m && m ≤ 0x37

/-- The instruction of a word, or why there is none (02 R26 steps 2, 3 and 5). -/
noncomputable def decode (w : BitVec 32) : Except Reject Instr :=
  if bits w 26 6 = 0x00#6 ∨ bits w 26 6 = 0x3F#6 then .error .illegalMajor
  else if reservedMajor w then .error .reservedMajor
  else match rawDecode w with
    | none => .error .undefinedWord
    | some i => if i.wellFormed then .ok i else .error .badOperand

/-- A word from its four bytes, lowest address first (02 R21, 00 R4). -/
def wordOfBytes (b0 b1 b2 b3 : Byte) : BitVec 32 := b3 ++ b2 ++ b1 ++ b0

/-- The bytes of a word, lowest address first. -/
def bytesOfWord (w : BitVec 32) : List Byte :=
  [w.extractLsb' 0 8, w.extractLsb' 8 8, w.extractLsb' 16 8, w.extractLsb' 24 8]

/-- Decoding of bytes: the instruction and the bytes after it. Total on every list of bytes. -/
noncomputable def decodeBytes : List Byte → Except Reject (Instr × List Byte)
  | b0 :: b1 :: b2 :: b3 :: rest =>
    match decode (wordOfBytes b0 b1 b2 b3) with
    | .ok i => .ok (i, rest)
    | .error r => .error r
  | _ => .error .short

/-- The instruction the decoder reads from a table word. Every instruction is one 32-bit word (02 R21). -/
noncomputable def decodeTableWord (_nbits w : Nat) : Option Instr :=
  match decodeBytes (bytesOfWord (BitVec.ofNat 32 w)) with
  | .ok (i, _) => some i
  | .error _ => none

/-- The word of CE.FORK. -/
def wordCeFork (d a b : BitVec 5) (e : BitVec 3) : BitVec 32 := 0x1C#6 ++ d ++ a ++ b ++ e ++ 0x00#8
/-- The word of CE.REND. -/
def wordCeRend (d a : BitVec 5) : BitVec 32 := 0x1C#6 ++ d ++ a ++ 0x0001#16
/-- The word of CE.TEST. -/
def wordCeTest (d a : BitVec 5) : BitVec 32 := 0x1C#6 ++ d ++ a ++ 0x0002#16
/-- The word of CE.OPEN. -/
def wordCeOpen (n : BitVec 5) (e : BitVec 3) (k : BitVec 4) : BitVec 32 := 0x1C#6 ++ n ++ 0x000#10 ++ e ++ k ++ 0x3#4
/-- The word of CE.CLOSE. -/
def wordCeClose (n : BitVec 5) (e : BitVec 3) (k : BitVec 4) : BitVec 32 := 0x1C#6 ++ n ++ 0x000#10 ++ e ++ k ++ 0x4#4
/-- The word of CE.ERD. -/
def wordCeErd (d a s : BitVec 5) : BitVec 32 := 0x1C#6 ++ d ++ a ++ s ++ 0x005#11
/-- The word of CE.FENCEX. -/
def wordCeFencex (a b : BitVec 5) (c : BitVec 3) : BitVec 32 := 0x1C#6 ++ 0x00#5 ++ a ++ b ++ c ++ 0x06#8
/-- The word of CE.COLL. -/
def wordCeColl (d a : BitVec 5) (o : BitVec 3) : BitVec 32 := 0x1C#6 ++ d ++ a ++ 0x00#5 ++ o ++ 0x07#8
/-- The word of AW.WIN. -/
def wordAwWin (a b : BitVec 5) (w : BitVec 2) (p : BitVec 3) : BitVec 32 := 0x1D#6 ++ 0x00#5 ++ a ++ b ++ 0x0#4 ++ w ++ p ++ 0x0#2
/-- The word of AW.UPD. -/
def wordAwUpd (s b : BitVec 5) (m : BitVec 4) (w : BitVec 2) : BitVec 32 := 0x1D#6 ++ s ++ 0x00#5 ++ b ++ m ++ w ++ 0x01#5
/-- The word of AW.MERGE. -/
def wordAwMerge (w : BitVec 2) : BitVec 32 := 0x1D#6 ++ 0x00000#19 ++ w ++ 0x02#5
/-- The word of AW.CLR. -/
def wordAwClr (w : BitVec 2) : BitVec 32 := 0x1D#6 ++ 0x00000#19 ++ w ++ 0x03#5
/-- The word of RP.REP. -/
def wordRpRep (c : BitVec 5) (s stag : BitVec 3) : BitVec 32 := 0x1E#6 ++ c ++ s ++ stag ++ 0x0000#15
/-- The word of TL.LD. -/
def wordTlLd (d a s : BitVec 5) (m : BitVec 4) (o p : Bool) : BitVec 32 := 0x1F#6 ++ d ++ a ++ s ++ m ++ BitVec.ofBool o ++ BitVec.ofBool p ++ 0x00#5
/-- The word of TL.ST. -/
def wordTlSt (v a s : BitVec 5) (m : BitVec 4) (o p : Bool) : BitVec 32 := 0x1F#6 ++ v ++ a ++ s ++ m ++ BitVec.ofBool o ++ BitVec.ofBool p ++ 0x01#5

/-- The word of an instruction, from the encoding diagram of its major (02 R22, R23); an event has none. -/
def encode : Instr → Option (BitVec 32)
  | .saAdd d a b => some (0x01#6 ++ d ++ a ++ b ++ 0x000#11)
  | .saSub d a b => some (0x01#6 ++ d ++ a ++ b ++ 0x001#11)
  | .saAnd d a b => some (0x01#6 ++ d ++ a ++ b ++ 0x002#11)
  | .saOr d a b => some (0x01#6 ++ d ++ a ++ b ++ 0x003#11)
  | .saXor d a b => some (0x01#6 ++ d ++ a ++ b ++ 0x004#11)
  | .saAndn d a b => some (0x01#6 ++ d ++ a ++ b ++ 0x005#11)
  | .saSll d a b => some (0x01#6 ++ d ++ a ++ b ++ 0x006#11)
  | .saSrl d a b => some (0x01#6 ++ d ++ a ++ b ++ 0x007#11)
  | .saSra d a b => some (0x01#6 ++ d ++ a ++ b ++ 0x008#11)
  | .saRotr d a b => some (0x01#6 ++ d ++ a ++ b ++ 0x009#11)
  | .saSlt d a b => some (0x01#6 ++ d ++ a ++ b ++ 0x00A#11)
  | .saSltu d a b => some (0x01#6 ++ d ++ a ++ b ++ 0x00B#11)
  | .saMin d a b => some (0x01#6 ++ d ++ a ++ b ++ 0x00C#11)
  | .saMax d a b => some (0x01#6 ++ d ++ a ++ b ++ 0x00D#11)
  | .saMinu d a b => some (0x01#6 ++ d ++ a ++ b ++ 0x00E#11)
  | .saMaxu d a b => some (0x01#6 ++ d ++ a ++ b ++ 0x00F#11)
  | .saAddw d a b => some (0x01#6 ++ d ++ a ++ b ++ 0x010#11)
  | .saSubw d a b => some (0x01#6 ++ d ++ a ++ b ++ 0x011#11)
  | .saClz d a => some (0x01#6 ++ d ++ a ++ 0x0012#16)
  | .saCtz d a => some (0x01#6 ++ d ++ a ++ 0x0013#16)
  | .saPopc d a => some (0x01#6 ++ d ++ a ++ 0x0014#16)
  | .saAdds d a b => some (0x01#6 ++ d ++ a ++ b ++ 0x015#11)
  | .saSubs d a b => some (0x01#6 ++ d ++ a ++ b ++ 0x016#11)
  | .siAddi d a i => some (0x02#6 ++ d ++ a ++ 0x0#4 ++ i)
  | .siAndi d a i => some (0x02#6 ++ d ++ a ++ 0x1#4 ++ i)
  | .siOri d a i => some (0x02#6 ++ d ++ a ++ 0x2#4 ++ i)
  | .siXori d a i => some (0x02#6 ++ d ++ a ++ 0x3#4 ++ i)
  | .siSlti d a i => some (0x02#6 ++ d ++ a ++ 0x4#4 ++ i)
  | .siSltiu d a i => some (0x02#6 ++ d ++ a ++ 0x5#4 ++ i)
  | .siSlli d a i => some (0x02#6 ++ d ++ a ++ 0x180#10 ++ i)
  | .siSrli d a i => some (0x02#6 ++ d ++ a ++ 0x1C0#10 ++ i)
  | .siSrai d a i => some (0x02#6 ++ d ++ a ++ 0x200#10 ++ i)
  | .siRotri d a i => some (0x02#6 ++ d ++ a ++ 0x240#10 ++ i)
  | .siAddiw d a i => some (0x02#6 ++ d ++ a ++ 0xA#4 ++ i)
  | .suAhi d i => some (0x03#6 ++ d ++ 0x0#1 ++ i)
  | .suApc d i => some (0x03#6 ++ d ++ 0x1#1 ++ i)
  | .slLb d a i => some (0x04#6 ++ d ++ a ++ 0x0#4 ++ i)
  | .slLh d a i => some (0x04#6 ++ d ++ a ++ 0x1#4 ++ i)
  | .slLw d a i => some (0x04#6 ++ d ++ a ++ 0x2#4 ++ i)
  | .slLd d a i => some (0x04#6 ++ d ++ a ++ 0x3#4 ++ i)
  | .slLbu d a i => some (0x04#6 ++ d ++ a ++ 0x4#4 ++ i)
  | .slLhu d a i => some (0x04#6 ++ d ++ a ++ 0x5#4 ++ i)
  | .slLwu d a i => some (0x04#6 ++ d ++ a ++ 0x6#4 ++ i)
  | .slLq d a i => some (0x04#6 ++ d ++ a ++ 0x7#4 ++ i)
  | .slLdf d a c i => some (0x04#6 ++ d ++ a ++ 0x3#2 ++ BitVec.ofBool c ++ 0x0#1 ++ i)
  | .slLqf d a c i => some (0x04#6 ++ d ++ a ++ 0x3#2 ++ BitVec.ofBool c ++ 0x1#1 ++ i)
  | .ssSb i a b => some (0x05#6 ++ (i.extractLsb' 7 5 : BitVec 5) ++ a ++ b ++ 0x0#4 ++ (i.extractLsb' 0 7 : BitVec 7))
  | .ssSh i a b => some (0x05#6 ++ (i.extractLsb' 7 5 : BitVec 5) ++ a ++ b ++ 0x1#4 ++ (i.extractLsb' 0 7 : BitVec 7))
  | .ssSw i a b => some (0x05#6 ++ (i.extractLsb' 7 5 : BitVec 5) ++ a ++ b ++ 0x2#4 ++ (i.extractLsb' 0 7 : BitVec 7))
  | .ssSd i a b => some (0x05#6 ++ (i.extractLsb' 7 5 : BitVec 5) ++ a ++ b ++ 0x3#4 ++ (i.extractLsb' 0 7 : BitVec 7))
  | .ssSq i a b => some (0x05#6 ++ (i.extractLsb' 7 5 : BitVec 5) ++ a ++ b ++ 0x4#4 ++ (i.extractLsb' 0 7 : BitVec 7))
  | .brEq a b o => some (0x06#6 ++ a ++ b ++ 0x0#3 ++ o)
  | .brNe a b o => some (0x06#6 ++ a ++ b ++ 0x1#3 ++ o)
  | .brLt a b o => some (0x06#6 ++ a ++ b ++ 0x2#3 ++ o)
  | .brGe a b o => some (0x06#6 ++ a ++ b ++ 0x3#3 ++ o)
  | .brLtu a b o => some (0x06#6 ++ a ++ b ++ 0x4#3 ++ o)
  | .brGeu a b o => some (0x06#6 ++ a ++ b ++ 0x5#3 ++ o)
  | .jlJal d o => some (0x07#6 ++ d ++ o)
  | .jrJalr d a => some (0x08#6 ++ d ++ a ++ 0x0000#16)
  | .jrJtab d a b => some (0x08#6 ++ d ++ a ++ b ++ 0x001#11)
  | .lpLoop adv o => some (0x09#6 ++ adv ++ o)
  | .smMul d a b => some (0x0A#6 ++ d ++ a ++ b ++ 0x000#11)
  | .smMulh d a b sb sa => some (0x0A#6 ++ d ++ a ++ b ++ 0x00#5 ++ BitVec.ofBool sb ++ BitVec.ofBool sa ++ 0x1#4)
  | .smMadd d a b => some (0x0A#6 ++ d ++ a ++ b ++ 0x002#11)
  | .smDiv d a b s => some (0x0A#6 ++ d ++ a ++ b ++ 0x00#6 ++ BitVec.ofBool s ++ 0x3#4)
  | .smRem d a b s => some (0x0A#6 ++ d ++ a ++ b ++ 0x00#6 ++ BitVec.ofBool s ++ 0x4#4)
  | .sfAdd d a b f r => some (0x0B#6 ++ d ++ a ++ b ++ f ++ r ++ 0x00#6)
  | .sfSub d a b f r => some (0x0B#6 ++ d ++ a ++ b ++ f ++ r ++ 0x01#6)
  | .sfMul d a b f r => some (0x0B#6 ++ d ++ a ++ b ++ f ++ r ++ 0x02#6)
  | .sfDiv d a b f r => some (0x0B#6 ++ d ++ a ++ b ++ f ++ r ++ 0x03#6)
  | .sfSqrt d a f r => some (0x0B#6 ++ d ++ a ++ 0x00#5 ++ f ++ r ++ 0x04#6)
  | .sfFma d a b f r => some (0x0B#6 ++ d ++ a ++ b ++ f ++ r ++ 0x05#6)
  | .sfMin d a b f => some (0x0B#6 ++ d ++ a ++ b ++ f ++ 0x006#9)
  | .sfMax d a b f => some (0x0B#6 ++ d ++ a ++ b ++ f ++ 0x007#9)
  | .sfSgnj d a b f => some (0x0B#6 ++ d ++ a ++ b ++ f ++ 0x008#9)
  | .sfSgnjn d a b f => some (0x0B#6 ++ d ++ a ++ b ++ f ++ 0x009#9)
  | .sfFeq d a b f => some (0x0B#6 ++ d ++ a ++ b ++ f ++ 0x00A#9)
  | .sfFlt d a b f => some (0x0B#6 ++ d ++ a ++ b ++ f ++ 0x00B#9)
  | .sfFle d a b f => some (0x0B#6 ++ d ++ a ++ b ++ f ++ 0x00C#9)
  | .sfClass d a f => some (0x0B#6 ++ d ++ a ++ 0x00#5 ++ f ++ 0x00D#9)
  | .sfCvti d a f r => some (0x0B#6 ++ d ++ a ++ 0x00#5 ++ f ++ r ++ 0x0E#6)
  | .sfCvtu d a f r => some (0x0B#6 ++ d ++ a ++ 0x00#5 ++ f ++ r ++ 0x0F#6)
  | .sfIcvt d a f r => some (0x0B#6 ++ d ++ a ++ 0x00#5 ++ f ++ r ++ 0x10#6)
  | .sfUcvt d a f r => some (0x0B#6 ++ d ++ a ++ 0x00#5 ++ f ++ r ++ 0x11#6)
  | .sfWiden d a f => some (0x0B#6 ++ d ++ a ++ 0x00#5 ++ f ++ 0x012#9)
  | .sfNarrow d a f r => some (0x0B#6 ++ d ++ a ++ 0x00#5 ++ f ++ r ++ 0x13#6)
  | .amAdd d a b w n => some (0x0C#6 ++ d ++ a ++ b ++ 0x00#5 ++ BitVec.ofBool w ++ BitVec.ofBool n ++ 0x0#4)
  | .amMin d a b w n => some (0x0C#6 ++ d ++ a ++ b ++ 0x00#5 ++ BitVec.ofBool w ++ BitVec.ofBool n ++ 0x1#4)
  | .amMax d a b w n => some (0x0C#6 ++ d ++ a ++ b ++ 0x00#5 ++ BitVec.ofBool w ++ BitVec.ofBool n ++ 0x2#4)
  | .amMinu d a b w n => some (0x0C#6 ++ d ++ a ++ b ++ 0x00#5 ++ BitVec.ofBool w ++ BitVec.ofBool n ++ 0x3#4)
  | .amMaxu d a b w n => some (0x0C#6 ++ d ++ a ++ b ++ 0x00#5 ++ BitVec.ofBool w ++ BitVec.ofBool n ++ 0x4#4)
  | .amAnd d a b w n => some (0x0C#6 ++ d ++ a ++ b ++ 0x00#5 ++ BitVec.ofBool w ++ BitVec.ofBool n ++ 0x5#4)
  | .amOr d a b w n => some (0x0C#6 ++ d ++ a ++ b ++ 0x00#5 ++ BitVec.ofBool w ++ BitVec.ofBool n ++ 0x6#4)
  | .amXor d a b w n => some (0x0C#6 ++ d ++ a ++ b ++ 0x00#5 ++ BitVec.ofBool w ++ BitVec.ofBool n ++ 0x7#4)
  | .amSwap d a b w => some (0x0C#6 ++ d ++ a ++ b ++ 0x00#5 ++ BitVec.ofBool w ++ 0x08#5)
  | .amCas d a b w => some (0x0C#6 ++ d ++ a ++ b ++ 0x00#5 ++ BitVec.ofBool w ++ 0x09#5)
  | .sySrd d s => some (0x0D#6 ++ d ++ 0x000#9 ++ s)
  | .sySwr a s => some (0x0D#6 ++ 0x00#5 ++ a ++ 0x1#4 ++ s)
  | .syCend => some (0x0D#6 ++ 0x0002000#26)
  | .syFence c => some (0x0D#6 ++ 0x000600#23 ++ c)
  | .syIcinv c => some (0x0D#6 ++ 0x000800#23 ++ c)
  | .syLaunch d a => some (0x0D#6 ++ d ++ a ++ 0x5000#16)
  | .syTrap n => some (0x0D#6 ++ 0x0006#14 ++ n)
  | .syRet => some (0x0D#6 ++ 0x0007000#26)
  | .syEnd => some (0x0D#6 ++ 0x0008000#26)
  | .syPark => some (0x0D#6 ++ 0x0009000#26)
  | .sqCfg b a => some (0x0E#6 ++ 0x0#2 ++ b ++ a ++ 0x0000#16)
  | .sqArv b => some (0x0E#6 ++ 0x0#2 ++ b ++ 0x001000#21)
  | .sqWt b => some (0x0E#6 ++ 0x0#2 ++ b ++ 0x002000#21)
  | .sqRd d b => some (0x0E#6 ++ d ++ 0x0#2 ++ b ++ 0x3000#16)
  | .sqWr b a => some (0x0E#6 ++ 0x0#2 ++ b ++ a ++ 0x4000#16)
  | .sqVqd => some (0x0E#6 ++ 0x0005000#26)
  | .vcSetl d a b => some (0x0F#6 ++ d ++ a ++ b ++ 0x000#11)
  | .vcSett d a => some (0x0F#6 ++ d ++ a ++ 0x0080#16)
  | .vcSetti d g f => some (0x0F#6 ++ d ++ 0x0002#14 ++ g ++ f)
  | .vcVlmax d => some (0x0F#6 ++ d ++ 0x000180#21)
  | .vlLd d a m o p => some (0x10#6 ++ d ++ a ++ 0x00#5 ++ m ++ BitVec.ofBool o ++ BitVec.ofBool p ++ 0x00#5)
  | .vlLds d a b m o p => some (0x10#6 ++ d ++ a ++ b ++ m ++ BitVec.ofBool o ++ BitVec.ofBool p ++ 0x01#5)
  | .vlLdr d a o p => some (0x10#6 ++ d ++ a ++ 0x000#9 ++ BitVec.ofBool o ++ BitVec.ofBool p ++ 0x02#5)
  | .vlLdff d a m o p => some (0x10#6 ++ d ++ a ++ 0x00#5 ++ m ++ BitVec.ofBool o ++ BitVec.ofBool p ++ 0x03#5)
  | .vlLdsp d a m => some (0x10#6 ++ d ++ a ++ 0x00#5 ++ m ++ 0x04#7)
  | .vlLdf d a m c => some (0x10#6 ++ d ++ a ++ 0x00#5 ++ m ++ 0x01#5 ++ BitVec.ofBool c ++ 0x1#1)
  | .vsSt s a m o p => some (0x11#6 ++ s ++ a ++ 0x00#5 ++ m ++ BitVec.ofBool o ++ BitVec.ofBool p ++ 0x00#5)
  | .vsSts s a b m o p => some (0x11#6 ++ s ++ a ++ b ++ m ++ BitVec.ofBool o ++ BitVec.ofBool p ++ 0x01#5)
  | .vsStr s a o p => some (0x11#6 ++ s ++ a ++ 0x000#9 ++ BitVec.ofBool o ++ BitVec.ofBool p ++ 0x02#5)
  | .vgGath d a v m o p => some (0x12#6 ++ d ++ a ++ v ++ m ++ BitVec.ofBool o ++ BitVec.ofBool p ++ 0x00#5)
  | .vgGathb d a v m o p => some (0x12#6 ++ d ++ a ++ v ++ m ++ BitVec.ofBool o ++ BitVec.ofBool p ++ 0x01#5)
  | .vgScat s a v m o p => some (0x12#6 ++ s ++ a ++ v ++ m ++ BitVec.ofBool o ++ BitVec.ofBool p ++ 0x02#5)
  | .vgScatb s a v m o p => some (0x12#6 ++ s ++ a ++ v ++ m ++ BitVec.ofBool o ++ BitVec.ofBool p ++ 0x03#5)
  | .vaAdd d a b m x => some (0x13#6 ++ d ++ a ++ b ++ m ++ BitVec.ofBool x ++ 0x00#6)
  | .vaSub d a b m x => some (0x13#6 ++ d ++ a ++ b ++ m ++ BitVec.ofBool x ++ 0x01#6)
  | .vaMul d a b m x => some (0x13#6 ++ d ++ a ++ b ++ m ++ BitVec.ofBool x ++ 0x02#6)
  | .vaMulh d a b m x => some (0x13#6 ++ d ++ a ++ b ++ m ++ BitVec.ofBool x ++ 0x03#6)
  | .vaMulhu d a b m x => some (0x13#6 ++ d ++ a ++ b ++ m ++ BitVec.ofBool x ++ 0x04#6)
  | .vaAnd d a b m x => some (0x13#6 ++ d ++ a ++ b ++ m ++ BitVec.ofBool x ++ 0x05#6)
  | .vaOr d a b m x => some (0x13#6 ++ d ++ a ++ b ++ m ++ BitVec.ofBool x ++ 0x06#6)
  | .vaXor d a b m x => some (0x13#6 ++ d ++ a ++ b ++ m ++ BitVec.ofBool x ++ 0x07#6)
  | .vaSll d a b m x => some (0x13#6 ++ d ++ a ++ b ++ m ++ BitVec.ofBool x ++ 0x08#6)
  | .vaSrl d a b m x => some (0x13#6 ++ d ++ a ++ b ++ m ++ BitVec.ofBool x ++ 0x09#6)
  | .vaSra d a b m x => some (0x13#6 ++ d ++ a ++ b ++ m ++ BitVec.ofBool x ++ 0x0A#6)
  | .vaMin d a b m x => some (0x13#6 ++ d ++ a ++ b ++ m ++ BitVec.ofBool x ++ 0x0B#6)
  | .vaMax d a b m x => some (0x13#6 ++ d ++ a ++ b ++ m ++ BitVec.ofBool x ++ 0x0C#6)
  | .vaMinu d a b m x => some (0x13#6 ++ d ++ a ++ b ++ m ++ BitVec.ofBool x ++ 0x0D#6)
  | .vaMaxu d a b m x => some (0x13#6 ++ d ++ a ++ b ++ m ++ BitVec.ofBool x ++ 0x0E#6)
  | .vaAdds d a b m x => some (0x13#6 ++ d ++ a ++ b ++ m ++ BitVec.ofBool x ++ 0x0F#6)
  | .vaAddsu d a b m x => some (0x13#6 ++ d ++ a ++ b ++ m ++ BitVec.ofBool x ++ 0x10#6)
  | .vaSubs d a b m x => some (0x13#6 ++ d ++ a ++ b ++ m ++ BitVec.ofBool x ++ 0x11#6)
  | .vaSubsu d a b m x => some (0x13#6 ++ d ++ a ++ b ++ m ++ BitVec.ofBool x ++ 0x12#6)
  | .vaMacc d a b m x => some (0x13#6 ++ d ++ a ++ b ++ m ++ BitVec.ofBool x ++ 0x13#6)
  | .vaWmacc d a b m x => some (0x13#6 ++ d ++ a ++ b ++ m ++ BitVec.ofBool x ++ 0x14#6)
  | .vaWmaccu d a b m x => some (0x13#6 ++ d ++ a ++ b ++ m ++ BitVec.ofBool x ++ 0x15#6)
  | .vaCeq d a b m x => some (0x13#6 ++ 0x0#1 ++ d ++ a ++ b ++ m ++ BitVec.ofBool x ++ 0x20#6)
  | .vaCne d a b m x => some (0x13#6 ++ 0x0#1 ++ d ++ a ++ b ++ m ++ BitVec.ofBool x ++ 0x21#6)
  | .vaClt d a b m x => some (0x13#6 ++ 0x0#1 ++ d ++ a ++ b ++ m ++ BitVec.ofBool x ++ 0x22#6)
  | .vaCle d a b m x => some (0x13#6 ++ 0x0#1 ++ d ++ a ++ b ++ m ++ BitVec.ofBool x ++ 0x23#6)
  | .vaCltu d a b m x => some (0x13#6 ++ 0x0#1 ++ d ++ a ++ b ++ m ++ BitVec.ofBool x ++ 0x24#6)
  | .vaCleu d a b m x => some (0x13#6 ++ 0x0#1 ++ d ++ a ++ b ++ m ++ BitVec.ofBool x ++ 0x25#6)
  | .vfAdd d a b m x => some (0x14#6 ++ d ++ a ++ b ++ m ++ BitVec.ofBool x ++ 0x00#6)
  | .vfSub d a b m x => some (0x14#6 ++ d ++ a ++ b ++ m ++ BitVec.ofBool x ++ 0x01#6)
  | .vfMul d a b m x => some (0x14#6 ++ d ++ a ++ b ++ m ++ BitVec.ofBool x ++ 0x02#6)
  | .vfDiv d a b m x => some (0x14#6 ++ d ++ a ++ b ++ m ++ BitVec.ofBool x ++ 0x03#6)
  | .vfSqrt d a m => some (0x14#6 ++ d ++ a ++ 0x00#5 ++ m ++ 0x04#7)
  | .vfFma d a b m x => some (0x14#6 ++ d ++ a ++ b ++ m ++ BitVec.ofBool x ++ 0x05#6)
  | .vfFms d a b m x => some (0x14#6 ++ d ++ a ++ b ++ m ++ BitVec.ofBool x ++ 0x06#6)
  | .vfFnma d a b m x => some (0x14#6 ++ d ++ a ++ b ++ m ++ BitVec.ofBool x ++ 0x07#6)
  | .vfMin d a b m x => some (0x14#6 ++ d ++ a ++ b ++ m ++ BitVec.ofBool x ++ 0x08#6)
  | .vfMax d a b m x => some (0x14#6 ++ d ++ a ++ b ++ m ++ BitVec.ofBool x ++ 0x09#6)
  | .vfSgnj d a b m x => some (0x14#6 ++ d ++ a ++ b ++ m ++ BitVec.ofBool x ++ 0x0A#6)
  | .vfSgnjn d a b m x => some (0x14#6 ++ d ++ a ++ b ++ m ++ BitVec.ofBool x ++ 0x0B#6)
  | .vfSgnjx d a b m x => some (0x14#6 ++ d ++ a ++ b ++ m ++ BitVec.ofBool x ++ 0x0C#6)
  | .vfWmacc d a b m x => some (0x14#6 ++ d ++ a ++ b ++ m ++ BitVec.ofBool x ++ 0x10#6)
  | .vfCeq d a b m x => some (0x14#6 ++ 0x0#1 ++ d ++ a ++ b ++ m ++ BitVec.ofBool x ++ 0x20#6)
  | .vfClt d a b m x => some (0x14#6 ++ 0x0#1 ++ d ++ a ++ b ++ m ++ BitVec.ofBool x ++ 0x21#6)
  | .vfCle d a b m x => some (0x14#6 ++ 0x0#1 ++ d ++ a ++ b ++ m ++ BitVec.ofBool x ++ 0x22#6)
  | .vfCun d a b m x => some (0x14#6 ++ 0x0#1 ++ d ++ a ++ b ++ m ++ BitVec.ofBool x ++ 0x23#6)
  | .vxMov d a m => some (0x15#6 ++ d ++ a ++ 0x00#5 ++ m ++ 0x00#7)
  | .vxBcst d a m => some (0x15#6 ++ d ++ a ++ 0x00#5 ++ m ++ 0x01#7)
  | .vxXtr d a b => some (0x15#6 ++ d ++ a ++ b ++ 0x002#11)
  | .vxIns d a b => some (0x15#6 ++ d ++ a ++ b ++ 0x003#11)
  | .vxIdx d m => some (0x15#6 ++ d ++ 0x000#10 ++ m ++ 0x04#7)
  | .vxPerm d a b m => some (0x15#6 ++ d ++ a ++ b ++ m ++ 0x05#7)
  | .vxSlup d a b m => some (0x15#6 ++ d ++ a ++ b ++ m ++ 0x06#7)
  | .vxSldn d a b m => some (0x15#6 ++ d ++ a ++ b ++ m ++ 0x07#7)
  | .vxSl1up d a b m => some (0x15#6 ++ d ++ a ++ b ++ m ++ 0x08#7)
  | .vxCompress d a m => some (0x15#6 ++ d ++ a ++ 0x00#5 ++ m ++ 0x09#7)
  | .vxExpand d a m => some (0x15#6 ++ d ++ a ++ 0x00#5 ++ m ++ 0x0A#7)
  | .vxShlw d a b => some (0x15#6 ++ d ++ a ++ b ++ 0x00B#11)
  | .vxShrw d a b => some (0x15#6 ++ d ++ a ++ b ++ 0x00C#11)
  | .vxFshw d a b => some (0x15#6 ++ d ++ a ++ b ++ 0x00D#11)
  | .vrSum d a m s => some (0x16#6 ++ d ++ a ++ 0x00#5 ++ m ++ BitVec.ofBool s ++ 0x00#6)
  | .vrMax d a m s => some (0x16#6 ++ d ++ a ++ 0x00#5 ++ m ++ BitVec.ofBool s ++ 0x01#6)
  | .vrMin d a m s => some (0x16#6 ++ d ++ a ++ 0x00#5 ++ m ++ BitVec.ofBool s ++ 0x02#6)
  | .vrMaxu d a m s => some (0x16#6 ++ d ++ a ++ 0x00#5 ++ m ++ BitVec.ofBool s ++ 0x03#6)
  | .vrMinu d a m s => some (0x16#6 ++ d ++ a ++ 0x00#5 ++ m ++ BitVec.ofBool s ++ 0x04#6)
  | .vrAnd d a m s => some (0x16#6 ++ d ++ a ++ 0x00#5 ++ m ++ BitVec.ofBool s ++ 0x05#6)
  | .vrOr d a m s => some (0x16#6 ++ d ++ a ++ 0x00#5 ++ m ++ BitVec.ofBool s ++ 0x06#6)
  | .vrXor d a m s => some (0x16#6 ++ d ++ a ++ 0x00#5 ++ m ++ BitVec.ofBool s ++ 0x07#6)
  | .vrDot d a b m s => some (0x16#6 ++ d ++ a ++ b ++ m ++ BitVec.ofBool s ++ 0x08#6)
  | .vrDotu d a b m s => some (0x16#6 ++ d ++ a ++ b ++ m ++ BitVec.ofBool s ++ 0x09#6)
  | .vrMaxabs d a m s => some (0x16#6 ++ d ++ a ++ 0x00#5 ++ m ++ BitVec.ofBool s ++ 0x0A#6)
  | .vrLasta d a m => some (0x16#6 ++ d ++ a ++ 0x00#5 ++ m ++ 0x0B#7)
  | .vrScan d a m s => some (0x16#6 ++ d ++ a ++ 0x00#5 ++ m ++ BitVec.ofBool s ++ 0x0C#6)
  | .vrScanmax d a m s => some (0x16#6 ++ d ++ a ++ 0x00#5 ++ m ++ BitVec.ofBool s ++ 0x0D#6)
  | .vrDotb d a b m s k => some (0x16#6 ++ d ++ a ++ b ++ m ++ BitVec.ofBool s ++ 0x2#3 ++ k)
  | .vpAnd d a b m => some (0x17#6 ++ 0x0#1 ++ d ++ 0x0#1 ++ a ++ 0x0#1 ++ b ++ m ++ 0x00#7)
  | .vpOr d a b m => some (0x17#6 ++ 0x0#1 ++ d ++ 0x0#1 ++ a ++ 0x0#1 ++ b ++ m ++ 0x01#7)
  | .vpXor d a b m => some (0x17#6 ++ 0x0#1 ++ d ++ 0x0#1 ++ a ++ 0x0#1 ++ b ++ m ++ 0x02#7)
  | .vpAndn d a b m => some (0x17#6 ++ 0x0#1 ++ d ++ 0x0#1 ++ a ++ 0x0#1 ++ b ++ m ++ 0x03#7)
  | .vpSet d m => some (0x17#6 ++ 0x0#1 ++ d ++ 0x000#10 ++ m ++ 0x04#7)
  | .vpClr d m => some (0x17#6 ++ 0x0#1 ++ d ++ 0x000#10 ++ m ++ 0x05#7)
  | .vpCnt d a m => some (0x17#6 ++ d ++ 0x0#1 ++ a ++ 0x00#5 ++ m ++ 0x08#7)
  | .vpFfs d a m => some (0x17#6 ++ d ++ 0x0#1 ++ a ++ 0x00#5 ++ m ++ 0x09#7)
  | .vpMrd d a b => some (0x17#6 ++ d ++ 0x0#1 ++ a ++ b ++ 0x00A#11)
  | .vpMwr d a b => some (0x17#6 ++ 0x0#1 ++ d ++ a ++ b ++ 0x00B#11)
  | .vpZmap d a => some (0x17#6 ++ 0x0#1 ++ d ++ a ++ 0x000C#16)
  | .vpUpto d a m i => some (0x17#6 ++ 0x0#1 ++ d ++ 0x0#1 ++ a ++ 0x00#5 ++ m ++ BitVec.ofBool i ++ 0x10#6)
  | .vpConf d a b m => some (0x17#6 ++ d ++ a ++ 0x0#1 ++ b ++ m ++ 0x18#7)
  | .vpPart d a b m t => some (0x17#6 ++ 0x0#1 ++ d ++ a ++ b ++ m ++ BitVec.ofBool t ++ 0x19#6)
  | .vvCvt d a f m r => some (0x18#6 ++ d ++ a ++ f ++ m ++ r ++ 0x0#4)
  | .vvF32f4 d a f m r => some (0x18#6 ++ d ++ a ++ f ++ m ++ r ++ 0x1#4)
  | .vvTobfp d a f m r => some (0x18#6 ++ d ++ a ++ f ++ m ++ r ++ 0x2#4)
  | .vvFrombfp d a f m => some (0x18#6 ++ d ++ a ++ f ++ m ++ 0x03#7)
  | .vvFtoi d a f m r => some (0x18#6 ++ d ++ a ++ f ++ m ++ r ++ 0x4#4)
  | .vvFtou d a f m r => some (0x18#6 ++ d ++ a ++ f ++ m ++ r ++ 0x5#4)
  | .vvItof d a f m r => some (0x18#6 ++ d ++ a ++ f ++ m ++ r ++ 0x6#4)
  | .vvUtof d a f m r => some (0x18#6 ++ d ++ a ++ f ++ m ++ r ++ 0x7#4)
  | .vvSext d a f m => some (0x18#6 ++ d ++ a ++ f ++ m ++ 0x08#7)
  | .vvZext d a f m => some (0x18#6 ++ d ++ a ++ f ++ m ++ 0x09#7)
  | .vvNrw d a f m => some (0x18#6 ++ d ++ a ++ f ++ m ++ 0x0A#7)
  | .vvNrws d a f m => some (0x18#6 ++ d ++ a ++ f ++ m ++ 0x0B#7)
  | .vvNrwu d a f m => some (0x18#6 ++ d ++ a ++ f ++ m ++ 0x0C#7)
  | .mxOpa t a b m f => some (0x19#6 ++ t ++ a ++ b ++ m ++ f ++ 0x0#4)
  | .mxSlide t a b m f => some (0x19#6 ++ t ++ a ++ b ++ m ++ f ++ 0x1#4)
  | .mtZero t m f64 => some (0x1A#6 ++ t ++ 0x000#10 ++ m ++ 0x0#3 ++ BitVec.ofBool f64 ++ 0x0#4)
  | .mtLd t a b m f64 => some (0x1A#6 ++ t ++ a ++ b ++ m ++ 0x0#3 ++ BitVec.ofBool f64 ++ 0x1#4)
  | .mtSt t a b m f64 z => some (0x1A#6 ++ t ++ a ++ b ++ m ++ 0x0#3 ++ BitVec.ofBool f64 ++ BitVec.ofBool z ++ 0x2#3)
  | .mtRdrow t d b f64 => some (0x1A#6 ++ t ++ d ++ b ++ 0x00#7 ++ BitVec.ofBool f64 ++ 0x3#4)
  | .mtWrrow t a b f64 => some (0x1A#6 ++ t ++ a ++ b ++ 0x00#7 ++ BitVec.ofBool f64 ++ 0x4#4)
  | .vdDotv d a b s p x => some (0x1B#6 ++ d ++ a ++ b ++ s ++ p ++ x)
  | .vdTail d s => some (0x1B#6 ++ d ++ 0x000#10 ++ s ++ 0x60#7)
  | .vdTest d a b m => some (0x1B#6 ++ 0x0#1 ++ d ++ a ++ 0x0#1 ++ b ++ m ++ 0x61#7)
  | .vdTkset a => some (0x1B#6 ++ 0x00#5 ++ a ++ 0x0062#16)
  | .vdTkupd a b m => some (0x1B#6 ++ 0x00#5 ++ a ++ b ++ m ++ 0x63#7)
  | .ceFork d a b e => some (wordCeFork d a b e)
  | .ceRend d a => some (wordCeRend d a)
  | .ceTest d a => some (wordCeTest d a)
  | .ceOpen n e k => some (wordCeOpen n e k)
  | .ceClose n e k => some (wordCeClose n e k)
  | .ceErd d a s => some (wordCeErd d a s)
  | .ceFencex a b c => some (wordCeFencex a b c)
  | .ceColl d a o => some (wordCeColl d a o)
  | .awWin a b w p => some (wordAwWin a b w p)
  | .awUpd s b m w => some (wordAwUpd s b m w)
  | .awMerge w => some (wordAwMerge w)
  | .awClr w => some (wordAwClr w)
  | .rpRep c s stag => some (wordRpRep c s stag)
  | .tlLd d a s m o p => some (wordTlLd d a s m o p)
  | .tlSt v a s m o p => some (wordTlSt v a s m o p)
  | .emCopy d a b dl sl => some (0x30#6 ++ d ++ a ++ b ++ 0x00#8 ++ BitVec.ofBool dl ++ BitVec.ofBool sl ++ 0x0#4)
  | .emCopy2 d a b c dl sl => some (0x30#6 ++ d ++ a ++ b ++ c ++ 0x1#4 ++ BitVec.ofBool dl ++ BitVec.ofBool sl ++ 0x0#4)
  | .emFill d a b dl => some (0x30#6 ++ d ++ a ++ b ++ 0x02#8 ++ BitVec.ofBool dl ++ 0x00#5)
  | .emLd d a sl => some (0x30#6 ++ d ++ a ++ 0x0006#13 ++ BitVec.ofBool sl ++ 0x0#4)
  | .emSt a b dl => some (0x30#6 ++ 0x0#4 ++ a ++ b ++ 0x04#8 ++ BitVec.ofBool dl ++ 0x00#5)
  | .eaAdd d a b => some (0x31#6 ++ d ++ a ++ b ++ 0x0000#14)
  | .eaSub d a b => some (0x31#6 ++ d ++ a ++ b ++ 0x0040#14)
  | .eaAnd d a b => some (0x31#6 ++ d ++ a ++ b ++ 0x0080#14)
  | .eaOr d a b => some (0x31#6 ++ d ++ a ++ b ++ 0x00C0#14)
  | .eaXor d a b => some (0x31#6 ++ d ++ a ++ b ++ 0x0100#14)
  | .eaSll d a b => some (0x31#6 ++ d ++ a ++ b ++ 0x0140#14)
  | .eaSrl d a b => some (0x31#6 ++ d ++ a ++ b ++ 0x0180#14)
  | .eaSra d a b => some (0x31#6 ++ d ++ a ++ b ++ 0x01C0#14)
  | .eaMul d a b => some (0x31#6 ++ d ++ a ++ b ++ 0x0200#14)
  | .eaMinu d a b => some (0x31#6 ++ d ++ a ++ b ++ 0x0240#14)
  | .eaMaxu d a b => some (0x31#6 ++ d ++ a ++ b ++ 0x0280#14)
  | .eaSltu d a b => some (0x31#6 ++ d ++ a ++ b ++ 0x02C0#14)
  | .esAddi d a i => some (0x33#6 ++ d ++ a ++ 0x0#4 ++ i)
  | .esOri d a i => some (0x33#6 ++ d ++ a ++ 0x1#4 ++ i)
  | .esSlli d a i => some (0x33#6 ++ d ++ a ++ 0x200#12 ++ i)
  | .esDrain => some (0x33#6 ++ 0x000C000#26)
  | .esEnd => some (0x33#6 ++ 0x0010000#26)
  | .esErr i => some (0x33#6 ++ 0x005#12 ++ i)
  | .ebEq a b o => some (0x32#6 ++ a ++ b ++ 0x0#3 ++ o)
  | .ebNe a b o => some (0x32#6 ++ a ++ b ++ 0x1#3 ++ o)
  | .ebLt a b o => some (0x32#6 ++ a ++ b ++ 0x2#3 ++ o)
  | .ebGe a b o => some (0x32#6 ++ a ++ b ++ 0x3#3 ++ o)
  | .ebLtu a b o => some (0x32#6 ++ a ++ b ++ 0x4#3 ++ o)
  | .ebGeu a b o => some (0x32#6 ++ a ++ b ++ 0x5#3 ++ o)
  | .ebAl o => some (0x32#6 ++ 0x006#11 ++ o)
  | .gwLb d a l inc => some (0x34#6 ++ d ++ a ++ 0x000#12 ++ BitVec.ofBool l ++ BitVec.ofBool inc ++ 0x0#4)
  | .gwLh d a l inc => some (0x34#6 ++ d ++ a ++ 0x001#12 ++ BitVec.ofBool l ++ BitVec.ofBool inc ++ 0x0#4)
  | .gwLw d a l inc => some (0x34#6 ++ d ++ a ++ 0x002#12 ++ BitVec.ofBool l ++ BitVec.ofBool inc ++ 0x0#4)
  | .gwLd d a l inc => some (0x34#6 ++ d ++ a ++ 0x003#12 ++ BitVec.ofBool l ++ BitVec.ofBool inc ++ 0x0#4)
  | .gwSb a b l inc => some (0x34#6 ++ 0x0#4 ++ a ++ b ++ 0x04#8 ++ BitVec.ofBool l ++ BitVec.ofBool inc ++ 0x0#4)
  | .gwSh a b l inc => some (0x34#6 ++ 0x0#4 ++ a ++ b ++ 0x05#8 ++ BitVec.ofBool l ++ BitVec.ofBool inc ++ 0x0#4)
  | .gwSw a b l inc => some (0x34#6 ++ 0x0#4 ++ a ++ b ++ 0x06#8 ++ BitVec.ofBool l ++ BitVec.ofBool inc ++ 0x0#4)
  | .gwSd a b l inc => some (0x34#6 ++ 0x0#4 ++ a ++ b ++ 0x07#8 ++ BitVec.ofBool l ++ BitVec.ofBool inc ++ 0x0#4)
  | .gwSq a b l inc => some (0x34#6 ++ 0x0#4 ++ a ++ b ++ 0x08#8 ++ BitVec.ofBool l ++ BitVec.ofBool inc ++ 0x0#4)
  | .gwSprb d a b c l inc => some (0x34#6 ++ d ++ a ++ b ++ c ++ 0x9#4 ++ BitVec.ofBool l ++ BitVec.ofBool inc ++ 0x0#4)
  | .gwSprh d a b c l inc => some (0x34#6 ++ d ++ a ++ b ++ c ++ 0xA#4 ++ BitVec.ofBool l ++ BitVec.ofBool inc ++ 0x0#4)
  | .gwSprw d a b c l inc => some (0x34#6 ++ d ++ a ++ b ++ c ++ 0xB#4 ++ BitVec.ofBool l ++ BitVec.ofBool inc ++ 0x0#4)
  | .gwSprd d a b c l inc => some (0x34#6 ++ d ++ a ++ b ++ c ++ 0xC#4 ++ BitVec.ofBool l ++ BitVec.ofBool inc ++ 0x0#4)
  | .gaAdd d a b => some (0x35#6 ++ d ++ a ++ b ++ 0x0000#14)
  | .gaSub d a b => some (0x35#6 ++ d ++ a ++ b ++ 0x0040#14)
  | .gaAnd d a b => some (0x35#6 ++ d ++ a ++ b ++ 0x0080#14)
  | .gaOr d a b => some (0x35#6 ++ d ++ a ++ b ++ 0x00C0#14)
  | .gaXor d a b => some (0x35#6 ++ d ++ a ++ b ++ 0x0100#14)
  | .gaSll d a b => some (0x35#6 ++ d ++ a ++ b ++ 0x0140#14)
  | .gaSrl d a b => some (0x35#6 ++ d ++ a ++ b ++ 0x0180#14)
  | .gaMul d a b => some (0x35#6 ++ d ++ a ++ b ++ 0x01C0#14)
  | .gaMinu d a b => some (0x35#6 ++ d ++ a ++ b ++ 0x0200#14)
  | .gaMaxu d a b => some (0x35#6 ++ d ++ a ++ b ++ 0x0240#14)
  | .gaSltu d a b => some (0x35#6 ++ d ++ a ++ b ++ 0x0280#14)
  | .gaCtz d a => some (0x35#6 ++ d ++ a ++ 0x002C0#18)
  | .gaPopc d a => some (0x35#6 ++ d ++ a ++ 0x00300#18)
  | .gaBclr d a => some (0x35#6 ++ d ++ a ++ 0x00340#18)
  | .geAddi d a i => some (0x37#6 ++ d ++ a ++ 0x0#4 ++ i)
  | .geOri d a i => some (0x37#6 ++ d ++ a ++ 0x1#4 ++ i)
  | .geSlli d a i => some (0x37#6 ++ d ++ a ++ 0x200#12 ++ i)
  | .geDrain => some (0x37#6 ++ 0x000C000#26)
  | .geEnd => some (0x37#6 ++ 0x0010000#26)
  | .geErr i => some (0x37#6 ++ 0x005#12 ++ i)
  | .geSrli d a i => some (0x37#6 ++ d ++ a ++ 0x600#12 ++ i)
  | .gbEq a b o => some (0x36#6 ++ a ++ b ++ 0x0#3 ++ o)
  | .gbNe a b o => some (0x36#6 ++ a ++ b ++ 0x1#3 ++ o)
  | .gbLt a b o => some (0x36#6 ++ a ++ b ++ 0x2#3 ++ o)
  | .gbGe a b o => some (0x36#6 ++ a ++ b ++ 0x3#3 ++ o)
  | .gbLtu a b o => some (0x36#6 ++ a ++ b ++ 0x4#3 ++ o)
  | .gbGeu a b o => some (0x36#6 ++ a ++ b ++ 0x5#3 ++ o)
  | .gbAl o => some (0x36#6 ++ 0x006#11 ++ o)
  | .migrate => none
  | .retire => none
  | .switched => none
  | .release => none
  | .migrationCopyComplete => none
  | .feop _ => none
  | .bind => none
  | .unbind => none
  | .bindLoadComplete => none
  | .yield _ => none
  | .intr _ => none
  | .pageServiceRelease _ => none
  | .tinvTenant _ _ => none
  | .tinvAsid _ _ _ => none
  | .tinvVa _ _ _ => none
  | .tinvAll _ => none
  | .tinvAcknowledged => none
  | .icinvAcknowledged => none
  | .tenWrite _ => none
  | .asidWrite _ => none
  | .ptbWrite _ => none
  | .vtypeWrite _ => none
  | .vlWrite _ => none
  | .vremWrite _ => none
  | .tkWrite _ => none
  | .chbWrite _ => none
  | .fstWrite _ => none
  | .statWrite _ => none
  | .csnRead _ => none
  | .registerWrite _ _ => none
  | .interrupt => none
  | .preempt => none
  | .machineCheck => none
  | .breakpoint => none
  | .chunkCommit _ => none
  | .chunkBudgetExhausted => none
  | .writeSetLimit => none
  | .reservationGrant => none
  | .fullEmptyRelease => none
  | .barrierRelease => none
  | .rendRelease => none
  | .engineDrainComplete _ => none
  | .rqResult => none
  | .quantumBoundary => none
  | .powerWindowEnd _ => none
  | .thermalThrottle _ => none
  | .thermalTrip _ => none
  | .coldReset => none
  | .warmReset => none
  | .fabricCommandedReset => none
  | .powerLoss => none
  | .mcBootComplete => none
  | .hbmTrainingComplete _ _ => none
  | .quadStart _ => none
  | .dbgfrz => none
  | .freezeComplete => none
  | .sealingComplete => none
  | .read _ => none
  | .write _ => none
  | .atomic _ => none
  | .readData _ => none
  | .writeAck _ => none
  | .atomicAck _ => none
  | .launch _ => none
  | .coll _ => none
  | .collectiveComplete => none
  | .load _ => none
  | .unload _ => none
  | .klist _ => none
  | .queueSet _ => none
  | .agingSet _ => none
  | .capsuleList _ => none
  | .capsuleGet _ => none
  | .capsuleAck _ => none
  | .idkey _ => none
  | .debugFreeze _ => none
  | .groupSet _ => none
  | .memberFail _ => none
  | .redirectClear _ => none
  | .notAnInstruction _ => none
  | .fetchPage => none
  | .illegalWord _ => none
  | .fetchError _ => none
  | .unknownMessageType _ _ => none

end Sys2Proof
end

