-- ==== Sys2Proof/Config.lean ====
section
/-! DEFINITION. What one part fixes and the spec does not: the free values, which nothing in Lean can evaluate, and the
constants of the configuration that the log names. -/
namespace Sys2Proof.Config

/-- The package identity key's public point, 97 bytes (26 R420). The spec gives no value: a free value (log 3). -/
opaque identityKeyByte : Nat → Byte

/-- A byte of the signature of a capsule, by the bytes before the signature and position (26 R417). The spec gives the algorithm
and no key: a free value (log 3). -/
opaque signatureByte : List Byte → Nat → Byte

/-- The part is debug-unlocked, a lock fixed at manufacture (26 R421). The spec leaves which parts are unlocked open
(log 3). -/
opaque debugUnlocked : Bool

/-- SAVEVA that the MC sets for a context, by CTXID: the VA at which software has mapped its save area (17 R344). The spec
gives no value: a free value (log 3). -/
opaque saveVa : Nat → BitVec 64

/-- REASON of a COMMIT record whose boundary 26 R413 codes no reason for: 0 `SY.RET`, 1 `SY.PARK`. A free value (log 3). -/
opaque otherReason : Nat → BitVec 4

/-- ADDR of the error word of a collective run with code BADGROUP, MISMATCH or EXPELLED, by code and serial: 25 R408 gives the
codes and no address. A free value (log 3). -/
opaque errorAddr : Nat → Nat → BitVec 49

/-- Tenant to which the shipped firmware has given a barrier of scope PKG or POD, by offset of its owner entry: the configuration of
the fabric management service, which the spec does not give (14 R298). A free value (log 3). -/
opaque barrierTenant : Nat → BitVec 16

/-- Records that a unit still takes before a freeze wave reaches it, by CAPID of the freeze's first capsule and unit: 26 R415 gives the
wave no time. A free value (log 101). -/
opaque waveAfter : Nat → Nat → Nat

/-- Register xa of the SY.SWR word that TVAL names when the write of a system register, as an event, traps PRIV, by number and value: the
event names no word (00 R6, 17 R346). A free value (log 47). -/
opaque sourceReg : Nat → Nat → BitVec 5

/-- Translations that a core holds (03 R57). -/
def tlbEntries : Nat := 512
/-- Translations that a die holds for its cores (03 R57). -/
def dieTlbEntries : Nat := 32768
/-- Lines of 64 bytes that a fetch unit holds: 17 R351 gives no number (log 110). DESIGN CHOICE -/
def textLines : Nat := 1024

end Sys2Proof.Config
end

