-- ==== Sys2Proof/Machine/State.lean ====
section
/-! DEFINITION. The state of the package as plain data: everything the spec gives the machine (INVENTORY.md, '## State'), the
reasons a step can stop, and the state right after a cold reset. -/
namespace Sys2Proof.Machine

/-- Memory as a list of (address, byte) pairs with strictly rising addresses; an address that is not listed reads 0, and no
listed byte is 0 (27 R422 clears memory at reset, 04 R76 the scratchpad). -/
abbrev Mem := List Host.Cell

/-- The causes of a trap (17 R346). -/
inductive Cause where
  | illegal | reservedMajor | priv | textStore | loadPage | storePage | fetchPage | align | vuse | tuse
  | verdictOperand | fp | repeatFrame | badHandle | deviceAccess | trap | breakpoint | range | engine
  | machineCheck | interrupt | preempt
  deriving DecidableEq, Repr

/-- What a core waits for when its instruction can neither complete nor trap (04 R81, 05 R98, 14 R300, 27 R425 and others). -/
inductive Wait where
  /-- A consuming load, for a granule to become full (04 R81). -/
  | fullEmpty (g : Nat)
  /-- `SQ.WT`, for the generation of barrier register b to advance (14 R300). -/
  | barrier (b : BitVec 3)
  /-- `CE.REND` or `CE.ERD`, for the engine to leave RUNNING or to drain (05 R98). -/
  | rend (e : BitVec 2)
  /-- A reader of an open vector register, for presence bit g (05 R100). -/
  | presence (v g : Nat)
  /-- A remote access, for the remote home's answer (14 R293). -/
  | remote
  /-- A POD-scope fence, for the acknowledgements (14 R292, R294). -/
  | fence
  /-- A write to TINV, for every die's acknowledgement (03 R61). -/
  | tinv
  /-- `SY.ICINV`, for every die's acknowledgement (17 R352). -/
  | icinv
  /-- An access to HBM or an FP64 product in reduced service (27 R425). -/
  | reduced
  /-- A chunk that waits for its reservation (14 R288). -/
  | reservation
  /-- `SY.END`, for running engines (05 R112). -/
  | engines
  /-- Nothing: a squash, or the end of a wait inside, has put the core back inside its instruction, which goes on when the core runs next
  (14 R281, R287; log 96). -/
  | midway
  deriving DecidableEq, Repr

/-- Run states of an engine (05 R93). -/
inductive RunState where
  | idle | running | ended | failed | joined | joinedFailed
  deriving DecidableEq, Repr

/-- STATE of a slot (16 R330). -/
inductive SlotState where
  | empty | binding | bound | unbinding
  deriving DecidableEq, Repr

/-- States of a context that the MC keeps (16 R334). -/
inductive CtxState where
  | pending | runnable | bound | waiting | ended
  deriving DecidableEq, Repr

/-- STATE of a migration operation (03 R62, R63). -/
inductive MigState where
  | idle | copy | switch | redirect | done
  deriving DecidableEq, Repr

/-- States of the recorder (26 R416). -/
inductive RecState where
  | armed | freezing | sealing
  deriving DecidableEq, Repr

/-- How the instruction that moves last ended: it retired, it trapped, or it waits. The step reads it. -/
inductive Prog where
  | retired | trapped | waiting
  deriving DecidableEq, Repr

/-- A window descriptor of accumulation windows (13 R274). -/
structure Window where
  valid : Bool
  base  : Word
  nel   : BitVec 24
  off   : BitVec 22
  op    : BitVec 3
  fmt   : BitVec 5
  deriving DecidableEq, Repr

/-- The architectural registers of a context and its core that a squash restores (14 R287): the scalar registers and pc,
the register files, and the system registers as their 64-bit images. -/
structure Regs where
  pc       : Word
  x        : Vector Word 32
  v        : Vector VReg 32
  m        : Vector MReg 16
  t        : Vector TReg 16
  /-- Zero maps (07 R143). -/
  z        : Vector (BitVec 32) 32
  vl       : Word
  vtype    : Word
  vstart   : Word
  vrem     : Word
  rps      : Word
  tk       : Word
  srseed   : Word
  srcnt    : Word
  fst      : Word
  stat     : Word
  epc      : Word
  cause    : Word
  tval     : Word
  tvec     : Word
  scratch  : Word
  vqpos    : Word
  saveva   : Word
  bpa      : Vector Word 8
  bpctx    : Word
  chb      : Word
  ten      : Word
  asid     : Word
  ptb      : Word
  tiva     : Word
  ctxid    : Word
  ctxrank  : Word
  groupsz  : Word
  b        : Vector Word 8
  win      : Vector Window 4
  /-- Sequence number of the next VQ entry (15 R303). -/
  seq      : BitVec 32
  /-- No frame of RPS runs, whatever ACT holds: the handler was entered, or it has written RPS, and has not returned (15 R320): the
  model's own field. -/
  susp     : Bool
  deriving DecidableEq, Repr

/-- A no-return atomic pending in a chunk (13 R272): its address, width in bytes, operation and operand. -/
structure ComUpd where
  addr : Nat
  n    : Nat
  op   : BitVec 4
  val  : Word
  deriving DecidableEq, Repr

/-- A held translation (03 R57): the tenant and ASID it was walked under, the page's first VA, its size, its frame and the
leaf. -/
structure Tlb where
  ten  : Word
  asid : Word
  va   : Nat
  size : Nat
  base : Nat
  pte  : Word
  deriving DecidableEq, Repr

/-- A byte of memory that a P = 1 load of the chunk has read (07 R150): its physical address, the vector register it went to, where
in the register its bit 0 stands or would stand, and which of its bits went there. -/
structure Lend where
  pa   : Nat
  reg  : Nat
  bit  : Nat
  mask : BitVec 8
  deriving DecidableEq, Repr

/-- The instruction that a core has fetched and not completed: its word, the vector registers as it found them, and VSTART at its start
(07 R157, R160; 14 R282; log 96). -/
structure Held where
  word  : BitVec 32
  v     : Vector VReg 32
  start : Word
  /-- Part of it has been performed in chunks that have committed, wherever VSTART stands (14 R281). -/
  part  : Bool
  deriving DecidableEq, Repr

/-- The current chunk of a core (14 R279-R288). -/
structure Chunk where
  /-- The registers at the chunk's start (14 R287). -/
  start  : Regs
  /-- Bytes written and not yet committed, by physical address (14 R283). -/
  wr     : Mem
  /-- Lines written, commutative updates not included. -/
  wlines : List Nat
  /-- Lines read. -/
  rlines : List Nat
  /-- Commutative updates in program order (13 R272). -/
  com    : List ComUpd
  /-- Undo bytes of the scratchpad, as they stood at the chunk's start (04 R74). -/
  undo   : Mem
  /-- Scratchpad lines that have an undo image. -/
  ulines : List Nat
  /-- Instructions of the chunk so far (14 R279). -/
  count  : Nat
  /-- Translations the chunk has used (03 R61). -/
  used   : List Tlb
  /-- An instruction that is not complete has performed an element in the chunk (14 R281, R284). -/
  begun  : Bool
  /-- Old values of bytes that P = 1 stores of the chunk have written, which later scalar loads may still return (13 R264). -/
  late   : List (Nat × Byte)
  /-- Bytes that P = 1 loads of the chunk have read, which later scalar stores may still overtake (07 R150). -/
  lends  : List Lend
  /-- The instruction inside which the chunk has started, if it has (14 R281): the model's own field. -/
  inside : Option Held
  deriving DecidableEq, Repr

/-- An access to a remote package that is out (14 R293, 05 R109): its TAG, address and width, and the answer. TAG 0 stands for the
bytes of this package that an access across two pages has read beside the remote ones (04 R431). -/
structure Remote where
  tag   : Nat
  addr  : Nat
  n     : Nat
  /-- A WRITE, of which only the acknowledgement is awaited. -/
  put   : Bool
  /-- The translation it was made under (03 R61). -/
  tlb   : Tlb
  reply : Option (List Byte)
  deriving DecidableEq, Repr

/-- An engine of a core (05 R91, R92, R97, R99, R110). -/
structure Engine where
  serial : BitVec 24
  run    : RunState
  pc     : Word
  r      : Vector Word 16
  err    : Word
  openV  : BitVec 32
  openM  : BitVec 16
  openT  : BitVec 16
  ten    : Word
  asid   : Word
  ptb    : Word
  /-- The forking context's mode: true is supervisor. -/
  sup    : Bool
  /-- Bytes of the current EM.COPY2 row already moved: the model's own field (05 R105). -/
  part   : Nat
  /-- Remote accesses of the engine that are out. -/
  out    : List Remote
  /-- TAG of the next message of the package at the CE.FORK of the run: a remote write of the core with a lower TAG comes before the run
  (05 R107; log 97): the model's own field. -/
  since  : Nat
  deriving DecidableEq, Repr

/-- A TINV that waits for its acknowledgements (03 R61). -/
structure Tinv where
  kind  : BitVec 2
  ten   : BitVec 16
  asid  : BitVec 16
  va    : Word
  scope : BitVec 3
  deriving DecidableEq, Repr

/-- The slot of a core (16 R330, R331). -/
structure Slot where
  savepa : BitVec 40
  queue  : BitVec 10
  prio   : BitVec 3
  state  : SlotState
  ctxid  : Word
  /-- An UNBIND arrived while BINDING (16 R331). -/
  held   : Bool
  /-- A BIND waits to read its save area in HBM (27 R425). -/
  asked  : Bool
  deriving DecidableEq, Repr

/-- A load that stopped inside (07 R142, R155): the first register of its destination, the registers that it writes and that CE.OPEN has
not opened since, the bits that an element takes, and the element. -/
structure Halt where
  reg  : Nat
  regs : BitVec 32
  bits : Nat
  elem : Nat
  deriving DecidableEq, Repr

/-- A write outside the chunks (14 R289-R292): its path class, its unit (a core, or a die for the migration engines), the context
for which it was made, and the lines written. -/
structure OutWrite where
  cls   : Nat
  unit  : Nat
  ctxid : Word
  line  : Nat
  lines : Nat
  deriving DecidableEq, Repr

/-- A CE.FENCEX that has begun and not committed (14 R292): its scope and clsB. -/
structure Fence where
  scope : BitVec 3
  cls   : Nat
  /-- TAGs of the remote accesses that it waits for: those that were out when it began (14 R292 step 2). -/
  since : List Nat
  deriving DecidableEq, Repr

/-- A line of 64 bytes of text that a fetch unit holds: its number, and its words as they were fetched (17 R351). -/
structure Line where
  num   : Nat
  words : List (BitVec 32)
  deriving DecidableEq, Repr

/-- A check-lane mismatch that the hardware will meet (17 R355): the pipe, and whether the reissue mismatches too. -/
structure LaneFault where
  pipe  : Bool
  again : Bool
  deriving DecidableEq, Repr

/-- What a member has contributed to a collective: its rank and the bytes of its source, by offset (25 R405). -/
structure Segment where
  rank  : Nat
  bytes : Mem
  /-- Bytes that have arrived, by offset and count. -/
  spans : List (Nat × Nat)
  deriving DecidableEq, Repr

/-- A run of a collective engine (25 R402-R409): the core it was started on and the context. -/
structure CollRun where
  core   : Nat
  ctxid  : Word
  serial : BitVec 24
  ten    : Word
  asid   : Word
  ptb    : Word
  sup    : Bool
  op     : BitVec 3
  src    : Word
  dst    : Word
  count  : Nat
  fmt    : BitVec 8
  rop    : BitVec 3
  group  : Nat
  /-- It is the index-th collective of the group by this member. -/
  index  : Nat
  epoch  : BitVec 32
  shrunk : Bool
  segs   : List Segment
  /-- RUNNING, ENDED or FAILED. -/
  run    : RunState
  /-- The status word of a run that has ended, or the error word of one that has failed. -/
  result : Word
  deriving DecidableEq, Repr

/-- One core (01 R15): its registers, chunk, engines, scratchpad, slot and everything else that belongs to it. -/
structure Core where
  regs     : Regs
  /-- CSN of the context's last commit (14 R286). -/
  csn      : Word
  cycle    : Word
  instret  : Word
  chunk    : Option Chunk
  /-- Consecutive squashes of the chunk that starts here (14 R288). -/
  squashes : Nat
  /-- The chunk holds a reservation (14 R288). -/
  reserved : Bool
  eng      : Vector Engine 4
  /-- Presence bits (07 R141); all ones for a closed register. -/
  pres     : Vector (BitVec 32) 32
  /-- Bytes of an open vector register that the engine has written since the open (05 R100). -/
  cover    : Vector (BitVec 2048) 32
  /-- Scratchpad bytes by offset (04 R71). -/
  scratch  : Mem
  /-- Full/empty bits (04 R79). -/
  fe       : BitVec 196608
  /-- FESTAT.BADOP (04 R77). -/
  badop    : Bool
  slot     : Slot
  /-- The tenant of the context bound last (04 R76). -/
  lastTen  : Option (BitVec 16)
  /-- INTR (17 R340). -/
  intr     : Word
  /-- SUPVEC (17 R341). -/
  supvec   : Word
  tlb      : List Tlb
  /-- Lines of text that the fetch units hold, newest first: engines 0 to 2, and in the last place the core (17 R351). -/
  text     : Vector (List Line) 4
  tinv     : Option Tinv
  /-- An `SY.ICINV` that waits, with its scope. -/
  icinv    : Option (BitVec 3)
  /-- Remote accesses of the core that are out. -/
  out      : List Remote
  /-- The fence that waits: no source of its clsB that it covers begins an access (14 R292 step 5). -/
  fence    : Option Fence
  wait     : Option Wait
  /-- The instruction that waits: the model's own field (log 96). -/
  held     : Option Held
  prog     : Prog
  /-- The chunk ends after the current instruction, for this REASON (14 R279, 26 R413). -/
  endAfter : Option (BitVec 4)
  /-- The handler is being entered: its first fetch has not succeeded yet (17 R341). -/
  entering : Bool
  /-- A PREEMPT has been taken: the engines stand still until the next bind (05 R113). -/
  stopped : Bool
  /-- The UNBIND has reached the core inside the instruction that runs next, not before it (16 R333; log 1): the model's own field. -/
  inside : Bool
  /-- Where the last load that stopped inside stands, until a VQ entry completes or a window write comes (07 R142; log 68). -/
  halt : Option Halt
  /-- The target of a transfer of control that is not recorded yet (26 R412): the model's own field. -/
  xfer : Option Word
  /-- A machine check not tied to an instruction has not been taken yet (17 R357). -/
  mcheck : Bool
  /-- Lane marked failed in each pipe (17 R355). -/
  lane     : Vector (Option (BitVec 5)) 2
  /-- A second lane failed: the core binds nothing more (17 R355). -/
  lost     : Bool
  /-- Mismatches the check lane will meet, next first (17 R355). -/
  lanes    : List LaneFault
  deriving DecidableEq, Repr

/-- A queue descriptor (16 R328). -/
structure Queue where
  val  : Bool
  prio : BitVec 3
  ten  : BitVec 16
  asid : BitVec 16
  root : BitVec 38
  deriving DecidableEq, Repr

/-- A context that has been launched (16 R323, R329, R334). -/
structure Ctx where
  ctxid  : Word
  queue  : Nat
  state  : CtxState
  /-- CTXID of rank 0 of its group. -/
  group  : Word
  rank   : Nat
  size   : Nat
  place  : BitVec 3
  /-- Home quad (package-wide number, 12 a die) or home die, once chosen (16 R329). -/
  home   : Option Nat
  savepa : BitVec 40
  entry  : Word
  /-- Tenant and ASID it was launched with. -/
  ten    : BitVec 16
  asid   : BitVec 16
  /-- VQ sequence number its next entry receives while it is off a slot: the numbers count per context (15 R303). -/
  seq    : BitVec 32
  /-- Bytes of its open vector registers that an engine has written since the open, while it is off a slot (05 R100). -/
  cover  : Vector (BitVec 2048) 32
  /-- PRIO of its queue when it was launched (16 R328). -/
  prio   : BitVec 3
  /-- The quantum at whose start it gave up its slot, while it waited, for another context of its queue; 0 once it is bound again
  (16 R336). -/
  gave   : Nat
  deriving DecidableEq, Repr

/-- The migration engine of a die (03 R62, R63). -/
structure Mig where
  old   : Word
  new   : Word
  state : MigState
  busy  : Bool
  bad   : Bool
  evt   : Bool
  /-- The operation in progress or last started: old frame, new frame, size in bytes, and whether it retires. -/
  opOld  : Nat
  opNew  : Nat
  opSize : Nat
  retire : Bool
  /-- Redirection entries: old frame, new frame, size (03 R65). -/
  redir : List (Nat × Nat × Nat)
  deriving DecidableEq, Repr

/-- SLOTSTAT of a die (16 R330). -/
structure SlotStat where
  reason  : BitVec 3
  slot    : BitVec 6
  refused : Bool
  deriving DecidableEq, Repr

/-- A hardware barrier (14 R295): its scope, instance and id, arrivals and COUNT of the generation, generation number. -/
structure HwBar where
  scope : BitVec 3
  inst  : Nat
  bid   : Nat
  arr   : Nat
  cnt   : Nat
  gen   : BitVec 8
  deriving DecidableEq, Repr

/-- A membership entry (25 R404): VAL, its epoch and its members in rank order. -/
structure Group where
  num     : Nat
  val     : Bool
  epoch   : BitVec 32
  members : List (BitVec 11)
  /-- Collectives of the group begun so far by this package. -/
  begun   : Nat
  deriving DecidableEq, Repr

/-- A GROUP-SET whose parts are arriving (25 R404; log 27): sender, TAG, group and entry, and the ids so far by rank. -/
structure GroupJob where
  src   : BitVec 12
  tag   : Word
  num   : Nat
  entry : Word
  ids   : List (Nat × BitVec 11)
  deriving DecidableEq, Repr

/-- A load whose fragments are arriving (23 R385): the sender, the TAG, what the first fragment named, and the bytes so far. -/
structure LoadJob where
  src    : BitVec 12
  tag    : Word
  ten    : BitVec 16
  asid   : BitVec 16
  base   : Word
  total  : Nat
  frags  : List (Nat × List Byte)
  failed : Bool
  deriving DecidableEq, Repr

/-- A symbol of a loaded image that others may see (23 R376, R381): name, address, and whether it is a kernel, with its index. -/
structure Sym where
  name   : List Byte
  addr   : Word
  kernel : Bool
  global : Bool
  index  : Nat
  deriving DecidableEq, Repr

/-- A loaded image (23 R378, R382-R384). -/
structure Image where
  ten   : BitVec 16
  asid  : BitVec 16
  base  : Word
  /-- End of the last section. -/
  stop  : Nat
  /-- Root table under which its pages are mapped. -/
  root  : Nat
  /-- First VA of each mapped page of 64 KiB, and its frame. -/
  pages : List (Nat × Nat)
  syms  : List Sym
  got   : Word
  /-- Bases of the objects whose symbols it resolved against. -/
  uses  : List Word
  deriving DecidableEq, Repr

/-- A recorder ring (26 R410, R411, R414): records newest first, the next SEQ, the CSN high word last recorded and HIBASE. -/
structure Ring where
  seq    : BitVec 42
  recs   : List (Word × Word)
  lastHi : BitVec 32
  hibase : BitVec 32
  /-- The unit has written its FREEZE and accepts no record (26 R415). -/
  frozen : Bool
  /-- CSN of the unit's last COMMIT, 0 before one (26 R413). -/
  last   : Word
  /-- A freeze wave is on its way to the unit and reaches it once it has taken this many records more (26 R415; log 101). -/
  due    : Option Nat
  deriving DecidableEq, Repr

/-- A crash capsule or its index entry (26 R417, R419). -/
structure Capsule where
  capid   : Word
  tenant  : BitVec 16
  size    : Nat
  dropped : Bool
  bytes   : List Byte
  deriving DecidableEq, Repr

/-- The recorder of the package (26 R410-R420). -/
structure Recorder where
  state  : RecState
  rings  : List (Nat × Ring)
  origin : Nat
  fkind  : BitVec 4
  /-- Tenant of the context bound at the origin, 0 when none. -/
  oten   : BitVec 16
  later  : BitVec 32
  /-- The package CSN when the sealing began (26 R417). -/
  fcsn   : Word
  caps   : List Capsule
  capid  : Word
  deriving DecidableEq, Repr

/-- Power and service (27 R423-R429). -/
structure Power where
  hbmFail : BitVec 12
  pwr     : BitVec 16
  temp    : BitVec 8
  tlvl    : BitVec 3
  /-- The throttle level that the MC has chosen; TLVL follows at an instruction boundary (27 R426, R428). -/
  level   : BitVec 3
  dieOn   : BitVec 3
  svc     : BitVec 3
  /-- Stacks that have finished training. -/
  trained : BitVec 12
  /-- Quads started of each die. -/
  quads   : Vector Nat 3
  /-- Consecutive windows below 2,600 W (27 R428). -/
  low     : Nat
  /-- TEMP reached 95 and has not fallen below 90 (27 R429). -/
  hot     : Bool
  /-- TEMP reached 105: HOLD follows the sealing (27 R429). -/
  trip    : Bool
  /-- Every clock is stopped by a debug freeze (26 R421). -/
  frozen  : Bool
  deriving DecidableEq, Repr

/-- The policy firmware's own bookkeeping (16 R335): queues mapped or waiting with the quantum since when, the aging limit, the
quanta so far. -/
structure Policy where
  mapped  : List (Nat × Nat)
  waiting : List (Nat × Nat)
  aging   : Nat
  quantum : Nat
  /-- A slot has become free and is not filled yet (16 R335). -/
  freed   : Bool
  deriving DecidableEq, Repr

/-- Who moves next on a core: its instruction, one of its engines, or an event (log 1). -/
inductive Act where
  | run
  | engine (e : BitVec 2)
  | event (i : Instr)
  deriving DecidableEq, Repr

/-- One entry of the agenda: the core it concerns and who moves. -/
structure Move where
  core : Nat
  act  : Act
  deriving DecidableEq, Repr

/-- The state of one SV3 package. -/
structure State where
  /-- The focused core, 0 to 143, the one that `core` holds. -/
  cur     : Nat
  /-- The engine whose word is executed: the model's own field. -/
  eng     : BitVec 2
  core    : Core
  /-- The other cores that have moved since the reset, by rising number; a core not listed is in its reset state. -/
  others  : List (Nat × Core)
  /-- HBM and LPDDR, by physical address. -/
  mem     : Mem
  /-- Poisoned 64-byte lines, by line number (17 R356). -/
  poison  : List Nat
  /-- Queue descriptors that differ from their reset value, by rising number (16 R328). -/
  queues  : List (Nat × Queue)
  /-- Barrier owner entries that are not 0, by device offset and die, as PA (14 R298). -/
  owners  : List (Nat × Word)
  mig     : Vector Mig 3
  slotst  : Vector SlotStat 3
  ctxs    : List Ctx
  nextCtx : Word
  csn     : Word
  hwbars  : List HwBar
  /-- Cores that hold a reservation or ask for one, in the order of grants (14 R288). -/
  grants  : List Nat
  jobs    : List LoadJob
  setting : List GroupJob
  images  : List Image
  /-- Next frame of the firmware's pool that no one has used yet (log 12). -/
  pool    : Nat
  /-- Frames of 64 KiB that unloads have freed (23 R384). -/
  frames  : List Nat
  /-- Translations that the TLB of each die holds for its cores, newest first (03 R57). -/
  dieTlb  : Vector (List Tlb) 3
  /-- Writes outside the chunks, newest first (14 R292). -/
  outside : List OutWrite
  /-- Launch messages that the primary MC has not served yet, oldest first (16 R327). -/
  inbox   : List Msg
  /-- A POD-scope fence stands before what the package sends: its messages carry ORD (25 R399). -/
  ord     : Bool
  pkg     : BitVec 11
  /-- Rights that the pod does not grant: a host, and an operation code, or 256 and a tenant (25 R400, 26 R420, 23 R385; log 12). -/
  denied  : List (BitVec 12 × Nat)
  /-- Messages sent, oldest first: TYPE and message. -/
  outbox  : List (BitVec 8 × Msg)
  nextTag : Nat
  groups  : List Group
  /-- Runs of the collective engines, until their context starts another or ends (25 R403). -/
  runs    : List CollRun
  recd    : Recorder
  power   : Power
  policy  : Policy
  /-- Who moves next; when it is empty, the focused core runs (log 1). -/
  agenda  : List Move
  /-- Choices that rules leave open, next first; 0 when it is empty (log 1). -/
  oracle  : List Nat
  deriving DecidableEq, Repr

/-- Why the machine stops. -/
inductive Fault where
  /-- An event writes a register at a physical address that lies in no device block: no such register exists (03 R45, R430).
  Raised by REGISTER_WRITE alone; no instruction of a core raises it. Safe. -/
  | unbacked (pa : Nat)
  deriving DecidableEq, Repr

/-- Why an instruction is refused. -/
inductive Refusal where
  /-- The instruction has no meaning in this model yet. Raised by exec alone. Safe. -/
  | notModelled (mnemonic : String)
  deriving DecidableEq, Repr

/-- No window (13 R274). -/
def Window.none : Window := ⟨false, 0, 0, 0, 0, 0⟩

/-- The registers after a cold reset (17 R343, R344; 07 R136; 08 R168, R178; 12 R254; 14 R280; 03 R59). Registers without a
reset value hold 0 (log 2). DESIGN CHOICE -/
def Regs.reset : Regs where
  pc := 0
  x := Vector.replicate 32 0
  v := Vector.replicate 32 0
  m := Vector.replicate 16 0
  t := Vector.replicate 16 0
  z := Vector.replicate 32 0
  vl := 0
  vtype := 0
  vstart := 0
  vrem := 0
  rps := 0
  tk := 0xFF800000#64
  srseed := 0
  srcnt := 0
  fst := 0
  stat := 1
  epc := 0
  cause := 0
  tval := 0
  tvec := 0
  scratch := 0
  vqpos := 0
  saveva := 0
  bpa := Vector.replicate 8 0
  bpctx := 0
  chb := 4096
  ten := 0
  asid := 0
  ptb := 0
  tiva := 0
  ctxid := 0
  ctxrank := 0
  groupsz := 0
  b := Vector.replicate 8 0
  win := Vector.replicate 4 Window.none
  seq := 0
  susp := false

/-- An engine after reset: IDLE, serial 0 (05 R92, R93). DESIGN CHOICE for the fields without a reset value (log 2). -/
def Engine.reset : Engine := ⟨0, .idle, 0, Vector.replicate 16 0, 0, 0, 0, 0, 0, 0, 0, false, 0, [], 0⟩

/-- A slot after reset: EMPTY (16 R330, 27 R422). -/
def Slot.reset : Slot := ⟨0, 0, 0, .empty, 0, false, false⟩

/-- A core after a cold reset (04 R76, 27 R422). -/
def Core.reset : Core where
  regs := Regs.reset
  csn := 0
  cycle := 0
  instret := 0
  chunk := none
  squashes := 0
  reserved := false
  eng := Vector.replicate 4 Engine.reset
  pres := Vector.replicate 32 (BitVec.allOnes 32)
  cover := Vector.replicate 32 0
  scratch := []
  fe := 0
  badop := false
  slot := Slot.reset
  lastTen := none
  intr := 0
  supvec := 0
  tlb := []
  text := Vector.replicate 4 []
  tinv := none
  icinv := none
  out := []
  fence := none
  wait := none
  held := none
  prog := .retired
  endAfter := none
  entering := false
  stopped := false
  inside := false
  halt := none
  xfer := none
  mcheck := false
  lane := Vector.replicate 2 none
  lost := false
  lanes := []

/-- A migration engine after reset: idle (03 R63). -/
def Mig.reset : Mig := ⟨0, 0, .idle, false, false, false, 0, 0, 0, false, []⟩

/-- A queue descriptor after reset: not valid (16 R328). -/
def Queue.reset : Queue := ⟨false, 0, 0, 0, 0⟩

/-- An empty ring (26 R410). -/
def Ring.reset : Ring := ⟨0, [], 0, 0, false, 0, none⟩

/-- The recorder after a cold reset: armed and empty (26 R410, R416, R417). -/
def Recorder.reset : Recorder := ⟨.armed, [], 0, 0, 0, 0, 0, [], 1⟩

/-- Power and service after a reset: MC-BOOT (27 R423, R427). -/
def Power.reset : Power := ⟨0, 0, 0, 0, 0, 0, 1, 0, Vector.replicate 3 0, 0, false, false, false⟩

/-- The firmware's bookkeeping after a reset. -/
def Policy.reset : Policy := ⟨[], [], 0, 0, false⟩

/-- First frame of the firmware's pool, in LPDDR (log 12). DESIGN CHOICE -/
def poolStart : Nat := 0x1000100000000

/-- The package right after a cold reset (27 R422): nothing in memory, no context, every slot EMPTY, the MCs booting. -/
def State.reset : State where
  cur := 0
  eng := 0
  core := Core.reset
  others := []
  mem := []
  poison := []
  queues := []
  owners := []
  mig := Vector.replicate 3 Mig.reset
  slotst := Vector.replicate 3 ⟨0, 0, false⟩
  ctxs := []
  nextCtx := 1
  csn := 0
  hwbars := []
  grants := []
  jobs := []
  setting := []
  images := []
  pool := poolStart
  frames := []
  dieTlb := Vector.replicate 3 []
  outside := []
  inbox := []
  ord := false
  pkg := 0
  denied := []
  outbox := []
  nextTag := 1
  groups := []
  runs := []
  recd := Recorder.reset
  power := Power.reset
  policy := Policy.reset
  agenda := []
  oracle := []

end Sys2Proof.Machine
end

