-- ==== Sys2Proof/Machine/Mem.lean ====
section
/-! DEFINITION. Lists of cells, memory in its canonical form, and bytes as little-endian numbers (00 R4). -/
namespace Sys2Proof.Machine

/-- The byte listed at an address, if one is. -/
def cellFind : List Host.Cell → Nat → Option Byte
  | [], _ => none
  | (k, b) :: r, a => if a = k then some b else if a < k then none else cellFind r a

/-- The list with byte `b` at address `a`, addresses rising. -/
def cellPut : List Host.Cell → Nat → Byte → List Host.Cell
  | [], a, b => [(a, b)]
  | (k, c) :: r, a, b =>
    if a < k then (a, b) :: (k, c) :: r else if a = k then (k, b) :: r else (k, c) :: cellPut r a b

/-- The list without address `a`. -/
def cellDel : List Host.Cell → Nat → List Host.Cell
  | [], _ => []
  | (k, c) :: r, a => if a < k then (k, c) :: r else if a = k then r else (k, c) :: cellDel r a

/-- The byte memory holds at an address; an address that is not listed holds 0. -/
def memGet (m : Mem) (a : Nat) : Byte := (cellFind m a).getD 0

/-- Memory with byte `b` at address `a`, in canonical form: a byte 0 is not listed. -/
def memSet (m : Mem) (a : Nat) (b : Byte) : Mem := if b = 0 then cellDel m a else cellPut m a b

/-- Every address of the list lies above `a`, addresses rise, and no byte is 0. -/
def wfAbove : Option Nat → Mem → Bool
  | _, [] => true
  | lo, (k, b) :: r =>
    (match lo with
      | none => true
      | some l => decide (l < k)) && b != 0 && wfAbove (some k) r

/-- The canonical form of memory: addresses strictly rising, no listed byte 0. -/
def Mem.wf (m : Mem) : Bool := wfAbove none m

/-- `n` bytes from address `a`. -/
def memRead (m : Mem) (a n : Nat) : List Byte := (List.range n).map fun i => memGet m (a + i)

/-- Memory with the bytes written from address `a` up. -/
def memWrite (m : Mem) (a : Nat) (bs : List Byte) : Mem :=
  bs.zipIdx.foldl (fun m p => memSet m (a + p.2) p.1) m

/-- The number a list of bytes holds, lowest first (00 R4). -/
def leNat : List Byte → Nat
  | [] => 0
  | b :: r => b.toNat + 256 * leNat r

/-- The lowest `n` bytes of a number, lowest first (00 R4). -/
def leBytes (n v : Nat) : List Byte := (List.range n).map fun i => BitVec.ofNat 8 (v >>> (8 * i))

/-- Byte `i` of a register seen as bytes (04 R72). -/
def byteOf {w : Nat} (v : BitVec w) (i : Nat) : Byte := v.extractLsb' (8 * i) 8

/-- `n` bytes of a register from byte `o` up. -/
def bytesOf {w : Nat} (v : BitVec w) (o n : Nat) : List Byte := (List.range n).map fun i => byteOf v (o + i)

/-- The register with its `w'` bits from `lo` up replaced by those of `x`. -/
def setField {w : Nat} (v : BitVec w) (lo w' x : Nat) : BitVec w :=
  (v &&& ~~~ (BitVec.ofNat w (2 ^ w' - 1) <<< lo)) ||| (BitVec.ofNat w (x % 2 ^ w') <<< lo)

/-- The `w'` bits of the register from `lo` up, as a number. -/
def getField {w : Nat} (v : BitVec w) (lo w' : Nat) : Nat := (v.toNat >>> lo) % 2 ^ w'

/-- The register with bytes written from byte `o` up (04 R72). -/
def setBytes {w : Nat} (v : BitVec w) (o : Nat) (bs : List Byte) : BitVec w :=
  setField v (8 * o) (8 * bs.length) (leNat bs)

/-- The 64-byte lines of `n` bytes at an address (14 R279). -/
def linesOf (a n : Nat) : List Nat :=
  if n = 0 then [] else (List.range ((a + n - 1) / 64 - a / 64 + 1)).map (a / 64 + ·)

/-- A list of rising numbers with one more, once. -/
def rising (x : Nat) : List Nat → List Nat
  | [] => [x]
  | y :: r => if x < y then x :: y :: r else if x = y then y :: r else y :: rising x r

/-- A list of line numbers with one more, without repeats. -/
def addLine (l : List Nat) (x : Nat) : List Nat := if l.elem x then l else x :: l

/-- A list of line numbers with several more. -/
def addLines (l xs : List Nat) : List Nat := xs.foldl addLine l

end Sys2Proof.Machine
end

