-- ==== Sys2Proof/Machine/Ops.lean ====
section
/-! DEFINITION. The operations every meaning is built from: outcomes, scalar registers, the cores of the package, recorder
records, the homes of memory, chunks (commit, squash, singletons), taking a trap and returning from one. -/
namespace Sys2Proof.Machine

/-- What a meaning answers. -/
abbrev Out := Host.Outcome State Fault Refusal

/-- Why the body of a meaning stops before its end. -/
inductive Stop where
  | trap (c : Cause) (tval : Word)
  | wait (w : Wait)
  /-- The PREEMPT that has reached the core inside the instruction is taken, at the element that VSTART names (16 R333). -/
  | cut
  deriving DecidableEq, Repr

/-- The body of a meaning: it changes the state, and it can stop; what it has changed by then stands. -/
abbrev M := EStateM Stop State

/-- Stops with a trap. -/
def raise {α : Type} (c : Cause) (tval : Word) : M α := throw (.trap c tval)
/-- Stops to wait. -/
def await {α : Type} (w : Wait) : M α := throw (.wait w)
/-- Traps unless the condition holds. -/
def ensure (b : Bool) (c : Cause) (tval : Word) : M Unit := if b then pure () else raise c tval

/-! ### Registers -/

/-- Register x[a]; x0 reads 0 (02 R38). -/
def Regs.rd (r : Regs) (a : BitVec 5) : Word := if a = 0 then 0 else r.x.get ⟨a.toNat, a.isLt⟩
/-- A write to x[d]; one to x0 is discarded (02 R38). -/
def Regs.wr (r : Regs) (d : BitVec 5) (v : Word) : Regs :=
  if d = 0 then r else { r with x := r.x.set d.toNat v d.isLt }
/-- The state with the focused core's registers changed. -/
def State.mapRegs (s : State) (f : Regs → Regs) : State := { s with core := { s.core with regs := f s.core.regs } }
/-- The state with the focused core changed. -/
def State.mapCore (s : State) (f : Core → Core) : State := { s with core := f s.core }
/-- Register x[a] of the focused core. -/
def State.x (s : State) (a : BitVec 5) : Word := s.core.regs.rd a
/-- The state with x[d] written. -/
def State.setX (s : State) (d : BitVec 5) (v : Word) : State := s.mapRegs (·.wr d v)
/-- The program counter. -/
def State.pc (s : State) : Word := s.core.regs.pc
/-- The state with the program counter written. -/
def State.setPc (s : State) (v : Word) : State := s.mapRegs fun r => { r with pc := v }

/-- Reads x[a]. -/
def getX (a : BitVec 5) : M Word := do return (← get).x a
/-- Writes x[d]. -/
def putX (d : BitVec 5) (v : Word) : M Unit := modify (·.setX d v)
/-- Changes the registers. -/
def modRegs (f : Regs → Regs) : M Unit := modify (·.mapRegs f)
/-- Changes the focused core. -/
def modCore (f : Core → Core) : M Unit := modify (·.mapCore f)
/-- The registers. -/
def regs : M Regs := do return (← get).core.regs

/-- The mode is user (17 R337). -/
def Regs.user (r : Regs) : Bool := !r.stat.getLsbD 0
/-- The two-bit state field of STAT at bit `sh` is off (17 R343). -/
def Regs.off (r : Regs) (sh : Nat) : Bool := r.stat.extractLsb' sh 2 == 0
/-- A state field of STAT set to dirty (17 R348). -/
def dirtyBit (b : Bool) (sh : Nat) (st : Word) : Word := if b then setField st sh 2 2 else st
/-- The state fields named set to dirty: VS, MS, TS (17 R348). -/
def Regs.dirty (r : Regs) (v m t : Bool) : Regs :=
  { r with stat := dirtyBit t 14 (dirtyBit m 12 (dirtyBit v 10 r.stat)) }
/-- Step 7 of 02 R26: the state fields named are not off, VS first, then MS, then TS (17 R348). -/
def needState (v m t : Bool) (w : Word) : M Unit := do
  let r ← regs
  ensure (!(v && r.off 10)) .vuse w
  ensure (!(m && r.off 12)) .vuse w
  ensure (!(t && r.off 14)) .tuse w

/-! ### The cores of the package -/

/-- Core `n` of the package. -/
def State.coreAt (s : State) (n : Nat) : Core :=
  if n = s.cur then s.core else ((s.others.find? fun p => p.1 == n).map (·.2)).getD Core.reset

/-- A list of pairs with rising keys, with the value of one key set. -/
def keyPut {α : Type} : List (Nat × α) → Nat → α → List (Nat × α)
  | [], n, c => [(n, c)]
  | (k, d) :: r, n, c =>
    if n < k then (n, c) :: (k, d) :: r else if n = k then (k, c) :: r else (k, d) :: keyPut r n c

/-- The value of a key in a list of pairs. -/
def keyGet {α : Type} (l : List (Nat × α)) (n : Nat) (dflt : α) : α := ((l.find? fun p => p.1 == n).map (·.2)).getD dflt

/-- The state with core `n` set. -/
def State.setCoreAt (s : State) (n : Nat) (c : Core) : State :=
  if n = s.cur then { s with core := c } else { s with others := keyPut s.others n c }

/-- The state with core `n` focused. -/
def State.focus (s : State) (n : Nat) : State :=
  if n = s.cur then s else
  { s with
    cur := n
    core := s.coreAt n
    others := (keyPut s.others s.cur s.core).filter fun p => p.1 != n }

/-- Every core that has moved with its number, the focused one first. -/
def State.cores (s : State) : List (Nat × Core) := (s.cur, s.core) :: s.others

/-- The die of a core (01 R13). -/
def dieOf (n : Nat) : Nat := n / 48

/-- A context is bound to the core (16 R331). -/
def Core.isBound (c : Core) : Bool := c.slot.state == .bound || c.slot.state == .unbinding

/-! ### The waggle recorder (26) -/

/-- The ring of a unit. -/
def State.ring (s : State) (u : Nat) : Ring := keyGet s.recd.rings u Ring.reset

/-- The state with the ring of a unit changed. -/
def State.mapRing (s : State) (u : Nat) (f : Ring → Ring) : State :=
  { s with recd := { s.recd with rings := keyPut s.recd.rings u (f (s.ring u)) } }

/-- One record put into the ring of a unit; a unit that has been frozen accepts none (26 R410, R411, R414, R415). -/
def push (u : Nat) (kind : BitVec 6) (ten : BitVec 16) (payload : Word) (s : State) : State :=
  let g := s.ring u
  if g.frozen then s else
  let key : Word := kind ++ ten ++ g.seq
  let last := if g.recs.length < 4096 then none else g.recs.getLast?
  let hib := match last with
    | some (p, k) => if k.extractLsb' 58 6 == 0x0D#6 then p.setWidth 32 else g.hibase
    | none => g.hibase
  s.mapRing u fun g => { g with seq := g.seq + 1, recs := ((payload, key) :: g.recs).take 4096, hibase := hib }

/-- A CSNHI record put before one that carries a CSNLO, when the high half has changed (26 R413). -/
def pushHi (u : Nat) (ten : BitVec 16) (csn : Word) (s : State) : State :=
  let g := s.ring u
  let hi := csn.extractLsb' 32 32
  if g.lastHi == hi || g.frozen then s else (push u 0x0D ten (hi.setWidth 64) s).mapRing u fun g => { g with lastHi := hi }

/-- Tenant of the context bound to a core, 0 when none is (26 R411). -/
def Core.tenant (c : Core) : BitVec 16 := if c.isBound then c.regs.ten.setWidth 16 else 0

/-- A freeze wave reaches a unit: it writes one FREEZE record and accepts no more (26 R413, R415). -/
def freezeUnit (s : State) (u : Nat) : State :=
  let g := s.ring u
  if g.frozen then s else
  let t := if u < 144 then (s.coreAt u).tenant else 0
  let hi : BitVec 32 := BitVec.ofNat 8 s.recd.origin ++ s.recd.fkind ++ 0#20
  let s1 := if g.last == 0 then push u 0x0E t (hi ++ 0#32) s else push u 0x0E t (hi ++ g.last.setWidth 32) (pushHi u t g.last s)
  s1.mapRing u fun g => { g with frozen := true, due := none }

/-- The unit has taken a record; a wave on its way has come nearer, and may reach it (26 R415). -/
def tick (u : Nat) (s : State) : State :=
  match (s.ring u).due with
  | none => s
  | some n => if n ≤ 1 then freezeUnit s u else s.mapRing u fun g => { g with due := some (n - 1) }

/-- One record at a unit (26 R412). -/
def record (u : Nat) (kind : BitVec 6) (ten : BitVec 16) (payload : Word) (s : State) : State := tick u (push u kind ten payload s)

/-- One record of the focused core. -/
def recordCur (kind : BitVec 6) (payload : Word) (s : State) : State := record s.cur kind s.core.tenant payload s

/-- The CSNHI record before one that carries a CSNLO, if one is due (26 R413). -/
def recordHi (u : Nat) (ten : BitVec 16) (csn : Word) (s : State) : State :=
  if (s.ring u).lastHi == csn.extractLsb' 32 32 then s else tick u (pushHi u ten csn s)

/-- A record that carries a CSNLO in its low half (26 R413). -/
def recordCsn (u : Nat) (kind : BitVec 6) (ten : BitVec 16) (hi : BitVec 32) (csn : Word) (s : State) : State :=
  record u kind ten (hi ++ csn.setWidth 32) (recordHi u ten csn s)

/-- The COMMIT record of a unit, whose CSN its FREEZE will name (26 R413). -/
def recordCommit (u : Nat) (ten : BitVec 16) (hi : BitVec 32) (csn : Word) (s : State) : State :=
  let s1 := recordHi u ten csn s
  if (s1.ring u).frozen then s1
  else tick u ((push u 0x01 ten (hi ++ csn.setWidth 32) s1).mapRing u fun g => { g with last := csn })

/-- A fatal fault: a freeze wave starts at its unit, which writes its FREEZE record at once. It reaches each other unit at once, or once
that unit has taken some records more, a free number, and the rest when the freeze is complete (26 R415; log 101). DESIGN CHOICE. A fatal
fault of a package that is frozen is counted alone. -/
def freeze (origin : Nat) (fkind : BitVec 4) (ten : BitVec 16) (s : State) : State :=
  if s.recd.state != .armed then { s with recd := { s.recd with later := s.recd.later + 1 } } else
  let s1 : State := { s with recd := { s.recd with state := .freezing, origin := origin, fkind := fkind, oten := ten, later := 0 } }
  (List.range 147).foldl (fun s u =>
    let n := if u = origin then 0 else Config.waveAfter s.recd.capid.toNat u
    if n = 0 then freezeUnit s u else s.mapRing u fun g => { g with due := some n }) s1

/-! ### The homes of memory, and migration (03 R62-R65) -/

/-- A migration engine in SWITCH: where the byte at `pa` of its old frame lies in the new one (03 R62). -/
def Mig.toNew (m : Mig) (pa : Nat) : Option Nat :=
  if m.state == .switch && decide (m.opOld ≤ pa) && decide (pa < m.opOld + m.opSize) then some (m.opNew + (pa - m.opOld)) else none
/-- A migration engine in SWITCH: where the byte at `pa` of its new frame lies in the old one (03 R62). -/
def Mig.toOld (m : Mig) (pa : Nat) : Option Nat :=
  if m.state == .switch && decide (m.opNew ≤ pa) && decide (pa < m.opNew + m.opSize) then some (m.opOld + (pa - m.opNew)) else none

/-- The address from which a byte is served (03 R62). -/
def State.served (s : State) (pa : Nat) : Nat := (s.mig.toList.findSome? (·.toNew pa)).getD pa
/-- The byte at its home. -/
def State.home (s : State) (pa : Nat) : Byte := memGet s.mem (s.served pa)
/-- `n` bytes at their homes. -/
def State.homeBytes (s : State) (pa n : Nat) : List Byte := (List.range n).map fun i => s.home (pa + i)
/-- `n` bytes at their homes as a number. -/
def State.homeNat (s : State) (pa n : Nat) : Nat := leNat (s.homeBytes pa n)
/-- Memory with a byte written at its home: in SWITCH both frames take it (03 R62, R64). -/
def State.homeSet (s : State) (m : Mem) (pa : Nat) (b : Byte) : Mem :=
  let m1 := memSet m pa b
  match s.mig.toList.findSome? (fun g => (g.toNew pa).or (g.toOld pa)) with
  | some q => memSet m1 q b
  | none => m1
/-- The state with bytes written at their homes. -/
def State.homeWrite (s : State) (pa : Nat) (bs : List Byte) : State :=
  { s with mem := bs.zipIdx.foldl (fun m p => s.homeSet m (pa + p.2) p.1) s.mem }
/-- A line that holds uncorrectable data (17 R356). -/
def State.poisoned (s : State) (pa : Nat) : Bool := s.poison.elem (s.served pa / 64)

/-! ### Atomic operations (13 R269-R272) -/

/-- The operation of an atomic on an old value and an operand of `n` bytes: codes 0 to 8 of 13 R270, in the table's order. -/
def amOp (op : BitVec 4) (n : Nat) (old v : Word) : Word :=
  let w := 8 * n
  let so := if n = 4 then (old.setWidth 32).toInt else old.toInt
  let sv := if n = 4 then (v.setWidth 32).toInt else v.toInt
  let r := match op.toNat with
    | 0 => old + v
    | 1 => if so ≤ sv then old else v
    | 2 => if so ≥ sv then old else v
    | 3 => if old.toNat ≤ v.toNat then old else v
    | 4 => if old.toNat ≥ v.toNat then old else v
    | 5 => old &&& v
    | 6 => old ||| v
    | 7 => old ^^^ v
    | _ => v
  BitVec.ofNat 64 (r.toNat % 2 ^ w)

/-! ### Chunks (14 R279-R288) -/

/-- The core stands inside the instruction that it has fetched and not completed: part of it has been performed, in chunks that have
committed (14 R281, R282; log 96). -/
def Core.within (c : Core) : Bool := c.held.any fun h => h.part || h.start != c.regs.vstart

/-- What the core waits for once nothing holds it up any more: inside an instruction it goes on there. -/
def Core.goesOn (c : Core) : Option Wait := if c.within then some .midway else none

/-- A chunk that starts now. -/
def Core.newChunk (c : Core) : Chunk := ⟨c.regs, [], [], [], [], [], [], 0, [], false, [], [], if c.within then c.held else none⟩
/-- The current chunk, or one that starts now. -/
def Core.chunkOr (c : Core) : Chunk := c.chunk.getD c.newChunk
/-- The state with the current chunk changed, begun if there is none. -/
def State.mapChunk (s : State) (f : Chunk → Chunk) : State :=
  { s with core := { s.core with chunk := some (f s.core.chunkOr) } }

/-- No later scalar store overtakes the loads of older entries, which have retired, any more (07 R150; log 60). DEDUCED -/
def State.dropLends (s : State) : State :=
  match s.core.chunk with
  | some ch => if ch.lends.isEmpty then s else s.mapCore fun c => { c with chunk := some { ch with lends := [] } }
  | none => s

/-- No load stands inside any more: what it left of the registers has been written since (07 R142; log 68). -/
def State.noHalt (s : State) : State := s.mapCore fun c => { c with halt := none }

/-- Lines of the commutative updates. -/
def Chunk.comLines (ch : Chunk) : List Nat := addLines [] (ch.com.flatMap fun u => linesOf u.addr u.n)
/-- A chunk that holds no instruction and no element of one: nothing to commit (14 R284). -/
def Chunk.empty (ch : Chunk) : Bool := ch.count == 0 && !ch.begun
/-- Distinct lines of the write set: memory lines and scratchpad undo lines (14 R279, 04 R69). -/
def Chunk.lines (ch : Chunk) : Nat := (addLines ch.wlines ch.comLines).length + ch.ulines.length

/-- A commit of plain lines `wl` and commutative lines `cl` meets the chunk (14 R284, 13 R272). -/
def Chunk.hitBy (ch : Chunk) (wl cl : List Nat) : Bool :=
  wl.any (fun l => ch.rlines.elem l || ch.wlines.elem l || ch.comLines.elem l) ||
  cl.any (fun l => ch.rlines.elem l || ch.wlines.elem l)

/-- The place of a core in the order of grants. -/
def State.grantPos (s : State) (n : Nat) : Nat := s.grants.findIdx (· == n)

/-- A commit that would squash a reserved chunk waits, unless the committing chunk was granted earlier (14 R288). -/
def State.blocked (s : State) (wl cl : List Nat) : Bool :=
  s.others.any fun p =>
    match p.2.chunk with
    | some ch => p.2.reserved && ch.hitBy wl cl && !(s.core.reserved && decide (s.grantPos s.cur < s.grantPos p.1))
    | none => false

/-- Registers of each kind that are open for an engine (05 R99): v, m and t together. -/
def Core.openV (c : Core) : BitVec 32 := c.eng.toList.foldl (fun a e => a ||| e.openV) 0
/-- Mask registers open for an engine. -/
def Core.openM (c : Core) : BitVec 16 := c.eng.toList.foldl (fun a e => a ||| e.openM) 0
/-- Tile registers open for an engine. -/
def Core.openT (c : Core) : BitVec 16 := c.eng.toList.foldl (fun a e => a ||| e.openT) 0

/-- The registers at a chunk's start, but for those open for an engine, whose writes a squash does not undo (14 R287). -/
def Core.restored (c : Core) (r : Regs) : Regs :=
  { r with
    v := Vector.ofFn fun i => if c.openV.getLsbD i.val then c.regs.v.get i else r.v.get i
    z := Vector.ofFn fun i => if c.openV.getLsbD i.val then c.regs.z.get i else r.z.get i
    m := Vector.ofFn fun i => if c.openM.getLsbD i.val then c.regs.m.get i else r.m.get i
    t := Vector.ofFn fun i => if c.openT.getLsbD i.val then c.regs.t.get i else r.t.get i }

/-- A core whose chunk is squashed: undo images written back, the registers of the chunk's start (14 R287, 04 R74). One whose chunk had
started inside an instruction stands inside it again (14 R281). -/
def Core.squashed (c : Core) : Core :=
  match c.chunk with
  | none => c
  | some ch =>
    { c with
      regs := c.restored ch.start
      scratch := ch.undo.foldl (fun m p => memSet m p.1 p.2) c.scratch
      chunk := none
      squashes := c.squashes + 1
      wait := ch.inside.map fun _ => .midway
      held := ch.inside.map fun h => { h with part := true }
      endAfter := none }

/-- Squashes the chunk of core `n` and writes its SQUASH record (14 R287, 26 R413). -/
def squashAt (src : BitVec 2) (csn : Word) (s : State) (n : Nat) : State :=
  let c := s.coreAt n
  if c.chunk.isNone then s else
  let k := c.squashes + 1
  let s1 := s.setCoreAt n c.squashed
  let hi : BitVec 32 := src ++ BitVec.ofNat 6 (min k 63) ++ BitVec.ofBool (c.reserved || decide (3 ≤ k)) ++ 0#23
  recordCsn n 0x02 c.tenant hi csn s1

/-- Squashes every other core's chunk that the test names, in core order. -/
def squashOthers (src : BitVec 2) (csn : Word) (hit : Nat → Core → Chunk → Bool) (s : State) : State :=
  (s.others.filterMap fun p =>
    match p.2.chunk with
    | some ch => if hit p.1 p.2 ch then some p.1 else none
    | none => none).foldl (squashAt src csn) s

/-- The next CSN taken by the focused core: victims squashed, COMMIT recorded with LINES up to 4,096 (14 R284, 26 R413). What comes next has
another start, so squashes and a reservation do not pass to it, also where a singleton chunk has taken the place of the chunk that was
squashed (14 R288). -/
def takeCsn (reason : BitVec 4) (lines : Nat) (wl cl : List Nat) (s : State) : State :=
  let csn := s.csn + 1
  let s1 : State := { s with
    csn := csn, grants := s.grants.filter (· != s.cur), core := { s.core with csn := csn, squashes := 0, reserved := false } }
  let s2 := squashOthers 0 csn (fun _ _ ch => ch.hitBy wl cl) s1
  recordCommit s2.cur s2.core.tenant (reason ++ BitVec.ofNat 13 (min lines 4096) ++ 0#15) csn s2

/-- A commutative update applied at its home (13 R272). -/
def applyCom (s : State) (u : ComUpd) : State :=
  s.homeWrite u.addr (leBytes u.n (amOp u.op u.n (BitVec.ofNat 64 (s.homeNat u.addr u.n)) u.val).toNat)

/-- The writes of a chunk pass to their homes, its commutative updates after its plain writes (14 R284). -/
def applyChunk (ch : Chunk) (s : State) : State :=
  ch.com.foldl applyCom { s with mem := ch.wr.foldl (fun m p => s.homeSet m p.1 p.2) s.mem }

/-- The core without a chunk, a squash count or a reservation. -/
def Core.noChunk (c : Core) : Core := { c with chunk := none, squashes := 0, reserved := false }

/-- Ends the current chunk: it commits for this REASON, or is dropped when it holds nothing, and then squashes and a reservation stay with
the start that the next chunk shares; none when a reserved chunk makes the commit wait (14 R279, R284, R288). -/
def endChunk (reason : BitVec 4) (s : State) : Option State :=
  match s.core.chunk with
  | none => some s
  | some ch =>
    if ch.empty then some { s with core := { s.core with chunk := none } }
    else if s.blocked ch.wlines ch.comLines then none
    else
      let s1 := applyChunk ch (takeCsn reason ch.lines ch.wlines ch.comLines s)
      some { s1 with core := { s1.core with chunk := none } }

/-- Ends the current chunk, or waits. -/
def endChunkM (reason : BitVec 4) : M Unit := do
  match endChunk reason (← get) with
  | some s => set s
  | none => await .reservation

/-- A singleton chunk that writes the lines `wl` commits (14 R282, R284); none when a reserved chunk makes it wait. -/
def commitSingle (reason : BitVec 4) (wl : List Nat) (s : State) : Option State :=
  if s.blocked wl [] then none else some (takeCsn reason wl.length wl [] s)

/-- A singleton chunk commits, or waits; its access follows in the same step. -/
def singleM (reason : BitVec 4) (wl : List Nat) : M Unit := do
  match commitSingle reason wl (← get) with
  | some s => set s
  | none => await .reservation

/-- The chunk ends after the current instruction (14 R279). -/
def endAfter (reason : BitVec 4) : M Unit := modCore fun c => { c with endAfter := some reason }

/-! ### Ends of an instruction, traps and returns -/

/-- The instruction has retired; the program counter is `pc`. -/
def State.retireAt (s : State) (pc : Word) : State :=
  { s with core := { s.core with regs := { s.core.regs with pc := pc }, prog := .retired, wait := none } }
/-- The instruction has retired and the next word follows. -/
def State.retire (s : State) : State := s.retireAt (s.core.regs.pc + 4)
/-- The instruction waits and has performed nothing more. -/
def State.waiting (s : State) (w : Wait) : State := s.mapCore fun c => { c with prog := .waiting, wait := some w }

/-- Code of a cause (17 R346). -/
def causeCode : Cause → BitVec 8
  | .illegal => 0x01
  | .reservedMajor => 0x02
  | .priv => 0x03
  | .textStore => 0x04
  | .loadPage => 0x05
  | .storePage => 0x06
  | .fetchPage => 0x07
  | .align => 0x08
  | .vuse => 0x09
  | .tuse => 0x0A
  | .verdictOperand => 0x0B
  | .fp => 0x0C
  | .repeatFrame => 0x0D
  | .badHandle => 0x0E
  | .deviceAccess => 0x0F
  | .trap => 0x10
  | .breakpoint => 0x11
  | .range => 0x12
  | .engine => 0x13
  | .machineCheck => 0x14
  | .interrupt => 0x15
  | .preempt => 0x16

/-- STAT on trap entry: PMODE, PIE saved, MODE 1, IE 0; a user instruction that itself traps clears SKIP (17 R338, R353). -/
def statEnter (async : Bool) (st : Word) : Word :=
  let st1 := if !st.getLsbD 0 && !async then setField st 5 1 0 else st
  setField (setField (setField (setField st1 3 1 (st.getLsbD 0).toNat) 4 1 (st.getLsbD 1).toNat) 0 1 1) 1 1 0

/-- The registers after a trap entry (17 R338, 15 R320). -/
def Regs.enter (r : Regs) (c : Cause) (async : Bool) (tval : Word) (seq : Option (BitVec 32)) : Regs :=
  { r with
    epc := r.pc
    cause := BitVec.ofBool async ++ 0#55 ++ causeCode c
    tval := tval
    vqpos := match seq with
      | some q => 0x80000000#32 ++ q
      | none => 0
    stat := statEnter async r.stat
    pc := r.tvec.extractLsb' 2 62 ++ 0#2
    susp := true }

/-- The records of a trap entry: TRAP, TVAL, and MCHECK for a machine check, which freezes the recorder (26 R412, R413, R415). -/
def trapRecords (c : Cause) (async : Bool) (epc tval : Word) (s : State) : State :=
  let s1 := recordCur 0x03 (epc.extractLsb' 2 47 ++ 0#8 ++ BitVec.ofBool async ++ causeCode c) s
  let s2 := recordCur 0x04 tval s1
  if c == .machineCheck then freeze s2.cur (tval.extractLsb' 60 4) s2.core.tenant (recordCur 0x0A tval s2) else s2

/-- Takes a trap: the chunk ends, and the handler is entered (17 R338); the handler's chunk has another start, so squashes and
a reservation do not pass to it (14 R288). When a reserved chunk makes the commit wait, nothing is taken yet. -/
def takeTrap (c : Cause) (async : Bool) (tval : Word) (seq : Option (BitVec 32)) (s : State) : State :=
  match endChunk 3 s with
  | none => s.waiting .reservation
  | some s1 =>
    let s2 := trapRecords c async s1.core.regs.pc tval s1
    { s2 with
      grants := s2.grants.filter (· != s2.cur)
      core := { s2.core.noChunk with
        regs := s2.core.regs.enter c async tval seq
        prog := .trapped, wait := none, held := none, endAfter := none, entering := true } }

/-- STAT after a return: MODE and IE from PMODE and PIE (17 R345). -/
def statReturn (st : Word) : Word :=
  setField (setField st 0 1 (st.getLsbD 3).toNat) 1 1 (st.getLsbD 4).toNat

/-- The registers after a return from a trap (17 R345, 15 R320). -/
def Regs.leave (r : Regs) : Regs := { r with stat := statReturn r.stat, pc := r.epc.extractLsb' 2 62 ++ 0#2, susp := false }

/-- A transfer of control to `t`: unless it is the next word, its XFER record is owed, which follows the COMMIT that the
instruction may bring (26 R412, R413). -/
def State.jump (s : State) (t : Word) : State :=
  let s1 := if t == s.core.regs.pc + 4 then s else s.mapCore fun c => { c with xfer := some t }
  s1.retireAt t

/-- The XFER record that is owed (26 R413). -/
def recordXfer (s : State) : State :=
  match s.core.xfer with
  | some t => (recordCur 0x05 (t.extractLsb' 2 47 ++ 0#17) s).mapCore fun c => { c with xfer := none }
  | none => s

/-! ### Events at a boundary (17 R339) -/

/-- A waiting instruction at which events are taken: its wait can be given up because nothing has been performed
(04 R81, 05 R96, R100, 14 R288, R300, 27 R425). -/
def Wait.open : Wait → Bool
  | .fullEmpty _ | .barrier _ | .rend _ | .presence .. | .reduced | .reservation => true
  | .remote | .fence | .tinv | .icinv | .engines | .midway => false

/-- The core stands at an instruction boundary at which events are taken (17 R339). -/
def Core.boundary (c : Core) : Bool := match c.wait with
  | none => true
  | some w => w.open

/-- The core stands between two instructions, not inside one (27 R426, 14 R281). -/
def Core.between (c : Core) : Bool := c.boundary && !c.within

/-- What the core holds of an instruction whose word it has just fetched: of one inside which it stands, the vector registers and VSTART of
its start (07 R157, R160; log 96). -/
def Core.hold (c : Core) (w : BitVec 32) : Held :=
  match c.held with
  | some h => if c.within then { h with word := w } else ⟨w, c.regs.v, c.regs.vstart, false⟩
  | none => ⟨w, c.regs.v, c.regs.vstart, false⟩

/-- The word of an instruction that waits where no event is taken: it is in progress, and is not fetched again (14 R282), but for one
whose chunk a squash replays (14 R287, 03 R61). -/
def Core.inProgress (c : Core) : Option (BitVec 32) := if c.boundary || c.wait == some .midway then none else c.held.map (·.word)

/-- The registers as the instruction found them at its start, of one that goes on after a wait: the vector registers that it reads its
addresses from, and VSTART, whatever its elements have written since (07 R157, R159; log 96). DEDUCED -/
def Core.origin (c : Core) : Regs :=
  match c.wait, c.held with
  | some _, some h => { c.regs with v := h.v, vstart := h.start }
  | _, _ => c.regs

/-- TLVL takes the level that the MC has chosen once every core stands at an instruction boundary: the arithmetic clock, which is one for
the package, changes at no other moment (27 R426, R428; log 91). DEDUCED -/
def State.settleClock (s : State) : State :=
  if s.cores.all (·.2.between) then { s with power := { s.power with tlvl := s.power.level } } else s

/-- A PREEMPT may be taken (17 R339). -/
def Core.preemptible (c : Core) : Bool := c.slot.state == .unbinding && c.boundary && c.regs.user

/-- Takes an event with ASYNC = 1; the change to the core comes with it. VQPOS is 0, also where EPC names a VQ entry: the entry stands at
the boundary, and it is not what traps (17 R338, R344; log 78). DEDUCED -/
def takeEvent (c : Cause) (tval : Word) (f : Core → Core) (s : State) : State :=
  if (endChunk 3 s).isNone then s.waiting .reservation else takeTrap c true tval none (s.mapCore f)

/-- Takes a PREEMPT: the engines stop with the context (17 R339, 16 R333, 05 R113). -/
def takePreempt (s : State) : State := takeEvent .preempt 0 (fun c => { c with stopped := true, inside := false }) s

/-- Runs the body of a scalar instruction; the next word follows. -/
def run (m : M Unit) (s : State) : Out :=
  match m s with
  | .ok _ s' => .next s'.retire
  | .error (.trap c v) s' => .next (takeTrap c false v none s')
  | .error (.wait w) s' => .next (s'.waiting w)
  | .error .cut s' => .next (takePreempt s')

/-- Runs the body of an instruction that sets the program counter itself. -/
def runAt (m : M Word) (s : State) : Out :=
  match m s with
  | .ok t s' => .next (s'.retireAt t)
  | .error (.trap c v) s' => .next (takeTrap c false v none s')
  | .error (.wait w) s' => .next (s'.waiting w)
  | .error .cut s' => .next (takePreempt s')

/-- Runs the body of an instruction that transfers control. -/
def runJump (m : M Word) (s : State) : Out :=
  match m s with
  | .ok t s' => .next (s'.jump t)
  | .error (.trap c v) s' => .next (takeTrap c false v none s')
  | .error (.wait w) s' => .next (s'.waiting w)
  | .error .cut s' => .next (takePreempt s')

/-- The next choice the agenda's oracle gives, 0 when it gives none (log 1). -/
def oracle : M Nat := do
  let s ← get
  match s.oracle with
  | [] => return 0
  | k :: r => set { s with oracle := r }; return k

/-- The same choice outside a body. -/
def State.choice (s : State) : Nat × State :=
  match s.oracle with
  | [] => (0, s)
  | k :: r => (k, { s with oracle := r })

end Sys2Proof.Machine
end

