-- ==== Sys2Proof/Machine/Alu.lean ====
section
/-! DEFINITION. Scalar integer arithmetic: majors SA, SI and SM, and SU (09 R182-R185, 04 R89). -/
namespace Sys2Proof.Machine

/-- Ends an instruction whose whole effect is x[d] := v (09 R185). -/
def alu (d : BitVec 5) (v : Word) (s : State) : Out := .next (s.setX d v).retire

/-- 1 for true, 0 for false. -/
def flag (b : Bool) : Word := (BitVec.ofBool b).setWidth 64
/-- The shift amount b<5:0> (09 R182). -/
def amount (b : Word) : Nat := (b.extractLsb' 0 6).toNat
/-- `sext(v, 32)` of the low 32 bits (00 R8). -/
def sext32 (v : Word) : Word := (v.setWidth 32).signExtend 64
/-- The immediate of format I (09 R183). -/
def immI (i : BitVec 12) : Word := i.signExtend 64
/-- A number saturated to `w`-bit two's complement (08 R161). -/
def satS (w : Nat) (v : Int) : Int := max (-(2 ^ (w - 1))) (min (2 ^ (w - 1) - 1) v)
/-- Leading zero bits (09 R182). -/
def clz (v : Word) : Nat := if v = 0 then 64 else 63 - Nat.log2 v.toNat
/-- Trailing zero bits (09 R182). -/
def ctz (v : Word) : Nat := if v = 0 then 64 else Nat.log2 (v &&& -v).toNat
/-- One bits (09 R182). -/
def popc (v : Word) : Nat := (List.range 64).countP (v.getLsbD ·)
/-- Bits [127:64] of a product (09 R184). -/
def highProduct (p : Int) : Word := BitVec.ofInt 64 (p / 2 ^ 64)
/-- An operand read signed or unsigned (09 R184). -/
def readAs (signed : Bool) (v : Word) : Int := if signed then v.toInt else v.toNat

/-- SA_ADD (09 R182). -/
def execSaAdd (d a b : BitVec 5) (st : State) : Out := alu d (st.x a + st.x b) st
/-- SA_SUB (09 R182). -/
def execSaSub (d a b : BitVec 5) (st : State) : Out := alu d (st.x a - st.x b) st
/-- SA_AND (09 R182). -/
def execSaAnd (d a b : BitVec 5) (st : State) : Out := alu d (st.x a &&& st.x b) st
/-- SA_OR (09 R182). -/
def execSaOr (d a b : BitVec 5) (st : State) : Out := alu d (st.x a ||| st.x b) st
/-- SA_XOR (09 R182). -/
def execSaXor (d a b : BitVec 5) (st : State) : Out := alu d (st.x a ^^^ st.x b) st
/-- SA_ANDN (09 R182). -/
def execSaAndn (d a b : BitVec 5) (st : State) : Out := alu d (st.x a &&& ~~~ st.x b) st
/-- SA_SLL (09 R182). -/
def execSaSll (d a b : BitVec 5) (st : State) : Out := alu d (st.x a <<< amount (st.x b)) st
/-- SA_SRL (09 R182). -/
def execSaSrl (d a b : BitVec 5) (st : State) : Out := alu d (st.x a >>> amount (st.x b)) st
/-- SA_SRA (09 R182). -/
def execSaSra (d a b : BitVec 5) (st : State) : Out := alu d ((st.x a).sshiftRight (amount (st.x b))) st
/-- SA_ROTR (09 R182). -/
def execSaRotr (d a b : BitVec 5) (st : State) : Out := alu d ((st.x a).rotateRight (amount (st.x b))) st
/-- SA_SLT (09 R182). -/
def execSaSlt (d a b : BitVec 5) (st : State) : Out := alu d (flag ((st.x a).slt (st.x b))) st
/-- SA_SLTU (09 R182). -/
def execSaSltu (d a b : BitVec 5) (st : State) : Out := alu d (flag ((st.x a).ult (st.x b))) st
/-- SA_MIN (09 R182). -/
def execSaMin (d a b : BitVec 5) (st : State) : Out := alu d (if (st.x a).sle (st.x b) then st.x a else st.x b) st
/-- SA_MAX (09 R182). -/
def execSaMax (d a b : BitVec 5) (st : State) : Out := alu d (if (st.x a).sle (st.x b) then st.x b else st.x a) st
/-- SA_MINU (09 R182). -/
def execSaMinu (d a b : BitVec 5) (st : State) : Out := alu d (if (st.x a).ule (st.x b) then st.x a else st.x b) st
/-- SA_MAXU (09 R182). -/
def execSaMaxu (d a b : BitVec 5) (st : State) : Out := alu d (if (st.x a).ule (st.x b) then st.x b else st.x a) st
/-- SA_ADDW (09 R182). -/
def execSaAddw (d a b : BitVec 5) (st : State) : Out := alu d (sext32 (st.x a + st.x b)) st
/-- SA_SUBW (09 R182). -/
def execSaSubw (d a b : BitVec 5) (st : State) : Out := alu d (sext32 (st.x a - st.x b)) st
/-- SA_CLZ (09 R182). -/
def execSaClz (d a : BitVec 5) (st : State) : Out := alu d (BitVec.ofNat 64 (clz (st.x a))) st
/-- SA_CTZ (09 R182). -/
def execSaCtz (d a : BitVec 5) (st : State) : Out := alu d (BitVec.ofNat 64 (ctz (st.x a))) st
/-- SA_POPC (09 R182). -/
def execSaPopc (d a : BitVec 5) (st : State) : Out := alu d (BitVec.ofNat 64 (popc (st.x a))) st
/-- SA_ADDS (09 R182). -/
def execSaAdds (d a b : BitVec 5) (st : State) : Out :=
  alu d (BitVec.ofInt 64 (satS 64 ((st.x a).toInt + (st.x b).toInt))) st
/-- SA_SUBS (09 R182). -/
def execSaSubs (d a b : BitVec 5) (st : State) : Out :=
  alu d (BitVec.ofInt 64 (satS 64 ((st.x a).toInt - (st.x b).toInt))) st

/-- SI_ADDI (09 R183). -/
def execSiAddi (d a : BitVec 5) (i : BitVec 12) (st : State) : Out := alu d (st.x a + immI i) st
/-- SI_ANDI (09 R183). -/
def execSiAndi (d a : BitVec 5) (i : BitVec 12) (st : State) : Out := alu d (st.x a &&& immI i) st
/-- SI_ORI (09 R183). -/
def execSiOri (d a : BitVec 5) (i : BitVec 12) (st : State) : Out := alu d (st.x a ||| immI i) st
/-- SI_XORI (09 R183). -/
def execSiXori (d a : BitVec 5) (i : BitVec 12) (st : State) : Out := alu d (st.x a ^^^ immI i) st
/-- SI_SLTI (09 R183). -/
def execSiSlti (d a : BitVec 5) (i : BitVec 12) (st : State) : Out := alu d (flag ((st.x a).slt (immI i))) st
/-- SI_SLTIU (09 R183). -/
def execSiSltiu (d a : BitVec 5) (i : BitVec 12) (st : State) : Out := alu d (flag ((st.x a).ult (immI i))) st
/-- SI_SLLI (09 R183). -/
def execSiSlli (d a : BitVec 5) (i : BitVec 6) (st : State) : Out := alu d (st.x a <<< i.toNat) st
/-- SI_SRLI (09 R183). -/
def execSiSrli (d a : BitVec 5) (i : BitVec 6) (st : State) : Out := alu d (st.x a >>> i.toNat) st
/-- SI_SRAI (09 R183). -/
def execSiSrai (d a : BitVec 5) (i : BitVec 6) (st : State) : Out := alu d ((st.x a).sshiftRight i.toNat) st
/-- SI_ROTRI (09 R183). -/
def execSiRotri (d a : BitVec 5) (i : BitVec 6) (st : State) : Out := alu d ((st.x a).rotateRight i.toNat) st
/-- SI_ADDIW (09 R183). -/
def execSiAddiw (d a : BitVec 5) (i : BitVec 12) (st : State) : Out := alu d (sext32 (st.x a + immI i)) st

/-- SU_AHI (04 R89). -/
def execSuAhi (d : BitVec 5) (i : BitVec 20) (st : State) : Out := alu d (i.signExtend 64 <<< 12) st
/-- SU_APC (04 R89). -/
def execSuApc (d : BitVec 5) (i : BitVec 20) (st : State) : Out := alu d (st.pc + i.signExtend 64 <<< 12) st

/-- SM_MUL (09 R184). -/
def execSmMul (d a b : BitVec 5) (st : State) : Out := alu d (st.x a * st.x b) st
/-- SM_MULH (09 R184). -/
def execSmMulh (d a b : BitVec 5) (sb sa : Bool) (st : State) : Out :=
  alu d (highProduct (readAs sa (st.x a) * readAs sb (st.x b))) st
/-- SM_MADD (09 R184). -/
def execSmMadd (d a b : BitVec 5) (st : State) : Out := alu d (st.x d + st.x a * st.x b) st
/-- SM_DIV: a zero divisor traps RANGE (09 R184). -/
def execSmDiv (d a b : BitVec 5) (sg : Bool) (st : State) : Out :=
  if st.x b = 0 then .next (takeTrap .range false (st.x a) none st)
  else alu d (if sg then (st.x a).sdiv (st.x b) else st.x a / st.x b) st
/-- SM_REM: a zero divisor traps RANGE (09 R184). -/
def execSmRem (d a b : BitVec 5) (sg : Bool) (st : State) : Out :=
  if st.x b = 0 then .next (takeTrap .range false (st.x a) none st)
  else alu d (if sg then (st.x a).srem (st.x b) else st.x a % st.x b) st

end Sys2Proof.Machine
end

