-- ==== Sys2Proof/Machine/Access.lean ====
section
/-! DEFINITION. Translation and its checks (03 R44-R61), the on-chip windows and device registers (04 R70-R83, 03 R430), the
accesses of cores to memory, and the messages of remote accesses (14 R293, 25 R397-R399). -/
namespace Sys2Proof.Machine

/-! ### Physical addresses -/

/-- A vector with one entry changed, unchanged when the number is too large. -/
def vecMod {α : Type} {n : Nat} (v : Vector α n) (i : Nat) (f : α → α) : Vector α n :=
  if h : i < n then v.set i (f (v.get ⟨i, h⟩)) else v

/-- The `n` bytes at a physical address are backed (03 R44, R45; 04 R70, R71; 03 R430). -/
def backed (pa n : Nat) : Bool :=
  let region := pa / 2 ^ 48
  let off := pa % 2 ^ 48
  if region = 0 then decide (off + n ≤ 0xC000000000)
  else if region = 1 then decide (off + n ≤ 0x20000000000)
  else if region = 2 then
    let o := off % 0x800000
    decide (off / 2 ^ 32 ≤ 2) && decide (off % 2 ^ 32 / 0x800000 ≤ 47) &&
      (decide (o + n ≤ 0x300000) || (decide (0x400000 ≤ o) && decide (o + n ≤ 0x470000)) ||
        (decide (0x480000 ≤ o) && decide (o + n ≤ 0x490000)))
  else if region = 3 then decide (off / 2 ^ 32 ≤ 2) && decide (off % 2 ^ 32 + n ≤ 0x400000)
  else if region < 8 then false
  else decide (region < 16) && decide (pa % 2 ^ 40 + n ≤ 0xC000000000)

/-- What stands at a physical address: DRAM, a remote package, a part of core c's window, or die d's device block. -/
inductive Place where
  | mem
  | remote
  | sp (c o : Nat)
  | reg (c o : Nat)
  | fe (c o : Nat)
  | ctl (c o : Nat)
  | dev (d o : Nat)
  deriving DecidableEq, Repr

/-- The place of a backed physical address (03 R44, 04 R70, R71). -/
def placeOf (pa : Nat) : Place :=
  let region := pa / 2 ^ 48
  let off := pa % 2 ^ 48
  if region < 2 then .mem
  else if region = 3 then .dev (off / 2 ^ 32) (off % 2 ^ 32)
  else if 8 ≤ region then .remote
  else
    let c := 48 * (off / 2 ^ 32) + off % 2 ^ 32 / 0x800000
    let o := off % 0x800000
    if o < 0x300000 then .sp c o
    else if o < 0x460000 then .reg c o
    else if o < 0x470000 then .fe c o
    else .ctl c o

/-- Region 0x0 is served only outside MC-BOOT, REDUCED and HOLD (27 R423, R425). -/
def State.hbmServed (s : State) : Bool := s.power.svc == 3 || s.power.svc == 4

/-! ### Translation -/

/-- The kind of an access (03 R53). -/
inductive Acc where
  | load | store | fetch
  deriving DecidableEq, Repr

/-- What an access is translated under (03 R59, 05 R97). -/
structure Xl where
  ten  : Word
  asid : Word
  ptb  : Word
  user : Bool
  deriving DecidableEq, Repr

/-- The translation of the context of the focused core. -/
def Core.xl (c : Core) : Xl := ⟨c.regs.ten, c.regs.asid, c.regs.ptb, c.regs.user⟩

/-- The page fault of an access kind (03 R53). -/
def pageCause : Acc → Cause
  | .load => .loadPage
  | .store => .storePage
  | .fetch => .fetchPage

/-- A virtual address is canonical (03 R47). -/
def canonical (va : Word) : Bool := (va.setWidth 49).signExtend 64 == va

/-- Reserved bits of an entry that must be zero (03 R49). -/
def pteReserved (e : Word) : Bool :=
  if e.getLsbD 1 then e.extractLsb' 56 8 != 0 || e.extractLsb' 10 4 != 0 || e.getLsbD 2
  else e.extractLsb' 52 12 != 0 || e.extractLsb' 2 12 != 0

/-- How a walk ends: with a fault, held up because HBM is not served, at an entry in a poisoned line, or at a leaf with its frame and
size. -/
inductive Walk where
  | fault
  | held
  | poison (line : Nat)
  | leaf (base size : Nat) (pte : Word)
  deriving DecidableEq, Repr

/-- The checks of a leaf at a level (03 R51, R52). -/
def leafWalk (e : Word) (lvl : Nat) : Walk :=
  let sz := (e.extractLsb' 52 2).toNat
  let size := if sz = 0 then 0x10000 else if sz = 1 then 0x200000 else 0x40000000
  let base := (e.extractLsb' 14 38).toNat * 0x4000
  let region := base / 2 ^ 48
  let cls := (e.extractLsb' 54 2).toNat
  let x := e.getLsbD 5
  if !((lvl == 0 && decide (sz ≤ 1)) || (lvl == 1 && sz == 2)) then .fault
  else if base % size ≠ 0 || !backed base size || decide (2 ≤ cls) then .fault
  else if x && (e.getLsbD 4 || e.getLsbD 3) then .fault
  else if x && (cls != 0 || decide (1 < region)) then .fault
  else if region == 3 && cls != 1 then .fault
  else .leaf base size e

/-- The walk from a table, `lvl` levels above the last (03 R48, R51). An entry in a poisoned line is data that the access consumes
(17 R356; log 18). DEDUCED -/
def walkFrom (s : State) (va : Word) : Nat → Nat → Walk
  | lvl, tab =>
    if 1 < tab / 2 ^ 48 || !backed tab 0x4000 then .fault
    else if tab / 2 ^ 48 = 0 && !s.hbmServed then .held
    else
      let at' := tab + 8 * (va.extractLsb' (16 + 11 * lvl) 11).toNat
      if s.poisoned at' then .poison (at' / 64) else
      let e : Word := BitVec.ofNat 64 (s.homeNat at' 8)
      if !e.getLsbD 0 || pteReserved e then .fault
      else if e.getLsbD 1 then leafWalk e lvl
      else
        match lvl with
        | 0 => .fault
        | l + 1 => walkFrom s va l ((e.extractLsb' 14 38).toNat * 0x4000)

/-- The walk of an address (03 R51). -/
def walk (s : State) (x : Xl) (va : Word) : Walk := walkFrom s va 2 ((x.ptb.extractLsb' 14 38).toNat * 0x4000)

/-- Steps 3 to 6 of 03 R53 on a leaf. -/
def permit (k : Acc) (user : Bool) (pte : Word) : Option Cause :=
  let u := pte.getLsbD 6
  let x := pte.getLsbD 5
  if (user && !u) || (k == .fetch && !user && u) then some (pageCause k)
  else if x && k == .load then some .loadPage
  else if x && k == .store then some .textStore
  else if !(match k with | .load => pte.getLsbD 3 | .store => pte.getLsbD 4 | .fetch => x) then some (pageCause k)
  else if !pte.getLsbD 8 || (k == .store && !pte.getLsbD 7) then some (pageCause k)
  else none

/-- The held translation covers the address (03 R57). -/
def Tlb.covers (t : Tlb) (ten asid : Word) (va : Nat) : Bool :=
  t.ten == ten && (t.pte.getLsbD 9 || t.asid == asid) && decide (t.va ≤ va) && decide (va < t.va + t.size)

/-- The 49 translated bits of an address. -/
def vaBits (va : Word) : Nat := va.toNat % 2 ^ 49

/-- The entry a walk leaves (03 R57). -/
def tlbOf (x : Xl) (va : Word) (base size : Nat) (pte : Word) : Tlb :=
  ⟨x.ten, x.asid, vaBits va - vaBits va % size, size, base, pte⟩

/-- The translations of a chunk that served the fetch of the instruction at the program counter. -/
def Core.fetched (c : Core) : List Tlb :=
  c.chunkOr.used.filter (·.covers c.regs.ten c.regs.asid (vaBits c.regs.pc))

/-- A chunk that ends before the instruction, which is the first of the next one (14 R279); its fetch belongs to the new chunk
(03 R61). -/
def newChunkM (reason : BitVec 4) : M Unit := do
  let used := (← get).core.fetched
  endChunkM reason
  modify fun s => s.mapChunk fun ch => { ch with used := used }

/-- A list of translations, of which none covers the address but the one that a walk found (03 R57). -/
def tlbAfter (cap : Nat) (x : Xl) (va : Word) (t : Option Tlb) (l : List Tlb) : List Tlb :=
  let r := l.filter fun u => !u.covers x.ten x.asid (vaBits va)
  match t with
  | some t => (t :: r).take cap
  | none => r

/-- The translation of a list that serves an access which it permits (03 R53, R57). -/
def tlbServes (x : Xl) (k : Acc) (va : Word) (l : List Tlb) : Option Tlb :=
  (l.find? (·.covers x.ten x.asid (vaBits va))).filter fun t => (permit k x.user t.pte).isNone

/-- The translations that the TLB of the focused core's die holds. -/
def State.dieHeld (s : State) : List Tlb := s.dieTlb.toList.getD (dieOf s.cur) []

/-- The state after a walk: the core's TLB and its die's hold what it found (03 R57). -/
def State.walked (s : State) (x : Xl) (va : Word) (t : Option Tlb) : State :=
  { s with
    dieTlb := vecMod s.dieTlb (dieOf s.cur) (tlbAfter Config.dieTlbEntries x va t)
    core := { s.core with tlb := tlbAfter Config.tlbEntries x va t s.core.tlb } }

/-- Two translations serve an access alike. -/
def Tlb.same (h n : Tlb) (va : Word) : Bool := h.base + (vaBits va - h.va) == n.base + (vaBits va - n.va) && h.pte == n.pte

/-- TVAL of a machine check of kind POISON: the line (17 R356, R357). -/
def poisonTval (line : Nat) : Word := 0x2#4 ++ 0#8 ++ BitVec.ofNat 52 (64 * line)

/-- One page of an access: its first byte's physical address, the page it lies in, or the check that fails (03 R53, R58).
A translation that the core or its die holds may serve the access when a fresh walk would differ or fail: the oracle chooses among
core, die and walk, in this order (log 8). -/
def xlPage (x : Xl) (k : Acc) (va : Word) : M (Except Cause Tlb) := do
  if !canonical va then return .error (pageCause k)
  let s ← get
  let fresh := walk s x va
  let now : Option Tlb := match fresh with
    | .leaf base size pte => if (permit k x.user pte).isNone then some (tlbOf x va base size pte) else none
    | _ => none
  let held := (tlbServes x k va s.core.tlb).toList ++ (tlbServes x k va s.dieHeld).toList
  let pick ← if held.all fun h => now.any fun n => h.same n va then pure held.length else do pure ((← oracle) % (held.length + 1))
  match held[pick]? with
  | some t =>
    modCore fun c => { c with tlb := tlbAfter Config.tlbEntries x va (some t) c.tlb }
    return .ok t
  | none =>
    modify (·.walked x va now)
    match now, fresh with
    | some t, _ => return .ok t
    | none, .held => await .reduced
    | none, .poison l => raise .machineCheck (poisonTval l)
    | none, .fault => return .error (pageCause k)
    | none, .leaf _ _ pte => return .error ((permit k x.user pte).getD (pageCause k))

/-- A run of bytes of an access inside one page. -/
structure Piece where
  va  : Word
  pa  : Nat
  n   : Nat
  tlb : Tlb
  deriving DecidableEq, Repr

/-- The piece of a page an access has, at `va`. -/
def pieceOf (t : Tlb) (va : Word) (n : Nat) : Piece := ⟨va, t.base + (vaBits va - t.va), n, t⟩

/-- An access of `n` bytes: both pages checked, the lower first; a failure names the first byte in the failing page (03 R54). Bytes
inside one page, whatever its size, are served by one translation (03 R50). -/
def xlAccess (x : Xl) (k : Acc) (va : Word) (n : Nat) : M (Except (Cause × Word) (List Piece)) := do
  match ← xlPage x k va with
  | .error c => return .error (c, va)
  | .ok t =>
    let n1 := t.va + t.size - vaBits va
    if n ≤ n1 then return .ok [pieceOf t va n] else
    let va2 := va + BitVec.ofNat 64 n1
    match ← xlPage x k va2 with
    | .error c => return .error (c, va2)
    | .ok t2 => return .ok [pieceOf t va n1, pieceOf t2 va2 (n - n1)]

/-! ### The windows of the cores -/

/-- The register bytes of a window as one string of bits: v, then m, then t (04 R71, R72). The bytes of the m part above m15
read 0. -/
def winByte (r : Regs) (o : Nat) : Byte :=
  if o < 0x410000 then byteOf (r.v.toList.getD ((o - 0x400000) / 0x800) 0) ((o - 0x400000) % 0x800)
  else if o < 0x420000 then byteOf (r.m.toList.getD ((o - 0x410000) / 0x200) 0) ((o - 0x410000) % 0x200)
  else byteOf (r.t.toList.getD ((o - 0x420000) / 0x4000) 0) ((o - 0x420000) % 0x4000)

/-- One byte written through a register window; a vector register's zero-map bit becomes 0 (04 R72, 09 R192). -/
def winPut (r : Regs) (o : Nat) (b : Byte) : Regs :=
  if o < 0x410000 then
    let i := (o - 0x400000) / 0x800
    let j := (o - 0x400000) % 0x800
    { r with v := vecMod r.v i (setBytes · j [b]), z := vecMod r.z i (setField · (j / 64) 1 0) }
  else if o < 0x420000 then { r with m := vecMod r.m ((o - 0x410000) / 0x200) (setBytes · ((o - 0x410000) % 0x200) [b]) }
  else { r with t := vecMod r.t ((o - 0x420000) / 0x4000) (setBytes · ((o - 0x420000) % 0x4000) [b]) }

/-- The kind of register and its number at a window offset: 0 v, 1 m, 2 t; none in the part above m15, which 04 R71 lists beside
the mask registers and which holds none: it is no mask state (log 52). DESIGN CHOICE -/
def winReg (o : Nat) : Option (Nat × Nat) :=
  if o < 0x410000 then some (0, (o - 0x400000) / 0x800)
  else if o < 0x412000 then some (1, (o - 0x410000) / 0x200)
  else if o < 0x420000 then none
  else some (2, (o - 0x420000) / 0x4000)

/-- The registers that `n` bytes at a window offset touch. -/
def winRegs (o n : Nat) : List (Nat × Nat) := ((List.range n).filterMap fun i => winReg (o + i)).eraseDups

/-- Window offset of a register (04 R71). -/
def regOffset (kind n : Nat) : Nat :=
  if kind = 0 then 0x400000 + 0x800 * n else if kind = 1 then 0x410000 + 0x200 * n else 0x420000 + 0x4000 * n

/-- A register is open for an engine (05 R99). -/
def Core.isOpen (c : Core) (kind n : Nat) : Bool :=
  if kind = 0 then c.openV.getLsbD n else if kind = 1 then c.openM.getLsbD n else c.openT.getLsbD n

/-- A core instruction that writes an open register, or reads an open mask or tile register, traps (05 R100). -/
def guardReg (kind n : Nat) (write : Bool) : M Unit := do
  ensure (!((write || kind != 0) && (← get).core.isOpen kind n)) .badHandle (BitVec.ofNat 64 (regOffset kind n))

/-- A core instruction that reads element group `g` of an open vector register waits for its presence bit (05 R100). -/
def needPresent (n g : Nat) : M Unit := do
  let c := (← get).core
  if !(c.pres.toList.getD n 0).getLsbD g then await (.presence n g)

/-- The bytes of the full/empty window; above 0x46_6000 they read 0 (04 R71, R79). -/
def feByte (c : Core) (o : Nat) : Byte := byteOf c.fe (o - 0x460000)
/-- A byte written through the full/empty window (04 R80). -/
def fePut (c : Core) (o : Nat) (b : Byte) : Core := { c with fe := setBytes c.fe (o - 0x460000) [b] }

/-- The registers of the control page, by doubleword (04 R77). -/
def ctlRead (n : Nat) (c : Core) (o : Nat) : Word :=
  if o = 0 then BitVec.ofNat 64 (n * 2 ^ 16 + dieOf n * 2 ^ 8 + n % 48)
  else if o = 8 then (if c.isBound then c.regs.ctxid else BitVec.allOnes 64)
  else if o = 0x18 then (BitVec.ofBool c.badop).setWidth 64
  else 0

/-- A FEOP write (04 R78). A write with COUNT = 0 and a field that is not valid sets BADOP (log 53). DESIGN CHOICE -/
def feop (c : Core) (v : Word) : Core :=
  let first := (v.extractLsb' 0 18).toNat
  let count := (v.extractLsb' 18 18).toNat
  if v.extractLsb' 36 27 != 0 || decide (196608 < first + count) then { c with badop := true }
  else { c with fe := setField c.fe first count (if v.getLsbD 63 then 2 ^ count - 1 else 0) }

/-- A write to the control page (04 R77). -/
def ctlWrite (c : Core) (o : Nat) (v : Word) : Core :=
  if o = 0x10 then feop c v
  else if o = 0x18 && v.getLsbD 0 then { c with badop := false }
  else c

/-! ### Device registers (03 R430) -/

/-- Code of a slot state (16 R330). -/
def slotCode : SlotState → BitVec 2
  | .empty => 0
  | .binding => 1
  | .bound => 2
  | .unbinding => 3

/-- Code of a migration state (03 R63). -/
def migCode : MigState → BitVec 3
  | .idle => 0
  | .copy => 1
  | .switch => 2
  | .redirect => 3
  | .done => 4

/-- A slot as its 128 bits (16 R330). -/
def slotBits (t : Slot) : BitVec 128 :=
  t.savepa ++ t.queue ++ t.prio ++ 0#5 ++ slotCode t.state ++ 0#4 ++ t.ctxid
/-- A queue descriptor as its 128 bits (16 R328). -/
def queueBits (q : Queue) : BitVec 128 :=
  0#12 ++ q.root ++ q.asid ++ q.ten ++ q.prio ++ 0#42 ++ BitVec.ofBool q.val
/-- A queue descriptor from its 128 bits (16 R328). -/
def queueOf (w : BitVec 128) : Queue :=
  ⟨w.getLsbD 0, w.extractLsb' 43 3, w.extractLsb' 46 16, w.extractLsb' 62 16, w.extractLsb' 78 38⟩

/-- SLOTSTAT (16 R330). -/
def slotStatWord (t : SlotStat) : Word := 0#54 ++ t.reason ++ t.slot ++ BitVec.ofBool t.refused
/-- MIGSTAT (03 R63). -/
def migStatWord (m : Mig) : Word :=
  0#40 ++ BitVec.ofNat 8 m.redir.length ++ 0#5 ++ migCode m.state ++ 0#5 ++ BitVec.ofBool m.busy ++ BitVec.ofBool m.bad ++
    BitVec.ofBool m.evt
/-- PWRSTAT (27 R427). -/
def pwrStatWord (p : Power) : Word :=
  0#4 ++ p.hbmFail ++ p.pwr ++ 0#8 ++ p.temp ++ 0#5 ++ p.tlvl ++ 0#2 ++ p.dieOn ++ p.svc

/-- Offsets of the barrier owner entries of a die's block (14 R298). -/
def ownerOffset (d o : Nat) : Bool :=
  (decide (0x102000 ≤ o) && decide (o < 0x102000 + 8 * 16 * 12)) ||
  (decide (0x102800 ≤ o) && decide (o < 0x102800 + 8 * 64)) ||
  (d == 0 && decide (0x103000 ≤ o) && decide (o < 0x103000 + 8 * 256)) ||
  (d == 0 && decide (0x104000 ≤ o) && decide (o < 0x104000 + 8 * 1024))

/-- Key of a device register in `State.owners`. -/
def devKey (d o : Nat) : Nat := d * 2 ^ 32 + o

/-- One doubleword of die d's device-register block; an offset that holds no register reads 0 (03 R430). -/
def devRead (s : State) (d o : Nat) : Word :=
  if 0x100000 ≤ o && o < 0x100300 then
    (slotBits (s.coreAt (48 * d + (o - 0x100000) / 16)).slot).extractLsb' (64 * (o / 8 % 2)) 64
  else if o = 0x100400 then slotStatWord (s.slotst.toList.getD d ⟨0, 0, false⟩)
  else if 0x100800 ≤ o && o < 0x100980 then (s.coreAt (48 * d + (o - 0x100800) / 8)).intr
  else if 0x100C00 ≤ o && o < 0x100D80 then (s.coreAt (48 * d + (o - 0x100C00) / 8)).supvec
  else if o = 0x101000 then (s.mig.toList.getD d Mig.reset).old
  else if o = 0x101008 then (s.mig.toList.getD d Mig.reset).new
  else if o = 0x101018 then migStatWord (s.mig.toList.getD d Mig.reset)
  else if ownerOffset d o then keyGet s.owners (devKey d o) 0
  else if d = 0 && 0x200000 ≤ o && o < 0x204000 then
    (queueBits (keyGet s.queues ((o - 0x200000) / 16) Queue.reset)).extractLsb' (64 * (o / 8 % 2)) 64
  else if d = 0 && o = 0x300000 then pwrStatWord s.power
  else 0

/-- A BOUND slot of the focused core goes UNBINDING; the UNBIND record (16 R331, 26 R413). -/
def leaveBound (s : State) : State :=
  if s.core.slot.state == .bound then
    (recordCur 0x07 s.core.slot.ctxid s).mapCore fun c => { c with slot := { c.slot with state := .unbinding } }
  else s

/-- YIELD: the MC unbinds the context that its supervisor names, and holds it in WAITING (16 R334). A write that is not valid
is ignored. -/
def yieldWrite (d : Nat) (v : Word) (s : State) : State :=
  let c := s.core
  if !c.regs.user && dieOf s.cur == d && c.isBound && c.slot.ctxid == v then
    let s1 := leaveBound s
    { s1 with ctxs := s1.ctxs.map fun k => if k.ctxid == v then { k with state := .waiting } else k }
  else s

/-- A doubleword that a core stores to a device register: YIELD takes it; every other register is written by management cores
alone and ignores it (16 R330, R334; 03 R63; 17 R340, R341). DEDUCED (log 13) -/
def devStore (s : State) (d o : Nat) (v : Word) : State := if o = 0x100408 then yieldWrite d v s else s

/-! ### Messages and remote accesses (14 R293, 25 R397-R399) -/

/-- A message the package sends: ORD is 1 as `ord` says, and behind a POD-scope fence (25 R399). -/
def sendMsg (ty : BitVec 8) (dst : BitVec 12) (tag addr : Word) (len : Nat) (ord : Bool) (stat : BitVec 8) (payload : List Byte)
    (s : State) : State :=
  let flits := (payload.length + 31) / 32
  let m : Msg := ⟨s.pkg.setWidth 12, dst, tag, addr, BitVec.ofNat 12 len, BitVec.ofNat 4 flits, ord || s.ord, stat, 0,
    payload ++ List.replicate (32 * flits - payload.length) 0⟩
  { s with outbox := s.outbox ++ [(ty, m)] }

/-- The parts of a remote access, none of which crosses a 256-byte boundary (25 R398): address and bytes. -/
def remoteParts (pa n : Nat) : List (Nat × Nat) :=
  let n1 := min n (256 - pa % 256)
  if n ≤ n1 then [(pa, n)] else
  let n2 := min (n - n1) 256
  if n ≤ n1 + n2 then [(pa, n1), (pa + n1, n2)] else [(pa, n1), (pa + n1, n2), (pa + n1 + n2, n - n1 - n2)]

/-- The package a remote address names (03 R44). -/
def remotePkg (pa : Nat) : BitVec 12 := BitVec.ofNat 12 (pa / 2 ^ 40 % 2 ^ 11)

/-- ORD of a remote access: 1 behind a write of the sender that is out and overlaps, so that the two take effect in program order
(14 R293, 05 R109; 25 R399). -/
def ordOver (out : List Remote) (pa n : Nat) : Bool :=
  out.any fun r => r.put && decide (r.addr < pa + n) && decide (pa < r.addr + r.n)

/-- READ messages of a remote read; the entries that await their answers. -/
def sendReads (ord : Bool) (q : Piece) (s : State) : State × List Remote :=
  (remoteParts q.pa q.n).foldl (fun a p =>
    let tag := a.1.nextTag
    let s1 := sendMsg 0x01 (remotePkg p.1) (BitVec.ofNat 64 tag) (BitVec.ofNat 64 (p.1 % 2 ^ 40)) 0 ord 0 (leBytes 8 p.2) a.1
    ({ s1 with nextTag := tag + 1 }, a.2 ++ [⟨tag, p.1, p.2, false, q.tlb, none⟩])) (s, [])

/-- WRITE messages of a remote write; the entries that await their acknowledgements. -/
def sendWrites (ord : Bool) (q : Piece) (bs : List Byte) (s : State) : State × List Remote :=
  (remoteParts q.pa bs.length).foldl (fun a p =>
    let tag := a.1.nextTag
    let s1 := sendMsg 0x02 (remotePkg p.1) (BitVec.ofNat 64 tag) (BitVec.ofNat 64 (p.1 % 2 ^ 40)) p.2 ord 0
      ((bs.drop (p.1 - q.pa)).take p.2) a.1
    ({ s1 with nextTag := tag + 1 }, a.2 ++ [⟨tag, p.1, p.2, true, q.tlb, none⟩])) (s, [])

/-- The ATOMIC message of a remote atomic: func11, then x[b] and x[d] (25 R398, log 14). -/
def sendAtomic (ord : Bool) (q : Piece) (func : Nat) (b d : Word) (fetch : Bool) (s : State) : State × List Remote :=
  let tag := s.nextTag
  let s1 := sendMsg 0x03 (remotePkg q.pa) (BitVec.ofNat 64 tag) (BitVec.ofNat 64 (q.pa % 2 ^ 40)) 0 ord 0
    (leBytes 8 func ++ leBytes 8 b.toNat ++ leBytes 8 d.toNat) s
  ({ s1 with nextTag := tag + 1 }, [⟨tag, q.pa, 8, !fetch, q.tlb, none⟩])

/-! ### Accesses of a core -/

/-- What an access of a core comes to: its pieces, and whether it is a singleton chunk (14 R282). -/
structure Plan where
  pieces : List Piece
  single : Bool
  deriving DecidableEq, Repr

/-- The place of a piece. -/
def Piece.place (p : Piece) : Place := placeOf p.pa
/-- The piece lies in a window. -/
def Piece.inWindow (p : Piece) : Bool := match p.place with
  | .sp .. | .reg .. | .fe .. | .ctl .. => true
  | _ => false
/-- The piece lies on a device page; the class of a window page is ignored (03 R52, R56). -/
def Piece.device (p : Piece) : Bool := match p.place with
  | .mem | .remote => p.tlb.pte.extractLsb' 54 2 == 1
  | .dev .. => true
  | _ => false
/-- A window piece that is not in core `cur`'s own scratchpad (04 R75). -/
def Piece.foreign (cur : Nat) (p : Piece) : Bool := match p.place with
  | .sp c _ => c != cur
  | .reg .. | .fe .. | .ctl .. => true
  | _ => false
/-- The piece names another core's registers, which no core reaches (04 R73). -/
def Piece.forbidden (cur : Nat) (p : Piece) : Bool := match p.place with
  | .reg c _ => c != cur
  | _ => false

/-- An access of `n` bytes is naturally aligned (04 R88). -/
def naturally (va : Word) (n : Nat) : Bool := [1, 2, 4, 8, 16, 32, 64].elem n && va.toNat % n == 0

/-- What of an access is checked after its pages (04 R73, R75, R77, R88, R431; 03 R56, R430; 07 R149): `ordered` is false for a
vector access without O, `whole` is false for one that writes parts of bytes (13 R261). -/
def planChecks (cur : Nat) (k : Acc) (va : Word) (n : Nat) (ordered whole : Bool) (ps : List Piece) :
    Except (Cause × Word) Plan :=
  if ps.any (·.forbidden cur) then .error (pageCause k, va) else
  let special := ps.any fun p => p.device || p.foreign cur
  if special && !(ordered && whole) then .error (.deviceAccess, va)
  else if special && !naturally va n then .error (.align, va)
  else if ps.any (fun p => match p.place with | .ctl .. => true | _ => false) && n != 8 then .error (.align, va)
  else if ps.any (fun p => match p.place with | .dev .. => true | _ => false) && !(n == 8 || n == 16) then .error (.align, va)
  else .ok ⟨ps, special || ps.any fun p => p.place == .remote⟩

/-- The kinds of register that pieces touch in the windows of core `cur`'s own registers: v, m and t (04 R71). -/
def windowKinds (cur : Nat) (ps : List Piece) : Bool × Bool × Bool :=
  let rs := ps.flatMap fun p => match p.place with
    | .reg c o => if c = cur then winRegs o p.n else []
    | _ => []
  (rs.any (·.1 == 0), rs.any (·.1 == 1), rs.any (·.1 == 2))

/-- The plan of a scalar access of the focused core, whose word is `w`, or the first check after the state of its windows that fails
(03 R53, 17 R348). -/
def planAccess (w : Word) (k : Acc) (va : Word) (n : Nat) : M (Except (Cause × Word) Plan) := do
  let s ← get
  match ← xlAccess s.core.xl k va n with
  | .error e => return .error e
  | .ok ps =>
    let u := windowKinds s.cur ps
    needState u.1 u.2.1 u.2.2 w
    return planChecks s.cur k va n true true ps

/-- What an access to the owning context's register windows needs: no register open that it writes, nor an open mask or tile
register; a read waits for the presence bits of its groups (05 R100). -/
def guardWindows (write : Bool) (ps : List Piece) : M Unit :=
  ps.forM fun p => match p.place with
    | .reg _ o => do
      (winRegs o p.n).forM fun r => guardReg r.1 r.2 write
      if !write then
        ((List.range p.n).map fun i => (o + i) / 64).eraseDups.forM fun g =>
          if g < 0x410000 / 64 then needPresent ((g - 0x400000 / 64) / 32) (g % 32) else pure ()
    | _ => pure ()

/-- An access to HBM waits while HBM is not served (27 R425). -/
def needHbm (ps : List Piece) : M Unit := do
  let s ← get
  if ps.any (fun p => p.pa / 2 ^ 48 == 0) && !s.hbmServed then await .reduced

/-- A read of a line that stays poisoned when it is reissued (17 R356). -/
def needClean (ps : List Piece) : M Unit := do
  let s ← get
  match (ps.filter (·.place == .mem)).findSome? fun p => (linesOf p.pa p.n).find? fun l => s.poisoned (64 * l) with
  | some l => raise .machineCheck (poisonTval l)
  | none => pure ()

/-- The chunk has used these translations (03 R61). -/
def useTlb (ps : List Piece) (ch : Chunk) : Chunk :=
  { ch with used := ps.foldl (fun u p => if u.elem p.tlb then u else p.tlb :: u) ch.used }

/-- The bytes of a piece read outside a chunk. -/
def directRead (s : State) (p : Piece) : List Byte :=
  match p.place with
  | .sp c o => memRead (s.coreAt c).scratch o p.n
  | .reg _ o => (List.range p.n).map fun i => winByte s.core.regs (o + i)
  | .fe c o => (List.range p.n).map fun i => feByte (s.coreAt c) (o + i)
  | .ctl c o => leBytes p.n (ctlRead c (s.coreAt c) (o - 0x480000)).toNat
  | .dev d o => leBytes 8 (devRead s d o).toNat ++ (if p.n = 16 then leBytes 8 (devRead s d (o + 8)).toNat else [])
  | _ => s.homeBytes p.pa p.n

/-- The bytes of a piece as the chunk sees them (14 R283, 04 R74). -/
def chunkRead (s : State) (p : Piece) : List Byte :=
  match p.place with
  | .sp _ o => memRead s.core.scratch o p.n
  | _ => (List.range p.n).map fun i => (cellFind s.core.chunkOr.wr (p.pa + i)).getD (s.home (p.pa + i))

/-- The lines of memory that pieces touch. -/
def memLines (ps : List Piece) : List Nat := (ps.filter (·.place == .mem)).flatMap fun p => linesOf p.pa p.n

/-- An access that touches a byte under a pending commutative update ends the chunk first (13 R272), for REASON 2: no code of 26 R413 names
this boundary (log 98). DESIGN CHOICE -/
def endIfCom (ps : List Piece) : M Unit := do
  let ch := (← get).core.chunkOr
  if ch.com.any fun u => ps.any fun p => p.place == .mem && decide (u.addr < p.pa + p.n) && decide (p.pa < u.addr + u.n) then
    newChunkM 2

/-- The answers of the core's remote reads that are out, when all have come; they leave the list. -/
def takeReplies (s : State) : Option (List Byte × State) :=
  let rs := s.core.out.filter fun r => !r.put
  if rs.isEmpty || rs.any (·.reply.isNone) then none
  else some (rs.flatMap (fun r => (r.reply.getD []).take r.n), s.mapCore fun c => { c with out := c.out.filter (·.put) })

/-- The answers of a remote access that the core waits for (14 R293). -/
def takeRemote : M (List Byte) := do
  endChunkM 2
  match takeReplies (← get) with
  | some (bs, s1) => set s1; return bs
  | none => await .remote

/-- The messages of a read that touches a remote package; the bytes that lie in this package are read beside them (14 R293,
04 R431). -/
def sendRead (s : State) (p : Piece) : State :=
  let (s1, rs) := if p.place == .remote then sendReads (ordOver s.core.out p.pa p.n) p s
    else (s, [⟨0, p.pa, p.n, false, p.tlb, some (directRead s p)⟩])
  s1.mapCore fun c => { c with out := c.out ++ rs }

/-- A read that touches a remote package: a singleton chunk, then the messages, then the wait for the answers (14 R293). -/
def remoteRead (ps : List Piece) : M (List Byte) := do
  let s ← get
  if s.core.out.all (·.put) then
    endChunkM 2
    singleM 2 []
    modify fun s => ps.foldl sendRead s
    await .remote
  takeRemote

/-- A read inside the chunk: its lines join the read set (14 R279, R283). -/
def insideRead (ps : List Piece) : M (List Byte) := do
  modify fun s => s.mapChunk fun ch => useTlb ps { ch with rlines := addLines ch.rlines (memLines ps) }
  let s ← get
  return ps.flatMap (chunkRead s)

/-- Reads what a plan names (03 R53, 04 R74, R75, 14 R282, R283). -/
def readPlan (pl : Plan) : M (List Byte) := do
  guardWindows false pl.pieces
  needHbm pl.pieces
  needClean pl.pieces
  if pl.pieces.any (·.place == .remote) then remoteRead pl.pieces
  else if pl.single then
    endChunkM 2
    singleM 2 []
    let s ← get
    return pl.pieces.flatMap (directRead s)
  else
    endIfCom pl.pieces
    insideRead pl.pieces

/-- The bytes of an access divided among its pieces. -/
def splitBytes : List Piece → List Byte → List (Piece × List Byte)
  | [], _ => []
  | p :: r, bs => (p, bs.take p.n) :: splitBytes r (bs.drop p.n)

/-- Bytes written to a scratchpad from outside its core's chunk: undo images give way, so that no squash takes them back (04 R74). -/
def Core.finalScratch (c : Core) (o : Nat) (bs : List Byte) : Core :=
  { c with
    scratch := memWrite c.scratch o bs
    chunk := c.chunk.map fun ch => { ch with undo := (List.range bs.length).foldl (fun u i => cellDel u (o + i)) ch.undo } }

/-- A piece written outside a chunk. 04 R74 says of engine writes alone that undo images give way; a store of another core is final too,
because its singleton chunk has committed (14 R285; log 73). DEDUCED -/
def directWrite (s : State) (p : Piece) (bs : List Byte) : State :=
  match p.place with
  | .sp c o => s.setCoreAt c ((s.coreAt c).finalScratch o bs)
  | .reg _ o =>
    let rs := winRegs o p.n
    s.noHalt.mapRegs fun r =>
      (bs.zipIdx.foldl (fun r b => winPut r (o + b.2) b.1) r).dirty (rs.any (·.1 == 0)) (rs.any (·.1 == 1)) (rs.any (·.1 == 2))
  | .fe c o => s.setCoreAt c (bs.zipIdx.foldl (fun k b => fePut k (o + b.2) b.1) (s.coreAt c))
  | .ctl c o => s.setCoreAt c (ctlWrite (s.coreAt c) (o - 0x480000) (BitVec.ofNat 64 (leNat bs)))
  | .dev d o =>
    let s1 := devStore s d o (BitVec.ofNat 64 (leNat (bs.take 8)))
    if p.n = 16 then devStore s1 d (o + 8) (BitVec.ofNat 64 (leNat (bs.drop 8))) else s1
  | _ => s.homeWrite p.pa bs

/-- The chunk with bytes written to memory, whose old values no load returns any more (14 R283, 13 R264). -/
def chunkWrite (ch : Chunk) (pa : Nat) (bs : List Byte) : Chunk :=
  { ch with
    wr := bs.zipIdx.foldl (fun m b => cellPut m (pa + b.2) b.1) ch.wr
    wlines := addLines ch.wlines (linesOf pa bs.length)
    late := ch.late.filter fun b => decide (b.1 < pa) || decide (pa + bs.length ≤ b.1) }

/-- The undo image of a scratchpad line, taken before the chunk's first store to it (04 R74). A byte that an engine has written since has left
the image; a later store of the chunk to it takes no new one, so that a squash leaves that store (log 98). DESIGN CHOICE -/
def undoLine (sp : Mem) (ch : Chunk) (l : Nat) : Chunk :=
  if ch.ulines.elem l then ch
  else { ch with
    ulines := l :: ch.ulines
    undo := (List.range 64).foldl (fun u i => cellPut u (64 * l + i) (memGet sp (64 * l + i))) ch.undo }

/-- A store of the owning context to its own scratchpad: at once, with undo images (04 R74). -/
def scratchStore (o : Nat) (bs : List Byte) (s : State) : State :=
  let s1 := s.mapChunk fun ch => (linesOf o bs.length).foldl (undoLine s.core.scratch) ch
  s1.mapCore fun c => { c with scratch := memWrite c.scratch o bs }

/-- A piece written inside the chunk. -/
def pieceWrite (s : State) (p : Piece) (bs : List Byte) : State :=
  match p.place with
  | .sp _ o => scratchStore o bs s
  | _ => s.mapChunk (chunkWrite · p.pa bs)

/-- Lines that an access would add to the chunk's write set (14 R279, 04 R69). -/
def newLines (ch : Chunk) (ps : List Piece) : Nat :=
  let ml := (memLines ps).filter fun l => !(ch.wlines.elem l || ch.comLines.elem l)
  let sl := (ps.flatMap fun p => match p.place with | .sp _ o => linesOf o p.n | _ => []).filter fun l => !ch.ulines.elem l
  ml.length + sl.length

/-- An access would take the write set past 4,096 lines (14 R279). -/
def overLimit (ch : Chunk) (ps : List Piece) : Bool := decide (4096 < ch.lines + newLines ch ps) && ch.lines != 0

/-- The write set would pass 4,096 lines: the chunk ends before the access (14 R279). -/
def lineLimit (ps : List Piece) : M Unit := do if overLimit (← get).core.chunkOr ps then newChunkM 4

/-- A piece of a write outside the chunk: at its home, or as messages to a remote package (14 R293, 04 R431). -/
def singleWrite (s : State) (p : Piece × List Byte) : State :=
  if p.1.place == .remote then
    let (s1, rs) := sendWrites (ordOver s.core.out p.1.pa p.1.n) p.1 p.2 s
    s1.mapCore fun c => { c with out := c.out ++ rs }
  else directWrite s p.1 p.2

/-- A write inside the chunk (14 R283, 04 R74). -/
def insideWrite (ps : List Piece) (bs : List Byte) (s : State) : State :=
  (splitBytes ps bs).foldl (fun s p => pieceWrite s p.1 p.2) (s.mapChunk (useTlb ps))

/-- Writes what a plan names (03 R53, 04 R74, R75, 14 R282, R283, R293). -/
def writePlan (pl : Plan) (bs : List Byte) : M Unit := do
  guardWindows true pl.pieces
  needHbm pl.pieces
  if pl.single then
    endChunkM 2
    singleM 2 (addLines [] (memLines pl.pieces))
    modify fun s => (splitBytes pl.pieces bs).foldl singleWrite s
  else
    endIfCom pl.pieces
    lineLimit pl.pieces
    modify (insideWrite pl.pieces bs)

/-! ### Bytes that scalar accesses and P = 1 vector accesses share (07 R150, 13 R264) -/

/-- The bytes of pieces with their physical addresses. -/
def bytesAt (ps : List Piece) (bs : List Byte) : List (Nat × Byte) :=
  (splitBytes ps bs).flatMap fun p => p.2.zipIdx.map fun b => (p.1.pa + b.2, b.1)

/-- What a scalar load returns for each byte: the stored value, or an old one that a P = 1 store has left: the oracle chooses, the
stored value first (13 R264; log 5). DEDUCED -/
def lateBytes (late : List (Nat × Byte)) : List (Nat × Byte) → M (List Byte)
  | [] => return []
  | (a, b) :: r => do
    let old := (late.filter (·.1 == a)).map (·.2)
    let c ← if old.isEmpty then pure b else do pure ((b :: old).getD ((← oracle) % (old.length + 1)) b)
    return c :: (← lateBytes late r)

/-- A vector register with the byte that overtook a load in its place. -/
def Lend.into (l : Lend) (b : Byte) (v : VReg) : VReg :=
  (v &&& ~~~(l.mask.setWidth 16384 <<< l.bit)) ||| ((b &&& l.mask).setWidth 16384 <<< l.bit)

/-- The registers with the byte that overtook a load, and the zero map of its group (07 R143, R150). -/
def Lend.patch (l : Lend) (b : Byte) (r : Regs) : Regs :=
  let g := l.bit / 512
  let v := l.into b (r.v.toList.getD l.reg 0)
  { r with
    v := vecMod r.v l.reg fun _ => v
    z := vecMod r.z l.reg fun z => setField z g 1 (if getField v (512 * g) 512 = 0 then 1 else 0) }

/-- A scalar store may overtake the P = 1 loads of its bytes: for each byte the oracle chooses (0: it does not) (07 R150;
log 5). DEDUCED -/
def overtake (ws : List (Nat × Byte)) : List Lend → M Unit
  | [] => return
  | l :: ls => do
    match ws.find? (·.1 == l.pa) with
    | some (_, b) => if (← oracle) ≠ 0 then modRegs (l.patch b)
    | none => pure ()
    overtake ws ls

/-- A scalar read of `n` bytes (04 R85). -/
def memLoad (w : Word) (va : Word) (n : Nat) : M (List Byte) := do
  if (← get).core.wait == some .remote then takeRemote else
  match ← planAccess w .load va n with
  | .error (c, t) => raise c t
  | .ok pl =>
    let bs ← readPlan pl
    if pl.single then return bs else lateBytes (← get).core.chunkOr.late (bytesAt pl.pieces bs)

/-- A scalar write (04 R87). -/
def memStore (w : Word) (va : Word) (bs : List Byte) : M Unit := do
  match ← planAccess w .store va bs.length with
  | .error (c, t) => raise c t
  | .ok pl =>
    writePlan pl bs
    if pl.single then pure () else overtake (bytesAt pl.pieces bs) (← get).core.chunkOr.lends

/-! ### Writes on the paths outside the chunks (14 R289) -/

/-- The writes outside the chunks with one more. -/
def addOutside (w : OutWrite) (l : List OutWrite) : List OutWrite := if l.elem w then l else w :: l

/-- A write at the homes on a path outside the chunks: its class, its unit and the context it is made for (14 R289, R292). -/
def outsideWrite (cls unit : Nat) (ctxid : Word) (pa : Nat) (bs : List Byte) (s : State) : State :=
  let ls := linesOf pa bs.length
  { s.homeWrite pa bs with outside := addOutside ⟨cls, unit, ctxid, pa / 64, ls.length⟩ s.outside }

/-- A source of path class `c` and unit `u`, which acts for context `k`, is one of class `cls` that a fence of core `n` and context
`ctxid` covers: a unit is a core, or a die for the migration engines (14 R291). -/
def fenceCovers (scope : BitVec 3) (n : Nat) (ctxid : Word) (cls c u : Nat) (k : Word) : Bool :=
  c == cls &&
  (if cls = 4 then true
  else if cls = 5 then decide (4 ≤ scope.toNat) || dieOf n == u
  else if scope = 1 then k == ctxid
  else if scope = 3 then dieOf n == dieOf u
  else true)

/-- A source begins no access: a fence that waits names it in its clsB (14 R292 step 5). -/
def State.fenced (s : State) (c u : Nat) (k : Word) : Bool :=
  s.cores.any fun p => p.2.fence.any fun f => fenceCovers f.scope p.1 p.2.slot.ctxid f.cls c u k

/-- The remote accesses of the core are acknowledged, and what the package sends from here on carries ORD (14 R292, R294;
25 R399). -/
def podFence : M Unit := do
  if !(← get).core.out.isEmpty then await .fence
  modify fun s => { s with ord := true }

/-- Where a fetch finds its word: the physical address, and the translation (02 R26 step 1). -/
def fetchWord (x : Xl) (pc : Word) : M (Except Cause (Nat × Tlb)) := do
  match ← xlPage x .fetch pc with
  | .error c => return .error c
  | .ok t =>
    let pa := t.base + (vaBits pc - t.va)
    let s ← get
    if pa / 2 ^ 48 == 0 && !s.hbmServed then await .reduced
    return .ok (pa, t)

/-! ### Fetched text (17 R351) -/

/-- The word at its home. -/
def State.wordAt (s : State) (pa : Nat) : BitVec 32 := BitVec.ofNat 32 (s.homeNat pa 4)
/-- A line of text at its home. -/
def State.lineAt (s : State) (n : Nat) : Line := ⟨n, (List.range 16).map fun k => s.wordAt (64 * n + 4 * k)⟩
/-- The word at a physical address that fetch unit `u` of the core holds. -/
def Core.heldWord (c : Core) (u : Fin 4) (pa : Nat) : Option (BitVec 32) :=
  ((c.text.get u).find? (·.num == pa / 64)).map fun l => l.words.getD (pa % 64 / 4) 0
/-- The core with the lines that unit `u` holds changed. -/
def Core.mapText (c : Core) (u : Fin 4) (f : List Line → List Line) : Core := { c with text := c.text.set u (f (c.text.get u)) }
/-- A line fetched, which unit `u` holds unless it holds the line already or the line is poisoned. -/
def State.keepLine (u : Fin 4) (n : Nat) (s : State) : State :=
  if s.poisoned (64 * n) || (s.core.text.get u).any (·.num == n) then s
  else s.mapCore (·.mapText u fun l => (s.lineAt n :: l).take Config.textLines)
/-- What a fetch unit holds after a fetch: the word's line and, in the same 64 KiB, the next, ahead of what is executed (log 110).
DESIGN CHOICE -/
def State.runAhead (u : Fin 4) (pa : Nat) (s : State) : State :=
  let n := pa / 64
  let s1 := s.keepLine u n
  if (n + 1) % 1024 = 0 then s1 else s1.keepLine u (n + 1)
/-- Unit `u` holds a line no longer. -/
def Core.dropLine (c : Core) (u : Fin 4) (n : Nat) : Core := c.mapText u (·.filter (·.num != n))

/-- The word read at its home; none when its line is poisoned. -/
def homeFetch (u : Fin 4) (pa : Nat) : M (Option (BitVec 32)) := do
  let s ← get
  if s.poisoned pa then return none
  modify (·.runAhead u pa)
  return some (s.wordAt pa)

/-- The word that unit `u` fetches: a word that it holds from an earlier fetch may be taken though the home's has changed or is poisoned:
the oracle chooses, 0 the home (17 R351; log 110). -/
def textWord (u : Fin 4) (pa : Nat) : M (Option (BitVec 32)) := do
  let s ← get
  match (s.core.heldWord u pa).filter fun w => s.poisoned pa || w != s.wordAt pa with
  | none => homeFetch u pa
  | some w =>
    if (← oracle) = 0 then
      modCore (·.dropLine u (pa / 64))
      homeFetch u pa
    else
      modify (·.runAhead u pa)
      return some w

/-- A fetch by unit `u`: the word, and the access that it was. A poisoned word is data that is consumed (17 R356; log 18). DEDUCED -/
def fetchText (u : Fin 4) (x : Xl) (pc : Word) : M (Except Cause (BitVec 32 × Piece)) := do
  match ← fetchWord x pc with
  | .error c => return .error c
  | .ok (pa, t) =>
    match ← textWord u pa with
    | none => raise .machineCheck (poisonTval (pa / 64))
    | some w => return .ok (w, ⟨pc, pa, 4, t⟩)

/-- No fetch unit of the cores that `hit` names holds a word any more (17 R352). -/
def textDrop (hit : Nat → Bool) (s : State) : State :=
  let drop (n : Nat) (c : Core) : Core := if hit n then { c with text := Vector.replicate 4 [] } else c
  { s with core := drop s.cur s.core, others := s.others.map fun p => (p.1, drop p.1 p.2) }

end Sys2Proof.Machine
end

