-- ==== Sys2Proof/Machine/Sched.lean ====
section
/-! DEFINITION. Slots, save areas, binding, parking and the end of a context (16 R330-R334, 17 R345, R359-R361). -/
namespace Sys2Proof.Machine

/-! ### The save area (17 R359) -/

/-- Code of an engine's run state (17 R359). -/
def runCode : RunState → Nat
  | .idle => 0
  | .running => 1
  | .ended => 2
  | .failed => 3
  | .joined => 4
  | .joinedFailed => 5

/-- Run state of a code, 0 to 5 (17 R359). -/
def runOf : Nat → RunState
  | 1 => .running
  | 2 => .ended
  | 3 => .failed
  | 4 => .joined
  | 5 => .joinedFailed
  | _ => .idle

/-- The doublewords of engine `e` in the core record: engine 3 uses the first alone (17 R359). -/
def engineWords (e : Nat) (g : Engine) : List (Nat × Nat) :=
  let o := 0x300 + 0xC0 * e
  let head := (o, g.serial.toNat * 256 + runCode g.run)
  if e = 3 then [head] else
  [head, (o + 0x08, g.pc.toNat), (o + 0x10, g.err.toNat),
    (o + 0x18, g.openV.toNat + 2 ^ 32 * g.openM.toNat + 2 ^ 48 * g.openT.toNat)] ++
  g.r.toList.zipIdx.map (fun p => (o + 0x20 + 8 * p.2, p.1.toNat)) ++
  [(o + 0xA0, g.ten.toNat % 2 ^ 16 + 2 ^ 16 * (g.asid.toNat % 2 ^ 16) + 2 ^ 32 * g.sup.toNat), (o + 0xA8, g.ptb.toNat)]

/-- The doublewords of window descriptor `w` (17 R359, 13 R274). -/
def windowWords (w : Nat) (d : Window) : List (Nat × Nat) :=
  let o := 0x240 + 32 * w
  [(o, d.base.toNat), (o + 8, d.nel.toNat + 2 ^ 24 * d.off.toNat),
    (o + 16, 2 ^ 63 * d.valid.toNat + 256 * d.fmt.toNat + d.op.toNat)]

/-- The core record of a context: offsets and doublewords, others zero (17 R359). `pc` and `stat` are given. -/
def recordWords (c : Core) (pc stat : Word) : List (Nat × Nat) :=
  let r := c.regs
  (r.x.toList.zipIdx.drop 1).map (fun p => (8 * p.2, p.1.toNat)) ++
  [(0x100, pc.toNat), (0x108, stat.toNat), (0x110, r.fst.toNat), (0x118, r.srseed.toNat), (0x120, r.srcnt.toNat),
    (0x128, r.rps.toNat), (0x130, r.chb.toNat), (0x138, r.ten.toNat), (0x140, r.asid.toNat), (0x148, r.ptb.toNat),
    (0x150, r.ctxid.toNat), (0x158, r.ctxrank.toNat), (0x160, r.groupsz.toNat), (0x168, r.saveva.toNat), (0x170, c.csn.toNat)] ++
  r.b.toList.zipIdx.map (fun p => (0x200 + 8 * p.2, p.1.toNat)) ++
  r.win.toList.zipIdx.flatMap (fun p => windowWords p.2 p.1) ++
  c.eng.toList.zipIdx.flatMap (fun p => engineWords p.2 p.1) ++
  (List.range 16).map fun k =>
    (0x600 + 8 * k, (c.pres.toList.getD (2 * k) 0).toNat + 2 ^ 32 * (c.pres.toList.getD (2 * k + 1) 0).toNat)

/-- A record of 4,096 bytes with the doublewords given and zero elsewhere. -/
def recordBytes (ws : List (Nat × Nat)) : List Byte :=
  (List.range 512).flatMap fun k => leBytes 8 (((ws.find? fun p => p.1 == 8 * k).map (·.2)).getD 0)

/-- Width in bytes of a window descriptor's elements (13 R274). -/
def Window.width (d : Window) : Nat := if d.fmt == 2 || d.fmt == 5 then 4 else 8
/-- Scratchpad offset and bytes of a window's copy area (13 R274). -/
def Window.area (d : Window) : Nat × Nat := (d.off.toNat, 32 * d.nel.toNat * d.width)

/-- The copy areas of the valid windows. -/
def copyAreas (r : Regs) : List (Nat × Nat) := (r.win.toList.filter (·.valid)).map Window.area

/-- Writes the window block of a save area (17 R359, R361). -/
def saveWindows (base : Nat) (s : State) : State :=
  (copyAreas s.core.regs).foldl (fun s a =>
    outsideWrite 0 s.cur s.core.slot.ctxid (base + 0x60000 + a.1) (memRead s.core.scratch a.1 a.2) s) s

/-- Bits of PTB that exist (03 R59). -/
def ptbBits : Word := 0x000FFFFFFFFFC000

/-- Bits of an engine's error word that exist (05 R110). -/
def errBits : Word := ~~~(0x1F#64 <<< 49)

/-- An engine from its record; reserved bits read 0 (17 R359, 00 R5). -/
def engineOf (s : State) (base e : Nat) : Engine :=
  let w (o : Nat) : Word := BitVec.ofNat 64 (s.homeNat (base + 0x300 + 0xC0 * e + o) 8)
  let head := w 0
  let g := { Engine.reset with serial := head.extractLsb' 8 24, run := runOf (head.toNat % 8) }
  if e = 3 then g else
  { g with
    pc := w 0x08
    err := w 0x10 &&& errBits
    openV := (w 0x18).extractLsb' 0 32
    openM := (w 0x18).extractLsb' 32 16
    openT := (w 0x18).extractLsb' 48 16
    r := Vector.ofFn fun k => w (0x20 + 8 * k.val)
    ten := (w 0xA0).setWidth 16 |>.setWidth 64
    asid := ((w 0xA0).extractLsb' 16 16).setWidth 64
    sup := (w 0xA0).getLsbD 32
    ptb := w 0xA8 &&& ptbBits }

/-- A window descriptor from its record (17 R359). -/
def windowOf (s : State) (base w : Nat) : Window :=
  let q (o : Nat) : Word := BitVec.ofNat 64 (s.homeNat (base + 0x240 + 32 * w + o) 8)
  ⟨(q 16).getLsbD 63, q 0, (q 8).setWidth 24, (q 8).extractLsb' 24 22, (q 16).setWidth 3, (q 16).extractLsb' 8 5⟩

/-- Bits of STAT that exist (17 R343). -/
def statBits : Word := 0xFC3B
/-- STAT with VS, MS and TS off (17 R360). -/
def statBound (st : Word) : Word := setField (st &&& statBits) 10 6 0
/-- The VQ sequence number at which a context goes on: the one it left a slot with (15 R303); the first is 0, and so is that of
a context that no launch made (log 16). DESIGN CHOICE -/
def seqOf (s : State) (ctxid : Word) : BitVec 32 :=
  match s.ctxs.find? fun k => k.ctxid == ctxid with
  | some k => k.seq
  | none => 0

/-- Bytes of open vector registers that an engine has written since the open, of a context that goes on: those it left a slot with
(05 R100); none for a context that no launch made (log 54). DEDUCED -/
def coverOf (s : State) (ctxid : Word) : Vector (BitVec 2048) 32 :=
  match s.ctxs.find? fun k => k.ctxid == ctxid with
  | some k => k.cover
  | none => Vector.replicate 32 0

/-- Keeps of a context that leaves its slot what no record of the save area holds: its VQ sequence number and what an engine has
written of its open registers (15 R303, 05 R100; log 54). DEDUCED -/
def keepOwn (ctxid : Word) (c : Core) (s : State) : State :=
  { s with ctxs := s.ctxs.map fun k => if k.ctxid == ctxid then { k with seq := c.regs.seq, cover := c.cover } else k }

/-- The core with its core record loaded (17 R360); reserved bits read 0 (00 R5), and a code of FST.RM above 4 stands as recorded
(log 55). DESIGN CHOICE. The vector, mask and tile files stay as they stand. -/
def loadRecord (s : State) (base : Nat) (c : Core) : Core :=
  let w (o : Nat) : Word := BitVec.ofNat 64 (s.homeNat (base + o) 8)
  let eng : Vector Engine 4 := Vector.ofFn fun e => { engineOf s base e.val with out := (c.eng.get e).out }
  let c1 := { c with eng := eng }
  let r := c.regs
  { c1 with
    regs := { r with
      pc := w 0x100 &&& ~~~3#64
      x := Vector.ofFn fun k => if k.val = 0 then 0 else w (8 * k.val)
      stat := statBound (w 0x108)
      fst := w 0x110 &&& 0xFF1F, srseed := w 0x118, srcnt := w 0x120, rps := w 0x128 &&& ~~~(1#64 <<< 48)
      chb := w 0x130 &&& 0x1FFFF
      ten := w 0x138 &&& 0xFFFF, asid := w 0x140 &&& 0xFFFF, ptb := w 0x148 &&& ptbBits
      ctxid := w 0x150, ctxrank := w 0x158, groupsz := w 0x160, saveva := w 0x168
      tvec := c.supvec
      b := Vector.ofFn fun k => w (0x200 + 8 * k.val) &&& ~~~0x3F8#64
      win := Vector.ofFn fun k => windowOf s base k.val
      seq := seqOf s (w 0x150)
      susp := false }
    csn := w 0x170
    pres := Vector.ofFn fun k =>
      if c1.openV.getLsbD k.val then BitVec.ofNat 32 (s.homeNat (base + 0x600 + 4 * k.val) 4) else BitVec.allOnes 32
    cover := coverOf s (w 0x150) }

/-! ### Slots (16 R330-R332) -/

/-- The state of a launched context set, unless its supervisor has had it held in WAITING (16 R331, R334). -/
def tellMc (ctxid : Word) (st : CtxState) (s : State) : State :=
  { s with ctxs := s.ctxs.map fun k =>
      if k.ctxid == ctxid && !(st == .runnable && k.state == .waiting) then { k with state := st, gave := if st == .bound then 0 else k.gave }
      else k }

/-- A refused slot command (16 R330, R332). -/
def refuseSlot (reason : BitVec 3) (s : State) : State :=
  { s with slotst := vecMod s.slotst (dieOf s.cur) fun _ => ⟨reason, BitVec.ofNat 6 (s.cur % 48), true⟩ }

/-- Physical address of the save area of a slot. -/
def Slot.area (t : Slot) : Nat := t.savepa.toNat * 4096

/-- CTXID is bound on another slot (16 R332). -/
def boundElsewhere (ctxid : Word) (s : State) : Bool :=
  s.others.any fun p => p.2.slot.state != .empty && p.2.slot.ctxid == ctxid

/-- The quad of the core has started, and no second lane of a pipe has failed (27 R424, 17 R355). -/
def State.acceptsBinds (s : State) : Bool :=
  decide (s.cur % 48 / 4 < s.power.quads.toList.getD (dieOf s.cur) 0) && !s.core.lost

/-- The core of rank `r` under a home quad or die (16 R329). -/
def homeCore (place : BitVec 3) (home r : Nat) : Nat :=
  if place = 2 then 48 * (home / 12) + 4 * (home % 12) + r else 48 * home + r

/-- The home to which core `n` belongs under a placement: a quad, a die, or none (16 R329). -/
def homeOf (place : BitVec 3) (n : Nat) : Option Nat :=
  if place = 2 then some (12 * (n / 48) + n % 48 / 4) else if place = 3 then some (n / 48) else none

/-- PLACE lets a context bind on core `n`: the core of its rank in its home, or in the home that this bind chooses (16 R329). -/
def Ctx.fits (k : Ctx) (n : Nat) : Bool :=
  match homeOf k.place n with
  | none => true
  | some h => homeCore k.place h k.rank == n && k.home.all (· == h)

/-- The first bind of a context of a group chooses the group's home, and the choice holds (16 R329). -/
def chooseHomeOf (ctxid : Word) (s : State) : State :=
  match s.ctxs.find? (·.ctxid == ctxid) with
  | none => s
  | some k => match homeOf k.place s.cur with
    | none => s
    | some h => { s with ctxs := s.ctxs.map fun x => if x.group == k.group then { x with home := x.home.or (some h) } else x }

/-- The owner entries of the QUAD or DIE barriers of a home: die, first offset, count (14 R298). -/
def homeOwners (place : BitVec 3) (h : Nat) : Nat × Nat × Nat :=
  if place = 2 then (h / 12, 0x102000 + 8 * 16 * (h % 12), 16) else (h, 0x102800, 64)

/-- The shipped firmware grants the barriers of a context's home to its tenant (14 R298). -/
def grantHome (ctxid : Word) (s : State) : State :=
  match (s.ctxs.find? (·.ctxid == ctxid)).bind fun k => k.home.map fun h => (k, homeOwners k.place h) with
  | none => s
  | some (k, d, o, n) =>
    { s with owners := (List.range n).foldl (fun l i => keyPut l (devKey d (o + 8 * i)) (1#1 ++ 0#47 ++ k.ten)) s.owners }

/-- The checks of a BIND on an EMPTY slot, in order: the REASON of the first that fails, or none; `held` when the save area lies in
HBM that is not served (16 R332, 27 R425). A core that accepts no binds refuses as for its slot's state, after them (log 15).
DEDUCED -/
def bindRefused (s : State) : Option (BitVec 3) × Bool :=
  let t := s.core.slot
  let a := t.area
  if s.core.supvec == 0 then (some 4, false)
  else if boundElsewhere t.ctxid s then (some 1, false)
  else if !backed a 0x360000 || decide (1 < a / 2 ^ 48) then (some 2, false)
  else if a / 2 ^ 48 == 0 && !s.hbmServed then (none, true)
  else if t.ctxid == 0 || s.homeNat (a + 0x150) 8 != t.ctxid.toNat then (some 3, false)
  else if (List.range 4).any fun e => decide (5 < s.homeNat (a + 0x300 + 0xC0 * e) 8 % 8) then (some 5, false)
  else if !s.acceptsBinds then (some 0, false)
  else (none, false)

/-- CMD = BIND on the focused core's slot (16 R331, R332). PLACE is no check of 16 R332: a BIND against it, which the shipped firmware
never writes (16 R329), binds (log 70). DEDUCED -/
def bindCmd (s : State) : State :=
  let t := s.core.slot
  if t.state != .empty then refuseSlot 0 s
  else match bindRefused s with
    | (some reason, _) => refuseSlot reason (s.mapCore fun c => { c with slot := { t with asked := false } })
    | (none, held) =>
      if held then s.mapCore fun c => { c with slot := { t with asked := true } }
      else
        tellMc t.ctxid .bound (grantHome t.ctxid (chooseHomeOf t.ctxid
          (s.mapCore fun c => { c with slot := { t with state := .binding, held := false, asked := false } })))

/-- CMD = UNBIND on the focused core's slot (16 R331). -/
def unbindCmd (s : State) : State :=
  match s.core.slot.state with
  | .empty => refuseSlot 0 s
  | .binding => s.mapCore fun c => { c with slot := { c.slot with held := true } }
  | .bound => leaveBound s
  | .unbinding => s

/-- The scratchpad at a bind: zero and every bit empty when the tenant changes (04 R76). The first bind on a core since a cold reset has
no tenant before it and counts as a change (log 71). DESIGN CHOICE -/
def bindScratch (ten : BitVec 16) (c : Core) : Core :=
  if c.lastTen == some ten then c else { c with scratch := [], fe := 0, lastTen := some ten }

/-- The window block written back to the copy areas (17 R360 step 2). -/
def loadWindows (s : State) (base : Nat) (c : Core) : Core :=
  (((List.range 4).map (windowOf s base)).filter (·.valid)).foldl (fun c d =>
    { c with scratch := memWrite c.scratch d.area.1 (s.homeBytes (base + 0x60000 + d.area.1) d.area.2) }) c

/-- Engine 3 as its run stands: the die's collective engine has gone on while the context was unbound (25 R403). -/
def engineThree (s : State) (ctxid : Word) (g : Engine) : Engine :=
  match s.runs.find? fun r => r.ctxid == ctxid && r.serial == g.serial with
  | none => g
  | some r =>
    { g with
      run := if g.run == .running then r.run else g.run
      r := g.r.set 0 (if r.run == .ended then r.result else 0)
      err := if r.run == .failed then r.result else 0
      ten := r.ten, asid := r.asid, ptb := r.ptb, sup := r.sup }

/-- The bind completes: the slot becomes BOUND and the context begins at its PC; an UNBIND that was held acts at once, and its PREEMPT
comes before any instruction (17 R360, 16 R331, 26 R413). -/
def bindLoad (s : State) : State :=
  if s.core.slot.state != .binding then s else
  let a := s.core.slot.area
  let ten := BitVec.ofNat 16 (s.homeNat (a + 0x138) 8)
  let c := loadRecord s a (loadWindows s a (bindScratch ten s.core))
  let held := c.slot.held
  let c1 := { c with
    chunk := none, squashes := 0, reserved := false, wait := none, held := none, endAfter := none, entering := false, stopped := false
    out := [], fence := none, tinv := none, icinv := none, prog := .retired, inside := held, halt := none
    eng := c.eng.set 3 (engineThree s c.slot.ctxid (c.eng.get 3))
    slot := { c.slot with state := .bound, held := false } }
  let s1 := recordCur 0x06 c1.slot.ctxid { s with core := c1 }
  if held then leaveBound s1 else s1

/-- The core after its context has left it (16 R331): nothing of the context goes on, but for the puts of its engines, which are out
until they are acknowledged (03 R61, 05 R109; log 72). DEDUCED -/
def Core.vacated (c : Core) : Core :=
  { c.noChunk with
    eng := c.eng.map fun g => { Engine.reset with out := g.out.filter (·.put) }
    pres := Vector.replicate 32 (BitVec.allOnes 32)
    cover := Vector.replicate 32 0
    wait := none, held := none, endAfter := none, entering := false, stopped := false, out := [], fence := none, tinv := none, icinv := none
    inside := false, halt := none
    lastTen := some (c.regs.ten.setWidth 16)
    slot := { c.slot with state := .empty, held := false, asked := false } }

/-- The context of the focused core ends: its save area's CTXID becomes zero, the slot EMPTY, the MC is told
(17 R345, 16 R331, R332). Waits while an engine is RUNNING (05 R112). -/
def endContext (s : State) : State :=
  if s.core.eng.toList.any (·.run == .running) then s.waiting .engines else
  let t := s.core.slot
  let s1 := leaveBound s
  let s2 := tellMc t.ctxid .ended (outsideWrite 4 0 0 (t.area + 0x150) (List.replicate 8 0) s1)
  { s2 with
    core := { s2.core.vacated with prog := .retired }
    runs := s2.runs.filter (·.ctxid != t.ctxid)
    policy := { s2.policy with freed := true }
    grants := s2.grants.filter (· != s2.cur) }

/-- The handler entry has failed: a fatal fault of FKIND 5, and the context ends (17 R341, 26 R415). The fault is raised
once, and no instruction retires (17 R344). -/
def handlerFailed (s : State) : State :=
  let s1 := endContext (if s.core.wait == some .engines then s else freeze s.cur 5 s.core.tenant s)
  if s1.core.prog == .retired then s1.mapCore fun c => { c with prog := .trapped } else s1

/-- What the park waits for: the acknowledgements of the remote writes that are out, and the end of a row of EM.COPY2
(05 R109, R113; log 20). DEDUCED -/
def Core.parkHeld (c : Core) : Bool :=
  (c.out ++ c.eng.toList.flatMap (·.out)).any (·.put) || c.eng.toList.any fun g => g.run == .running && g.part != 0

/-- The park: core record, window block, engine state; the slot goes EMPTY and the MC is told (17 R361, 16 R331). Its writes go to their homes
on the CORE path of the core, in no chunk: they take no CSN and squash no chunk (22 R371; log 98). DESIGN CHOICE -/
def park (s : State) : State :=
  let t := s.core.slot
  let a := t.area
  let r := s.core.regs
  let ws := recordWords s.core (r.epc.extractLsb' 2 62 ++ 0#2) (statReturn r.stat)
  let s1 := saveWindows a (outsideWrite 0 s.cur t.ctxid a (recordBytes ws) s)
  let s2 := tellMc t.ctxid .runnable (keepOwn t.ctxid s1.core s1)
  { s2 with
    core := { s2.core.vacated with prog := .retired }
    grants := s2.grants.filter (· != s2.cur)
    policy := { s2.policy with freed := true } }

end Sys2Proof.Machine
end

