-- ==== Sys2Proof/Machine/Traps.lean ====
section
/-! DEFINITION. The traps and events of an instruction boundary (02 R26, R27; 17 R339-R341, R353, R357), and the failure of an
engine (05 R110). -/
namespace Sys2Proof.Machine

/-- An interrupt is pending, and the mode or IE lets it be taken (17 R339). -/
def Core.interruptible (c : Core) : Bool := c.intr != 0 && (c.regs.user || c.regs.stat.getLsbD 1)
/-- Number of the lowest set bit, 0 when there is none. -/
def lowestBit (w : Word) : Nat := ((List.range 64).find? (w.getLsbD ·)).getD 0
/-- A breakpoint matches the next instruction, which has not begun: it does not wait, or the trap itself waits for the commit that a
reserved chunk holds up (17 R339, R353; 14 R288). -/
def Core.breaks (c : Core) : Bool :=
  (c.wait.isNone || c.wait == some .reservation) && c.regs.user && !c.regs.stat.getLsbD 5 && c.regs.bpctx != 0 && c.regs.bpctx == c.regs.ctxid &&
  c.regs.bpa.toList.any fun b => b.getLsbD 0 && b.extractLsb' 2 62 ++ 0#2 == c.regs.pc

/-- The event after a PREEMPT in the order of the boundary: an INTERRUPT before a BREAKPOINT (17 R339). -/
def Core.laterEvent (c : Core) : Option Cause :=
  if c.interruptible then some .interrupt else if c.breaks then some .breakpoint else none

/-- The event that is taken at the boundary where the core stands: the first candidate that applies (17 R339). -/
def Core.event (c : Core) : Option Cause :=
  if !c.isBound || !c.boundary then none
  else if c.mcheck then some .machineCheck
  else if c.preemptible then some .preempt
  else c.laterEvent

/-- Takes an INTERRUPT: the lowest pending bit is cleared and its number is TVAL (17 R339, R340). -/
def takeInterrupt (s : State) : State :=
  let n := lowestBit s.core.intr
  takeEvent .interrupt (BitVec.ofNat 64 n) (fun c => { c with intr := setField c.intr n 1 0 }) s

/-- Takes a BREAKPOINT: EPC = TVAL = pc, nothing performed (17 R353). -/
def takeBreak (s : State) : State := takeTrap .breakpoint false s.core.regs.pc none s

/-- Takes a machine check that no instruction caused (17 R357). -/
def takeCheck (s : State) : State :=
  takeEvent .machineCheck 0x4000000000000000 (fun c => { c with mcheck := false }) s

/-- INTERRUPT (17 R339, R340). -/
def execInterrupt (s : State) : Out := .next (if s.core.event = some .interrupt then takeInterrupt s else s)

/-- PREEMPT (17 R339, 16 R333). -/
def execPreempt (s : State) : Out := .next (if s.core.event = some .preempt then takePreempt s else s)

/-- MACHINE_CHECK (17 R357): a hardware fault that no instruction caused. It is pending until the core takes it, at the boundary
where it stands or at the next one; a core without a context only freezes the recorder (log 17). DEDUCED -/
def execMachineCheck (s : State) : Out :=
  if !s.core.isBound then .next (freeze s.cur 4 0 s)
  else
    let s1 := s.mapCore fun c => { c with mcheck := true }
    .next (if s.core.boundary then takeCheck s1 else s1)

/-- BREAKPOINT (17 R353). -/
def execBreakpoint (s : State) : Out := .next (if s.core.event = some .breakpoint then takeBreak s else s)

/-- NOT_AN_INSTRUCTION (02 R26 steps 2 to 5): RESERVED-MAJOR for a reserved major, else ILLEGAL, TVAL = the word. -/
def execNotAnInstruction (w : BitVec 32) (s : State) : Out :=
  let major := (w.extractLsb' 26 6).toNat
  let reserved := (decide (0x20 ≤ major) && decide (major ≤ 0x2F)) || (decide (0x38 ≤ major) && decide (major ≤ 0x3E))
  .next (takeTrap (if reserved then .reservedMajor else .illegal) false (w.setWidth 64) none s)

/-- FETCH_PAGE (02 R26 step 1): TVAL = EPC = the word's address. -/
def execFetchPage (s : State) : Out := .next (takeTrap .fetchPage false s.core.regs.pc none s)

/-! ### Engines -/

/-- Engine `e` of the focused core. -/
def State.engine (s : State) (e : BitVec 2) : Engine := s.core.eng.get ⟨e.toNat, e.isLt⟩
/-- The state with engine `e` of the focused core changed. -/
def State.mapEngine (s : State) (e : BitVec 2) (f : Engine → Engine) : State :=
  s.mapCore fun c => { c with eng := c.eng.set e.toNat (f (c.eng.get ⟨e.toNat, e.isLt⟩)) e.isLt }
/-- The handle of an engine's run (05 R92). -/
def Engine.handle (g : Engine) (e : BitVec 2) : Word := 0#32 ++ g.serial ++ 0#6 ++ e

/-- An ENGINE record, under the forking context's tenant (26 R411, R413). -/
def recordEngine (e : BitVec 2) (code event : BitVec 8) (s : State) : State :=
  let g := s.engine e
  record s.cur 0x08 (g.ten.setWidth 16) (code ++ event ++ 0#16 ++ (g.handle e).setWidth 32) s

/-- The puts of an engine that are out; the answer of a get that no word waits for any more is for no one (05 R107). -/
def Engine.puts (g : Engine) : List Remote := g.out.filter (·.put)

/-- An engine error: the engine stops in FAILED with its error word (05 R110). -/
def engineFail (e : BitVec 2) (code : BitVec 8) (addr : Word) (s : State) : State :=
  (recordEngine e code 2 s).mapEngine e fun g => { g with run := .failed, out := g.puts, err := code ++ e ++ 0#5 ++ addr.setWidth 49 }

/-- An error at the program counter of engine `e`, which only an engine that runs a program meets while it is RUNNING (05 R93,
R110). -/
def engineFault (e : BitVec 2) (code : BitVec 8) (s : State) : State :=
  if e != 3 && (s.engine e).run == .running then engineFail e code (s.engine e).pc s else s

/-- ILLEGAL_WORD (05 R104): nothing of the word is performed; ADDR = the engine program counter. -/
def execIllegalWord (e : BitVec 2) (s : State) : Out := .next (engineFault e 0x01 s)
/-- FETCH_ERROR (05 R110): ADDR = the engine program counter. -/
def execFetchError (e : BitVec 2) (s : State) : Out := .next (engineFault e 0x02 s)

end Sys2Proof.Machine
end

