-- ==== Sys2Proof/Machine/Frame.lean ====
section
/-! DEFINITION. Groups of registers (07 R133) and the state of a repeat frame (15 R315-R320). -/
namespace Sys2Proof.Machine

/-- The trap value of an instruction: its word, zero-extended (02 R26). -/
def tvalWord (w : Option (BitVec 32)) : Word := (w.getD 0).setWidth 64

/-- Registers in a group, G (07 R133, R136). -/
def groupSize (vtype : Word) : Nat := 2 ^ (vtype.extractLsb' 5 2).toNat

/-- A vector operand names a group under VTYPE (07 R133, 15 R316). -/
def groupOk (g : Nat) (n : BitVec 5) : Bool := n.toNat % g == 0 && decide (n.toNat + g ≤ 32)

/-- RPS (15 R319). -/
def rpsWord (act : Bool) (stride stag : BitVec 3) (fl pos : BitVec 4) (iter count : BitVec 24) : Word :=
  BitVec.ofBool act ++ stride ++ stag ++ fl ++ pos ++ 0#1 ++ iter ++ count

/-- Frame length: 16 for code 0 (15 R315). -/
def frameLen (fl : BitVec 4) : Nat := if fl = 0 then 16 else fl.toNat

/-- A frame is in progress and not suspended (15 R320). -/
def Regs.inFrame (r : Regs) : Bool := r.rps.getLsbD 63 && !r.susp

/-- RPS and the program counter after a frame instruction at `pc` has retired (15 R318). -/
def Regs.advanceFrame (r : Regs) (pc : Word) : Regs :=
  let len := frameLen (r.rps.extractLsb' 53 4)
  let pos := (r.rps.extractLsb' 49 4).toNat
  let q := (r.rps.extractLsb' 24 24).toNat
  let count := (r.rps.extractLsb' 0 24).toNat
  let base := pc - BitVec.ofNat 64 (4 * pos)
  let pos1 := if pos + 1 < len then pos + 1 else 0
  let q1 := if pos + 1 < len then q else q + 1
  if q1 < count then
    { r with
      rps := setField (setField r.rps 49 4 pos1) 24 24 q1
      pc := base + BitVec.ofNat 64 (4 * pos1) }
  else { r with rps := 0, pc := base + BitVec.ofNat 64 (4 * len) }

/-- The registers of a frame that is resumed: where RPS names no word, at POS ≥ L or ITER ≥ COUNT, `run_frame` executes none there and
goes on to the next iteration, or past the frame (15 R318, R320). -/
def Regs.resumed (r : Regs) : Regs :=
  let past := decide (frameLen (r.rps.extractLsb' 53 4) ≤ (r.rps.extractLsb' 49 4).toNat) ||
    decide ((r.rps.extractLsb' 0 24).toNat ≤ (r.rps.extractLsb' 24 24).toNat)
  if r.inFrame && past then r.advanceFrame r.pc else r

end Sys2Proof.Machine
end

