-- ==== Sys2Proof/Machine/LoadStore.lean ====
section
/-! DEFINITION. Scalar loads and stores: majors SL and SS (04 R83-R88). -/
namespace Sys2Proof.Machine

/-- A number of `n` bytes, sign-extended (04 R85). -/
def sextN (n v : Nat) : Word := BitVec.ofInt 64 (if v < 2 ^ (8 * n - 1) then v else (v : Int) - 2 ^ (8 * n))
/-- A number of `n` bytes, zero-extended (04 R85). -/
def zextN (_n v : Nat) : Word := BitVec.ofNat 64 v
/-- A pair of registers from 16 bytes, x[d] the low half (04 R85). -/
def putPair (d : BitVec 5) (v : Nat) : M Unit := do
  putX d (BitVec.ofNat 64 v)
  putX (d + 1) (BitVec.ofNat 64 (v / 2 ^ 64))

/-- Address of a scalar access (04 R85, R87). -/
def scalarEa (s : State) (a : BitVec 5) (i : BitVec 12) : Word := s.x a + immI i

/-- A scalar load of `n` bytes (04 R85); `w` is its word. -/
def loadBody (w : Word) (a : BitVec 5) (i : BitVec 12) (n : Nat) (put : Nat → M Unit) : M Unit := do
  put (leNat (← memLoad w (scalarEa (← get) a i) n))

/-- A scalar store (04 R87); `w` is its word. -/
def storeBody (w : Word) (a : BitVec 5) (i : BitVec 12) (bs : List Byte) : M Unit := do
  memStore w (scalarEa (← get) a i) bs

/-- An access of `n` bytes to the scratchpad by offset is in range (04 R83). -/
def inScratch (o : Word) (n : Nat) : Bool := !o.msb && decide (o.toNat + n ≤ 0x300000)

/-- The granule's bit (04 R79). -/
def Core.full (c : Core) (g : Nat) : Bool := c.fe.getLsbD g

/-- A consuming load (04 R86): the chunk before it ends, it waits for full, then the read and the clear are one step. -/
def consumeBody (a : BitVec 5) (i : BitVec 12) (n : Nat) (clear : Bool) (put : Nat → M Unit) : M Unit := do
  let o := scalarEa (← get) a i
  ensure (inScratch o n) .range o
  ensure (o.toNat % n == 0) .align o
  let g := o.toNat / 16
  endChunkM 2
  if !(← get).core.full g then await (.fullEmpty g)
  singleM 2 []
  let v := leNat (memRead (← get).core.scratch o.toNat n)
  modCore fun c => if clear then { c with fe := setField c.fe g 1 0 } else c
  put v

/-- SL_LB (04 R84, R85). -/
def execSlLb (d a : BitVec 5) (i : BitVec 12) (st : State) : Out :=
  run (loadBody (tvalWord (encode (.slLb d a i))) a i 1 fun v => putX d (sextN 1 v)) st

/-- SL_LH (04 R84, R85). -/
def execSlLh (d a : BitVec 5) (i : BitVec 12) (st : State) : Out :=
  run (loadBody (tvalWord (encode (.slLh d a i))) a i 2 fun v => putX d (sextN 2 v)) st

/-- SL_LW (04 R84, R85). -/
def execSlLw (d a : BitVec 5) (i : BitVec 12) (st : State) : Out :=
  run (loadBody (tvalWord (encode (.slLw d a i))) a i 4 fun v => putX d (sextN 4 v)) st

/-- SL_LD (04 R84, R85). -/
def execSlLd (d a : BitVec 5) (i : BitVec 12) (st : State) : Out :=
  run (loadBody (tvalWord (encode (.slLd d a i))) a i 8 fun v => putX d (sextN 8 v)) st

/-- SL_LBU (04 R84, R85). -/
def execSlLbu (d a : BitVec 5) (i : BitVec 12) (st : State) : Out :=
  run (loadBody (tvalWord (encode (.slLbu d a i))) a i 1 fun v => putX d (zextN 1 v)) st

/-- SL_LHU (04 R84, R85). -/
def execSlLhu (d a : BitVec 5) (i : BitVec 12) (st : State) : Out :=
  run (loadBody (tvalWord (encode (.slLhu d a i))) a i 2 fun v => putX d (zextN 2 v)) st

/-- SL_LWU (04 R84, R85). -/
def execSlLwu (d a : BitVec 5) (i : BitVec 12) (st : State) : Out :=
  run (loadBody (tvalWord (encode (.slLwu d a i))) a i 4 fun v => putX d (zextN 4 v)) st

/-- SL_LQ (04 R84, R85). -/
def execSlLq (d a : BitVec 5) (i : BitVec 12) (st : State) : Out :=
  run (loadBody (tvalWord (encode (.slLq d a i))) a i 16 (putPair d)) st

/-- SL_LDF (04 R86). -/
def execSlLdf (d a : BitVec 5) (c : Bool) (i : BitVec 12) (st : State) : Out :=
  run (consumeBody a i 8 c fun v => putX d (BitVec.ofNat 64 v)) st

/-- SL_LQF (04 R86). -/
def execSlLqf (d a : BitVec 5) (c : Bool) (i : BitVec 12) (st : State) : Out := run (consumeBody a i 16 c (putPair d)) st

/-- SS_SB (04 R87). -/
def execSsSb (i : BitVec 12) (a b : BitVec 5) (st : State) : Out :=
  run (storeBody (tvalWord (encode (.ssSb i a b))) a i (leBytes 1 (st.x b).toNat)) st

/-- SS_SH (04 R87). -/
def execSsSh (i : BitVec 12) (a b : BitVec 5) (st : State) : Out :=
  run (storeBody (tvalWord (encode (.ssSh i a b))) a i (leBytes 2 (st.x b).toNat)) st

/-- SS_SW (04 R87). -/
def execSsSw (i : BitVec 12) (a b : BitVec 5) (st : State) : Out :=
  run (storeBody (tvalWord (encode (.ssSw i a b))) a i (leBytes 4 (st.x b).toNat)) st

/-- SS_SD (04 R87). -/
def execSsSd (i : BitVec 12) (a b : BitVec 5) (st : State) : Out :=
  run (storeBody (tvalWord (encode (.ssSd i a b))) a i (leBytes 8 (st.x b).toNat)) st

/-- SS_SQ (04 R87): x[b] the low half. -/
def execSsSq (i : BitVec 12) (a b : BitVec 5) (st : State) : Out :=
  run (storeBody (tvalWord (encode (.ssSq i a b))) a i (leBytes 8 (st.x b).toNat ++ leBytes 8 (st.x (b + 1)).toNat)) st

end Sys2Proof.Machine
end

