-- ==== Sys2Proof/Machine/Atomic.lean ====
section
/-! DEFINITION. Atomics: major AM (13 R269-R272). Operations are numbered as the table of 13 R269 numbers them. -/
namespace Sys2Proof.Machine

/-- Bytes of an atomic (13 R269). -/
def amBytes (w : Bool) : Nat := if w then 4 else 8

/-- The new value of an atomic (13 R269, R270). -/
def amNew (op n : Nat) (old b d : Word) : Word :=
  if op = 9 then (if old.toNat == d.toNat % 2 ^ (8 * n) then BitVec.ofNat 64 (b.toNat % 2 ^ (8 * n)) else old)
  else amOp (BitVec.ofNat 4 op) n old (BitVec.ofNat 64 (b.toNat % 2 ^ (8 * n)))

/-- A compare-and-swap that fails writes nothing (13 R270). -/
def amWrites (op n : Nat) (old d : Word) : Bool := op != 9 || old.toNat == d.toNat % 2 ^ (8 * n)

/-- A no-return atomic on idempotent memory: a commutative update of the chunk (13 R272). It consumes no poison: it is applied at the home as
the chunk commits, takes no machine check, and leaves its line poisoned (17 R356; log 98). DESIGN CHOICE -/
def amUpdate (op n : Nat) (b : Word) (ps : List Piece) : M Unit := do
  lineLimit ps
  modify fun s => s.mapChunk fun ch => useTlb ps { ch with
    com := ch.com ++ ps.map fun p => ⟨p.pa, n, BitVec.ofNat 4 op, b⟩ }

/-- A fetch-form atomic on idempotent memory: a read and a write of the chunk (13 R271). -/
def amFetch (op n : Nat) (b d : Word) (ps : List Piece) : M Word := do
  needClean ps
  endIfCom ps
  lineLimit ps
  modify fun s => s.mapChunk fun ch => useTlb ps { ch with rlines := addLines ch.rlines (memLines ps) }
  let s ← get
  let old : Word := BitVec.ofNat 64 (leNat (ps.flatMap (chunkRead s)))
  let bs := leBytes n (amNew op n old b d).toNat
  modify fun s => ps.foldl (fun s p =>
    if amWrites op n old d then pieceWrite s p bs
    else s.mapChunk fun ch => { ch with wlines := addLines ch.wlines (linesOf p.pa p.n) }) s
  return old

/-- A fetch-form atomic on a device-class page: one read-modify-write, a singleton chunk (13 R271). -/
def amDevice (op n : Nat) (b d : Word) (ps : List Piece) : M Word := do
  needClean ps
  endChunkM 2
  singleM 2 (addLines [] (memLines ps))
  let s ← get
  let old : Word := BitVec.ofNat 64 (leNat (ps.flatMap (directRead s)))
  if amWrites op n old d then
    modify fun s => ps.foldl (fun s p => directWrite s p (leBytes n (amNew op n old b d).toNat)) s
  return old

/-- The function field of an atomic (13 R269). -/
def amFunc (op : Nat) (w nr : Bool) : Nat := op + 16 * nr.toNat + 32 * w.toNat

/-- An atomic on a remote package: a singleton chunk and its message (13 R271, R272, 14 R293). -/
def amRemote (op : Nat) (w nr : Bool) (b d : Word) (ps : List Piece) : M Unit := do
  endChunkM 2
  singleM 2 []
  modify fun s => ps.foldl (fun s p =>
    let (s1, rs) := sendAtomic (ordOver s.core.out p.pa p.n) p (amFunc op w nr) b d (!nr) s
    s1.mapCore fun c => { c with out := c.out ++ rs }) s
  if nr then pure () else await .remote

/-- An atomic (13 R270-R272). -/
def amBody (op : Nat) (w nr : Bool) (d a b : BitVec 5) : M Unit := do
  let s ← get
  let n := amBytes w
  let ea := s.x a
  if s.core.wait == some .remote then
    putX d (sextN n (leNat ((← takeRemote).take n)))
  else
    ensure (ea.toNat % n == 0) .align ea
    match ← xlAccess s.core.xl .store ea n with
    | .error (c, t) => raise c t
    | .ok ps =>
      ensure (ps.all fun p => p.pa / 2 ^ 48 != 2) .deviceAccess ea
      ensure (!(nr && ps.any (·.device))) .deviceAccess ea
      match planChecks s.cur .store ea n true true ps with
      | .error (c, t) => raise c t
      | .ok pl =>
        needHbm ps
        if ps.any (·.place == .remote) then amRemote op w nr (s.x b) (s.x d) ps
        else if nr then amUpdate op n (BitVec.ofNat 64 ((s.x b).toNat % 2 ^ (8 * n))) ps
        else
          let old ← if pl.single then amDevice op n (s.x b) (s.x d) ps else amFetch op n (s.x b) (s.x d) ps
          putX d (sextN n old.toNat)

/-- AM_ADD (13 R269-R272). -/
def execAmAdd (d a b : BitVec 5) (w n : Bool) (st : State) : Out :=
  run (amBody 0 w n d a b) st

/-- AM_MIN (13 R269-R272). -/
def execAmMin (d a b : BitVec 5) (w n : Bool) (st : State) : Out :=
  run (amBody 1 w n d a b) st

/-- AM_MAX (13 R269-R272). -/
def execAmMax (d a b : BitVec 5) (w n : Bool) (st : State) : Out :=
  run (amBody 2 w n d a b) st

/-- AM_MINU (13 R269-R272). -/
def execAmMinu (d a b : BitVec 5) (w n : Bool) (st : State) : Out :=
  run (amBody 3 w n d a b) st

/-- AM_MAXU (13 R269-R272). -/
def execAmMaxu (d a b : BitVec 5) (w n : Bool) (st : State) : Out :=
  run (amBody 4 w n d a b) st

/-- AM_AND (13 R269-R272). -/
def execAmAnd (d a b : BitVec 5) (w n : Bool) (st : State) : Out :=
  run (amBody 5 w n d a b) st

/-- AM_OR (13 R269-R272). -/
def execAmOr (d a b : BitVec 5) (w n : Bool) (st : State) : Out :=
  run (amBody 6 w n d a b) st

/-- AM_XOR (13 R269-R272). -/
def execAmXor (d a b : BitVec 5) (w n : Bool) (st : State) : Out :=
  run (amBody 7 w n d a b) st

/-- AM_SWAP (13 R269-R271). -/
def execAmSwap (d a b : BitVec 5) (w : Bool) (st : State) : Out := run (amBody 8 w false d a b) st

/-- AM_CAS (13 R269-R271). -/
def execAmCas (d a b : BitVec 5) (w : Bool) (st : State) : Out := run (amBody 9 w false d a b) st

end Sys2Proof.Machine
end

