-- ==== Sys2Proof/Machine/Queues.lean ====
section
/-! DEFINITION. The shipped policy firmware's lists of queues: which are mapped, which wait, and since when (16 R334, R335). -/
namespace Sys2Proof.Machine

/-- A slot holds a context of the queue (16 R335). -/
def queueMapped (s : State) (q : Nat) : Bool := s.cores.any fun p => p.2.slot.state != .empty && p.2.slot.queue.toNat == q
/-- A context may take a slot (16 R334). -/
def Ctx.waits (k : Ctx) : Bool := k.state == .pending || k.state == .runnable
/-- The queue holds a context that may take a slot (16 R328). -/
def queueRunnable (s : State) (q : Nat) : Bool := s.ctxs.any fun k => k.queue == q && k.waits

/-- Queues with contexts, once each. -/
def liveQueues (s : State) : List Nat := (s.ctxs.map (·.queue)).eraseDups

/-- A list of queues with their quanta brought up to date: those that still belong keep their places, those of `qs` that have come since
follow with the quantum `n`. -/
def keepQueues (old : List (Nat × Nat)) (n : Nat) (qs : List Nat) : List (Nat × Nat) :=
  old.filter (fun p => qs.elem p.1) ++ (qs.filter fun q => !(old.map (·.1)).elem q).map fun q => (q, n)

/-- The firmware's lists brought up to date, as at every launch, release and end of a stay in a slot: a queue keeps the quantum since which it
has been mapped or has waited, and its place among those of the same quantum; a queue that has just been displaced has waited less long than
one that has come. The quantum in which a queue comes to wait counts for it as one (16 R335; log 111). DESIGN CHOICE -/
def refreshPolicy (s : State) : State :=
  let p := s.policy
  let waits := (liveQueues s).filter fun q => !queueMapped s q && queueRunnable s q
  let was (q : Nat) : Bool := (p.mapped.map (·.1)).elem q
  { s with policy := { p with
    mapped := keepQueues p.mapped p.quantum ((liveQueues s).filter (queueMapped s))
    waiting := keepQueues p.waiting p.quantum (waits.filter (!was ·) ++ waits.filter was) } }

end Sys2Proof.Machine
end

