-- ==== Sys2Proof/Machine/Launch.lean ====
section
/-! DEFINITION. Launches: the record, the checks of the primary MC and the launch state (16 R321-R328, 17 R359). -/
namespace Sys2Proof.Machine

/-- Doubleword `k` of a record. -/
def recWord (bs : List Byte) (k : Nat) : Word := BitVec.ofNat 64 (leNat ((bs.drop (8 * k)).take 8))

/-- The largest GROUP of a placement; 0 for a code that is none (16 R322). -/
def placeLimit (p : BitVec 3) : Nat :=
  match p.toNat with
  | 1 => 1
  | 2 => 4
  | 3 => 48
  | 4 => 144
  | _ => 0

/-- A launch record is well-formed (16 R322). -/
def recordOk (bs : List Byte) : Bool :=
  let ctl := recWord bs 1
  let grp := (ctl.extractLsb' 0 8).toNat
  ctl.extractLsb' 45 19 == 0 && ctl.extractLsb' 8 24 == 0 &&
  decide (1 ≤ grp) && decide (grp ≤ placeLimit (ctl.extractLsb' 32 3)) &&
  canonical (recWord bs 0) && (recWord bs 0).extractLsb' 0 2 == 0 &&
  (recWord bs 2).extractLsb' 0 4 == 0 && (recWord bs 3).extractLsb' 0 4 == 0

/-- Groups of a queue with a PENDING context (16 R325). -/
def pendingGroups (s : State) (q : Nat) : Nat :=
  ((s.ctxs.filter fun k => k.queue == q && k.state == .pending).map (·.group)).eraseDups.length

/-- Contexts that have not ended (16 R325). -/
def liveContexts (s : State) : Nat := (s.ctxs.filter fun k => k.state != .ended).length

/-- The first check of 16 R325 that fails, as its code. -/
def launchRefused (bs : List Byte) (ten : BitVec 16) (s : State) : Option Nat :=
  let q := ((recWord bs 1).extractLsb' 35 10).toNat
  let d := keyGet s.queues q Queue.reset
  if !recordOk bs then some 1
  else if !(d.val && (d.ten == ten || ten == 0)) then some 2
  else if 64 ≤ pendingGroups s q then some 3
  else if 65536 ≤ liveContexts s then some 4
  else none

/-- Bytes of a save area (17 R359). -/
def saveBytes : Nat := 0x360000

/-- The doublewords of the launch state that are not zero in every launch: offsets and values (16 R323, 17 R359). -/
def launchWords (bs : List Byte) (d : Queue) (c0 r grp : Nat) : List (Nat × Nat) :=
  [(0x10, (recWord bs 2 + BitVec.ofNat 64 (r + 1) * recWord bs 3).toNat),
    (0x18, (recWord bs 4).toNat), (0x20, (recWord bs 5).toNat)] ++
  (List.range 8).map (fun k => (8 * (10 + k), (recWord bs (6 + k)).toNat)) ++
  [(0x100, (recWord bs 0).toNat), (0x130, 4096), (0x138, d.ten.toNat), (0x140, d.asid.toNat), (0x148, d.root.toNat * 0x4000),
    (0x150, c0 + r), (0x158, r), (0x160, grp), (0x168, (Config.saveVa (c0 + r)).toNat), (0x1020, 0xFF800000), (0x14000, 1)]

/-- A frame of the firmware's pool, all zero: a write on the HOST path (14 R289, R292). -/
def clearFrame (a n : Nat) (s : State) : State :=
  { s with
    mem := s.mem.filter fun c => !(decide (a ≤ c.1) && decide (c.1 < a + n))
    outside := addOutside ⟨4, 0, 0, a / 64, n / 64⟩ s.outside }

/-- A save area written with a launch state: zero but for those doublewords (17 R359). Firmware writes on the HOST path. -/
def writeArea (area : Nat) (ws : List (Nat × Nat)) (s : State) : State :=
  ws.foldl (fun s p => outsideWrite 4 0 0 (area + p.1) (leBytes 8 p.2) s) (clearFrame area saveBytes s)

/-- One context of an accepted launch, its save area taken from the firmware's pool (16 R323; log 12). -/
def makeContext (bs : List Byte) (q : Nat) (d : Queue) (c0 grp : Nat) (s : State) (r : Nat) : State :=
  let area := s.pool
  let k : Ctx := ⟨BitVec.ofNat 64 (c0 + r), q, .pending, BitVec.ofNat 64 c0, r, grp, (recWord bs 1).extractLsb' 32 3, none,
    BitVec.ofNat 40 (area / 4096), recWord bs 0, d.ten, d.asid, 0, Vector.replicate 32 0, d.prio, 0⟩
  let s1 := writeArea area (launchWords bs d c0 r grp) s
  { s1 with pool := area + saveBytes, ctxs := s1.ctxs ++ [k] }

/-- The primary MC's answer to a launch: the status word, and the new contexts, whose queue waits from now on unless it is mapped or waits
already (16 R323-R325, R335, 26 R413). -/
def mcLaunch (bs : List Byte) (ten : BitVec 16) (s : State) : Word × State :=
  match launchRefused bs ten s with
  | some code => (0xFFFFFFFFFFFFFF00 + BitVec.ofNat 64 code, s)
  | none =>
    let q := ((recWord bs 1).extractLsb' 35 10).toNat
    let d := keyGet s.queues q Queue.reset
    let grp := ((recWord bs 1).extractLsb' 0 8).toNat
    let c0 := s.nextCtx.toNat
    let s1 := (List.range grp).foldl (makeContext bs q d c0 grp) s
    (s.nextCtx, record 144 0x0C d.ten s.nextCtx (refreshPolicy { s1 with nextCtx := s.nextCtx + BitVec.ofNat 64 grp }))

end Sys2Proof.Machine
end

