-- ==== Sys2Proof/Machine/Flags.lean ====
section
/-! DEFINITION. Floating point: formats, exact values, rounding, NaNs, flags and FST (08 R161-R181, 09 R186-R188). Formats are
named by their codes, 4 to 10 (08 R162); modes by numbers: 0 RNE, 1 RTZ, 2 RDN, 3 RUP, 4 RNA (08 R168), 5 SR. -/
namespace Sys2Proof.Machine

/-! ### Formats and values -/

/-- Width of a format in bits (08 R162). -/
def fpWidth (c : Nat) : Nat :=
  match c with
  | 4 => 64
  | 5 => 32
  | 6 | 7 => 16
  | 8 | 9 => 8
  | _ => 4
/-- Fraction bits of a format (08 R162). -/
def fpFrac (c : Nat) : Nat :=
  match c with
  | 4 => 52
  | 5 => 23
  | 6 => 10
  | 7 => 7
  | 8 => 2
  | 9 => 3
  | _ => 1
/-- Bias of a format (08 R162). -/
def fpBias (c : Nat) : Nat :=
  match c with
  | 4 => 1023
  | 5 | 7 => 127
  | 6 | 8 => 15
  | 9 => 7
  | _ => 1
/-- Magnitude bits of the largest finite value (08 R162). -/
def fpMax (c : Nat) : Nat :=
  match c with
  | 9 => 0x7E
  | 10 => 7
  | _ => 2 ^ (fpWidth c - 1) - 2 ^ fpFrac c - 1
/-- The sign bit of a format in place. -/
def signBits (c : Nat) (s : Bool) : Nat := if s then 2 ^ (fpWidth c - 1) else 0
/-- Exponent of the spacing of subnormals. -/
def fpMinExp (c : Nat) : Int := 1 - fpBias c - fpFrac c

/-- The value of an operand or an exact result. `fin` is (−1)^sign · m · 2^e; with `more`, the magnitude lies strictly between
m and m + 1 units. A NaN keeps its fraction and the width of it. -/
inductive Fp where
  | nan (sign quiet : Bool) (frac fb : Nat)
  | inf (sign : Bool)
  | fin (sign : Bool) (m : Nat) (e : Int) (more : Bool)
  deriving DecidableEq, Repr

/-- Zero of a sign. -/
def Fp.zero (s : Bool) : Fp := .fin s 0 0 false

/-- The value of a bit pattern (08 R162). -/
def fpDecode (c bits : Nat) : Fp :=
  let w := fpWidth c
  let f := fpFrac c
  let s := bits.testBit (w - 1)
  let ex := (bits >>> f) % 2 ^ (w - 1 - f)
  let fr := bits % 2 ^ f
  let top := 2 ^ (w - 1 - f) - 1
  if c == 9 && ex == 15 && fr == 7 then .nan s true 7 3
  else if decide (c ≤ 8) && ex == top then
    (if fr = 0 then .inf s else .nan s (fr.testBit (f - 1)) fr f)
  else if ex = 0 then .fin s fr (fpMinExp c) false
  else .fin s (2 ^ f + fr) (fpMinExp c + (ex - 1 : Nat)) false

/-- A NaN. -/
def Fp.isNan : Fp → Bool
  | .nan .. => true
  | _ => false
/-- A signalling NaN. -/
def Fp.isSig : Fp → Bool
  | .nan _ q _ _ => !q
  | _ => false
/-- The sign. -/
def Fp.sign : Fp → Bool
  | .nan s .. | .inf s | .fin s .. => s
/-- The value with the other sign; a NaN stays. -/
def Fp.neg : Fp → Fp
  | .inf s => .inf !s
  | .fin s m e b => .fin (!s) m e b
  | v => v
/-- A zero. -/
def Fp.isZero : Fp → Bool
  | .fin _ m _ more => m == 0 && !more
  | _ => false
/-- An infinity. -/
def Fp.isInf : Fp → Bool
  | .inf _ => true
  | _ => false

/-! ### Flags (08 R168): NV, DZ, OF, UF, NX from bit 4 down -/

/-- NV. -/
def NV : Nat := 16
/-- DZ. -/
def DZ : Nat := 8
/-- OF. -/
def OF : Nat := 4
/-- UF. -/
def UF : Nat := 2
/-- NX. -/
def NX : Nat := 1
/-- The flag when the condition holds. -/
def flagIf (b : Bool) (f : Nat) : Nat := if b then f else 0

/-- FLAGS with more flags accrued (08 R168). -/
def Regs.accrue (r : Regs) (fl : Nat) : Regs := { r with fst := r.fst ||| BitVec.ofNat 64 (fl % 32) }
/-- One of the flags is enabled in EN (08 R174). -/
def Regs.traps (r : Regs) (fl : Nat) : Bool := (r.fst.extractLsb' 11 5 &&& BitVec.ofNat 5 fl) != 0
/-- RM (08 R168). -/
def Regs.rm (r : Regs) : Nat := (r.fst.extractLsb' 8 3).toNat

/-! ### Rounding (08 R169, R179) -/

/-- Whether the magnitude rounds up: `n` units, `rem` of 2^k below the next, and more beyond (08 R169, R179). -/
def roundUp (mode draw : Nat) (s : Bool) (n rem k : Nat) (more : Bool) : Bool :=
  let inexact := rem != 0 || more
  match mode with
  | 0 => decide (2 ^ k < 2 * rem) || (2 * rem == 2 ^ k && (more || n % 2 == 1))
  | 1 => false
  | 2 => s && inexact
  | 3 => !s && inexact
  | 4 => decide (2 ^ k ≤ 2 * rem)
  | _ => inexact && (decide (draw * 2 ^ k < rem * 2 ^ 32) || (draw * 2 ^ k == rem * 2 ^ 32 && more))

/-- The magnitude m · 2^e rounded to a multiple of 2^q: the multiple, and whether it differs (08 R169). -/
def roundMag (mode draw : Nat) (s : Bool) (m : Nat) (e q : Int) (more : Bool) : Nat × Bool :=
  if q ≤ e then (m <<< (e - q).toNat, more)
  else
    let k := (q - e).toNat
    let n := m >>> k
    let rem := m % 2 ^ k
    (if roundUp mode draw s n rem k more then n + 1 else n, rem != 0 || more)

/-- `round` of an exact finite value: its bits and flags (08 R169). -/
def roundFin (c mode draw : Nat) (s : Bool) (m : Nat) (e : Int) (more : Bool) : Nat × Nat :=
  if m = 0 && !more then (signBits c s, 0) else
  let f := fpFrac c
  let q := max ((Nat.log2 m : Int) + e - f) (fpMinExp c)
  let (n, inexact) := roundMag mode draw s m e q more
  let mag := (q - fpMinExp c).toNat * 2 ^ f + n
  if fpMax c < mag then
    let toMax := decide (9 ≤ c) || mode == 1 || (mode == 2 && !s) || (mode == 3 && s)
    ((if toMax then fpMax c else fpMax c + 1) + signBits c s, OF + NX)
  else (mag + signBits c s, flagIf (inexact && n != 0 && decide (mag < 2 ^ f)) UF + flagIf inexact NX)

/-- The bits of a value that is no NaN: an infinity is exact where the format has one (08 R169, R170). -/
def fpRound (c mode draw : Nat) : Fp → Nat × Nat
  | .inf s => (if 9 ≤ c then fpMax c + signBits c s else fpMax c + 1 + signBits c s, flagIf (decide (9 ≤ c)) NV)
  | .fin s m e more => roundFin c mode draw s m e more
  | .nan .. => (0, 0)

/-- A value to an integer of `w` bits: the pattern and the flags (08 R169, R170). -/
def toInteger (w : Nat) (sg : Bool) (mode draw : Nat) (x : Fp) : Nat × Nat :=
  let lo : Int := if sg then -(2 ^ (w - 1)) else 0
  let hi : Int := if sg then 2 ^ (w - 1) - 1 else 2 ^ w - 1
  match x with
  | .nan .. => (0, NV)
  | .inf s => (((if s then lo else hi) % 2 ^ w).toNat, NV)
  | .fin s m e more =>
    let (n, inexact) := roundMag mode draw s m e 0 more
    let y : Int := if s then -n else n
    if y < lo then ((lo % 2 ^ w).toNat, NV)
    else if hi < y then ((hi % 2 ^ w).toNat, NV)
    else ((y % 2 ^ w).toNat, flagIf inexact NX)

/-- An integer as a value. -/
def Fp.ofInt (v : Int) : Fp := .fin (decide (v < 0)) v.natAbs 0 false

/-- The 32-bit draw of element `i` (08 R179). -/
def srDraw (seed cnt : Word) (i : Nat) : Nat :=
  let z0 := seed ^^^ (cnt * 0x9E3779B97F4A7C15) ^^^ (BitVec.ofNat 64 i * 0xD1B54A32D192ED03)
  let z1 := (z0 ^^^ (z0 >>> 30)) * 0xBF58476D1CE4E5B9
  let z2 := (z1 ^^^ (z1 >>> 27)) * 0x94D049BB133111EB
  ((z2 ^^^ (z2 >>> 31)) >>> 32).toNat

/-- The draw of element `i` under the registers. -/
def Regs.draw (r : Regs) (i : Nat) : Nat := srDraw r.srseed r.srcnt i

/-! ### NaNs (08 R163, R171) -/

/-- The default NaN (08 R163). -/
def defaultNan (c : Nat) : Nat := if c = 9 then 0x7F else fpMax c + 1 + 2 ^ (fpFrac c - 1)

/-- A NaN quieted in a format; E2M1 has none and takes +0 with NV (08 R170, R171). -/
def nanBits (c : Nat) (s : Bool) (frac fb : Nat) : Nat × Nat :=
  if c = 10 then (0, NV)
  else if c = 9 then (0x7F + signBits 9 s, 0)
  else
    let f := fpFrac c
    let fr := if f ≤ fb then frac >>> (fb - f) else frac <<< (f - fb)
    (fpMax c + 1 + (fr ||| 2 ^ (f - 1)) + signBits c s, 0)

/-- The NaN that an operation returns, if it returns one: bits and flags. `invalid` tells that an invalid operation is among
those performed (08 R171). -/
def pickNan (c : Nat) (ops : List Fp) (invalid : Bool) : Option (Nat × Nat) :=
  match ops.find? (·.isSig), ops.find? (·.isNan) with
  | some (.nan s _ fr fb), _ => some ((nanBits c s fr fb).1, NV)
  | _, some (.nan s _ fr fb) => let p := nanBits c s fr fb; some (p.1, p.2 ||| flagIf invalid NV)
  | _, _ => if invalid then some (defaultNan c, NV) else none

/-- A verdict token: a binary32 value whose bits [31:8] are 0x7F8A00 (12 R249). -/
def isToken (bits : Nat) : Bool := bits % 2 ^ 32 / 256 == 0x7F8A00

/-! ### Exact operations -/

/-- An exact product; none for an invalid one (08 R171, R176). NaN operands give +0, and are picked elsewhere. -/
def fpMul (a b : Fp) : Option Fp :=
  match a, b with
  | .inf s, .inf t => some (.inf (s != t))
  | .inf s, .fin t m _ _ => if m = 0 then none else some (.inf (s != t))
  | .fin s m _ _, .inf t => if m = 0 then none else some (.inf (s != t))
  | .fin s m e _, .fin t n g _ => some (.fin (s != t) (m * n) (e + g) false)
  | _, _ => some (.zero false)

/-- A sum of exact integers m · 2^e. -/
def addExact (acc : Int × Int) (t : Int × Int) : Int × Int :=
  if acc.2 ≤ t.2 then (acc.1 + t.1 * 2 ^ (t.2 - acc.2).toNat, acc.2)
  else (acc.1 * 2 ^ (acc.2 - t.2).toNat + t.1, t.2)

/-- The signed integer of a finite value; zero for the others. -/
def Fp.scaled : Fp → Int × Int
  | .fin s m e _ => (if s then -(m : Int) else m, e)
  | _ => (0, 0)

/-- Opposite infinities are among the terms. -/
def opposite (ts : List Fp) : Bool := ts.elem (.inf true) && ts.elem (.inf false)

/-- The exact sum of terms; none for opposite infinities (08 R176). NaN terms count as zero, and are picked elsewhere. -/
def fpSum (rdn : Bool) (ts : List Fp) : Option Fp :=
  if opposite ts then none
  else if ts.elem (.inf true) then some (.inf true)
  else if ts.elem (.inf false) then some (.inf false)
  else
    let nz := ts.filter fun t => t.scaled.1 != 0
    match nz with
    | [] => some (.zero (!ts.isEmpty && (rdn || ts.all (·.sign))))
    | t :: r =>
      let p := r.foldl (fun a x => addExact a x.scaled) t.scaled
      if p.1 = 0 then some (.zero rdn) else some (.fin (decide (p.1 < 0)) p.1.natAbs p.2 false)

/-- The integer square root, one bit a step from bit `k` down. -/
def isqrtFrom (n : Nat) : Nat → Nat → Nat
  | 0, r => r
  | k + 1, r => let t := r + 2 ^ k; isqrtFrom n k (if t * t ≤ n then t else r)
/-- The integer square root of a number below 4^k. -/
def isqrt (k n : Nat) : Nat := isqrtFrom n k 0

/-- A quotient of finite values, `b` not zero, with at least 120 bits before `more`. -/
def divFin (s t : Bool) (m : Nat) (e : Int) (n : Nat) (g : Int) : Fp :=
  let k := 240
  .fin (s != t) (m <<< k / n) (e - g - k) (m <<< k % n != 0)

/-- A quotient and its DZ flag; none when it is invalid (08 R171, 09 R187). -/
def fpDiv (a b : Fp) : Option (Fp × Nat) :=
  match a, b with
  | .inf _, .inf _ => none
  | .inf s, .fin t _ _ _ => some (.inf (s != t), 0)
  | .fin s _ _ _, .inf t => some (.zero (s != t), 0)
  | .fin s m e _, .fin t n g _ =>
    if n = 0 then (if m = 0 then none else some (.inf (s != t), DZ))
    else some (divFin s t m e n g, 0)
  | _, _ => some (.zero false, 0)

/-- A square root; none when it is invalid (08 R171, 09 R187). -/
def fpSqrt (a : Fp) : Option Fp :=
  match a with
  | .inf s => if s then none else some (.inf false)
  | .fin s m e _ =>
    if m = 0 then some (.zero s)
    else if s then none
    else
      let sh := if e % 2 = 0 then 240 else 241
      let big := m <<< sh
      let r := isqrt 160 big
      some (.fin false r ((e - sh) / 2) (r * r != big))
  | _ => some (.zero false)

/-- The order of two values that are no NaN: less, equal (zeros of either sign are equal). -/
def fpLess (a b : Fp) : Bool :=
  match a, b with
  | .inf s, .inf t => s && !t
  | .inf s, _ => s
  | _, .inf t => !t
  | _, _ =>
    let p := addExact a.scaled (let q := b.scaled; (-q.1, q.2))
    decide (p.1 < 0)
/-- Equality of two values that are no NaN. -/
def fpEqual (a b : Fp) : Bool := !fpLess a b && !fpLess b a

/-! ### Operations on bit patterns (09 R187, R196) -/

/-- A rounded result unless a NaN is returned. -/
def finish (c mode draw : Nat) (ops : List Fp) (r : Option Fp) (invalid : Bool) (fl : Nat) : Nat × Nat :=
  match pickNan c ops invalid with
  | some p => p
  | none => match r with
    | some v => let p := fpRound c mode draw v; (p.1, p.2 ||| fl)
    | none => (defaultNan c, NV)

/-- round(a + b). -/
def fpAdd (c mode : Nat) (a b : Nat) : Nat × Nat :=
  let x := fpDecode c a
  let y := fpDecode c b
  let r := fpSum (mode == 2) [x, y]
  finish c mode 0 [x, y] r r.isNone 0
/-- round(a − b). -/
def fpSub (c mode : Nat) (a b : Nat) : Nat × Nat :=
  let x := fpDecode c a
  let y := fpDecode c b
  let r := fpSum (mode == 2) [x, y.neg]
  finish c mode 0 [x, y] r r.isNone 0
/-- round(a × b). -/
def fpMulOp (c mode : Nat) (a b : Nat) : Nat × Nat :=
  let x := fpDecode c a
  let y := fpDecode c b
  let r := fpMul x y
  finish c mode 0 [x, y] r r.isNone 0
/-- round(a ÷ b). -/
def fpDivOp (c mode : Nat) (a b : Nat) : Nat × Nat :=
  let x := fpDecode c a
  let y := fpDecode c b
  let r := fpDiv x y
  finish c mode 0 [x, y] (r.map (·.1)) r.isNone ((r.map (·.2)).getD 0)
/-- round(√a). -/
def fpSqrtOp (c mode : Nat) (a : Nat) : Nat × Nat :=
  let x := fpDecode c a
  let r := fpSqrt x
  finish c mode 0 [x] r r.isNone 0

/-- round(±(a × b) ± z) with z in format `cz` and the result in it: the fused forms, and the widening ones with a and b in the
format `c` (09 R187, R195, R196). -/
def fpFused (c cz mode : Nat) (negP negZ : Bool) (a b z : Nat) : Nat × Nat :=
  let x := fpDecode c a
  let y := fpDecode c b
  let w := fpDecode cz z
  let p := fpMul x y
  let r := p.bind fun v => fpSum (mode == 2) [if negP then v.neg else v, if negZ then w.neg else w]
  let nanIn := x.isNan || y.isNan || w.isNan
  finish cz mode 0 [x, y, w] r (p.isNone || (!nanIn && r.isNone)) 0

/-- The lesser (`max` false) or the greater of two; −0 < +0 (09 R187). -/
def fpMinMax (c : Nat) (greater : Bool) (a b : Nat) : Nat × Nat :=
  let x := fpDecode c a
  let y := fpDecode c b
  match pickNan c [x, y] false with
  | some p => p
  | none =>
    let aLess := fpLess x y || (fpEqual x y && x.sign && !y.sign)
    let bLess := fpLess y x || (fpEqual x y && y.sign && !x.sign)
    if greater then (if aLess then b else a, 0) else (if bLess then b else a, 0)

/-- `a` with the given sign bit (09 R187, R196). -/
def withSign (c a : Nat) (s : Bool) : Nat := a % 2 ^ (fpWidth c - 1) + signBits c s
/-- The sign bit. -/
def signOf (c a : Nat) : Bool := a.testBit (fpWidth c - 1)

/-- a = b; NV only on a signalling NaN (09 R187). -/
def fpEq (c a b : Nat) : Bool × Nat :=
  let x := fpDecode c a
  let y := fpDecode c b
  (!x.isNan && !y.isNan && fpEqual x y, flagIf (x.isSig || y.isSig) NV)
/-- a < b; NV on any NaN (09 R187). -/
def fpLt (c a b : Nat) : Bool × Nat :=
  let x := fpDecode c a
  let y := fpDecode c b
  (!x.isNan && !y.isNan && fpLess x y, flagIf (x.isNan || y.isNan) NV)
/-- a ≤ b; NV on any NaN (09 R187). -/
def fpLe (c a b : Nat) : Bool × Nat :=
  let x := fpDecode c a
  let y := fpDecode c b
  (!x.isNan && !y.isNan && !fpLess y x, flagIf (x.isNan || y.isNan) NV)
/-- a or b is a NaN; NV only on a signalling NaN (09 R196). -/
def fpUn (c a b : Nat) : Bool × Nat :=
  let x := fpDecode c a
  let y := fpDecode c b
  (x.isNan || y.isNan, flagIf (x.isSig || y.isSig) NV)

/-- The class code (09 R187). -/
def fpClass (c a : Nat) : Nat :=
  let kind := match fpDecode c a with
    | .nan _ q _ _ => if q then 4 else 5
    | .inf _ => 3
    | .fin _ m _ _ => if m = 0 then 0 else if m < 2 ^ fpFrac c then 1 else 2
  kind + (if signOf c a then 8 else 0)

/-- A value to a format, with the special values of 08 R170; a NaN of the source is quieted and adapted (08 R171). -/
def fpTo (dst mode draw : Nat) (x : Fp) : Nat × Nat :=
  match x with
  | .nan s q fr fb => let p := nanBits dst s fr fb; (p.1, p.2 ||| flagIf (!q) NV)
  | v => fpRound dst mode draw v

/-- A bit pattern from one format to another (08 R170). -/
def fpConvert (src dst mode draw a : Nat) : Nat × Nat := fpTo dst mode draw (fpDecode src a)

end Sys2Proof.Machine
end

