-- ==== Sys2Proof/Machine/Operands.lean ====
section
/-! DEFINITION. Vector controls and operands (07 R132-R143): VTYPE, VL and grants, groups and elements, masks, zero maps, the
checks of a VQ entry (02 R26, 05 R100, 15 R303, 17 R355), and the mould of an element-wise instruction (09 R189). -/
namespace Sys2Proof.Machine

/-! ### VTYPE, VL and grants -/

/-- Element width in bits of format codes 0 to 10 (07 R134). -/
def fmtWidth (c : Nat) : Nat :=
  match c with
  | 0 | 8 | 9 => 8
  | 1 | 6 | 7 => 16
  | 2 | 5 => 32
  | 3 | 4 => 64
  | _ => 4
/-- A block floating-point code (08 R164). -/
def isBfp (c : Nat) : Bool := decide (16 ≤ c) && decide (c ≤ 22)
/-- Bits that an element takes in a group: a block of 32 elements takes a group of 512 bits (07 R133). -/
def fmtPlace (c : Nat) : Nat := if isBfp c then 16 else fmtWidth c
/-- FMT of VTYPE (07 R136). -/
def Regs.fmt (r : Regs) : Nat := (r.vtype.extractLsb' 0 5).toNat
/-- Registers in a group under VTYPE (07 R133). -/
def Regs.grp (r : Regs) : Nat := groupSize r.vtype
/-- VILL (07 R136). -/
def Regs.vill (r : Regs) : Bool := r.vtype.getLsbD 63
/-- VLMAX (07 R134). -/
def Regs.vlmax (r : Regs) : Nat := if r.vill then 0 else min (r.grp * (16384 / fmtPlace r.fmt)) 4096

/-- Registers of a group that hold an element of `w` bits below VLMAX: those beyond are never written (07 R134). -/
def Regs.writes (r : Regs) (w : Nat) : Nat := (r.vlmax * w + 16383) / 16384

/-- `settype` (07 R137). -/
def Regs.setType (r : Regs) (v : Word) : Regs :=
  let c := (v.extractLsb' 0 5).toNat
  { r with vtype := if v.extractLsb' 7 57 == 0 && (decide (c ≤ 10) || isBfp c) then v else 1#64 <<< 63 }

/-- COUNT of VREM (07 R136). -/
def Regs.count (r : Regs) : Nat := (r.vrem.extractLsb' 0 48).toNat
/-- CAP of VREM (07 R136). -/
def Regs.cap (r : Regs) : Nat := (r.vrem.extractLsb' 48 16).toNat
/-- `grant` (07 R139). -/
def Regs.grant (r : Regs) : Regs :=
  let lim := if r.cap = 0 then r.vlmax else min r.vlmax r.cap
  { r with vl := BitVec.ofNat 64 (min r.count lim) }

/-! ### Elements -/

/-- Vector register `n` as a number; there is none above v31. -/
def Regs.vreg (r : Regs) (n : Nat) : VReg := r.v.toList.getD n 0
/-- Element `i` of width `w` of the group at v[n] (07 R133). -/
def Regs.elem (r : Regs) (n : BitVec 5) (w i : Nat) : Nat := getField (r.vreg (n.toNat + i * w / 16384)) (i * w % 16384) w
/-- The registers with that element written. -/
def Regs.setElem (r : Regs) (n : BitVec 5) (w i x : Nat) : Regs :=
  { r with v := vecMod r.v (n.toNat + i * w / 16384) fun b => setField b (i * w % 16384) w x }

/-- The zero-map bit of one group, by its number in the group of registers at v[n] (07 R143). -/
def Regs.rezeroOne (r : Regs) (n : BitVec 5) (g : Nat) : Regs :=
  let k := n.toNat + g / 32
  { r with z := vecMod r.z k fun b => setField b (g % 32) 1 (if getField (r.vreg k) (512 * (g % 32)) 512 = 0 then 1 else 0) }
/-- The zero-map bits of the groups that hold elements `lo` to `hi` − 1 of `w` bits (07 R141, 09 R192). -/
def Regs.rezero (r : Regs) (n : BitVec 5) (w lo hi : Nat) : Regs :=
  if hi ≤ lo then r
  else (List.range' (lo * w / 512) ((hi * w - 1) / 512 - lo * w / 512 + 1)).foldl (·.rezeroOne n ·) r

/-- Bit `i` of a mask register (07 R132). -/
def Regs.maskBit (r : Regs) (m : BitVec 4) (i : Nat) : Bool := (r.m.get ⟨m.toNat, m.isLt⟩).getLsbD i
/-- A mask register with bit `i` written. -/
def Regs.setMaskBit (r : Regs) (m : BitVec 4) (i : Nat) (b : Bool) : Regs :=
  { r with m := r.m.set m.toNat (setField (r.m.get ⟨m.toNat, m.isLt⟩) i 1 b.toNat) m.isLt }

/-- Elements from VSTART to VL − 1. -/
def Regs.span (r : Regs) : List Nat := List.range' r.vstart.toNat (r.vl.toNat - r.vstart.toNat)
/-- A mask field governs an element: 0 is none (02 R24, 00 R10). -/
def Regs.governs (r : Regs) (m : BitVec 4) (i : Nat) : Bool := m == 0 || r.maskBit m i
/-- The active elements (00 R10). -/
def Regs.actives (r : Regs) (m : BitVec 4) : List Nat := r.span.filter (r.governs m)

/-! ### Checks -/

/-- A vector operand names a group under VTYPE (07 R133). -/
def Regs.groupOk (r : Regs) (n : BitVec 5) : Bool := Machine.groupOk r.grp n

/-- The first group among the elements of a source whose presence bit is not set (05 R100, 07 R141). -/
def Core.absent (c : Core) (n : BitVec 5) (w : Nat) (is : List Nat) : Option (Nat × Nat) :=
  if c.openV = 0 then none else
  (is.map fun i => (n.toNat + i * w / 16384, i * w % 16384 / 512)).find? fun p => !(c.pres.toList.getD p.1 0).getLsbD p.2

/-- Waits for the presence bits of the elements of a source (05 R100). -/
def needElems (n : BitVec 5) (w : Nat) (is : List Nat) : M Unit := do
  match (← get).core.absent n w is with
  | some p => await (.presence p.1 p.2)
  | none => pure ()

/-- The first register of `k` from `n` on that is open for an engine. -/
def Core.firstOpen (c : Core) (kind n k : Nat) : Option Nat := (List.range' n k).find? (c.isOpen kind ·)

/-- A write to a group of registers, or a read of mask or tile registers, none of which may be open (05 R100). An instruction writes the
registers of its destination that hold an element below VLMAX, whether or not one is active (07 R134; log 11). DEDUCED -/
def guardRegs (kind n k : Nat) : M Unit := do
  match (← get).core.firstOpen kind n k with
  | some q => raise .badHandle (BitVec.ofNat 64 (regOffset kind q))
  | none => pure ()

/-- The governing mask is read (05 R100). -/
def guardMask (m : BitVec 4) : M Unit := if m = 0 then pure () else guardRegs 1 m.toNat 1

/-- VSTART names element `k` (17 R346). -/
def Regs.standAt (r : Regs) (k : Nat) : Regs := { r with vstart := BitVec.ofNat 64 k }.dirty true false false

/-- Stops at element `k` (17 R346). -/
def stopAt {α : Type} (k : Nat) (c : Cause) (tval : Word) : M α := do
  modCore fun s => { s with regs := s.regs.standAt k, halt := none }
  raise c tval

/-- The progress index of vector register `n` (07 R142): its leading groups whose presence bits are 1, and, where a load has
stopped inside, the groups of a register that it writes which lie wholly below its element (log 68). DEDUCED -/
def Core.progress (c : Core) (n : Nat) : Nat :=
  let p := c.pres.toList.getD n 0
  let lead := ((List.range 32).find? fun g => !p.getLsbD g).getD 32
  match c.halt with
  | some h => if h.regs.getLsbD n then min lead (h.elem * h.bits / 512 - 32 * (n - h.reg)) else lead
  | none => lead

/-- A VQ instruction completes: VSTART is 0; mask and tile state dirty when it writes them (00 R10, 17 R348). -/
def Regs.vecDone (r : Regs) (m t : Bool) : Regs := { r with vstart := 0 }.dirty true m t

/-! ### VQ entries -/

/-- What a VQ instruction is checked for: its word, the state it uses, whether it is a vector instruction for step 8 of 02 R26,
and whether the check lane recomputes a group of it (09 R193). -/
structure Entry where
  word : Word
  v    : Bool
  m    : Bool
  t    : Bool
  vill : Bool
  lane : Bool
  deriving DecidableEq, Repr

/-- The entry of an instruction that also uses mask or tile state through the windows of its context (17 R348). -/
def Entry.using (e : Entry) (u : Bool × Bool) : Entry := { e with m := e.m || u.1, t := e.t || u.2 }

/-- Steps 7 and 8 of 02 R26: the check that fails. -/
def Entry.refused (e : Entry) (r : Regs) : Option Cause :=
  if e.v && r.off 10 then some .vuse
  else if e.m && r.off 12 then some .vuse
  else if e.t && r.off 14 then some .tuse
  else if e.vill && r.vill then some .illegal
  else none

/-- A trap of a VQ instruction with sequence number `q` (15 R303, 17 R338); `used` tells that the number is consumed. -/
def vecTrap (c : Cause) (tval : Word) (used : Bool) (s : State) : State :=
  let q := s.core.regs.seq
  if (endChunk 3 s).isNone then s.waiting .reservation
  else takeTrap c false tval (some q) (if used then s.mapRegs fun r => { r with seq := q + 1 } else s)

/-- A mismatch that the check lane meets at this entry, with its CHECK records; the machine check it raises when it recurs. A pipe
with a failed lane is unchecked, and a second lane that fails there is lost (17 R355, R358, 26 R413). -/
def meetLane (f : LaneFault) (s : State) : Option Word × State :=
  let q := s.core.regs.seq
  let lane : BitVec 5 := q.setWidth 5
  let p := f.pipe.toNat
  let had := (s.core.lane.toList.getD p none).isSome
  let note := if had then id else recordCur 0x09 (q ++ 0#23 ++ BitVec.ofBool f.pipe ++ 0#3 ++ lane)
  if !f.again then (none, note s) else
  let tval : Word := (if had then 3#4 else 1#4) ++ 0#51 ++ BitVec.ofBool f.pipe ++ 0#3 ++ lane
  (some tval, (note (note s)).mapCore fun c =>
    if had then { c with lost := true } else { c with lane := vecMod c.lane p fun _ => some lane })

/-- Runs the body of a VQ instruction: its sequence number is consumed unless it waits or is pre-empted (02 R27; 15 R303; 16 R333). -/
def vecBody (body : M Unit) (s : State) : Out :=
  match body s.dropLends with
  | .ok _ s1 => .next (s1.noHalt.mapRegs fun r => { r with seq := r.seq + 1 }).retire
  | .error (.trap c v) s1 => .next (vecTrap c v true s1)
  | .error (.wait w) s1 => .next (s1.waiting w)
  | .error .cut s1 => .next (takePreempt s1)

/-- Runs a VQ instruction: the checks, the check lane, then its body (02 R26, R27; 17 R355). The mismatches are the hardware's, an input of the
model: each entry with a check lane meets the next of Core.lanes, and one that mismatches again traps before its body's own traps and waits
(log 105). DESIGN CHOICE. A machine check whose trap a reserved chunk holds up is met once the trap can be taken. -/
def vecRun (e : Entry) (body : M Unit) (s : State) : Out :=
  match e.refused s.core.regs with
  | some c => .next (vecTrap c e.word false s)
  | none =>
    match e.lane, s.core.lanes with
    | true, f :: r =>
      if f.again && (endChunk 3 s).isNone then .next (s.waiting .reservation)
      else match meetLane f (s.mapCore fun c => { c with lanes := r }) with
        | (some tval, s0) => .next (vecTrap .machineCheck tval true s0)
        | (none, s0) => vecBody body s0
    | _, _ => vecBody body s

/-! ### The mould of an element-wise instruction (09 R189) -/

/-- What one element comes to: a result with its flags, or a token that is refused. -/
inductive Elt where
  | val (x fl : Nat)
  | token (x : Nat)
  deriving DecidableEq, Repr

/-- An element's result, refused when one of the operands read as binary32 is a token (08 R172). -/
def orToken (c : Nat) (ops : List Nat) (v : Nat × Nat) : Elt :=
  match (if c = 5 then ops.find? isToken else none) with
  | some x => .token x
  | none => .val v.1 v.2

/-- The elements in order, up to the first that must trap: the registers, and the element with its cause and value. -/
def mouldLoop (f : Nat → Elt) (put : Regs → Nat → Nat → Regs) : List Nat → Regs → Regs × Option (Nat × Cause × Word)
  | [], r => (r, none)
  | i :: is, r =>
    match f i with
    | .token x => (r, some (i, .verdictOperand, BitVec.ofNat 64 x))
    | .val x fl => if r.traps fl then (r, some (i, .fp, BitVec.ofNat 64 fl)) else mouldLoop f put is ((put r i x).accrue fl)

/-- The element-wise body over the active elements, into the group at v[d] of width `w` (09 R189, R192). -/
def mouldVec (m : BitVec 4) (d : BitVec 5) (w : Nat) (f : Nat → Elt) : M Unit := do
  let r ← regs
  let p := mouldLoop f (fun r i x => r.setElem d w i x) (r.actives m) r
  let hi := match p.2 with
    | some (k, _) => k
    | none => r.vl.toNat
  modRegs fun _ => p.1.rezero d w r.vstart.toNat hi
  match p.2 with
  | some (k, c, v) => stopAt k c v
  | none => modRegs (·.vecDone false false)

/-- The element-wise body of a compare, into mask register m[d] (09 R191). -/
def mouldMask (m d : BitVec 4) (f : Nat → Elt) : M Unit := do
  let r ← regs
  let p := mouldLoop f (fun r i x => (r.setMaskBit d i (x != 0)).dirty false true false) (r.actives m) r
  modRegs fun _ => p.1
  match p.2 with
  | some (k, c, v) => stopAt k c v
  | none => modRegs (·.vecDone true false)

/-- Width `w` low bits of a scalar operand (09 R190). -/
def lowBits (w : Nat) (v : Word) : Nat := v.toNat % 2 ^ w

end Sys2Proof.Machine
end

