-- ==== Sys2Proof/Machine/System.lean ====
section
/-! DEFINITION. System registers and major SY (17 R342-R345, R352, R361; 03 R60, R61; 16 R324; 14 R294), and the events that are
writes of one register. -/
namespace Sys2Proof.Machine

/-! ### System registers (17 R342) -/

/-- A user-mode read traps PRIV (17 R342). -/
def privRead (n : Nat) : Bool :=
  (decide (1 ≤ n) && decide (n ≤ 7)) || (decide (0x30 ≤ n) && decide (n ≤ 0x38)) || n == 0x73 || n == 0x74
/-- A user-mode write traps PRIV (17 R342). -/
def privWrite (n : Nat) : Bool :=
  decide (n ≤ 7) || (decide (0x10 ≤ n) && decide (n ≤ 0x14)) || (decide (0x30 ≤ n) && decide (n ≤ 0x38)) ||
  (decide (0x70 ≤ n) && decide (n ≤ 0x74))
/-- The register is vector state (17 R348). -/
def vecReg (n : Nat) : Bool := (decide (0x10 ≤ n) && decide (n ≤ 0x13)) || n == 0x15

/-- The value of a system register; a write-only one reads 0 (17 R342-R344). -/
def sysRead (n : Nat) (c : Core) : Word :=
  let r := c.regs
  match n with
  | 0x000 => r.stat
  | 0x001 => r.epc
  | 0x002 => r.cause
  | 0x003 => r.tval
  | 0x004 => r.tvec
  | 0x005 => r.scratch
  | 0x006 => r.vqpos
  | 0x007 => r.saveva
  | 0x010 => r.vl
  | 0x011 => r.vtype
  | 0x012 => r.vstart
  | 0x013 => r.vrem
  | 0x014 => r.rps
  | 0x015 => r.tk
  | 0x016 => r.srseed
  | 0x017 => r.srcnt
  | 0x020 => r.fst
  | 0x030 | 0x031 | 0x032 | 0x033 | 0x034 | 0x035 | 0x036 | 0x037 => r.bpa.toList.getD (n - 0x30) 0
  | 0x038 => r.bpctx
  | 0x040 => r.chb
  | 0x041 => c.csn
  | 0x050 => 1
  | 0x053 => 3
  | 0x060 => c.cycle
  | 0x061 => c.instret
  | 0x070 => r.ten
  | 0x071 => r.asid
  | 0x072 => r.ptb
  | 0x074 => r.tiva
  | 0x080 => r.ctxid
  | 0x081 => r.ctxrank
  | 0x082 => r.groupsz
  | _ => 0

/-- A state field of STAT written; 3 leaves it (17 R343). -/
def stateField (sh : Nat) (v st : Word) : Word :=
  if v.extractLsb' sh 2 == 3 then st else setField st sh 2 (v.extractLsb' sh 2).toNat
/-- STAT written (17 R343). -/
def writeStat (st v : Word) : Word :=
  stateField 14 v (stateField 12 v (stateField 10 v ((st &&& ~~~0x3B#64) ||| (v &&& 0x3B))))
/-- FST written: RM codes 5 to 7 leave RM (08 R168). -/
def writeFst (st v : Word) : Word :=
  let v1 := v &&& 0xFF1F
  if 5 ≤ (v.extractLsb' 8 3).toNat then setField v1 8 3 (st.extractLsb' 8 3).toNat else v1
/-- CHB written: BUDGET between 64 and 65,536 (14 R280). -/
def writeChb (v : Word) : Word := BitVec.ofNat 64 (max 64 (min 65536 (v.extractLsb' 0 17).toNat))
/-- VL written (07 R136). -/
def Regs.writeVl (r : Regs) (v : Word) : Regs :=
  { r with vl := BitVec.ofNat 64 (min v.toNat r.vlmax) }.dirty true false false
/-- VTYPE written: settype, then VL clamped (07 R137). -/
def Regs.writeVtype (r : Regs) (v : Word) : Regs :=
  let r1 := r.setType v
  { r1 with vl := BitVec.ofNat 64 (min r1.vl.toNat r1.vlmax) }.dirty true false false
/-- VREM written (07 R137). -/
def Regs.writeVrem (r : Regs) (v : Word) : Regs := { r with vrem := v }.dirty true false false

/-- The registers after a write of one of them, under its map; read-only ones ignore it (17 R342-R344, 00 R6). RPS is written by the handler,
which runs normally whatever ACT it leaves, until it returns: a write starts no frame (15 R319, R320; log 102). DEDUCED -/
def Regs.sysWrite (r : Regs) (n : Nat) (v : Word) : Regs :=
  match n with
  | 0x000 => { r with stat := writeStat r.stat v }
  | 0x001 => { r with epc := v &&& ~~~3#64 }
  | 0x002 => { r with cause := v &&& 0x80000000000000FF }
  | 0x003 => { r with tval := v }
  | 0x004 => { r with tvec := v &&& ~~~3#64 }
  | 0x005 => { r with scratch := v }
  | 0x006 => { r with vqpos := v &&& 0x80000000FFFFFFFF }
  | 0x007 => { r with saveva := v }
  | 0x010 => r.writeVl v
  | 0x011 => r.writeVtype v
  | 0x012 => { r with vstart := v &&& 0xFFF }.dirty true false false
  | 0x013 => r.writeVrem v
  | 0x014 => { r with rps := v &&& ~~~(1#64 <<< 48), susp := !r.inFrame }
  | 0x015 => { r with tk := v &&& 0xFFFFFFFF }.dirty true false false
  | 0x016 => { r with srseed := v }
  | 0x017 => { r with srcnt := v }
  | 0x020 => { r with fst := writeFst r.fst v }
  | 0x030 | 0x031 | 0x032 | 0x033 | 0x034 | 0x035 | 0x036 | 0x037 =>
    { r with bpa := vecMod r.bpa (n - 0x30) fun _ => v &&& ~~~2#64 }
  | 0x038 => { r with bpctx := v }
  | 0x040 => { r with chb := writeChb v }
  | 0x070 => { r with ten := v &&& 0xFFFF }
  | 0x071 => { r with asid := v &&& 0xFFFF }
  | 0x072 => { r with ptb := v &&& ptbBits }
  | 0x074 => { r with tiva := v }
  | _ => r

/-! ### Invalidation (03 R61) -/

/-- A held translation matches an invalidation (03 R57, R61). -/
def Tinv.matches (t : Tinv) (b : Tlb) : Bool :=
  let ten := b.ten == t.ten.setWidth 64
  let asid := b.asid == t.asid.setWidth 64
  match t.kind.toNat with
  | 0 => ten
  | 1 => ten && asid && !b.pte.getLsbD 9
  | 2 => ten && (asid || b.pte.getLsbD 9) && decide (b.va ≤ vaBits t.va) && decide (vaBits t.va < b.va + b.size)
  | _ => true

/-- A core lies in the scope of an operation of core `n`: its die for DIE, else the package (00 R18). -/
def inScope (scope : BitVec 3) (n k : Nat) : Bool := scope != 3 || dieOf n == dieOf k

/-- A list of translations without those that an invalidation matches. -/
def Tinv.drop (t : Tinv) (l : List Tlb) : List Tlb := l.filter fun b => !t.matches b

/-- Matching translations leave the TLBs of the cores and dies in the scope (03 R61). -/
def tinvDrop (t : Tinv) (s : State) : State :=
  let core (n : Nat) (c : Core) : Core := if inScope t.scope s.cur n then { c with tlb := t.drop c.tlb } else c
  { s with
    core := core s.cur s.core
    others := s.others.map fun p => (p.1, core p.1 p.2)
    dieTlb := Vector.ofFn fun d => if inScope t.scope s.cur (48 * d.val) then t.drop (s.dieTlb.get d) else s.dieTlb.get d }

/-- The invalidation of the focused core: it takes its CSN as a singleton chunk, matching translations leave the TLBs in the
scope, and chunks that used one are squashed (03 R61, 26 R413). A chunk that holds nothing yet is none in flight: its instruction fetches
again when it is executed again, and a singleton that waits in it is never squashed (14 R282). -/
def tinvApply (t : Tinv) (s : State) : State :=
  let s2 := tinvDrop t (takeCsn 7 0 [] [] s)
  squashOthers 2 s2.csn (fun n _ ch => !ch.empty && inScope t.scope s2.cur n && ch.used.any t.matches) s2

/-- An engine access in the scope that used a matching translation is still out: the dies do not acknowledge yet (03 R61). -/
def tinvHeld (t : Tinv) (s : State) : Bool :=
  s.cores.any fun p => inScope t.scope s.cur p.1 && p.2.eng.toList.any fun g => g.out.any fun r => t.matches r.tlb

/-- A value written to TINV is valid (03 R61). -/
def tinvOk (v tiva : Word) : Bool :=
  let scope := v.extractLsb' 5 3
  (scope == 3 || scope == 4) && v.extractLsb' 8 24 == 0 && v.extractLsb' 0 3 == 0 &&
  !(v.extractLsb' 3 2 == 2 && !canonical tiva)

/-- The invalidation a value names (03 R59). -/
def tinvOf (v tiva : Word) : Tinv :=
  ⟨v.extractLsb' 3 2, v.extractLsb' 32 16, v.extractLsb' 48 16, tiva, v.extractLsb' 5 3⟩

/-- The value of TINV that names an invalidation (03 R59). -/
def Tinv.word (t : Tinv) : Word := t.asid ++ t.ten ++ 0#24 ++ t.scope ++ t.kind ++ 0#3

/-- A write of TINV: it waits until every die of its scope has acknowledged it (03 R61). -/
def writeTinv (v : Word) : M Unit := do
  let s ← get
  if s.core.wait == some .tinv then
    if s.core.tinv.isSome then await .tinv else endChunkM 7
  else
    ensure (tinvOk v s.core.regs.tiva) .illegal v
    endChunkM 7
    modCore fun c => { c with tinv := some (tinvOf v c.regs.tiva) }
    await .tinv

/-! ### Reads and writes of system registers -/

/-- TK.THRESH written, which refuses a token (12 R256). -/
def setTk (v : Word) : M Unit := do
  ensure (!isToken v.toNat) .verdictOperand (v &&& 0xFFFFFFFF)
  modRegs (·.sysWrite 0x15 v)

/-- The rule of a write, beside the register's map (17 R345; 03 R60, R61; 12 R256). -/
def sysWriteM (n : Nat) (v : Word) : M Unit := do
  if n = 0x73 then writeTinv v
  else if n = 0x15 then setTk v
  else
    if n = 0x70 || n = 0x71 || n = 0x72 then newChunkM 7
    modRegs (·.sysWrite n v)

/-- SY.SRD (17 R345); `w` is its word. -/
def srdBody (w : Word) (d : BitVec 5) (n : Nat) : M Unit := do
  let r ← regs
  ensure (!(r.user && privRead n)) .priv w
  ensure (!(r.off 10 && vecReg n)) .vuse w
  if n = 0x41 then newChunkM 7
  putX d (sysRead n (← get).core)

/-- SY.SWR (17 R345); `w` is its word. Older VQ entries have retired before it writes (15 R304). -/
def swrBody (w v : Word) (n : Nat) : M Unit := do
  let r ← regs
  ensure (!(r.user && privWrite n)) .priv w
  ensure (!(r.off 10 && vecReg n)) .vuse w
  modify (·.dropLends)
  sysWriteM n v

/-- SY_SRD (17 R345). -/
def execSySrd (d : BitVec 5) (n : BitVec 12) (st : State) : Out := run (srdBody (tvalWord (encode (.sySrd d n))) d n.toNat) st

/-- SY_SWR (17 R345). -/
def execSySwr (a : BitVec 5) (n : BitVec 12) (st : State) : Out :=
  run (swrBody (tvalWord (encode (.sySwr a n))) (st.x a) n.toNat) st

/-- SY_CEND (14 R294). -/
def execSyCend (st : State) : Out := run (endAfter 0) st

/-- SY.FENCE: a chunk of its own; POD waits for the remote accesses (14 R294). -/
def fenceBody (scope : BitVec 3) : M Unit := do
  endChunkM 1
  if scope = 5 then podFence
  singleM 1 []

/-- SY_FENCE (14 R294). -/
def execSyFence (c : BitVec 3) (st : State) : Out := run (fenceBody c) st

/-- SY.ICINV: a singleton chunk that waits for the acknowledgements of its scope (17 R352). -/
def icinvBody (w : Word) (scope : BitVec 3) : M Unit := do
  let s ← get
  ensure (!s.core.regs.user) .priv w
  if s.core.wait == some .icinv then
    if s.core.icinv.isSome then await .icinv
    endChunkM 2
    singleM 2 []
  else
    endChunkM 2
    modCore fun c => { c with icinv := some scope }
    await .icinv

/-- SY_ICINV (17 R352). -/
def execSyIcinv (c : BitVec 3) (st : State) : Out := run (icinvBody (tvalWord (encode (.syIcinv c))) c) st

/-- The first byte of a launch record that is not in idempotent memory of regions 0x0 and 0x1 (16 R324). -/
def recordDevice (ps : List Piece) : Option Word :=
  (ps.find? fun p => p.place != .mem || p.tlb.pte.extractLsb' 54 2 == 1).map (·.va)

/-- SY.LAUNCH (16 R324): the chunk ends first, so that the record and its pages are read as committed values. The primary MC
accesses memory on the HOST path, which a fence that waits may hold up (14 R292 step 5). -/
def launchBody (d a : BitVec 5) : M Unit := do
  let s ← get
  let va := s.x a
  ensure (va.extractLsb' 0 4 == 0) .align va
  endChunkM 2
  match ← xlAccess s.core.xl .load va 112 with
  | .error (c, t) => raise c t
  | .ok ps =>
    match recordDevice ps with
    | some t => raise .deviceAccess t
    | none =>
      needHbm ps
      needClean ps
      if (← get).fenced 4 0 0 then await .fence
      singleM 2 []
      let s1 ← get
      let (st, s2) := mcLaunch (ps.flatMap (directRead s1)) (s1.core.regs.ten.setWidth 16) s1
      set s2
      putX d st

/-- SY_LAUNCH (16 R324). -/
def execSyLaunch (d a : BitVec 5) (st : State) : Out := run (launchBody d a) st

/-- SY_TRAP (17 R345). -/
def execSyTrap (n : BitVec 12) (st : State) : Out := .next (takeTrap .trap false (n.setWidth 64) none st)

/-- SY.RET (17 R345); `w` is its word. The chunk ends before it. -/
def retBody (w : Word) : M Word := do
  ensure (!(← regs).user) .priv w
  newChunkM (Config.otherReason 0)
  modRegs (·.leave)
  return (← regs).pc

/-- SY_RET (17 R345). -/
def execSyRet (st : State) : Out := runAt (retBody (tvalWord (encode .syRet))) st

/-- SY_END (17 R345, 05 R112). One that finds no instruction before it in its chunk commits nothing and takes no CSN (log 84). DESIGN CHOICE -/
def execSyEnd (st : State) : Out :=
  match endChunk 9 st with
  | none => .next (st.waiting .reservation)
  | some s1 => .next (endContext s1)

/-- SY_PARK (17 R361, 22 R371): the chunk ends before it. One that finds no instruction before it in its chunk commits nothing and takes no
CSN (log 84). DESIGN CHOICE -/
def execSyPark (st : State) : Out :=
  let w := tvalWord (encode .syPark)
  if st.core.regs.user then .next (takeTrap .priv false w none st)
  else if st.core.slot.state != .unbinding then .next (takeTrap .illegal false w none st)
  else match endChunk (Config.otherReason 1) st with
    | none => .next (st.waiting .reservation)
    | some s1 => .next (if s1.core.parkHeld then s1.waiting .fence else park s1)

/-! ### Writes and reads as events -/

/-- Runs the body of an event of the focused core: it moves no program counter. An event that must wait has not happened. -/
def runEvent (m : M Unit) (s : State) : Out :=
  match m s with
  | .ok _ s' => .next s'
  | .error (.trap c v) s' => .next (takeTrap c false v none s')
  | .error (.wait _) _ => .next s
  | .error .cut s' => .next (takePreempt s')

/-- A system register written as an event: in user mode one that only the supervisor writes traps PRIV, with the word of an SY.SWR of it
(00 R6, 17 R342; log 47). DEDUCED -/
def sysEvent (n : Nat) (v : Word) : M Unit := do
  ensure (!((← regs).user && privWrite n)) .priv (tvalWord (encode (.sySwr (Config.sourceReg n v.toNat) (BitVec.ofNat 12 n))))
  sysWriteM n v

/-- TEN_WRITE (03 R60). -/
def execTenWrite (v : Word) (st : State) : Out := runEvent (sysEvent 0x70 v) st
/-- ASID_WRITE (03 R60). -/
def execAsidWrite (v : Word) (st : State) : Out := runEvent (sysEvent 0x71 v) st
/-- PTB_WRITE (03 R60). -/
def execPtbWrite (v : Word) (st : State) : Out := runEvent (sysEvent 0x72 v) st
/-- VTYPE_WRITE (07 R137). -/
def execVtypeWrite (v : Word) (st : State) : Out := runEvent (sysEvent 0x11 v) st
/-- VL_WRITE (07 R136). -/
def execVlWrite (v : Word) (st : State) : Out := runEvent (sysEvent 0x10 v) st
/-- VREM_WRITE (07 R137). -/
def execVremWrite (v : Word) (st : State) : Out := runEvent (sysEvent 0x13 v) st
/-- TK_WRITE (12 R256). -/
def execTkWrite (v : Word) (st : State) : Out := runEvent (sysEvent 0x15 v) st
/-- CHB_WRITE (14 R280). -/
def execChbWrite (v : Word) (st : State) : Out := runEvent (sysEvent 0x40 v) st
/-- FST_WRITE (08 R168). -/
def execFstWrite (v : Word) (st : State) : Out := runEvent (sysEvent 0x20 v) st
/-- STAT_WRITE (17 R343). -/
def execStatWrite (v : Word) (st : State) : Out := runEvent (sysEvent 0x00 v) st
/-- CSN_READ: the current chunk ends first (14 R286). -/
def execCsnRead (d : BitVec 5) (st : State) : Out := runEvent (do newChunkM 7; putX d (← get).core.csn) st

/-- A TINV of the focused core that every die acknowledges at once, or, while an engine access holds it up, later; in user mode it traps
PRIV, as its write does (03 R61; log 47). DEDUCED -/
def tinvEvent (t : Tinv) : M Unit := do
  ensure (!(← regs).user) .priv (tvalWord (encode (.sySwr (Config.sourceReg 0x73 t.word.toNat) 0x73)))
  ensure (tinvOk t.word t.va) .illegal t.word
  if tinvHeld t (← get) then await .tinv
  endChunkM 7
  modify (tinvApply t)

/-- TINV_TENANT: kind 0 (03 R61). -/
def execTinvTenant (ten : BitVec 16) (scope : BitVec 3) (st : State) : Out := 
  runEvent (tinvEvent ⟨0, ten, 0, st.core.regs.tiva, scope⟩) st
/-- TINV_ASID: kind 1 (03 R61). -/
def execTinvAsid (ten asid : BitVec 16) (scope : BitVec 3) (st : State) : Out := 
  runEvent (tinvEvent ⟨1, ten, asid, st.core.regs.tiva, scope⟩) st
/-- TINV_VA: kind 2, the entry covering TIVA (03 R61). -/
def execTinvVa (ten asid : BitVec 16) (scope : BitVec 3) (st : State) : Out :=
  runEvent (tinvEvent ⟨2, ten, asid, st.core.regs.tiva, scope⟩) st
/-- TINV_ALL: kind 3 (03 R61). -/
def execTinvAll (scope : BitVec 3) (st : State) : Out := 
  runEvent (tinvEvent ⟨3, 0, 0, st.core.regs.tiva, scope⟩) st

/-- TINV_ACKNOWLEDGED: the TINV that waits is performed, and its write retires when the core runs next (03 R61). -/
def execTinvAcknowledged (st : State) : Out :=
  match st.core.tinv with
  | some t => .next (if tinvHeld t st then st else (tinvApply t st).mapCore fun c => { c with tinv := none })
  | none => .next st

/-- ICINV_ACKNOWLEDGED: no fetch unit of the dies in the scope holds a word any more, and the SY.ICINV that waits retires when the core
runs next (17 R352). -/
def execIcinvAcknowledged (st : State) : Out :=
  match st.core.icinv with
  | some scope => .next ((textDrop (inScope scope st.cur) st).mapCore fun c => { c with icinv := none })
  | none => .next st

end Sys2Proof.Machine
end

