-- ==== Sys2Proof/Machine/Barrier.lean ====
section
/-! DEFINITION. Barriers: major SQ (14 R295-R302). -/
namespace Sys2Proof.Machine

/-- Hardware barriers of a scope in each instance, 0 for a code that is none (14 R297). -/
def barIds (scope : BitVec 3) : Nat :=
  match scope.toNat with
  | 1 => 8
  | 2 => 16
  | 3 => 64
  | 4 => 256
  | 5 => 1024
  | _ => 0
/-- The most participants of a scope (14 R297). -/
def barMost (scope : BitVec 3) : Nat :=
  match scope.toNat with
  | 1 => 1
  | 2 => 4
  | 3 => 48
  | 4 => 144
  | 5 => 294912
  | _ => 0
/-- The instance of a scope for the core that configured it (14 R295, 01 R18). A register that SQ.WR or a bind has given a HOME above
143 names a barrier by the same arithmetic: no rule says which, and none has it trap (log 75). DESIGN CHOICE -/
def barInst (scope : BitVec 3) (home : Nat) : Nat :=
  match scope.toNat with
  | 1 => home
  | 2 => home / 4
  | 3 => home / 48
  | _ => 0

/-- The owner entry of a barrier, as a key of `State.owners` (14 R298); CORE barriers have none, nor has a
HOME above 143, and what has none admits every tenant (log 75). DESIGN CHOICE -/
def ownerKey (scope : BitVec 3) (home bid : Nat) : Option Nat :=
  match scope.toNat with
  | 2 => some (devKey (home / 48) (0x102000 + 8 * (16 * (home % 48 / 4) + bid)))
  | 3 => some (devKey (home / 48) (0x102800 + 8 * bid))
  | 4 => some (devKey 0 (0x103000 + 8 * bid))
  | 5 => some (devKey 0 (0x104000 + 8 * bid))
  | _ => none

/-- The owner entry admits a tenant (14 R298). -/
def admits (s : State) (scope : BitVec 3) (home bid : Nat) (ten : Word) : Bool :=
  match ownerKey scope home bid with
  | none => true
  | some k =>
    let e := keyGet s.owners k 0
    !e.getLsbD 63 || e.extractLsb' 0 16 == ten.extractLsb' 0 16

/-- It is the barrier with this scope, instance and id. -/
def HwBar.is (h : HwBar) (scope : BitVec 3) (inst bid : Nat) : Bool := h.scope == scope && h.inst == inst && h.bid == bid
/-- The hardware barrier: no arrivals and generation 0 until the first one (14 R295). -/
def State.hwbar (s : State) (scope : BitVec 3) (inst bid : Nat) : HwBar :=
  (s.hwbars.find? (·.is scope inst bid)).getD ⟨scope, inst, bid, 0, 0, 0⟩
/-- The state with a hardware barrier set. -/
def State.setHwbar (s : State) (h : HwBar) : State :=
  { s with hwbars := h :: s.hwbars.filter fun k => !k.is h.scope h.inst h.bid }

/-- One arrival: the first of a generation fixes its COUNT, the last completes it (14 R295, R299). -/
def HwBar.arrive (h : HwBar) (count : Nat) : HwBar :=
  let cnt := if h.arr = 0 then count else h.cnt
  if h.arr + 1 = cnt then { h with arr := 0, cnt := 0, gen := h.gen + 1 } else { h with arr := h.arr + 1, cnt := cnt }

/-- Barrier register bn. -/
def Regs.bar (r : Regs) (b : BitVec 3) : Word := r.b.get ⟨b.toNat, b.isLt⟩
/-- The registers with bn written. -/
def Regs.setBar (r : Regs) (b : BitVec 3) (v : Word) : Regs := { r with b := r.b.set b.toNat v b.isLt }
/-- VAL (14 R295). -/
def barVal (v : Word) : Bool := v.getLsbD 63
/-- PEND (14 R295). -/
def barPend (v : Word) : Bool := v.getLsbD 62
/-- SCOPE (14 R295). -/
def barScope (v : Word) : BitVec 3 := v.extractLsb' 0 3
/-- BID (14 R295). -/
def barBid (v : Word) : Nat := (v.extractLsb' 10 16).toNat
/-- COUNT (14 R295). -/
def barCount (v : Word) : Nat := (v.extractLsb' 26 20).toNat
/-- HOME (14 R295). -/
def barHome (v : Word) : Nat := (v.extractLsb' 46 8).toNat
/-- GEN (14 R295). -/
def barGen (v : Word) : BitVec 8 := v.extractLsb' 54 8
/-- The hardware barrier that a register names (14 R295, R300). -/
def State.barOf (s : State) (v : Word) : HwBar := s.hwbar (barScope v) (barInst (barScope v) (barHome v)) (barBid v)

/-- The trap of SQ.CFG, before any change (14 R297, R298). -/
def cfgTrap (s : State) (b : BitVec 3) (v : Word) : Option Cause :=
  let scope := barScope v
  if v.extractLsb' 46 18 != 0 || v.extractLsb' 3 7 != 0 then some .illegal
  else if barIds scope = 0 then some .illegal
  else if barPend (s.core.regs.bar b) then some .illegal
  else if barIds scope ≤ barBid v then some .range
  else if barCount v = 0 || decide (barMost scope < barCount v) then some .range
  else if !admits s scope s.cur (barBid v) s.core.regs.ten then some .range
  else none

/-- The register that SQ.CFG writes (14 R297). -/
def cfgValue (s : State) (v : Word) : Word :=
  let scope := barScope v
  let h := s.hwbar scope (barInst scope s.cur) (barBid v)
  1#1 ++ 0#1 ++ h.gen ++ BitVec.ofNat 8 s.cur ++ v.extractLsb' 26 20 ++ v.extractLsb' 10 16 ++ 0#7 ++ scope

/-- SQ_CFG (14 R297). -/
def execSqCfg (b : BitVec 3) (a : BitVec 5) (st : State) : Out :=
  let v := st.x a
  match cfgTrap st b v with
  | some c => .next (takeTrap c false v none st)
  | none => .next (st.mapRegs (·.setBar b (cfgValue st v))).retire

/-- SQ.ARV (14 R299); `w` is its word. A SCOPE that is no barrier's, which SQ.WR or a bind has put there, is a code that the instruction
does not accept (01 R18). While it waits under POD scope it is executed again, and compares TENANT again at each retry (14 R298; log 80).
DESIGN CHOICE -/
def arriveBody (w : Word) (b : BitVec 3) : M Unit := do
  let s ← get
  let v := s.core.regs.bar b
  ensure (barVal v && !barPend v && barIds (barScope v) != 0) .illegal w
  ensure (admits s (barScope v) (barHome v) (barBid v) s.core.regs.ten) .range v
  endChunkM 1
  if barScope v = 5 then podFence
  singleM 1 []
  let h := (← get).barOf v
  modify fun s => (s.setHwbar (h.arrive (barCount v))).mapRegs
    (·.setBar b (setField (setField v 54 8 h.gen.toNat) 62 1 1))

/-- SQ_ARV (14 R299). -/
def execSqArv (b : BitVec 3) (st : State) : Out := run (arriveBody (tvalWord (encode (.sqArv b))) b) st

/-- SQ.WT (14 R300); `w` is its word. With PEND = 0 it completes at once, without a look at SCOPE; a wait names a barrier, and a SCOPE
that is no barrier's is a code it does not accept (01 R18; log 75). DEDUCED -/
def waitBody (w : Word) (b : BitVec 3) : M Unit := do
  let s ← get
  let v := s.core.regs.bar b
  ensure (!barPend v || barIds (barScope v) != 0) .illegal w
  if barPend v && (s.barOf v).gen == barGen v then await (.barrier b)
  modRegs (·.setBar b (setField v 62 1 0))
  endAfter 8

/-- SQ_WT (14 R300). -/
def execSqWt (b : BitVec 3) (st : State) : Out := run (waitBody (tvalWord (encode (.sqWt b))) b) st

/-- SQ_RD (14 R301). -/
def execSqRd (d : BitVec 5) (b : BitVec 3) (st : State) : Out := alu d (st.core.regs.bar b) st

/-- SQ_WR (14 R301): the reserved bits are ignored. -/
def execSqWr (b : BitVec 3) (a : BitVec 5) (st : State) : Out :=
  if st.core.regs.user then .next (takeTrap .priv false (tvalWord (encode (.sqWr b a))) none st)
  else .next (st.mapRegs (·.setBar b (st.x a &&& ~~~0x3F8#64))).retire

/-- SQ_VQD (14 R301): every older entry has retired. -/
def execSqVqd (st : State) : Out := .next st.dropLends.retire

end Sys2Proof.Machine
end

