-- ==== Sys2Proof/Machine/Capsules.lean ====
section
/-! DEFINITION. Freezing, sealing and the crash capsules (26 R415-R419). -/
namespace Sys2Proof.Machine

/-- KIND of a record (26 R411). -/
def recKind (r : Word × Word) : BitVec 6 := r.2.extractLsb' 58 6
/-- TENANT of a record (26 R411). -/
def recTenant (r : Word × Word) : BitVec 16 := r.2.extractLsb' 42 16

/-- A record that a capsule of tenant `t` does not show whole (26 R418). -/
def stubbed (t : BitVec 16) (r : Word × Word) : Bool :=
  t != 0 && recTenant r != t && recTenant r != 0 && recKind r != 0x0E && recKind r != 0x0D

/-- A STUB entry (26 R418). -/
def stubOf (k : BitVec 6) (n : Nat) : Word × Word := (k ++ 0#26 ++ BitVec.ofNat 32 n, 0xFC00000000000000)

/-- The entries of a ring for tenant `t`: records oldest first, with runs of one kind as STUBs; `run` is the run so far
(26 R418). -/
def stubRuns (t : BitVec 16) : Option (BitVec 6 × Nat) → List (Word × Word) → List (Word × Word)
  | none, [] => []
  | some (k, n), [] => [stubOf k n]
  | none, r :: rs => if stubbed t r then stubRuns t (some (recKind r, 1)) rs else r :: stubRuns t none rs
  | some (k, n), r :: rs =>
    if stubbed t r then
      (if recKind r == k then stubRuns t (some (k, n + 1)) rs else stubOf k n :: stubRuns t (some (recKind r, 1)) rs)
    else stubOf k n :: r :: stubRuns t none rs

/-- A ring section (26 R417). -/
def ringSection (t : BitVec 16) (u : Nat) (g : Ring) : List Byte :=
  let es := stubRuns t none g.recs.reverse
  leBytes 4 u ++ leBytes 4 es.length ++ leBytes 8 g.hibase.toNat ++
    es.flatMap fun r => leBytes 8 r.2.toNat ++ leBytes 8 r.1.toNat

/-- The header of a capsule (26 R417). -/
def capsuleHeader (s : State) (t : BitVec 16) (size : Nat) : List Byte :=
  leBytes 4 0x53504143 ++ leBytes 4 1 ++ leBytes 8 s.recd.capid.toNat ++
    leBytes 4 t.toNat ++ leBytes 1 s.recd.origin ++ leBytes 1 s.recd.fkind.toNat ++ leBytes 2 s.pkg.toNat ++
    leBytes 8 s.recd.fcsn.toNat ++ leBytes 16 0 ++ leBytes 4 147 ++ leBytes 4 s.recd.later.toNat ++ leBytes 8 size ++
    leBytes 64 0

/-- A capsule of tenant `t`. The key of its signature is not known: the 96 bytes are free values of the bytes before them (26 R417;
log 3). -/
def capsuleBytes (s : State) (t : BitVec 16) : List Byte :=
  let sections := (List.range 147).flatMap fun u => ringSection t u (s.ring u)
  let body := capsuleHeader s t (128 + sections.length + 96) ++ sections
  body ++ (List.range 96).map (Config.signatureByte body)

/-- Bytes of retained SRAM (26 R419). -/
def sramBytes : Nat := 16 * 2 ^ 20

/-- One capsule made: stored when it fits, else an entry DROPPED, or nothing when no index entry is free (26 R419). Each takes a
CAPID (log 23). -/
def makeCapsule (s : State) (t : BitVec 16) : State :=
  let bs := capsuleBytes s t
  let used := (s.recd.caps.map fun c => c.bytes.length).foldl (· + ·) 0
  let fits := decide (used + bs.length ≤ sramBytes)
  let c : Capsule := ⟨s.recd.capid, t, bs.length, !fits, if fits then bs else []⟩
  { s with recd := { s.recd with
      capid := s.recd.capid + 1
      caps := if s.recd.caps.length < 64 then s.recd.caps ++ [c] else s.recd.caps } }

/-- Every tenant that has a record in a ring, rising (26 R419). -/
def recordedTenants (s : State) : List Nat :=
  ((List.range 147).flatMap fun u => (s.ring u).recs.map fun r => (recTenant r).toNat).foldl (fun l x => rising x l) []

/-- The tenants of a freeze's capsules, in order (26 R419). -/
def capsuleTenants (s : State) : List (BitVec 16) :=
  let t := s.recd.oten
  let rest := (recordedTenants s).filter fun x => x != 0 && x != t.toNat
  (if t = 0 then [0] else [t, 0]) ++ rest.map (BitVec.ofNat 16)

/-- Every unit has written its FREEZE, the last ones that the wave reaches among them, and SEALING begins (26 R415, R416). -/
def startSealing (s : State) : State :=
  if s.recd.state != .freezing then s else
  let s1 := (List.range 147).foldl freezeUnit s
  { s1 with recd := { s1.recd with state := .sealing, fcsn := s1.csn } }

/-- The capsules are stored or dropped, and every ring accepts records again; after a thermal trip the package enters HOLD
(26 R416, 27 R429). -/
def finishSealing (s : State) : State :=
  if s.recd.state != .sealing then s else
  let s1 := (capsuleTenants s).foldl makeCapsule s
  let s2 := { s1 with recd := { s1.recd with
    state := .armed
    rings := s1.recd.rings.map fun (p : Nat × Ring) => (p.1, { p.2 with frozen := false }) } }
  if s2.power.trip then { s2 with power := { s2.power with svc := 5, dieOn := 0, trip := false } } else s2

/-- FREEZE_COMPLETE (26 R416). -/
def execFreezeComplete (st : State) : Out := .next (startSealing st)
/-- SEALING_COMPLETE (26 R416, R419; 27 R429). -/
def execSealingComplete (st : State) : Out := .next (finishSealing st)

end Sys2Proof.Machine
end

