-- ==== Sys2Proof/Machine/Engines.lean ====
section
/-! DEFINITION. What copy engines, foragers and collective engines share: their registers, their accesses in VA space and in
local space, how what they write lands, and how a word ends (05 R97-R113; 06 R119-R130). -/
namespace Sys2Proof.Machine

/-- What an engine's accesses are translated under (05 R97). -/
def Engine.xl (g : Engine) : Xl := ⟨g.ten, g.asid, g.ptb, !g.sup⟩
/-- Register `i` of an engine. -/
def Engine.reg (g : Engine) (i : BitVec 4) : Word := g.r.get ⟨i.toNat, i.isLt⟩
/-- The engine with register `i` written. -/
def Engine.setReg (g : Engine) (i : BitVec 4) (v : Word) : Engine := { g with r := g.r.set i.toNat v i.isLt }

/-- Why a word of an engine does not complete: an error with its code and address (05 R110), or a wait. -/
inductive EStop where
  | fail (code : BitVec 8) (addr : Word)
  | hold
  deriving DecidableEq, Repr

/-- The body of a word of an engine. -/
abbrev EM := EStateM EStop State

/-- Stops with an error. -/
def engError {α : Type} (code : BitVec 8) (addr : Word) : EM α := throw (.fail code addr)
/-- Stops with an error unless the condition holds. -/
def engEnsure (b : Bool) (code : BitVec 8) (addr : Word) : EM Unit := if b then pure () else engError code addr
/-- An operation of the memory system, which can only hold the engine up (27 R425). -/
def engM {α : Type} (m : M α) : EM α := fun s =>
  match m s with
  | .ok a s' => .ok a s'
  | .error _ s' => .error .hold s'

/-- Ends a word: the program counter the body gives, the engine's failure, or another attempt later. -/
def runEng (m : EM Word) (s : State) : Out :=
  match m s with
  | .ok t s' => .next (s'.mapEngine s'.eng fun g => { g with pc := t })
  | .error (.fail c a) s' => .next (engineFail s'.eng c a s')
  | .error .hold s' => .next s'

/-- The engine whose word is executed. -/
def engine : EM Engine := do let s ← get; return s.engine s.eng
/-- Changes the engine whose word is executed. -/
def modEngine (f : Engine → Engine) : EM Unit := modify fun s => s.mapEngine s.eng f

/-! ### Addresses (05 R101, R102; 06 R119) -/

/-- A window offset that an engine reaches: scratchpad, or a register opened for it (04 R73, 05 R101). -/
def Engine.reaches (g : Engine) (o : Nat) : Bool :=
  decide (o < 0x300000) ||
  (decide (0x400000 ≤ o) && decide (o < 0x460000) && match winReg o with
    | some (k, n) => if k = 0 then g.openV.getLsbD n else if k = 1 then g.openM.getLsbD n else g.openT.getLsbD n
    | none => false)

/-- The first of `n` offsets that the engine does not reach. -/
def Engine.beyond (g : Engine) (o n : Nat) : Option Nat := (List.range n).find? fun i => !g.reaches (o + i)

/-- Physical address of a core's window (04 R70). -/
def windowBase (n : Nat) : Nat := 2 * 2 ^ 48 + dieOf n * 2 ^ 32 + n % 48 * 0x800000

/-- Error code of a page check that fails: TEXT for a data access to a text page (05 R110). -/
def pageCode (s : State) (x : Xl) (k : Acc) (va : Word) : BitVec 8 :=
  let plain : BitVec 8 := if k == .store then 0x04 else 0x03
  match walk s x va with
  | .leaf _ _ pte => if canonical va && (pte.getLsbD 6 || !x.user) && pte.getLsbD 5 then 0x05 else plain
  | _ => plain

/-- What keeps engine `e` from a piece: code and address (04 R73, 05 R102, 06 R119). A collective engine makes no remote
access; for one the error is that of a page (log 21). DESIGN CHOICE -/
def pieceError (s : State) (e : BitVec 2) (k : Acc) (p : Piece) : Option (BitVec 8 × Word) :=
  match p.place with
  | .mem => if p.device then some (0x08, p.va) else none
  | .remote =>
    if p.device then some (0x08, p.va)
    else if e = 2 then some (0x0D, p.va)
    else if e = 3 then some (if k == .store then 0x04 else 0x03, p.va)
    else none
  | .dev .. => some (0x08, p.va)
  | .sp .. => none
  | .reg c o =>
    if c != s.cur then some (0x06, p.va)
    else ((s.engine e).beyond o p.n).map fun i => (0x06, p.va + BitVec.ofNat 64 i)
  | .fe .. | .ctl .. => some (0x06, p.va)

/-- Path class of an engine (14 R289). -/
def pathOf (e : BitVec 2) : Nat := if e = 2 then 2 else if e = 3 then 3 else 1

/-- The translation of an access of an engine. An entry in a poisoned line is poisoned data that the engine reads: POISON, at the first byte
of the page that it was to translate (05 R110, 17 R356; log 18). DEDUCED -/
def engXl (x : Xl) (k : Acc) (addr : Word) (n : Nat) : EM (Except (Cause × Word) (List Piece)) := fun s =>
  match xlAccess x k addr n s with
  | .ok a s' => .ok a s'
  | .error (.trap ..) s' =>
    let va := match xlPage x k addr s with
      | .ok (.ok t) _ => addr + BitVec.ofNat 64 (t.va + t.size - vaBits addr)
      | _ => addr
    .error (.fail 0x0A va) s'
  | .error _ s' => .error .hold s'

/-- The pieces of an access of engine `e` for context `ctxid`, checked: translated, or local. A fence that waits and names the engine
in its clsB holds it up first (14 R292 step 5). Both pages of an access are translated before either is looked at for DEVICE or WINDOW
(log 77). DESIGN CHOICE -/
def engPlan (e : BitVec 2) (ctxid : Word) (x : Xl) (k : Acc) (loc : Bool) (addr : Word) (n : Nat) : EM (List Piece) := do
  let s ← get
  if s.fenced (pathOf e) s.cur ctxid then throw .hold
  if loc then
    match (s.engine e).beyond addr.toNat n with
    | some i => engError 0x06 (addr + BitVec.ofNat 64 i)
    | none => return [⟨addr, windowBase s.cur + addr.toNat, n, ⟨0, 0, 0, 0, 0, 0⟩⟩]
  else
    match ← engXl x k addr n with
    | .error (_, va) => engError (pageCode (← get) x k va) va
    | .ok ps =>
      match ps.findSome? (pieceError s e k) with
      | some (c, va) => engError c va
      | none => engM (needHbm ps); return ps

/-! ### Reads -/

/-- The first poisoned byte of pieces (17 R356, 05 R110). -/
def poisonAt (s : State) (ps : List Piece) : Option Word :=
  (ps.filter (·.place == .mem)).findSome? fun p =>
    ((linesOf p.pa p.n).find? fun l => s.poisoned (64 * l)).map fun l => p.va + BitVec.ofNat 64 (64 * l - p.pa)

/-- The gets that remote pieces need: address and bytes (25 R398). -/
def getsOf (ps : List Piece) : List (Nat × Nat) := (ps.filter (·.place == .remote)).flatMap fun p => remoteParts p.pa p.n

/-- ORD of a remote access of engine `e` behind those that come before it to the same byte: the engine's own writes that are out, and those of
the core that were out when it forked the run (05 R107, R109; 14 R293; log 97). -/
def engOrd (e : BitVec 2) (s : State) (p : Piece) : Bool :=
  let g := s.engine e
  ordOver (g.out ++ s.core.out.filter fun r => decide (r.tag < g.since)) p.pa p.n

/-- The answers of the gets, once all have come; until then the engine waits, after it has sent them (05 R109). -/
def engGets (e : BitVec 2) (ps : List Piece) : EM (List Byte) := do
  let s ← get
  let rs := (s.engine e).out.filter fun r => !r.put
  if rs.map (fun r => (r.addr, r.n)) == getsOf ps then
    if rs.any (·.reply.isNone) then throw .hold
    modify fun s => s.mapEngine e fun g => { g with out := g.puts }
    return rs.flatMap fun r => (r.reply.getD []).take r.n
  else
    modify fun s => s.mapEngine e fun g => { g with out := g.puts }
    modify fun s => (ps.filter (·.place == .remote)).foldl (fun s p =>
      let (s1, rs) := sendReads (engOrd e s p) p s
      s1.mapEngine e fun g => { g with out := g.out ++ rs }) s
    throw .hold

/-- The bytes of pieces, remote ones from the answers. -/
def gather (s : State) : List Piece → List Byte → List Byte
  | [], _ => []
  | p :: r, bs =>
    if p.place == .remote then bs.take p.n ++ gather s r (bs.drop p.n) else directRead s p ++ gather s r bs

/-- A read of engine `e` (05 R101, R107, R110). Gets that are out for a page which is remote no more go unanswered, so that no later read
takes what they bring. -/
def engRead (e : BitVec 2) (ctxid : Word) (x : Xl) (loc : Bool) (addr : Word) (n : Nat) : EM (List Byte) := do
  let ps ← engPlan e ctxid x .load loc addr n
  match poisonAt (← get) ps with
  | some va => engError 0x0A va
  | none => pure ()
  let bs ← if (getsOf ps).isEmpty then do modify (·.mapEngine e fun g => { g with out := g.puts }); pure [] else engGets e ps
  return gather (← get) ps bs

/-! ### Writes -/

/-- Bytes that an engine writes to a scratchpad: undo images give way, and each granule touched becomes full, at every step of a
transfer (04 R74, R80; 05 R108; log 56). DEDUCED -/
def Core.landScratch (c : Core) (o : Nat) (bs : List Byte) : Core :=
  { c.finalScratch o bs with
    fe := if bs.isEmpty then c.fe
      else
        let k := (o + bs.length - 1) / 16 - o / 16 + 1
        setField c.fe (o / 16) k (2 ^ k - 1) }

/-- Group `g` of a register is covered whole (05 R100). -/
def covered (v : BitVec 2048) (g : Nat) : Bool := getField v (64 * g) 64 == 2 ^ 64 - 1

/-- The state fields of the registers named set to dirty, by kind: v, m and t (17 R348). -/
def Regs.landed (r : Regs) (rs : List (Nat × Nat)) : Regs := r.dirty (rs.any (·.1 == 0)) (rs.any (·.1 == 1)) (rs.any (·.1 == 2))

/-- Bytes that an engine writes to open registers: the groups they complete become present (05 R100, R108), and the state they belong to
is dirty, off or not (17 R348; log 57), also after a squash, which does not undo them (14 R287). DEDUCED -/
def Core.landRegs (c : Core) (o : Nat) (bs : List Byte) : Core :=
  let touched := (List.range bs.length).filterMap fun i =>
    if o + i < 0x410000 then some ((o + i - 0x400000) / 0x800, (o + i - 0x400000) % 0x800) else none
  let cover := touched.foldl (fun v p => vecMod v p.1 (setField · p.2 1 1)) c.cover
  { c with
    regs := (bs.zipIdx.foldl (fun r b => winPut r (o + b.2) b.1) c.regs).landed (winRegs o bs.length)
    chunk := c.chunk.map fun ch => { ch with start := ch.start.landed (winRegs o bs.length) }
    cover := cover
    pres := touched.foldl (fun v p =>
      if covered (cover.toList.getD p.1 0) (p.2 / 64) then vecMod v p.1 (setField · (p.2 / 64) 1 1) else v) c.pres }

/-- A piece of an engine's write lands (05 R108, R109). -/
def engLand (e : BitVec 2) (ctxid : Word) (s : State) (p : Piece) (bs : List Byte) : State :=
  match p.place with
  | .sp c o => s.setCoreAt c ((s.coreAt c).landScratch o bs)
  | .reg _ o => s.mapCore (·.landRegs o bs)
  | .remote =>
    let (s1, rs) := sendWrites (engOrd e s p) p bs s
    s1.mapEngine e fun g => { g with out := g.out ++ rs }
  | _ => outsideWrite (pathOf e) s.cur ctxid p.pa bs s

/-- A write of engine `e`: one step, which lands whole (05 R105, R108). -/
def engWrite (e : BitVec 2) (ctxid : Word) (x : Xl) (loc : Bool) (addr : Word) (bs : List Byte) : EM Unit := do
  let ps ← engPlan e ctxid x .store loc addr bs.length
  modify fun s => (splitBytes ps bs).foldl (fun s p => engLand e ctxid s p.1 p.2) s

/-- A read of the engine whose word is executed. -/
def eRead (loc : Bool) (addr : Word) (n : Nat) : EM (List Byte) := do
  let s ← get
  engRead s.eng s.core.slot.ctxid (s.engine s.eng).xl loc addr n
/-- A write of the engine whose word is executed. -/
def eWrite (loc : Bool) (addr : Word) (bs : List Byte) : EM Unit := do
  let s ← get
  engWrite s.eng s.core.slot.ctxid (s.engine s.eng).xl loc addr bs

/-! ### Words that copy engines and foragers have alike (05 R106; 06 R126-R128) -/

/-- The next word. -/
def Engine.nextPc (g : Engine) : Word := g.pc + 4

/-- d := f(a, b). -/
def engOp (f : Word → Word → Word) (d a b : BitVec 4) : EM Word := do
  modEngine fun g => g.setReg d (f (g.reg a) (g.reg b))
  return (← engine).nextPc

/-- d := f(a). -/
def engUnary (f : Word → Word) (d a : BitVec 4) : EM Word := engOp (fun x _ => f x) d a a

/-- The branch when the test holds (05 R103, R106). -/
def engBranch (f : Word → Word → Bool) (a b : BitVec 4) (o : BitVec 15) : EM Word := do
  let g ← engine
  return if f (g.reg a) (g.reg b) then g.pc + (o.signExtend 64 <<< 2) else g.nextPc

/-- The drain: it waits while a put of the engine is not acknowledged (05 R106, R109). -/
def engDrain : EM Word := do
  let g ← engine
  if g.out.any (·.put) then throw .hold
  return g.nextPc

/-- The engine stops in ENDED; its program counter stays (05 R98, R106). -/
def engEnd : EM Word := do
  modify fun s => (recordEngine s.eng 0 1 s).mapEngine s.eng fun g => { g with run := .ended }
  return (← engine).pc

/-- The engine stops in FAILED with code USER (05 R106, R110). -/
def engUser (i : BitVec 14) : EM Word := engError 0x0B (i.setWidth 64)

/-- The shift distance of a register operand (05 R106). -/
def shift6 (b : Word) : Nat := b.toNat % 64
/-- 1 when the condition holds, else 0. -/
def bitWord (b : Bool) : Word := if b then 1 else 0

end Sys2Proof.Machine
end

