-- ==== Sys2Proof/Machine/EngineControl.lean ====
section
/-! DEFINITION. The core's commands to its engines: major CE (05 R91-R100, 14 R291-R292), and how the runs of the collective engine
stand (25 R402-R404). -/
namespace Sys2Proof.Machine

/-- The chunk that a CE instruction executes as (05 R96). -/
def ceChunk : M Unit := do
  endChunkM 2
  singleM 2 []

/-- Engine number of a handle that is current; the others trap BAD-HANDLE (05 R92). -/
def current (h : Word) : M (BitVec 2) := do
  let e : BitVec 2 := h.extractLsb' 0 2
  let g := (← get).engine e
  ensure (h.extractLsb' 32 32 == 0 && h.extractLsb' 2 6 == 0 && g.serial == h.extractLsb' 8 24 && g.serial != 0) .badHandle h
  return e

/-- A new run of an engine may start (05 R93). -/
def RunState.idle? (r : RunState) : Bool := r == .idle || r == .joined || r == .joinedFailed
/-- The run has failed. -/
def RunState.failed? (r : RunState) : Bool := r == .failed || r == .joinedFailed

/-- The next serial of an engine (05 R92). -/
def nextSerial (n : BitVec 24) : BitVec 24 := if n = 0xFFFFFF then 1 else n + 1

/-- CE.FORK (05 R97). -/
def forkBody (d a b : BitVec 5) (e : BitVec 2) : M Unit := do
  let st ← get
  let entry := st.x a
  ensure (entry.extractLsb' 0 2 == 0) .align entry
  ensure (st.engine e).run.idle? .badHandle (e.setWidth 64)
  ceChunk
  let s ← get
  let r := s.core.regs
  modify fun s => s.mapEngine e fun g => { g with
    serial := nextSerial g.serial, run := .running, pc := entry, err := 0, part := 0, out := g.puts
    r := Vector.ofFn fun k => if k.val < 4 then st.x (b + BitVec.ofNat 5 k.val) else 0
    ten := r.ten, asid := r.asid, ptb := r.ptb, sup := !r.user, since := s.nextTag }
  modify (recordEngine e 0 0)
  putX d (((← get).engine e).handle e)

/-- CE_FORK (05 R97). -/
def execCeFork (d a b : BitVec 5) (e : BitVec 3) (st : State) : Out := run (forkBody d a b (e.setWidth 2)) st

/-- The wait of CE.REND and CE.ERD: the engine leaves RUNNING, and its puts are acknowledged (05 R98, R109). -/
def ceWait (e : BitVec 2) : M Unit := do
  let g := (← get).engine e
  if g.run == .running || g.out.any (·.put) then
    endChunkM 2
    await (.rend e)

/-- Every register opened for the engine is closed (05 R98, R99). -/
def closeAll (e : BitVec 2) (s : State) : State :=
  let v := (s.engine e).openV
  (s.mapCore fun c => { c with
    pres := Vector.ofFn fun i => if v.getLsbD i.val then BitVec.allOnes 32 else c.pres.get i }).mapEngine e fun g =>
      { g with openV := 0, openM := 0, openT := 0 }

/-- The JOIN of a run, recorded once (05 R93, 26 R413). -/
def joinEngine (e : BitVec 2) (s : State) : State :=
  let run := (s.engine e).run
  if run == .joined || run == .joinedFailed then s
  else (recordEngine e 0 3 s).mapEngine e fun g => { g with run := if run.failed? then .joinedFailed else .joined }

/-- CE.REND up to its end: the engine's run, which is joined when the instruction retires or traps (05 R98). -/
def rendBody (d a : BitVec 5) : M (BitVec 2) := do
  let e ← current (← getX a)
  ceWait e
  ceChunk
  modify (closeAll e)
  let g := (← get).engine e
  if !g.run.failed? then putX d (g.reg 0)
  return e

/-- CE_REND (05 R98): for a run that has failed the JOIN record follows those of the trap (26 R413). -/
def execCeRend (d a : BitVec 5) (st : State) : Out :=
  match rendBody d a st with
  | .ok e s =>
    if (s.engine e).run.failed? then .next (joinEngine e (takeTrap .engine false (s.engine e).err none s))
    else .next (joinEngine e s).retire
  | .error (.trap c v) s => .next (takeTrap c false v none s)
  | .error (.wait w) s => .next (s.waiting w)
  | .error .cut s => .next (takePreempt s)

/-- What CE.TEST writes (05 R98). IDLE, which only a save area gives an engine with a current handle, counts as ENDED, here, for CE.REND and
for CE.ERD (log 104). DESIGN CHOICE -/
def testValue (r : RunState) : Word := if r == .running then 0 else if r.failed? then 2 else 1

/-- CE.TEST (05 R98). -/
def testEngine (d a : BitVec 5) : M Unit := do
  let e ← current (← getX a)
  ceChunk
  putX d (testValue ((← get).engine e).run)

/-- CE_TEST (05 R98). -/
def execCeTest (d a : BitVec 5) (st : State) : Out := run (testEngine d a) st

/-- CE.ERD (05 R98). -/
def erdBody (d a sel : BitVec 5) : M Unit := do
  let e ← current (← getX a)
  ceWait e
  ceChunk
  let g := (← get).engine e
  putX d (if sel = 16 then g.pc else if sel = 17 then g.err else g.reg (sel.setWidth 4))

/-- CE_ERD (05 R98). -/
def execCeErd (d a s : BitVec 5) (st : State) : Out := run (erdBody d a s) st

/-- The state that a kind of register belongs to is on, or VUSE or TUSE (05 R99). -/
def needKind (k : Nat) (w : Word) : M Unit := needState (k == 0) (k == 1) (k == 2) w

/-- The set of open registers of a kind with one of them opened or closed. -/
def Engine.mark (g : Engine) (k n : Nat) (b : Bool) : Engine :=
  if k = 0 then { g with openV := setField g.openV n 1 b.toNat }
  else if k = 1 then { g with openM := setField g.openM n 1 b.toNat }
  else { g with openT := setField g.openT n 1 b.toNat }

/-- The register is open for the engine. -/
def Engine.holds (g : Engine) (k n : Nat) : Bool :=
  if k = 0 then g.openV.getLsbD n else if k = 1 then g.openM.getLsbD n else g.openT.getLsbD n

/-- A vector register opened for an engine: no bit of it is present, and a load that stopped inside tells of it no more (05 R99, 07 R142;
log 68). DEDUCED -/
def Core.openReg (c : Core) (n : Nat) : Core :=
  { c with
    pres := vecMod c.pres n fun _ => 0
    cover := vecMod c.cover n fun _ => 0
    halt := c.halt.map fun h => { h with regs := setField h.regs n 1 0 } }

/-- CE.OPEN (05 R99, 07 R143). -/
def openBody (w : Word) (n k : Nat) (e : BitVec 2) : M Unit := do
  needKind k w
  ensure (!(← get).core.isOpen k n) .badHandle (BitVec.ofNat 64 (regOffset k n))
  ceChunk
  modRegs (·.dirty (k == 0) (k == 1) (k == 2))
  modify fun s => s.mapEngine e (·.mark k n true)
  if k = 0 then
    modCore (·.openReg n)
    modRegs fun r => { r with z := vecMod r.z n fun _ => 0 }

/-- CE_OPEN (05 R99). -/
def execCeOpen (n : BitVec 5) (e : BitVec 3) (k : BitVec 4) (st : State) : Out :=
  run (openBody ((wordCeOpen n e k).setWidth 64) n.toNat k.toNat (e.setWidth 2)) st

/-- CE.CLOSE (05 R99). -/
def closeBody (w : Word) (n k : Nat) (e : BitVec 2) : M Unit := do
  needKind k w
  ceChunk
  if ((← get).engine e).holds k n then
    modify fun s => s.mapEngine e (·.mark k n false)
    if k = 0 then modCore fun c => { c with pres := vecMod c.pres n fun _ => BitVec.allOnes 32 }

/-- CE_CLOSE (05 R99). -/
def execCeClose (n : BitVec 5) (e : BitVec 3) (k : BitVec 4) (st : State) : Out :=
  run (closeBody ((wordCeClose n e k).setWidth 64) n.toNat k.toNat (e.setWidth 2)) st

/-! ### CE.FENCEX (14 R291, R292) -/

/-- The engines of a core that belong to a path class (14 R289). -/
def Core.enginesOf (c : Core) (cls : Nat) : List Engine :=
  if cls = 1 then [c.eng.get 0, c.eng.get 1] else if cls = 2 then [c.eng.get 2] else []

/-- A remote access is out that a fence waits for: a read without its answer, and under POD scope a write without its
acknowledgement (14 R292 step 2). -/
def outstanding (pod : Bool) (rs : List Remote) : Bool := rs.any fun r => if r.put then pod else r.reply.isNone

/-- The remote accesses of the sources that a fence of the focused core covers in class `cls` (14 R291, R292). -/
def fenceSources (cls : Nat) (scope : BitVec 3) (s : State) : List Remote :=
  (s.cores.filter fun p => fenceCovers scope s.cur s.core.slot.ctxid cls cls p.1 p.2.slot.ctxid).flatMap fun p =>
    (p.2.enginesOf cls).flatMap (·.out)

/-- The fence of an instruction: the one that waits, or one that begins now. What its sources have issued by then is what it waits for, and
nothing that they issue later (14 R292). -/
def State.fenceOf (s : State) (a b : Nat) (scope : BitVec 3) : Fence :=
  match s.core.wait, s.core.fence with
  | some .fence, some f => f
  | _, _ => ⟨scope, b, (fenceSources a scope s).map (·.tag)⟩

/-- The accesses that a fence waits for have not all been performed: those of its sources that were out when it began, and under POD
scope those of its own core (14 R292 step 2). -/
def fenceWaits (cls : Nat) (f : Fence) (s : State) : Bool :=
  let pod := f.scope == 5
  (pod && !s.core.out.isEmpty) || outstanding pod ((fenceSources cls f.scope s).filter fun r => f.since.elem r.tag)

/-- A chunk has read a line that a covered source of class `cls` has written (14 R292 step 3). -/
def fenceHits (cls : Nat) (scope : BitVec 3) (s : State) (ch : Chunk) : Bool :=
  s.outside.any fun w => fenceCovers scope s.cur s.core.slot.ctxid cls w.cls w.unit w.ctxid &&
    ch.rlines.any fun l => decide (w.line ≤ l) && decide (l < w.line + w.lines)

/-- CE.FENCEX (14 R292): while it waits, the sources of its clsB that it covers begin nothing (step 5). -/
def fencexBody (a b : Nat) (scope : BitVec 3) : M Unit := do
  endChunkM 1
  if a = 0 && b = 0 then
    if scope = 5 then podFence
    singleM 1 []
  else
    let s ← get
    let f := s.fenceOf a b scope
    if fenceWaits a f s then
      modCore fun c => { c with fence := some f }
      await .fence
    if scope = 5 then modify fun s => { s with ord := true }
    singleM 1 []
    modify fun s => (squashOthers 1 s.csn (fun _ _ ch => fenceHits a scope s ch) s).mapCore fun c => { c with fence := none }

/-- CE_FENCEX (14 R291, R292). -/
def execCeFencex (a b : BitVec 5) (c : BitVec 3) (st : State) : Out := run (fencexBody a.toNat b.toNat c) st

/-! ### The runs of the collective engine (25 R402-R404, R408) -/

/-- Width in bytes of an element of a collective (25 R402). -/
def collBytes (fmt : Nat) : Nat := if fmt = 3 || fmt = 4 then 8 else if fmt = 7 then 2 else 4

/-- A collective record is valid (25 R402, R403 step 4). -/
def collOk (bs : List Byte) : Bool :=
  let w (k : Nat) : Word := BitVec.ofNat 64 (leNat ((bs.drop (8 * k)).take 8))
  let ctl := w 3
  let seg := (ctl.extractLsb' 32 16).toNat
  let fmt := (ctl.extractLsb' 0 8).toNat
  let rop := (ctl.extractLsb' 8 3).toNat
  let n := collBytes fmt
  [4, 5, 6, 7].all (fun k => w k == 0) &&
  ctl.extractLsb' 48 16 == 0 && ctl.extractLsb' 24 8 == 0 && ctl.extractLsb' 11 5 == 0 &&
  [64, 128, 256, 512, 1024, 2048, 4096, 8192, 16384, 32768].elem seg &&
  [2, 3, 4, 5, 7].elem fmt && decide (rop ≤ 3) && !((rop == 1 || rop == 2) && fmt == 7) &&
  decide (1 ≤ (w 2).toNat) && decide ((w 2).toNat < 2 ^ 32) && (w 0).toNat % n == 0 && (w 1).toNat % n == 0

/-- The membership entry of a group, if the package is a member of it (25 R404). -/
def State.groupOf (s : State) (g : Nat) : Option Group := s.groups.find? fun k => k.num == g && k.val && k.members.elem s.pkg

/-- The group with one more collective begun. -/
def beginGroup (g : Nat) (s : State) : State :=
  { s with groups := s.groups.map fun k => if k.num == g then { k with begun := k.begun + 1 } else k }

/-- The context's core, wherever it is bound, changed. -/
def State.mapBound (s : State) (ctxid : Word) (f : Core → Core) : State :=
  let one (c : Core) : Core := if c.isBound && c.slot.ctxid == ctxid then f c else c
  { s with core := one s.core, others := s.others.map fun p => (p.1, one p.2) }

/-- An ENGINE record of a collective run, at the core that started it (26 R411, R413). -/
def recordRun (r : CollRun) (code event : BitVec 8) (s : State) : State :=
  record r.core 0x08 (r.ten.setWidth 16) (code ++ event ++ 0#16 ++ (r.serial ++ 3#8)) s

/-- A run stands as given: in the list of runs, and in the engine state of its context while that is bound (25 R403). -/
def State.putRun (s : State) (r : CollRun) : State :=
  let s1 := { s with runs := r :: s.runs.filter (·.ctxid != r.ctxid) }
  s1.mapBound r.ctxid fun c => { c with eng := c.eng.set 3 (engineThree s1 r.ctxid (c.eng.get 3)) }

/-- A run fails with its error word (25 R408). -/
def failRun (r : CollRun) (code : BitVec 8) (addr : BitVec 49) (s : State) : State :=
  recordRun r code 2 (s.putRun { r with run := .failed, result := code ++ 3#2 ++ 0#5 ++ addr })

/-- A run fails for its group: the spec states no address (25 R408; log 3). -/
def failGroup (r : CollRun) (code : BitVec 8) (s : State) : State :=
  failRun r code (Config.errorAddr code.toNat r.serial.toNat) s

end Sys2Proof.Machine
end

