-- ==== Sys2Proof/Machine/Migration.lean ====
section
/-! DEFINITION. The migration engine of a die and its events (03 R62-R66, 26 R413). The die is that of the focused core. -/
namespace Sys2Proof.Machine

/-- The migration engine of a die. -/
def State.migOf (s : State) (d : Nat) : Mig := s.mig.toList.getD d Mig.reset
/-- The state with the migration engine of a die changed. -/
def State.mapMig (s : State) (d : Nat) (f : Mig → Mig) : State := { s with mig := vecMod s.mig d f }

/-- Frame that MIGOLD or MIGNEW names (03 R63). -/
def migFrame (v : Word) : Nat := (v.extractLsb' 16 36).toNat * 0x10000
/-- Size that MIGOLD gives; 0 for the reserved code (03 R63). -/
def migSize (v : Word) : Nat :=
  match (v.extractLsb' 0 2).toNat with
  | 0 => 0x10000
  | 1 => 0x200000
  | 2 => 0x40000000
  | _ => 0

/-- A frame may be copied: backed, aligned, in region 0x0 or 0x1 (03 R63). -/
def frameOk (a size : Nat) : Bool := a % size == 0 && decide (a / 2 ^ 48 ≤ 1) && backed a size

/-- Two frames overlap. -/
def overlapping (a n b k : Nat) : Bool := decide (a < b + k) && decide (b < a + n)

/-- The frames that the operations of a die hold (03 R62, R63). -/
def Mig.held (m : Mig) : List (Nat × Nat) :=
  (if m.state == .copy || m.state == .switch then [(m.opOld, m.opSize), (m.opNew, m.opSize)] else []) ++
  m.redir.flatMap fun r => [(r.1, r.2.2), (r.2.1, r.2.2)]

/-- A frame is held by an operation of any die (03 R62). -/
def State.frameHeld (s : State) (a n : Nat) : Bool :=
  s.mig.toList.any fun m => m.held.any fun f => overlapping a n f.1 f.2

/-- A MIGRATE record of a die's MC (26 R413). -/
def recordMig (d : Nat) (st : BitVec 4) (old : Nat) (s : State) : State :=
  record (144 + d) 0x0B 0 (st ++ 0#20 ++ BitVec.ofNat 40 (old / 4096)) s

/-- The engines accept no command before the package leaves REDUCED (27 R425). -/
def State.migServed (s : State) : Bool := s.hbmServed

/-- MIGRATE or RETIRE (03 R63). -/
def migStart (d : Nat) (retire : Bool) (s : State) : State :=
  let m := s.migOf d
  let size := migSize m.old
  let old := migFrame m.old
  let new := migFrame m.new
  if !s.migServed then s.mapMig d fun m => { m with busy := true }
  else if size = 0 || !frameOk old size || !frameOk new size then s.mapMig d fun m => { m with bad := true }
  else if m.state == .copy || m.state == .switch || s.frameHeld old size || s.frameHeld new size ||
      (old / 2 ^ 48 == 0 && decide (64 ≤ m.redir.length)) then s.mapMig d fun m => { m with busy := true }
  else recordMig d 1 old (s.mapMig d fun m =>
    { m with state := .copy, opOld := old, opNew := new, opSize := size, retire := retire })

/-- SWITCHED (03 R63). The engine of the die that took the command keeps the redirection entry, whichever dies the granules of the
frame are homed on (03 R65; log 58). DESIGN CHOICE -/
def migSwitched (d : Nat) (s : State) : State :=
  let m := s.migOf d
  if !s.migServed then s.mapMig d fun m => { m with busy := true }
  else if m.state != .switch then s.mapMig d fun m => { m with bad := true }
  else if m.opOld / 2 ^ 48 = 0 then
    recordMig d 3 m.opOld (s.mapMig d fun m =>
      { m with state := .redirect, evt := true, redir := m.redir ++ [(m.opOld, m.opNew, m.opSize)] })
  else recordMig d 4 m.opOld (s.mapMig d fun m => { m with state := .done, evt := true })

/-- RELEASE (03 R63, R65). -/
def migRelease (d : Nat) (s : State) : State :=
  let m := s.migOf d
  let old := migFrame m.old
  if !s.migServed then s.mapMig d fun m => { m with busy := true }
  else if m.redir.all (·.1 != old) then s.mapMig d fun m => { m with bad := true }
  else
    let mine := m.state == .redirect && m.opOld == old
    recordMig d 4 old (s.mapMig d fun m =>
      { m with
        redir := m.redir.filter (·.1 != old)
        state := if mine then .done else m.state
        evt := m.evt || mine })

/-- A write to MIGCMD: before the package leaves REDUCED every command is refused as busy (03 R63, 27 R425). -/
def migCommand (d : Nat) (v : Word) (s : State) : State :=
  if !s.migServed then (if !(1 ≤ (v.extractLsb' 0 3).toNat && (v.extractLsb' 0 3).toNat ≤ 4) && v.extractLsb' 3 61 == 0 then s
    else s.mapMig d fun m => { m with busy := true })
  else if v.extractLsb' 3 61 != 0 then s.mapMig d fun m => { m with bad := true } else
  match (v.extractLsb' 0 3).toNat with
  | 1 => migStart d false s
  | 2 => migStart d true s
  | 3 => migSwitched d s
  | 4 => migRelease d s
  | _ => s

/-- The new frame as a copy of the old one, poison and all (03 R62, R66). -/
def copyFrame (d old new size : Nat) (s : State) : State :=
  let clear := s.mem.filter fun c => !(decide (new ≤ c.1) && decide (c.1 < new + size))
  let mem := (s.mem.filter fun c => decide (old ≤ c.1) && decide (c.1 < old + size)).foldl
    (fun m c => memSet m (new + (c.1 - old)) c.2) clear
  let poison := (s.poison.filter fun l => !(decide (new / 64 ≤ l) && decide (l < (new + size) / 64))) ++
    (s.poison.filter fun l => decide (old / 64 ≤ l) && decide (l < (old + size) / 64)).map fun l => new / 64 + (l - old / 64)
  { s with
    mem := mem
    poison := poison
    outside := addOutside ⟨5, d, 0, new / 64, size / 64⟩ s.outside }

/-- Every line of the frame has been copied: the operation enters SWITCH (03 R62, R63). The copy is made here, from the old frame
as every write has left it (log 13). A fence that waits and names the engine in its clsB comes first (14 R292 step 5). -/
def migCopied (d : Nat) (s : State) : State :=
  let m := s.migOf d
  if m.state != .copy || s.fenced 5 d 0 then s else
  let s1 := copyFrame d m.opOld m.opNew m.opSize s
  recordMig d 2 m.opOld (s1.mapMig d fun m => { m with state := .switch, evt := true })

/-- MIGRATE (03 R63). -/
def execMigrate (st : State) : Out := .next (migCommand (dieOf st.cur) 1 st)
/-- RETIRE (03 R63). -/
def execRetire (st : State) : Out := .next (migCommand (dieOf st.cur) 2 st)
/-- SWITCHED (03 R63). -/
def execSwitched (st : State) : Out := .next (migCommand (dieOf st.cur) 3 st)
/-- RELEASE (03 R63). -/
def execRelease (st : State) : Out := .next (migCommand (dieOf st.cur) 4 st)
/-- MIGRATION_COPY_COMPLETE (03 R62). -/
def execMigrationCopyComplete (st : State) : Out := .next (migCopied (dieOf st.cur) st)

end Sys2Proof.Machine
end

