-- ==== Sys2Proof/Machine/Events.lean ====
section
/-! DEFINITION. Events of the slots, of register writes, of the chunks and of waits that end (04 R78; 14 R279-R288, R300; 16 R330,
R331, R334; 17 R340, R360; 00 R6). -/
namespace Sys2Proof.Machine

/-- What happens on another core; the focus returns. -/
def onCore (n : Nat) (f : State → State) (s : State) : State := (f (s.focus n)).focus s.cur

/-! ### Slots -/

/-- FEOP (04 R78): a write to the control page of the focused core. -/
def execFeop (v : Word) (st : State) : Out := .next (st.mapCore (feop · v))
/-- BIND (16 R331, R332). -/
def execBind (st : State) : Out := .next (bindCmd st)
/-- UNBIND (16 R331, R333). -/
def execUnbind (st : State) : Out := .next (unbindCmd st)
/-- BIND_LOAD_COMPLETE (17 R360): it cannot happen while the save area's tier is not served; then a BIND that has waited for it goes
on first (27 R425). -/
def execBindLoadComplete (st : State) : Out :=
  .next (if st.core.slot.area / 2 ^ 48 = 0 && !st.hbmServed then st
    else if st.core.slot.asked then bindCmd st else bindLoad st)
/-- YIELD (16 R334): a supervisor store by the focused core. -/
def execYield (v : Word) (st : State) : Out := .next (yieldWrite (dieOf st.cur) v st)
/-- INTR (17 R340): a write ORs. -/
def execIntr (v : Word) (st : State) : Out := .next (st.mapCore fun c => { c with intr := c.intr ||| v })

/-- A context is in a slot. -/
def inSlot (ctxid : Word) (s : State) : Bool :=
  (s.core :: s.others.map (·.2)).any fun c => c.slot.state != .empty && c.slot.ctxid == ctxid
/-- A release by the page service: a WAITING context is held no longer, and its queue waits from now on unless it is mapped or waits already;
one that has not left its slot yet is RUNNABLE once it has (16 R334, R335). -/
def releaseCtx (ctxid : Word) (s : State) : State :=
  let st : CtxState := if inSlot ctxid s then .bound else .runnable
  refreshPolicy { s with ctxs := s.ctxs.map fun k => if k.ctxid == ctxid && k.state == .waiting then { k with state := st } else k }
/-- PAGE_SERVICE_RELEASE (16 R334). -/
def execPageServiceRelease (ctxid : Word) (st : State) : Out := .next (releaseCtx ctxid st)

/-! ### Register writes by management cores (03 R63, R430; 14 R298; 16 R328, R330; 17 R340, R341) -/

/-- A write to the lower doubleword of the focused core's slot (16 R330). -/
def slotLow (v : Word) (s : State) : State :=
  if s.core.slot.state == .empty then s.mapCore fun c => { c with slot := { c.slot with ctxid := v } } else s
/-- A write to the upper doubleword of the focused core's slot: fields, then CMD (16 R330). -/
def slotHigh (v : Word) (s : State) : State :=
  let s1 := if s.core.slot.state == .empty then
      s.mapCore fun c => { c with slot := { c.slot with
        savepa := v.extractLsb' 24 40, queue := v.extractLsb' 14 10, prio := v.extractLsb' 11 3 } }
    else s
  match (v.extractLsb' 6 2).toNat with
  | 1 => bindCmd s1
  | 2 => unbindCmd s1
  | _ => s1

/-- The list of owner entries with one written; an entry of 0 is not listed (14 R298). -/
def putOwner (k : Nat) (v : Word) (l : List (Nat × Word)) : List (Nat × Word) :=
  if v = 0 then l.filter (·.1 != k) else keyPut l k v

/-- The queue descriptors with one written; one at its reset value is not listed (16 R328). -/
def putQueue (q : Nat) (d : Queue) (s : State) : State :=
  { s with queues := if d = Queue.reset then s.queues.filter (·.1 != q) else keyPut s.queues q d }

/-- A doubleword of a queue descriptor written (16 R328). -/
def queueWrite (q : Nat) (hi : Nat) (v : Word) (s : State) : State :=
  putQueue q (queueOf (setField (queueBits (keyGet s.queues q Queue.reset)) (64 * hi) 64 v.toNat)) s

/-- A doubleword that a management core writes to die `d`'s device block (03 R430). -/
def mcWrite (d o : Nat) (v : Word) (s : State) : State :=
  if o % 8 ≠ 0 then s
  else if 0x100000 ≤ o && o < 0x100300 then
    onCore (48 * d + (o - 0x100000) / 16) (if o / 8 % 2 = 0 then slotLow v else slotHigh v) s
  else if o = 0x100400 then
    { s with slotst := vecMod s.slotst d fun t => { t with refused := t.refused && !v.getLsbD 0 } }
  else if 0x100800 ≤ o && o < 0x100980 then
    onCore (48 * d + (o - 0x100800) / 8) (·.mapCore fun c => { c with intr := c.intr ||| v }) s
  else if 0x100C00 ≤ o && o < 0x100D80 then
    onCore (48 * d + (o - 0x100C00) / 8) (·.mapCore fun c => { c with supvec := v &&& ~~~3#64 }) s
  else if o = 0x101000 then s.mapMig d fun m => { m with old := v &&& 0x000FFFFFFFFF0003 }
  else if o = 0x101008 then s.mapMig d fun m => { m with new := v &&& 0x000FFFFFFFFF0000 }
  else if o = 0x101010 then migCommand d v s
  else if o = 0x101018 then s.mapMig d fun m =>
    { m with busy := m.busy && !v.getLsbD 2, bad := m.bad && !v.getLsbD 1, evt := m.evt && !v.getLsbD 0 }
  else if ownerOffset d o then
    { s with owners := putOwner (devKey d o) (v &&& 0x800000000000FFFF) s.owners }
  else if d = 0 && 0x200000 ≤ o && o < 0x204000 then queueWrite ((o - 0x200000) / 16) (o / 8 % 2) v s
  else s

/-- REGISTER_WRITE (00 R6): a register takes what its access codes let it take; a user-mode write of one with code SU traps PRIV. A physical address in no device block names no
register. -/
def execRegisterWrite (loc : RegLoc) (v : Word) (st : State) : Out :=
  match loc with
  | .sys n => runEvent (sysEvent n.toNat v) st
  | .dev pa =>
    match placeOf pa.toNat with
    | .dev d o => if backed pa.toNat 8 then .next (mcWrite d o v st) else .fault (.unbacked pa.toNat)
    | _ => .fault (.unbacked pa.toNat)
  | .ctl off => .next (if off.toNat % 8 = 0 then st.mapCore (ctlWrite · off.toNat v) else st)

/-! ### Chunks (14 R279-R288) -/

/-- The current chunk ends, if no reserved chunk holds its commit up. -/
def endNow (reason : BitVec 4) (s : State) : State := (endChunk reason s).getD s

/-- CHUNK_COMMIT (14 R284). -/
def execChunkCommit (reason : BitVec 4) (st : State) : Out := .next (endNow reason st)
/-- CHUNK_BUDGET_EXHAUSTED (14 R279): the chunk has CHB.BUDGET instructions. -/
def execChunkBudgetExhausted (st : State) : Out :=
  .next (if (st.core.regs.chb.extractLsb' 0 17).toNat ≤ st.core.chunkOr.count then endNow 5 st else st)
/-- WRITE_SET_LIMIT (14 R279, R281): the write set holds 4,096 lines. -/
def execWriteSetLimit (st : State) : Out := .next (if 4096 ≤ st.core.chunkOr.lines then endNow 4 st else st)

/-- The focused core is the next of its die to be granted a reservation, and no core of the die holds one (14 R288). -/
def grantNext (s : State) : Bool :=
  let die := s.grants.filter fun n => dieOf n == dieOf s.cur
  die.head? == some s.cur && !s.core.reserved && die.all fun n => !(s.coreAt n).reserved

/-- The reservation is granted: the chunk follows in the package-wide order those granted before it (14 R288). -/
def grantCur (s : State) : State :=
  let held := s.grants.filter fun n => (s.coreAt n).reserved
  let rest := s.grants.filter fun n => !(s.coreAt n).reserved && n != s.cur
  { s with
    grants := held ++ [s.cur] ++ rest
    core := { s.core with reserved := true, wait := s.core.goesOn, prog := .retired } }

/-- RESERVATION_GRANT (14 R288). -/
def execReservationGrant (st : State) : Out := .next (if grantNext st then grantCur st else st)

/-! ### Waits that end: the instruction at the program counter proceeds when the core runs next -/

/-- The core waits no longer. -/
def released (s : State) : State := s.mapCore fun c => { c with wait := c.goesOn }

/-- FULL_EMPTY_RELEASE (04 R81): the bit of the granule is full. -/
def execFullEmptyRelease (st : State) : Out :=
  .next (match st.core.wait with
    | some (.fullEmpty g) => if st.core.fe.getLsbD g then released st else st
    | _ => st)

/-- BARRIER_RELEASE (14 R300): the generation has advanced. -/
def execBarrierRelease (st : State) : Out :=
  .next (match st.core.wait with
    | some (.barrier b) =>
      let v := st.core.regs.bar b
      if barPend v && (st.barOf v).gen == barGen v then st else released st
    | _ => st)

/-- The engine that CE.REND or CE.ERD names has left RUNNING and its puts are acknowledged (05 R98, R109). -/
def engineDone (e : BitVec 2) (s : State) : Bool := (s.engine e).run != .running && !(s.engine e).out.any (·.put)

/-- REND_RELEASE (05 R98). -/
def execRendRelease (st : State) : Out :=
  .next (match st.core.wait with
    | some (.rend e) => if engineDone e st then released st else st
    | _ => st)

/-- ENGINE_DRAIN_COMPLETE (05 R109): the puts of engine `e` are acknowledged, and a rendezvous that waits for the drain alone
proceeds. A DRAIN word of the engine completes when the engine moves next. -/
def execEngineDrainComplete (e : BitVec 2) (st : State) : Out :=
  .next (if st.core.wait == some (.rend e) && engineDone e st then released st else st)

/-- RQ_RESULT (15 R305): results stand in the registers at once, so no scalar reader waits for the read queue (log 22). -/
def execRqResult (st : State) : Out := .next st

end Sys2Proof.Machine
end

