-- ==== Sys2Proof/Machine/Power.lean ====
section
/-! DEFINITION. Resets, bring-up, power and temperature, and the debug freeze (27 R422-R429, 26 R421). -/
namespace Sys2Proof.Machine

/-! ### Resets (27 R422) -/

/-- The package after a cold reset: nothing is kept. What stands outside the package goes on: its endpoint id and the rights of the
pod's configuration, the messages on the fabric, and the model's own inputs (log 1, log 12). -/
def coldReset (s : State) : State :=
  { State.reset with
    pkg := s.pkg, denied := s.denied, outbox := s.outbox, nextTag := s.nextTag, agenda := s.agenda, oracle := s.oracle }

/-- What a warm reset keeps of a core: CSN, whose reset is "kept" (14 R286, 00 R6), the marks of failed lanes, and CYCLE, which counts from
the cold reset (17 R344, R355; 27 R422). -/
def Core.marksOnly (c : Core) : Core := { Core.reset with csn := c.csn, lane := c.lane, lost := c.lost, cycle := c.cycle }
/-- A core of which a warm reset keeps nothing. -/
def Core.unmarked (c : Core) : Bool := c.lane.toList.all (·.isNone) && !c.lost && c.cycle == 0 && c.csn == 0

/-- The package after a warm reset: CSN, CTXID counter, rings, capsules and failed-lane marks stay (27 R422, 26 R416). A package
in HOLD takes a cold reset alone (27 R423). -/
def warmReset (s : State) : State :=
  if s.power.svc = 5 || s.power.svc = 0 then s else
  { coldReset s with
    cur := s.cur
    core := s.core.marksOnly
    others := (s.others.filter fun p => !p.2.unmarked).map fun p => (p.1, p.2.marksOnly)
    csn := s.csn, nextCtx := s.nextCtx, recd := s.recd }

/-- COLD_RESET (27 R422). -/
def execColdReset (st : State) : Out := .next (coldReset st)
/-- WARM_RESET (27 R422). -/
def execWarmReset (st : State) : Out := .next (warmReset st)
/-- FABRIC_COMMANDED_RESET (27 R422). -/
def execFabricCommandedReset (st : State) : Out := .next (warmReset st)
/-- POWER_LOSS (26 R419): nothing is kept, and nothing runs until power returns with a cold reset. SVC 0 stands for a package
without power: the model's own code. -/
def execPowerLoss (st : State) : Out :=
  .next { coldReset st with power := { Power.reset with svc := 0 } }

/-! ### Bring-up (27 R423, R424) -/

/-- REDUCED is left when every stack has finished training, and none has failed (27 R423, R424). -/
def leaveReduced (p : Power) : Power := if p.svc = 2 && p.trained = 0xFFF && p.hbmFail = 0 then { p with svc := 3 } else p

/-- The owner entries of one kind that the firmware writes at boot, `n` from offset `o` of die `d` (14 R298). -/
def bootEntries (d o n : Nat) (ten : Nat → BitVec 16) : List (Nat × Word) :=
  (List.range n).map fun i => (devKey d (o + 8 * i), 1#1 ++ 0#47 ++ ten (o + 8 * i))

/-- The owner entries after the boot of the shipped firmware: VAL = 1 in each; a QUAD or DIE barrier belongs to no tenant's group yet,
and TENANT is 0 there until a bind chooses the home (log 76). DESIGN CHOICE. The others are as the pod is configured (14 R298; log 3). -/
def bootOwners : List (Nat × Word) :=
  (List.range 3).flatMap fun d =>
    bootEntries d 0x102000 192 (fun _ => 0) ++ bootEntries d 0x102800 64 (fun _ => 0) ++
    (if d = 0 then bootEntries 0 0x103000 256 Config.barrierTenant ++ bootEntries 0 0x104000 1024 Config.barrierTenant else [])

/-- MC_BOOT_COMPLETE (27 R423, R424): an interrupted freeze and sealing is completed first, which may end in HOLD (27 R429); then die
0's first quad starts, and the firmware has its barrier owners in place. -/
def execMcBootComplete (st : State) : Out :=
  .next (if st.power.svc = 1 then
    let s1 := finishSealing (startSealing st)
    if s1.power.svc = 1 then
      { s1 with
        owners := bootOwners
        power := leaveReduced { s1.power with svc := 2, dieOn := 1, quads := s1.power.quads.set 0 1 } }
    else s1
  else st)

/-- HBM_TRAINING_COMPLETE (27 R424): a stack that fails keeps the package in REDUCED. -/
def execHbmTrainingComplete (stack : BitVec 4) (ok : Bool) (st : State) : Out :=
  let p := st.power
  .next (if 12 ≤ stack.toNat || 2 < p.svc.toNat || p.svc = 0 then st
    else if ok && !p.hbmFail.getLsbD stack.toNat then
      { st with power := leaveReduced { p with trained := p.trained ||| (1#12 <<< stack.toNat) } }
    else { st with power := { p with
      hbmFail := p.hbmFail ||| (1#12 <<< stack.toNat), trained := p.trained &&& ~~~(1#12 <<< stack.toNat) } })

/-- Quads of a die that have started. -/
def Power.started (p : Power) (d : Nat) : Nat := p.quads.toList.getD d 0

/-- A die may start its next quad (27 R424). -/
def quadMay (p : Power) (d : Nat) : Bool :=
  decide (p.started d < 12) &&
  (match d with
    | 0 => p.svc == 2 || p.svc == 3 || p.svc == 4
    | 1 => p.svc == 3
    | 2 => p.svc == 3 && p.started 1 == 12
    | _ => false)

/-- QUAD_START (27 R424): FULL follows die 2's last quad. -/
def execQuadStart (die : BitVec 2) (st : State) : Out :=
  let d := die.toNat
  .next (if quadMay st.power d then
    let p := { st.power with
      quads := vecMod st.power.quads d (· + 1)
      dieOn := st.power.dieOn ||| (1#3 <<< d) }
    { st with power := { p with svc := if p.started 2 = 12 then 4 else p.svc } }
  else st)

/-! ### Power and temperature (27 R428, R429) -/

/-- The throttle level that the MC chooses after a window of 1 ms, and the count of windows below 2,600 W; the count starts again after a
step (27 R428; log 24). -/
def powerWindow (pwr : BitVec 16) (p : Power) : Power :=
  let p1 := { p with pwr := pwr }
  if p.svc != 4 || p.hot then { p1 with low := 0 }
  else if 2800 < pwr.toNat then { p1 with level := if p.level.toNat < 4 then p.level + 1 else 4, low := 0 }
  else if 2600 ≤ pwr.toNat then { p1 with low := 0 }
  else if p.low + 1 < 8 then { p1 with low := p.low + 1 }
  else { p1 with level := if p.level = 0 then 0 else p.level - 1, low := 0 }

/-- A temperature: 95 °C forces level 4 until it falls below 90 °C (27 R429). -/
def heat (temp : BitVec 8) (p : Power) : Power :=
  let p1 := { p with temp := temp }
  if 95 ≤ temp.toNat then { p1 with level := 4, hot := true, low := 0 }
  else if temp.toNat < 90 then { p1 with hot := false }
  else p1

/-- POWER_WINDOW_END (27 R428). -/
def execPowerWindowEnd (pwr : BitVec 16) (st : State) : Out := .next { st with power := powerWindow pwr st.power }.settleClock
/-- A temperature that the primary MC reads: at 105 °C it declares a fatal fault of FKIND 8, and HOLD follows the sealing
(27 R429). -/
def readTemp (temp : BitVec 8) (s : State) : State :=
  let s1 := { s with power := heat temp s.power }.settleClock
  if temp.toNat < 105 then s1 else
    let s2 := freeze 144 8 0 s1
    { s2 with power := { s2.power with trip := true } }

/-- THERMAL_THROTTLE (27 R429). -/
def execThermalThrottle (temp : BitVec 8) (st : State) : Out := .next (readTemp temp st)
/-- THERMAL_TRIP (27 R429). -/
def execThermalTrip (temp : BitVec 8) (st : State) : Out := .next (readTemp temp st)

/-! ### The debug freeze (26 R421) -/

/-- DBGFRZ (26 R421): the pin is ignored on a part that is not debug-unlocked (log 3). -/
def execDbgfrz (st : State) : Out :=
  .next (if Config.debugUnlocked then { st with power := { st.power with frozen := true } } else st)

/-- The management cores answer: they have booted, and no clock is stopped (27 R423). -/
def State.mcUp (s : State) : Bool := decide (2 ≤ s.power.svc.toNat) && decide (s.power.svc.toNat ≤ 4)

/-- The clocks stand still: only a reset, or the loss of power, happens (26 R421, 27 R423). -/
def State.stopped (s : State) : Bool := s.power.frozen || s.power.svc == 5 || s.power.svc == 0

end Sys2Proof.Machine
end

