-- ==== Sys2Proof/Machine/Messages.lean ====
section
/-! DEFINITION. Inbound Brynlink messages: remote accesses, their answers, launches, and what management operations on queues,
aging, capsules, the debug freeze and redirections do (25 R396-R400, 16 R327, 26 R420-R421). -/
namespace Sys2Proof.Machine

/-- `n` payload bytes from byte `o` up as a number; bytes that were not sent read 0. -/
def msgAt (m : Msg) (o n : Nat) : Nat := leNat ((m.payload.drop o).take n)

/-- The reply to a request: TYPE of the request plus 0x80 (25 R398; log 26). DEDUCED -/
def reply (ty : BitVec 8) (m : Msg) (stat : BitVec 8) (payload : List Byte) (s : State) : State :=
  sendMsg (ty ||| 0x80) m.src m.tag 0 0 false stat payload s

/-- A header whose reserved fields are zero, ADDR[63:40] among them, and whose payload is its flits (25 R397). -/
def msgClean (m : Msg) : Bool :=
  m.rsv == 0 && m.addr.extractLsb' 40 24 == 0 && m.payload.length == 32 * m.nflit.toNat && decide (m.nflit.toNat ≤ 8)

/-! ### Remote accesses to this package (25 R398, 03 R65) -/

/-- The physical address an inbound access reaches: an old frame under redirection names the new one (03 R65). -/
def redirect (s : State) (pa : Nat) : Nat :=
  match (s.mig.toList.flatMap (·.redir)).find? fun r => decide (r.1 ≤ pa) && decide (pa < r.1 + r.2.2) with
  | some r => r.2.1 + (pa - r.1)
  | none => pa

/-- What an inbound access of `n` bytes is answered when it is not performed: 0xFF malformed, 0x05 not backed HBM (25 R398). -/
def inboundRefused (m : Msg) (n : Nat) : Option (BitVec 8) :=
  let pa := m.addr.toNat
  if !msgClean m || n = 0 || 256 < n || 256 < pa % 256 + n then some 0xFF
  else if 0xC000000000 < pa + n then some 0x05
  else none

/-- An inbound access: refused, or performed at the home and answered; it waits while HBM is not served (27 R425), and
behind a fence that holds HOST accesses back (14 R292 step 5). -/
def inbound (ty : BitVec 8) (m : Msg) (n : Nat) (f : Nat → State → List Byte × State) (s : State) : Out :=
  match inboundRefused m n with
  | some st => .next (reply ty m st [] s)
  | none =>
    if !s.hbmServed || s.fenced 4 0 0 then .next s else
    let (bs, s1) := f (redirect s m.addr.toNat) s
    .next (reply ty m 0 bs s1)

/-- READ (25 R398). -/
def execRead (m : Msg) (st : State) : Out :=
  let n := msgAt m 0 8
  inbound 0x01 m n (fun pa s => (s.homeBytes pa n, s)) st

/-- WRITE (25 R397, R398): a HOST-path access. -/
def execWrite (m : Msg) (st : State) : Out :=
  let n := m.len.toNat
  if m.nflit.toNat ≠ (n + 31) / 32 then .next (reply 0x02 m 0xFF [] st)
  else inbound 0x02 m n (fun pa s => ([], outsideWrite 4 0 0 pa (m.payload.take n) s)) st

/-- A function field that names an atomic (13 R269). -/
def amValid (func : Nat) : Bool := decide (func < 64) && decide (func % 16 ≤ 9) && !(func / 16 % 2 == 1 && decide (8 ≤ func % 16))

/-- An atomic performed at the home: its old value, for a fetch form (13 R270, R271). -/
def inboundAtomic (m : Msg) (pa : Nat) (s : State) : List Byte × State :=
  let func := msgAt m 0 8
  let n := amBytes (func / 32 % 2 == 1)
  let b := BitVec.ofNat 64 (msgAt m 8 8)
  let d := BitVec.ofNat 64 (msgAt m 16 8)
  let old := BitVec.ofNat 64 (s.homeNat pa n)
  let s1 := if amWrites (func % 16) n old d then
      outsideWrite 4 0 0 pa (leBytes n (amNew (func % 16) n old b d).toNat) s else s
  (if func / 16 % 2 = 1 then [] else leBytes n old.toNat, s1)

/-- ATOMIC (25 R398; payload: log 14). One whose ADDR is no multiple of its width, which only a host sends, is answered 0xFF, before ADDR
is looked at for its backing (log 90). DESIGN CHOICE -/
def execAtomic (m : Msg) (st : State) : Out :=
  let func := msgAt m 0 8
  let n := amBytes (func / 32 % 2 == 1)
  if !amValid func || m.addr.toNat % n ≠ 0 then .next (reply 0x03 m 0xFF [] st)
  else inbound 0x03 m n (inboundAtomic m) st

/-! ### Answers to this package's accesses (14 R293, 05 R109) -/

/-- A list of accesses that are out after an answer: a read has its bytes, a write is gone. -/
def answer (tag : Nat) (bs : List Byte) (rs : List Remote) : List Remote :=
  rs.filterMap fun r =>
    if r.tag = tag then
      (if r.put then none
      else some { r with reply := r.reply.or (some ((bs ++ List.replicate (r.n - bs.length) 0).take r.n)) })
    else some r

/-- A core after an answer. -/
def Core.answered (c : Core) (tag : Nat) (bs : List Byte) : Core :=
  { c with out := answer tag bs c.out, eng := c.eng.map fun g => { g with out := answer tag bs g.out } }

/-- An answer reaches the unit whose TAG it carries. -/
def takeAnswer (m : Msg) (s : State) : State :=
  let one (c : Core) : Core := c.answered m.tag.toNat m.payload
  if m.rsv != 0 then s else { s with core := one s.core, others := s.others.map fun p => (p.1, one p.2) }

/-- READ_DATA (25 R398). -/
def execReadData (m : Msg) (st : State) : Out := .next (takeAnswer m st)
/-- WRITE_ACK (25 R398). -/
def execWriteAck (m : Msg) (st : State) : Out := .next (takeAnswer m st)
/-- ATOMIC_ACK (25 R398). -/
def execAtomicAck (m : Msg) (st : State) : Out := .next (takeAnswer m st)

/-! ### Launches, and messages that no receiver knows -/

/-- The reply to a launch message: its status word (16 R327). -/
def launchReply (m : Msg) (w : Word) (s : State) : State := reply 0x10 m 0 (leBytes 8 w.toNat) s

/-- A launch message served: checked as if tenant 0 had launched it (16 R327). -/
def serveLaunch (s : State) (m : Msg) : State :=
  let (w, s1) := mcLaunch (m.payload.take 112) 0 s
  launchReply m w s1

/-- The primary MC serves its inbox in order of arrival and leaves the last `left` messages for later; a fence that holds HOST
accesses back holds the service up (16 R327, 14 R292 step 5). -/
def serveInbox (left : Nat) (s : State) : State :=
  if s.fenced 4 0 0 then s else
  let n := s.inbox.length - left
  (s.inbox.take n).foldl serveLaunch { s with inbox := s.inbox.drop n }

/-- LAUNCH (16 R327): a message that finds the inbox full is refused with code 0x05; how many messages the MC leaves for later is
the oracle's choice (log 46). -/
def execLaunch (m : Msg) (st : State) : Out :=
  if !st.mcUp then .next st
  else if !msgClean m || m.payload.length < 112 then .next (reply 0x10 m 0xFF [] st)
  else if 256 ≤ st.inbox.length then .next (launchReply m 0xFFFFFFFFFFFFFF05 st)
  else
    let (k, s1) := st.choice
    .next (serveInbox k { s1 with inbox := s1.inbox ++ [m] })

/-- UNKNOWN_MESSAGE_TYPE (25 R397): the message is discarded; a request, whose TYPE is below 0x80 and not COLL, is answered with
STAT = 0xFF (log 26). -/
def execUnknownMessageType (ty : BitVec 8) (m : Msg) (st : State) : Out :=
  .next (if ty.toNat < 0x80 && ty != 0x30 then reply ty m 0xFF [] st else st)

/-! ### Management operations on queues, aging, capsules, the debug freeze and redirections (25 R400) -/

/-- The sender has the rights to an operation. -/
def State.mayDo (s : State) (host : BitVec 12) (code : Nat) : Bool := !s.denied.elem (host, code)
/-- The sender has the rights to a tenant; tenant 0 stands for operator rights. -/
def State.mayTenant (s : State) (host : BitVec 12) (ten : Nat) : Bool := !s.denied.elem (host, 256 + ten)

/-- What a management operation leaves: STAT and payload of its reply, if it replies, and the state. -/
abbrev Served := Option (BitVec 8 × List Byte) × State

/-- A reply with a STAT alone. -/
def served (stat : BitVec 8) (s : State) : Served := (some (stat, []), s)

/-- QUEUE-SET (25 R400, 16 R328): bytes 8 to 15 the queue, 16 to 31 its descriptor (log 27). DESIGN CHOICE -/
def queueSetOp (m : Msg) (s : State) : Served :=
  let q := msgAt m 8 8
  if 1024 ≤ q then served 0xFF s else served 0 (putQueue q (queueOf (BitVec.ofNat 128 (msgAt m 16 16))) s)

/-- AGING-SET (25 R400, 16 R335): bytes 8 to 15 the limit (log 27). DESIGN CHOICE -/
def agingSetOp (m : Msg) (s : State) : Served := served 0 { s with policy := { s.policy with aging := msgAt m 8 8 } }

/-- An index entry as LIST gives it (26 R420). -/
def capsuleEntry (c : Capsule) : List Byte :=
  leBytes 8 c.capid.toNat ++ leBytes 8 c.tenant.toNat ++ leBytes 8 c.size ++ leBytes 8 c.dropped.toNat

/-- CAPSULE-LIST (26 R420). -/
def capsuleListOp (m : Msg) (s : State) : Served :=
  let es := s.recd.caps.filter fun c => s.mayTenant m.src c.tenant.toNat
  (some (0, ((es.drop (msgAt m 16 8)).take 8).flatMap capsuleEntry), s)

/-- The capsule or entry with a CAPID. -/
def State.capsule (s : State) (id : Nat) : Option Capsule := s.recd.caps.find? fun c => c.capid.toNat == id

/-- CAPSULE-GET (26 R420). -/
def capsuleGetOp (m : Msg) (s : State) : Served :=
  match (s.capsule (msgAt m 16 8)).filter fun c => !c.dropped with
  | none => served 0x03 s
  | some c =>
    if !s.mayTenant m.src c.tenant.toNat then served 0x01 s else (some (0, (c.bytes.drop (msgAt m 24 8)).take 256), s)

/-- CAPSULE-ACK (26 R420). -/
def capsuleAckOp (m : Msg) (s : State) : Served :=
  match s.capsule (msgAt m 16 8) with
  | none => served 0x03 s
  | some c =>
    if !s.mayTenant m.src c.tenant.toNat then served 0x01 s
    else served 0 { s with recd := { s.recd with caps := s.recd.caps.filter fun k => k.capid != c.capid } }

/-- IDKEY (26 R420): the public point of a key that the spec does not give (log 3). -/
def idkeyOp (s : State) : Served := (some (0, (List.range 97).map Config.identityKeyByte), s)

/-- DEBUG-FREEZE (26 R421): STAT 0x04 on a part that is not debug-unlocked; else every clock stops in the same cycle, and there
is no answer (log 3). -/
def debugFreezeOp (s : State) : Served :=
  if Config.debugUnlocked then (none, { s with power := { s.power with frozen := true } }) else served 0x04 s

/-- The redirection entry of a retired frame released by firmware (03 R63, R65). -/
def releaseFrame (old : Nat) (s : State) : State :=
  match (List.range 3).find? fun d => (s.migOf d).redir.any (·.1 == old) with
  | some d => migRelease d (s.mapMig d fun m => { m with old := setField m.old 16 36 (old / 0x10000) })
  | none => s

/-- REDIRECT-CLEAR (25 R400, 03 R65): bytes 8 to 15 the PA; firmware, which waits for this report, releases the entry
(log 27). DESIGN CHOICE -/
def redirectClearOp (m : Msg) (s : State) : Served := served 0 (releaseFrame (msgAt m 8 8) s)

end Sys2Proof.Machine
end

