-- ==== Sys2Proof/Machine/Bfp.lean ====
section
/-! DEFINITION. Blocks of block floating point, as their 512 bits in a register (07 R135, 08 R164-R167). A block is a number; `m`
is the width of its mantissas. -/
namespace Sys2Proof.Machine

/-- Mantissa bits of a code (08 R164). -/
def bfpBits (c : Nat) : Nat := c - 14
/-- Block `b` of the group at v[n] (07 R133). -/
def Regs.block (r : Regs) (n : BitVec 5) (b : Nat) : Nat := getField (r.vreg (n.toNat + b / 32)) (512 * (b % 32)) 512
/-- The registers with block `b` of the group at v[n] written. -/
def Regs.setBlock (r : Regs) (n : BitVec 5) (b x : Nat) : Regs :=
  { r with v := vecMod r.v (n.toNat + b / 32) fun u => setField u (512 * (b % 32)) 512 x }

/-- E (08 R164). -/
def blkE (x : Nat) : Nat := x % 256
/-- L (08 R164). -/
def blkL (x : Nat) : Nat := x / 256 % 16
/-- TE (08 R164). -/
def blkTE (x : Nat) : Nat := x / 2 ^ 12 % 256
/-- TM (08 R164). -/
def blkTM (x : Nat) : Nat := x / 2 ^ 20 % 256
/-- A header (08 R164). -/
def blkHeader (e l te tm : Nat) : Nat := e + 256 * l + 2 ^ 12 * te + 2 ^ 20 * tm
/-- The bits of the mantissa of element `j` (07 R135). -/
def blkBits (m x j : Nat) : Nat :=
  (List.range m).foldl (fun a p => if x.testBit (32 * (p + 1) + j) then a + 2 ^ p else a) 0
/-- The mantissa of element `j` (08 R164). -/
def blkMant (m x j : Nat) : Int :=
  let u := blkBits m x j
  if 2 * u < 2 ^ m then u else (u : Int) - 2 ^ m
/-- A number with the bits of a mask taken from another. -/
def mixBits (mask a b : Nat) : Nat := (a ^^^ ((a ^^^ b) &&& mask))
/-- The plane bits of element `j`. -/
def planeBits (m j : Nat) : Nat := (List.range m).foldl (fun a p => a + 2 ^ (32 * (p + 1) + j)) 0
/-- The plane bits that a mantissa sets (07 R135). -/
def placeMant (m j : Nat) (v : Int) : Nat :=
  let u := (v % 2 ^ m).toNat
  (List.range m).foldl (fun a p => if u.testBit p then a + 2 ^ (32 * (p + 1) + j) else a) 0
/-- The block with the mantissa of element `j` written. -/
def setMant (m x j : Nat) (v : Int) : Nat := mixBits (planeBits m j) x (placeMant m j v)

/-- |M| < 2^l for every mantissa (08 R164, R165). -/
def mantsBelow (m x l : Nat) : Bool := (List.range 32).all fun j => decide ((blkMant m x j).natAbs < 2 ^ l)
/-- A block is valid (08 R165). -/
def blkValid (m x : Nat) : Bool := blkE x != 255 && x / 2 ^ 28 % 16 == 0 && mantsBelow m x (blkL x)
/-- The value of a mantissa under a shared exponent. -/
def mantValue (e : Nat) (v : Int) : Fp := if v = 0 then .zero false else .fin (decide (v < 0)) v.natAbs ((e : Int) - 127) false
/-- The value of element `j`, the default NaN in an invalid block (08 R165). -/
def blkElem (m x j : Nat) : Fp :=
  if !blkValid m x then .nan false true (2 ^ 22) 23
  else if blkE x = 0 then .zero false
  else mantValue (blkE x) (blkMant m x j)

/-- Element `i` of a BFP group (07 R133). -/
def Regs.bfpElem (r : Regs) (n : BitVec 5) (m i : Nat) : Fp := blkElem m (r.block n (i / 32)) (i % 32)

/-- The least l with |M| < 2^l for every mantissa (08 R167). -/
def leadOf (m x : Nat) : Nat := ((List.range 9).find? fun l => mantsBelow m x l).getD 9

/-- The block with the header written whole: the bits above its planes become zero (07 R147). -/
def withHeader (m x h : Nat) : Nat := mixBits (2 ^ 32 - 1) (x % 2 ^ (32 * (m + 1))) h

/-- The least E with |x| < 2^(m−1) · 2^(E−127) (08 R167); 0 for zero. -/
def expFor (m : Nat) (x : Fp) : Int :=
  match x with
  | .fin _ n e _ => if n = 0 then 0 else (Nat.log2 n : Int) + e - m + 129
  | _ => 0

/-- A value rounded to a mantissa at exponent E, and whether it differs (08 R167). -/
def mantOf (mode draw : Nat) (e : Int) (x : Fp) : Int × Bool :=
  match x with
  | .fin s n g more =>
    let p := roundMag mode draw s n g (e - 127) more
    (if s then -(p.1 : Int) else p.1, p.2)
  | _ => (0, false)

/-- An invalid block: mantissas 0 for the active elements (08 R167). -/
def invalidBlock (m old : Nat) (js : List Nat) : Nat := withHeader m (js.foldl (fun x j => setMant m x j 0) old) 0x000FF0FF

/-- A block built at exponent E from the values of its active elements (08 R167). -/
def buildBlock (m mode : Nat) (e : Int) (old : Nat) (xs : List (Nat × Nat × Fp)) : Nat × Nat :=
  let ms := xs.map fun t => (t.1, mantOf mode t.2.1 e t.2.2, t.2.2.isZero)
  let x := ms.foldl (fun x t => setMant m x t.1 t.2.1.1) old
  let nx := ms.any fun t => t.2.1.2
  let uf := e == 1 && ms.any fun t => t.2.1.1 == 0 && !t.2.2
  (withHeader m x (blkHeader e.toNat (leadOf m x) 255 0), flagIf nx NX + flagIf uf UF)

/-- A block formed from its active elements: position, draw and value of each; the block and its flags (08 R167). -/
def formBlock (m mode old : Nat) (xs : List (Nat × Nat × Fp)) : Nat × Nat :=
  if xs.any fun t => t.2.2.isNan || t.2.2.isInf then (invalidBlock m old (xs.map (·.1)), NV)
  else if xs.all fun t => t.2.2.isZero then buildBlock m mode 0 old xs
  else
    let e := xs.foldl (fun a t => max a (expFor m t.2.2)) 1
    let e1 := if xs.any fun t => (mantOf mode t.2.1 e t.2.2).1 == 2 ^ (m - 1) then e + 1 else e
    if 254 < e1 then (invalidBlock m old (xs.map (·.1)), OF + NX) else buildBlock m mode e1 old xs

end Sys2Proof.Machine
end

