-- ==== Sys2Proof/Machine/VecInt.lean ====
section
/-! DEFINITION. Vector integer arithmetic: major VA (09 R189-R195). -/
namespace Sys2Proof.Machine

/-- A number of `w` bits read as two's complement (00 R5). -/
def sintW (w v : Nat) : Int := if 2 * (v % 2 ^ w) < 2 ^ w then (v % 2 ^ w : Nat) else (v % 2 ^ w : Nat) - 2 ^ w
/-- A number wrapped to `w` bits (08 R161). -/
def wrapW (w : Nat) (v : Int) : Nat := (v % 2 ^ w).toNat

/-- Element `i` of the second operand: of the group at v[b], or of x[b] under `.X` (09 R190). -/
def operandB (s : State) (x : Bool) (b : BitVec 5) (w i : Nat) : Nat :=
  if x then lowBits w (s.x b) else s.core.regs.elem b w i

/-- A group of `k` registers from `d` overlaps one of `n` registers from `a`. -/
def overlap (d : BitVec 5) (k : Nat) (a : BitVec 5) (n : Nat) : Bool :=
  decide (d.toNat < a.toNat + n) && decide (a.toNat < d.toNat + k)

/-- A VQ entry of VA, VF, VX, VR or VV with its governing mask (17 R348, 09 R193). -/
def vecEntry (w : Word) (m : BitVec 4) : Entry := ⟨w, true, m != 0, false, true, true⟩

/-- A VQ entry of a compare, which writes a mask (17 R348). -/
def compareEntry (w : Word) : Entry := ⟨w, true, true, false, true, true⟩

/-- The checks and waits of an element-wise instruction whose groups all hold VTYPE's format (05 R100, 07 R133, 09 R210):
`ok` is its format, `vs` its vector sources. -/
def elemGuard (w : Word) (ok : Bool) (d : BitVec 5) (m : BitVec 4) (vs : List (BitVec 5)) : M Unit := do
  let r ← regs
  ensure (ok && r.groupOk d && vs.all r.groupOk) .illegal w
  guardMask m
  guardRegs 0 d.toNat (r.writes (fmtPlace r.fmt))
  vs.forM fun v => needElems v (fmtPlace r.fmt) (r.actives m)

/-- The checks and waits of a compare into m[d] (09 R191). -/
def compareGuard (w : Word) (ok : Bool) (d m : BitVec 4) (vs : List (BitVec 5)) : M Unit := do
  let r ← regs
  ensure (ok && vs.all r.groupOk) .illegal w
  guardMask m
  guardRegs 1 d.toNat 1
  vs.forM fun v => needElems v (fmtPlace r.fmt) (r.actives m)

/-- The vector sources that the fields a and b name. -/
def sourcesAB (a b : BitVec 5) (x : Bool) : List (BitVec 5) := if x then [a] else [a, b]

/-- The body of an integer operation `f` on width, a, b and the old element of vd (09 R194). -/
def vaBody (w : Word) (d a b : BitVec 5) (m : BitVec 4) (x : Bool) (f : Nat → Nat → Nat → Nat → Nat) : M Unit := do
  let s ← get
  let r := s.core.regs
  let k := fmtWidth r.fmt
  elemGuard w (decide (r.fmt ≤ 3)) d m (sourcesAB a b x)
  mouldVec m d k fun i => .val (f k (r.elem a k i) (operandB s x b k i) (r.elem d k i)) 0

/-- The body of an integer compare (09 R191, R194). -/
def vaCompare (w : Word) (d : BitVec 4) (a b : BitVec 5) (m : BitVec 4) (x : Bool) (f : Nat → Nat → Nat → Bool) : M Unit := do
  let s ← get
  let r := s.core.regs
  let k := fmtWidth r.fmt
  compareGuard w (decide (r.fmt ≤ 3)) d m (sourcesAB a b x)
  mouldMask m d fun i => .val (f k (r.elem a k i) (operandB s x b k i)).toNat 0

/-- The groups of a widening accumulation into `gd` registers are well placed (09 R195). -/
def widePlaced (r : Regs) (gd : Nat) (d : BitVec 5) (vs : List (BitVec 5)) : Bool :=
  decide (gd ≤ 8) && groupOk gd d && vs.all fun v => r.groupOk v && !overlap d gd v r.grp

/-- The checks and waits of a widening accumulation into a group of `gd` registers of `kw`-bit elements (09 R195). -/
def wideGuard (w : Word) (ok : Bool) (gd kw : Nat) (d : BitVec 5) (m : BitVec 4) (vs : List (BitVec 5)) : M Unit := do
  let r ← regs
  ensure (ok && widePlaced r gd d vs) .illegal w
  guardMask m
  guardRegs 0 d.toNat (r.writes kw)
  vs.forM fun v => needElems v (fmtWidth r.fmt) (r.actives m)

/-- The wide width of an integer widening accumulation (09 R195). -/
def wideInt (c : Nat) : Nat := if c = 0 then 32 else 64

/-- The body of an integer widening accumulation (09 R195). -/
def vaWide (w : Word) (d a b : BitVec 5) (m : BitVec 4) (x sg : Bool) : M Unit := do
  let s ← get
  let r := s.core.regs
  let k := fmtWidth r.fmt
  let kw := wideInt r.fmt
  wideGuard w (decide (r.fmt ≤ 2)) (r.grp * (kw / k)) kw d m (sourcesAB a b x)
  let rd (v : Nat) : Int := if sg then sintW k v else v
  mouldVec m d kw fun i => .val (wrapW kw (r.elem d kw i + rd (r.elem a k i) * rd (operandB s x b k i))) 0

/-- VA_ADD (09 R194). -/
def execVaAdd (d a b : BitVec 5) (m : BitVec 4) (x : Bool) (st : State) : Out :=
  let w := tvalWord (encode (.vaAdd d a b m x))
  vecRun (vecEntry w m) (vaBody w d a b m x fun k a b _ => (a + b) % 2 ^ k) st

/-- VA_SUB (09 R194). -/
def execVaSub (d a b : BitVec 5) (m : BitVec 4) (x : Bool) (st : State) : Out :=
  let w := tvalWord (encode (.vaSub d a b m x))
  vecRun (vecEntry w m) (vaBody w d a b m x fun k a b _ => wrapW k ((a : Int) - b)) st

/-- VA_MUL (09 R194). -/
def execVaMul (d a b : BitVec 5) (m : BitVec 4) (x : Bool) (st : State) : Out :=
  let w := tvalWord (encode (.vaMul d a b m x))
  vecRun (vecEntry w m) (vaBody w d a b m x fun k a b _ => a * b % 2 ^ k) st

/-- VA_MULH (09 R194). -/
def execVaMulh (d a b : BitVec 5) (m : BitVec 4) (x : Bool) (st : State) : Out :=
  let w := tvalWord (encode (.vaMulh d a b m x))
  vecRun (vecEntry w m) (vaBody w d a b m x fun k a b _ => wrapW k (sintW k a * sintW k b / 2 ^ k)) st

/-- VA_MULHU (09 R194). -/
def execVaMulhu (d a b : BitVec 5) (m : BitVec 4) (x : Bool) (st : State) : Out :=
  let w := tvalWord (encode (.vaMulhu d a b m x))
  vecRun (vecEntry w m) (vaBody w d a b m x fun k a b _ => a * b / 2 ^ k) st

/-- VA_AND (09 R194). -/
def execVaAnd (d a b : BitVec 5) (m : BitVec 4) (x : Bool) (st : State) : Out :=
  let w := tvalWord (encode (.vaAnd d a b m x))
  vecRun (vecEntry w m) (vaBody w d a b m x fun _ a b _ => a &&& b) st

/-- VA_OR (09 R194). -/
def execVaOr (d a b : BitVec 5) (m : BitVec 4) (x : Bool) (st : State) : Out :=
  let w := tvalWord (encode (.vaOr d a b m x))
  vecRun (vecEntry w m) (vaBody w d a b m x fun _ a b _ => a ||| b) st

/-- VA_XOR (09 R194). -/
def execVaXor (d a b : BitVec 5) (m : BitVec 4) (x : Bool) (st : State) : Out :=
  let w := tvalWord (encode (.vaXor d a b m x))
  vecRun (vecEntry w m) (vaBody w d a b m x fun _ a b _ => a ^^^ b) st

/-- VA_SLL (09 R194). -/
def execVaSll (d a b : BitVec 5) (m : BitVec 4) (x : Bool) (st : State) : Out :=
  let w := tvalWord (encode (.vaSll d a b m x))
  vecRun (vecEntry w m) (vaBody w d a b m x fun k a b _ => a <<< (b % k) % 2 ^ k) st

/-- VA_SRL (09 R194). -/
def execVaSrl (d a b : BitVec 5) (m : BitVec 4) (x : Bool) (st : State) : Out :=
  let w := tvalWord (encode (.vaSrl d a b m x))
  vecRun (vecEntry w m) (vaBody w d a b m x fun k a b _ => a >>> (b % k)) st

/-- VA_SRA (09 R194). -/
def execVaSra (d a b : BitVec 5) (m : BitVec 4) (x : Bool) (st : State) : Out :=
  let w := tvalWord (encode (.vaSra d a b m x))
  vecRun (vecEntry w m) (vaBody w d a b m x fun k a b _ => wrapW k (sintW k a / 2 ^ (b % k))) st

/-- VA_MIN (09 R194). -/
def execVaMin (d a b : BitVec 5) (m : BitVec 4) (x : Bool) (st : State) : Out :=
  let w := tvalWord (encode (.vaMin d a b m x))
  vecRun (vecEntry w m) (vaBody w d a b m x fun k a b _ => if sintW k a ≤ sintW k b then a else b) st

/-- VA_MAX (09 R194). -/
def execVaMax (d a b : BitVec 5) (m : BitVec 4) (x : Bool) (st : State) : Out :=
  let w := tvalWord (encode (.vaMax d a b m x))
  vecRun (vecEntry w m) (vaBody w d a b m x fun k a b _ => if sintW k a ≤ sintW k b then b else a) st

/-- VA_MINU (09 R194). -/
def execVaMinu (d a b : BitVec 5) (m : BitVec 4) (x : Bool) (st : State) : Out :=
  let w := tvalWord (encode (.vaMinu d a b m x))
  vecRun (vecEntry w m) (vaBody w d a b m x fun _ a b _ => min a b) st

/-- VA_MAXU (09 R194). -/
def execVaMaxu (d a b : BitVec 5) (m : BitVec 4) (x : Bool) (st : State) : Out :=
  let w := tvalWord (encode (.vaMaxu d a b m x))
  vecRun (vecEntry w m) (vaBody w d a b m x fun _ a b _ => max a b) st

/-- VA_ADDS (09 R194). -/
def execVaAdds (d a b : BitVec 5) (m : BitVec 4) (x : Bool) (st : State) : Out :=
  let w := tvalWord (encode (.vaAdds d a b m x))
  vecRun (vecEntry w m) (vaBody w d a b m x fun k a b _ => wrapW k (satS k (sintW k a + sintW k b))) st

/-- VA_ADDSU (09 R194). -/
def execVaAddsu (d a b : BitVec 5) (m : BitVec 4) (x : Bool) (st : State) : Out :=
  let w := tvalWord (encode (.vaAddsu d a b m x))
  vecRun (vecEntry w m) (vaBody w d a b m x fun k a b _ => min (a + b) (2 ^ k - 1)) st

/-- VA_SUBS (09 R194). -/
def execVaSubs (d a b : BitVec 5) (m : BitVec 4) (x : Bool) (st : State) : Out :=
  let w := tvalWord (encode (.vaSubs d a b m x))
  vecRun (vecEntry w m) (vaBody w d a b m x fun k a b _ => wrapW k (satS k (sintW k a - sintW k b))) st

/-- VA_SUBSU (09 R194). -/
def execVaSubsu (d a b : BitVec 5) (m : BitVec 4) (x : Bool) (st : State) : Out :=
  let w := tvalWord (encode (.vaSubsu d a b m x))
  vecRun (vecEntry w m) (vaBody w d a b m x fun _ a b _ => a - b) st

/-- VA_MACC (09 R194). -/
def execVaMacc (d a b : BitVec 5) (m : BitVec 4) (x : Bool) (st : State) : Out :=
  let w := tvalWord (encode (.vaMacc d a b m x))
  vecRun (vecEntry w m) (vaBody w d a b m x fun k a b old => (old + a * b) % 2 ^ k) st

/-- VA_WMACC (09 R195). -/
def execVaWmacc (d a b : BitVec 5) (m : BitVec 4) (x : Bool) (st : State) : Out :=
  let w := tvalWord (encode (.vaWmacc d a b m x))
  vecRun (vecEntry w m) (vaWide w d a b m x true) st

/-- VA_WMACCU (09 R195). -/
def execVaWmaccu (d a b : BitVec 5) (m : BitVec 4) (x : Bool) (st : State) : Out :=
  let w := tvalWord (encode (.vaWmaccu d a b m x))
  vecRun (vecEntry w m) (vaWide w d a b m x false) st

/-- VA_CEQ (09 R191, R194). -/
def execVaCeq (d : BitVec 4) (a b : BitVec 5) (m : BitVec 4) (x : Bool) (st : State) : Out :=
  let w := tvalWord (encode (.vaCeq d a b m x))
  vecRun (compareEntry w) (vaCompare w d a b m x fun _ a b => a == b) st

/-- VA_CNE (09 R191, R194). -/
def execVaCne (d : BitVec 4) (a b : BitVec 5) (m : BitVec 4) (x : Bool) (st : State) : Out :=
  let w := tvalWord (encode (.vaCne d a b m x))
  vecRun (compareEntry w) (vaCompare w d a b m x fun _ a b => a != b) st

/-- VA_CLT (09 R191, R194). -/
def execVaClt (d : BitVec 4) (a b : BitVec 5) (m : BitVec 4) (x : Bool) (st : State) : Out :=
  let w := tvalWord (encode (.vaClt d a b m x))
  vecRun (compareEntry w) (vaCompare w d a b m x fun k a b => decide (sintW k a < sintW k b)) st

/-- VA_CLE (09 R191, R194). -/
def execVaCle (d : BitVec 4) (a b : BitVec 5) (m : BitVec 4) (x : Bool) (st : State) : Out :=
  let w := tvalWord (encode (.vaCle d a b m x))
  vecRun (compareEntry w) (vaCompare w d a b m x fun k a b => decide (sintW k a ≤ sintW k b)) st

/-- VA_CLTU (09 R191, R194). -/
def execVaCltu (d : BitVec 4) (a b : BitVec 5) (m : BitVec 4) (x : Bool) (st : State) : Out :=
  let w := tvalWord (encode (.vaCltu d a b m x))
  vecRun (compareEntry w) (vaCompare w d a b m x fun _ a b => decide (a < b)) st

/-- VA_CLEU (09 R191, R194). -/
def execVaCleu (d : BitVec 4) (a b : BitVec 5) (m : BitVec 4) (x : Bool) (st : State) : Out :=
  let w := tvalWord (encode (.vaCleu d a b m x))
  vecRun (compareEntry w) (vaCompare w d a b m x fun _ a b => decide (a ≤ b)) st

end Sys2Proof.Machine
end

