-- ==== Sys2Proof/Machine/VecFp.lean ====
section
/-! DEFINITION. Vector floating point: major VF (09 R189-R192, R195, R196). -/
namespace Sys2Proof.Machine

/-- VF accepts the format (09 R196). -/
def vfFmt (c : Nat) : Bool := decide (4 ≤ c) && decide (c ≤ 7)

/-- The body of a VF operation `f` on format, mode, a, b and the old element of vd; `ops` names the operands it reads
(09 R189, R196). -/
def vfBody (w : Word) (d a b : BitVec 5) (m : BitVec 4) (x : Bool) (ops : Nat → Nat → Nat → List Nat)
    (f : Nat → Nat → Nat → Nat → Nat → Nat × Nat) : M Unit := do
  let s ← get
  let r := s.core.regs
  let c := r.fmt
  let k := fmtWidth c
  elemGuard w (vfFmt c) d m (sourcesAB a b x)
  mouldVec m d k fun i =>
    let va := r.elem a k i
    let vb := operandB s x b k i
    let old := r.elem d k i
    orToken c (ops va vb old) (f c r.rm va vb old)

/-- The body of a VF compare (09 R191, R196). -/
def vfCompare (w : Word) (d : BitVec 4) (a b : BitVec 5) (m : BitVec 4) (x : Bool) (f : Nat → Nat → Nat → Bool × Nat) :
    M Unit := do
  let s ← get
  let r := s.core.regs
  let c := r.fmt
  let k := fmtWidth c
  compareGuard w (vfFmt c) d m (sourcesAB a b x)
  mouldMask m d fun i =>
    let va := r.elem a k i
    let vb := operandB s x b k i
    let p := f c va vb
    orToken c [va, vb] (p.1.toNat, p.2)

/-- The wide format of a floating-point widening accumulation (09 R195). -/
def wideFp (c : Nat) : Nat := if c = 5 then 4 else 5

/-- The body of the floating-point widening accumulation (09 R195): the narrow operands of binary32, or the accumulator of it,
are read as binary32. -/
def vfWide (w : Word) (d a b : BitVec 5) (m : BitVec 4) (x : Bool) : M Unit := do
  let s ← get
  let r := s.core.regs
  let c := r.fmt
  let k := fmtWidth c
  let cw := wideFp c
  let kw := fmtWidth cw
  wideGuard w (decide (5 ≤ c) && decide (c ≤ 10)) (r.grp * (kw / k)) kw d m (sourcesAB a b x)
  mouldVec m d kw fun i =>
    let va := r.elem a k i
    let vb := operandB s x b k i
    let old := r.elem d kw i
    orToken 5 (if c = 5 then [va, vb] else [old]) (fpFused c cw r.rm false false va vb old)

/-- Two operands. -/
def opsAB (a b _ : Nat) : List Nat := [a, b]
/-- Two operands and the addend. -/
def opsABD (a b d : Nat) : List Nat := [a, b, d]

/-- VF_ADD (09 R196). -/
def execVfAdd (d a b : BitVec 5) (m : BitVec 4) (x : Bool) (st : State) : Out :=
  let w := tvalWord (encode (.vfAdd d a b m x))
  vecRun (vecEntry w m) (vfBody w d a b m x opsAB fun c r a b _ => fpAdd c r a b) st

/-- VF_SUB (09 R196). -/
def execVfSub (d a b : BitVec 5) (m : BitVec 4) (x : Bool) (st : State) : Out :=
  let w := tvalWord (encode (.vfSub d a b m x))
  vecRun (vecEntry w m) (vfBody w d a b m x opsAB fun c r a b _ => fpSub c r a b) st

/-- VF_MUL (09 R196). -/
def execVfMul (d a b : BitVec 5) (m : BitVec 4) (x : Bool) (st : State) : Out :=
  let w := tvalWord (encode (.vfMul d a b m x))
  vecRun (vecEntry w m) (vfBody w d a b m x opsAB fun c r a b _ => fpMulOp c r a b) st

/-- VF_DIV (09 R196). -/
def execVfDiv (d a b : BitVec 5) (m : BitVec 4) (x : Bool) (st : State) : Out :=
  let w := tvalWord (encode (.vfDiv d a b m x))
  vecRun (vecEntry w m) (vfBody w d a b m x opsAB fun c r a b _ => fpDivOp c r a b) st

/-- VF_FMA (09 R196). -/
def execVfFma (d a b : BitVec 5) (m : BitVec 4) (x : Bool) (st : State) : Out :=
  let w := tvalWord (encode (.vfFma d a b m x))
  vecRun (vecEntry w m) (vfBody w d a b m x opsABD fun c r a b z => fpFused c c r false false a b z) st

/-- VF_FMS (09 R196). -/
def execVfFms (d a b : BitVec 5) (m : BitVec 4) (x : Bool) (st : State) : Out :=
  let w := tvalWord (encode (.vfFms d a b m x))
  vecRun (vecEntry w m) (vfBody w d a b m x opsABD fun c r a b z => fpFused c c r false true a b z) st

/-- VF_FNMA (09 R196). -/
def execVfFnma (d a b : BitVec 5) (m : BitVec 4) (x : Bool) (st : State) : Out :=
  let w := tvalWord (encode (.vfFnma d a b m x))
  vecRun (vecEntry w m) (vfBody w d a b m x opsABD fun c r a b z => fpFused c c r true false a b z) st

/-- VF_MIN (09 R196). -/
def execVfMin (d a b : BitVec 5) (m : BitVec 4) (x : Bool) (st : State) : Out :=
  let w := tvalWord (encode (.vfMin d a b m x))
  vecRun (vecEntry w m) (vfBody w d a b m x opsAB fun c _ a b _ => fpMinMax c false a b) st

/-- VF_MAX (09 R196). -/
def execVfMax (d a b : BitVec 5) (m : BitVec 4) (x : Bool) (st : State) : Out :=
  let w := tvalWord (encode (.vfMax d a b m x))
  vecRun (vecEntry w m) (vfBody w d a b m x opsAB fun c _ a b _ => fpMinMax c true a b) st

/-- VF_SGNJ (09 R196). -/
def execVfSgnj (d a b : BitVec 5) (m : BitVec 4) (x : Bool) (st : State) : Out :=
  let w := tvalWord (encode (.vfSgnj d a b m x))
  vecRun (vecEntry w m) (vfBody w d a b m x opsAB fun c _ a b _ => (withSign c a (signOf c b), 0)) st

/-- VF_SGNJN (09 R196). -/
def execVfSgnjn (d a b : BitVec 5) (m : BitVec 4) (x : Bool) (st : State) : Out :=
  let w := tvalWord (encode (.vfSgnjn d a b m x))
  vecRun (vecEntry w m) (vfBody w d a b m x opsAB fun c _ a b _ => (withSign c a (!signOf c b), 0)) st

/-- VF_SGNJX (09 R196). -/
def execVfSgnjx (d a b : BitVec 5) (m : BitVec 4) (x : Bool) (st : State) : Out :=
  let w := tvalWord (encode (.vfSgnjx d a b m x))
  vecRun (vecEntry w m) (vfBody w d a b m x opsAB fun c _ a b _ => (withSign c a (signOf c a != signOf c b), 0)) st

/-- VF_SQRT (09 R196). -/
def execVfSqrt (d a : BitVec 5) (m : BitVec 4) (st : State) : Out :=
  let w := tvalWord (encode (.vfSqrt d a m))
  vecRun (vecEntry w m) (vfBody w d a 0 m true (fun a _ _ => [a]) fun c r a _ _ => fpSqrtOp c r a) st

/-- VF_WMACC (09 R195). -/
def execVfWmacc (d a b : BitVec 5) (m : BitVec 4) (x : Bool) (st : State) : Out :=
  let w := tvalWord (encode (.vfWmacc d a b m x))
  vecRun (vecEntry w m) (vfWide w d a b m x) st

/-- VF_CEQ (09 R191, R196). -/
def execVfCeq (d : BitVec 4) (a b : BitVec 5) (m : BitVec 4) (x : Bool) (st : State) : Out :=
  let w := tvalWord (encode (.vfCeq d a b m x))
  vecRun (compareEntry w) (vfCompare w d a b m x fpEq) st

/-- VF_CLT (09 R191, R196). -/
def execVfClt (d : BitVec 4) (a b : BitVec 5) (m : BitVec 4) (x : Bool) (st : State) : Out :=
  let w := tvalWord (encode (.vfClt d a b m x))
  vecRun (compareEntry w) (vfCompare w d a b m x fpLt) st

/-- VF_CLE (09 R191, R196). -/
def execVfCle (d : BitVec 4) (a b : BitVec 5) (m : BitVec 4) (x : Bool) (st : State) : Out :=
  let w := tvalWord (encode (.vfCle d a b m x))
  vecRun (compareEntry w) (vfCompare w d a b m x fpLe) st

/-- VF_CUN (09 R191, R196). -/
def execVfCun (d : BitVec 4) (a b : BitVec 5) (m : BitVec 4) (x : Bool) (st : State) : Out :=
  let w := tvalWord (encode (.vfCun d a b m x))
  vecRun (compareEntry w) (vfCompare w d a b m x fpUn) st

end Sys2Proof.Machine
end

