-- ==== Sys2Proof/Machine/VecFold.lean ====
section
/-! DEFINITION. Folds: major VR (08 R175, R176, 09 R201-R205, 10 R223). -/
namespace Sys2Proof.Machine

/-! ### Segments (08 R175) -/

/-- The elements at which a segment begins. -/
def segStarts (r : Regs) (bm : Option (BitVec 4)) : List Nat :=
  match r.span with
  | [] => []
  | i :: is => i :: (match bm with
    | some m => is.filter (r.maskBit m)
    | none => [])
/-- The segments, each with its first element and its end. -/
def segments (r : Regs) (bm : Option (BitVec 4)) : List (Nat × Nat) :=
  let st := segStarts r bm
  st.zip (st.drop 1 ++ [r.vl.toNat])
/-- The boundary mask: m under `.S`, where 0 is none (09 R201). -/
def boundary (m : BitVec 4) (s : Bool) : Option (BitVec 4) := if s && m != 0 then some m else none
/-- The governing mask: none under `.S` (09 R201). -/
def governing (m : BitVec 4) (s : Bool) : BitVec 4 := if s then 0 else m
/-- The active elements of a segment. -/
def segActives (r : Regs) (gm : BitVec 4) (seg : Nat × Nat) : List Nat :=
  (List.range' seg.1 (seg.2 - seg.1)).filter (r.governs gm)

/-! ### Sums in the fixed order (08 R175, R176) -/

/-- A running sum: nothing yet, a value, or the default NaN of an invalid operation. -/
inductive RunSum where
  | start
  | bits (v : Nat)
  | bad
  deriving DecidableEq, Repr

/-- An invalid operation stands among exact terms: an invalid product, or opposite infinities (08 R171). -/
def invalidIn (ts : List (Option Fp)) : Bool := ts.any (·.isNone) || opposite (ts.filterMap id)

/-- One block partial joins a sum: its terms, none for an invalid product (08 R175 steps 3 and 4). A partial with a NaN among its
terms is not rounded, and the flags of every rounding that is performed stand, beside an invalid operation too (08 R174; log 40).
DEDUCED -/
def sumBlock (c mode : Nat) (p : RunSum × Nat) (ts : List (Option Fp)) : RunSum × Nat :=
  if ts.any (·.any (·.isNan)) then (.bad, p.2 ||| flagIf (invalidIn ts) NV) else
  match (if ts.all (·.isSome) then fpSum (mode == 2) (ts.filterMap id) else none) with
  | none => (.bad, p.2 ||| NV)
  | some v =>
    let q := fpRound c mode 0 v
    match p.1 with
    | .start => (.bits q.1, p.2 ||| q.2)
    | .bad => (.bad, p.2 ||| q.2)
    | .bits a =>
      match fpSum (mode == 2) [fpDecode c a, fpDecode c q.1] with
      | none => (.bad, p.2 ||| q.2 ||| NV)
      | some v => let t := fpRound c mode 0 v; (.bits t.1, p.2 ||| q.2 ||| t.2)

/-- The bits of a sum: +0 of no term (08 R175). -/
def RunSum.get (c : Nat) : RunSum → Nat
  | .start => 0
  | .bits v => v
  | .bad => defaultNan c

/-- The terms of the elements at positions from a segment's first element, cut into blocks of 32 positions (08 R175 step 2). -/
def sumBlocks (lo : Nat) (ts : List (Nat × Option Fp)) : List (List (Option Fp)) :=
  ((ts.map fun t => (t.1 - lo) / 32).eraseDups).map fun b => (ts.filter fun t => (t.1 - lo) / 32 == b).map (·.2)

/-- The sum of a segment's terms in the format `c`: `ops` names every operand in order (08 R171, R175). -/
def foldSum (c mode lo : Nat) (ops : List Fp) (ts : List (Nat × Option Fp)) : Nat × Nat :=
  let p := (sumBlocks lo ts).foldl (sumBlock c mode) (.start, 0)
  if ops.any (·.isNan) then
    let q := (pickNan c ops (invalidIn (ts.map (·.2)))).getD (0, 0)
    (q.1, q.2 ||| p.2)
  else (p.1.get c, p.2)

/-! ### Folds of one segment (09 R203) -/

/-- The operands of a fold: element `i` of va and of vb as patterns and as values. -/
structure Terms where
  a  : Nat → Nat
  b  : Nat → Nat
  xa : Nat → Fp
  xb : Nat → Fp

/-- A sum of elements. -/
def foldAdd (c mode lo : Nat) (t : Terms) (is : List Nat) : Nat × Nat :=
  foldSum c mode lo (is.map t.xa) (is.map fun i => (i, some (t.xa i)))
/-- The product of two operands as a term: a NaN stands for itself. -/
def termMul (a b : Fp) : Option Fp := if a.isNan then some a else if b.isNan then some b else fpMul a b
/-- A sum of products. -/
def foldDot (c mode lo : Nat) (t : Terms) (is : List Nat) : Nat × Nat :=
  foldSum c mode lo (is.flatMap fun i => [t.xa i, t.xb i]) (is.map fun i => (i, termMul (t.xa i) (t.xb i)))
/-- The greatest or the least of a segment, as SF.MAX and SF.MIN across it; an infinity of none. -/
def foldMinMax (c : Nat) (greater : Bool) (t : Terms) (is : List Nat) : Nat × Nat :=
  match pickNan c (is.map t.xa) false with
  | some p => p
  | none => match is with
    | [] => (fpMax c + 1 + signBits c greater, 0)
    | i :: r => (r.foldl (fun v j => (fpMinMax c greater v (t.a j)).1) (t.a i), 0)
/-- A magnitude. -/
def Fp.abs : Fp → Fp
  | .inf _ => .inf false
  | .fin _ m e b => .fin false m e b
  | v => v
/-- The largest magnitude, in binary32. -/
def foldMaxAbs (mode : Nat) (t : Terms) (is : List Nat) : Nat × Nat :=
  match pickNan 5 (is.map t.xa) false with
  | some p => p
  | none => fpRound 5 mode 0 (is.foldl (fun v j => if fpLess v (t.xa j).abs then (t.xa j).abs else v) (.zero false))

/-- The least of integers, none of none. -/
def leastInt : List Int → Option Int
  | [] => none
  | v :: r => some (r.foldl min v)
/-- The greatest of integers, none of none. -/
def greatestInt : List Int → Option Int
  | [] => none
  | v :: r => some (r.foldl max v)

/-- A fold: its name. -/
inductive Fold where
  | sum | max | min | maxu | minu | and | or | xor | dot | dotu | maxabs | dotb
  deriving DecidableEq, Repr

/-- A fold of integers of `w` bits, wrapped once (09 R203). -/
def foldInt (f : Fold) (w : Nat) (t : Terms) (is : List Nat) : Nat :=
  match f with
  | .max => wrapW w ((greatestInt (is.map fun i => sintW w (t.a i))).getD (-(2 ^ (w - 1))))
  | .min => wrapW w ((leastInt (is.map fun i => sintW w (t.a i))).getD (2 ^ (w - 1) - 1))
  | .maxu => is.foldl (fun v i => Nat.max v (t.a i)) 0
  | .minu => is.foldl (fun v i => Nat.min v (t.a i)) (2 ^ w - 1)
  | .and => is.foldl (fun v i => v &&& t.a i) (2 ^ w - 1)
  | .or => is.foldl (fun v i => v ||| t.a i) 0
  | .xor => is.foldl (fun v i => v ^^^ t.a i) 0
  | .dot => wrapW w (is.foldl (fun v i => v + sintW w (t.a i) * sintW w (t.b i)) 0)
  | .dotu => is.foldl (fun v i => v + t.a i * t.b i) 0 % 2 ^ w
  | _ => is.foldl (fun v i => v + t.a i) 0 % 2 ^ w

/-- A fold of floating-point or BFP operands into the format `c`: the segment begins at `lo` (09 R203). -/
def foldFp (f : Fold) (c mode lo : Nat) (t : Terms) (is : List Nat) : Nat × Nat :=
  match f with
  | .max => foldMinMax c true t is
  | .min => foldMinMax c false t is
  | .maxabs => foldMaxAbs mode t is
  | .dot | .dotb => foldDot c mode lo t is
  | _ => foldAdd c mode lo t is

/-- The formats that a fold accepts (09 R201). -/
def Fold.accepts (f : Fold) (c : Nat) : Bool :=
  match f with
  | .sum | .dot => decide (c ≤ 10) || isBfp c
  | .max | .min => decide (c ≤ 7)
  | .maxabs | .dotb => c == 5 || c == 7 || isBfp c
  | _ => decide (c ≤ 3)
/-- The format of a fold's results (09 R201). -/
def Fold.result (f : Fold) (c : Nat) : Nat :=
  match f with
  | .sum | .dot => if c ≤ 4 then c else 5
  | .maxabs | .dotb => 5
  | _ => c
/-- The fold reads vb. -/
def Fold.two : Fold → Bool
  | .dot | .dotu | .dotb => true
  | _ => false

/-! ### Reductions (09 R202, R205) -/

/-- The operands of a fold whose va has the format `ca` and vb the format `cb`. -/
def termsOf (r : Regs) (ca cb : Nat) (a b : BitVec 5) : Terms where
  a := fun i => r.elem a (fmtWidth ca) i
  b := fun i => r.elem b (fmtWidth cb) i
  xa := fun i => if isBfp ca then r.bfpElem a (bfpBits ca) i else fpDecode ca (r.elem a (fmtWidth ca) i)
  xb := fun i => if isBfp cb then r.bfpElem b (bfpBits cb) i else fpDecode cb (r.elem b (fmtWidth cb) i)

/-- The token at the lowest element read as binary32, a before b (09 R205). -/
def foldToken (ca cb : Nat) (two : Bool) (t : Terms) (is : List Nat) : Option Nat :=
  is.findSome? fun i =>
    if ca = 5 && isToken (t.a i) then some (t.a i)
    else if two && cb = 5 && isToken (t.b i) then some (t.b i) else none

/-- The results of a reduction, segment by segment: bits and flags (09 R202, R203). -/
def foldSegments (f : Fold) (r : Regs) (cb : Nat) (a b : BitVec 5) (m : BitVec 4) (s : Bool) : List (Nat × Nat) :=
  let t := termsOf r r.fmt cb a b
  (segments r (boundary m s)).map fun seg =>
    let is := segActives r (governing m s) seg
    if r.fmt ≤ 3 then (foldInt f (fmtWidth r.fmt) t is, 0) else foldFp f (f.result r.fmt) r.rm seg.1 t is

/-- Registers of the destination group of a reduction with results of `rw` bits (09 R202). -/
def foldGroup (r : Regs) (rw : Nat) : Nat := max 1 (r.vlmax * rw / 16384)

/-- The flags of all results together. -/
def flagUnion (rs : List (Nat × Nat)) : Nat := rs.foldl (fun a p => a ||| p.2) 0

/-- Writes the results of a reduction at positions 0 on of the group at v[d] (09 R202, R205, R192). -/
def putResults (d : BitVec 5) (rw : Nat) (rs : List (Nat × Nat)) : M Unit :=
  modRegs fun r => ((rs.zipIdx.foldl (fun q p => q.setElem d rw p.2 p.1.1) r).rezero d rw 0 rs.length
    |>.accrue (flagUnion rs)).vecDone false false

/-- The body of a reduction (09 R201-R205): `cb` is the format of vb and `bOk` its placement. -/
def foldBody (w : Word) (f : Fold) (cb : Nat) (bOk : Bool) (d a b : BitVec 5) (m : BitVec 4) (s : Bool) : M Unit := do
  let r ← regs
  let rw := fmtWidth (f.result r.fmt)
  let gd := foldGroup r rw
  ensure (f.accepts r.fmt && r.groupOk a && (!f.two || bOk) && groupOk gd d) .illegal w
  guardMask m
  guardRegs 0 d.toNat gd
  let act := r.actives (governing m s)
  needElems a (fmtPlace r.fmt) act
  if f.two then needElems b (fmtPlace cb) act
  match foldToken r.fmt cb f.two (termsOf r r.fmt cb a b) act with
  | some x => raise .verdictOperand (BitVec.ofNat 64 x)
  | none =>
    let rs := foldSegments f r cb a b m s
    if r.traps (flagUnion rs) then raise .fp (BitVec.ofNat 64 (flagUnion rs)) else putResults d rw rs

/-- A reduction whose operands both have VTYPE's format. -/
def foldSame (w : Word) (f : Fold) (d a b : BitVec 5) (m : BitVec 4) (s : Bool) : M Unit := do
  let r ← regs
  foldBody w f r.fmt (r.groupOk b) d a b m s

/-- Registers of the group of vb of VR.DOTB: VLMAX ÷ 1,024, at least 1 (09 R204). -/
def dotbGroup (r : Regs) : Nat := max 1 (r.vlmax / 1024)

/-- VR.DOTB: vb in BFP of k + 2 bits (09 R204). -/
def dotbBody (w : Word) (d a b : BitVec 5) (m : BitVec 4) (s : Bool) (k : BitVec 3) : M Unit := do
  let r ← regs
  foldBody w .dotb (16 + k.toNat) (groupOk (dotbGroup r) b) d a b m s

/-! ### Scans (08 R175, 09 R202, R203, R205) -/

/-- The result of a scan at the last of the elements `is` of its segment (08 R175). -/
def scanAt (r : Regs) (greatest : Bool) (lo : Nat) (t : Terms) (is : List Nat) : Nat × Nat :=
  let f := if greatest then Fold.max else Fold.sum
  if r.fmt ≤ 3 then (foldInt f (fmtWidth r.fmt) t is, 0) else foldFp f r.fmt r.rm lo t is

/-- The results of a scan: element, bits, flags. -/
def scanResults (r : Regs) (greatest : Bool) (a : BitVec 5) (m : BitVec 4) (s : Bool) : List (Nat × Nat × Nat) :=
  let t := termsOf r r.fmt r.fmt a a
  (segments r (boundary m s)).flatMap fun seg =>
    let is := segActives r (governing m s) seg
    is.map fun i => (i, scanAt r greatest seg.1 t (is.filter fun j => decide (j ≤ i)))

/-- The body of a scan. -/
def scanBody (w : Word) (greatest : Bool) (d a : BitVec 5) (m : BitVec 4) (s : Bool) : M Unit := do
  let r ← regs
  let k := fmtWidth r.fmt
  ensure (decide (r.fmt ≤ 7) && r.groupOk a && r.groupOk d) .illegal w
  guardMask m
  guardRegs 0 d.toNat (r.writes (fmtPlace r.fmt))
  let act := r.actives (governing m s)
  needElems a k act
  match foldToken r.fmt r.fmt false (termsOf r r.fmt r.fmt a a) act with
  | some x => raise .verdictOperand (BitVec.ofNat 64 x)
  | none =>
    let rs := scanResults r greatest a m s
    let fl := flagUnion (rs.map (·.2))
    if r.traps fl then raise .fp (BitVec.ofNat 64 fl)
    else modRegs fun q => ((rs.foldl (fun q p => q.setElem d k p.1 p.2.1) q).rezero d k r.vstart.toNat r.vl.toNat
      |>.accrue fl).vecDone false false

/-! ### VR.LASTA (10 R223) -/

/-- The body of VR.LASTA. -/
def lastaBody (w : Word) (d a : BitVec 5) (m : BitVec 4) : M Unit := do
  let r ← regs
  ensure (decide (r.fmt ≤ 10) && r.groupOk a) .illegal w
  guardMask m
  match (r.actives m).getLast? with
  | some i =>
    needElems a (fmtWidth r.fmt) [i]
    putX d (BitVec.ofNat 64 (r.elem a (fmtWidth r.fmt) i))
  | none => pure ()
  modRegs (·.vecDone false false)

/-- VR_SUM (09 R201-R205). -/
def execVrSum (d a : BitVec 5) (m : BitVec 4) (s : Bool) (st : State) : Out :=
  let w := tvalWord (encode (.vrSum d a m s))
  vecRun (vecEntry w m) (foldSame w .sum d a 0 m s) st

/-- VR_MAX (09 R201-R205). -/
def execVrMax (d a : BitVec 5) (m : BitVec 4) (s : Bool) (st : State) : Out :=
  let w := tvalWord (encode (.vrMax d a m s))
  vecRun (vecEntry w m) (foldSame w .max d a 0 m s) st

/-- VR_MIN (09 R201-R205). -/
def execVrMin (d a : BitVec 5) (m : BitVec 4) (s : Bool) (st : State) : Out :=
  let w := tvalWord (encode (.vrMin d a m s))
  vecRun (vecEntry w m) (foldSame w .min d a 0 m s) st

/-- VR_MAXU (09 R201-R205). -/
def execVrMaxu (d a : BitVec 5) (m : BitVec 4) (s : Bool) (st : State) : Out :=
  let w := tvalWord (encode (.vrMaxu d a m s))
  vecRun (vecEntry w m) (foldSame w .maxu d a 0 m s) st

/-- VR_MINU (09 R201-R205). -/
def execVrMinu (d a : BitVec 5) (m : BitVec 4) (s : Bool) (st : State) : Out :=
  let w := tvalWord (encode (.vrMinu d a m s))
  vecRun (vecEntry w m) (foldSame w .minu d a 0 m s) st

/-- VR_AND (09 R201-R205). -/
def execVrAnd (d a : BitVec 5) (m : BitVec 4) (s : Bool) (st : State) : Out :=
  let w := tvalWord (encode (.vrAnd d a m s))
  vecRun (vecEntry w m) (foldSame w .and d a 0 m s) st

/-- VR_OR (09 R201-R205). -/
def execVrOr (d a : BitVec 5) (m : BitVec 4) (s : Bool) (st : State) : Out :=
  let w := tvalWord (encode (.vrOr d a m s))
  vecRun (vecEntry w m) (foldSame w .or d a 0 m s) st

/-- VR_XOR (09 R201-R205). -/
def execVrXor (d a : BitVec 5) (m : BitVec 4) (s : Bool) (st : State) : Out :=
  let w := tvalWord (encode (.vrXor d a m s))
  vecRun (vecEntry w m) (foldSame w .xor d a 0 m s) st

/-- VR_MAXABS (09 R201-R205). -/
def execVrMaxabs (d a : BitVec 5) (m : BitVec 4) (s : Bool) (st : State) : Out :=
  let w := tvalWord (encode (.vrMaxabs d a m s))
  vecRun (vecEntry w m) (foldSame w .maxabs d a 0 m s) st

/-- VR_DOT (09 R201-R205). -/
def execVrDot (d a b : BitVec 5) (m : BitVec 4) (s : Bool) (st : State) : Out :=
  let w := tvalWord (encode (.vrDot d a b m s))
  vecRun (vecEntry w m) (foldSame w .dot d a b m s) st

/-- VR_DOTU (09 R201-R205). -/
def execVrDotu (d a b : BitVec 5) (m : BitVec 4) (s : Bool) (st : State) : Out :=
  let w := tvalWord (encode (.vrDotu d a b m s))
  vecRun (vecEntry w m) (foldSame w .dotu d a b m s) st

/-- VR_DOTB (09 R201-R205). -/
def execVrDotb (d a b : BitVec 5) (m : BitVec 4) (s : Bool) (k : BitVec 3) (st : State) : Out :=
  let w := tvalWord (encode (.vrDotb d a b m s k))
  vecRun (vecEntry w m) (dotbBody w d a b m s k) st

/-- VR_SCAN (09 R201-R203, R205). -/
def execVrScan (d a : BitVec 5) (m : BitVec 4) (s : Bool) (st : State) : Out :=
  let w := tvalWord (encode (.vrScan d a m s))
  vecRun (vecEntry w m) (scanBody w false d a m s) st

/-- VR_SCANMAX (09 R201-R203, R205). -/
def execVrScanmax (d a : BitVec 5) (m : BitVec 4) (s : Bool) (st : State) : Out :=
  let w := tvalWord (encode (.vrScanmax d a m s))
  vecRun (vecEntry w m) (scanBody w true d a m s) st

/-- VR_LASTA (10 R223). -/
def execVrLasta (d a : BitVec 5) (m : BitVec 4) (st : State) : Out :=
  let w := tvalWord (encode (.vrLasta d a m))
  vecRun (vecEntry w m) (lastaBody w d a m) st

end Sys2Proof.Machine
end

