-- ==== Sys2Proof/Machine/Collective.lean ====
section
/-! DEFINITION. Collectives: CE.COLL, segments that arrive, what a run computes and writes, and membership (25 R401-R409). -/
namespace Sys2Proof.Machine

/-! ### What a collective computes (25 R405) -/

/-- round(S) or round(S ÷ n) of the members' elements, in ascending rank (25 R405). -/
def sumFloat (c : Nat) (mean : Bool) (vs : List Nat) : Nat :=
  let xs := vs.map (fpDecode c)
  match pickNan c xs (opposite xs) with
  | some p => p.1
  | none =>
    let v := (fpSum false xs).getD (.zero false)
    let q := match v with
      | .fin s m e _ => if mean && m != 0 then divFin s false m e vs.length 0 else v
      | _ => v
    (fpRound c 0 0 q).1

/-- The least or the greatest element, as SF.MIN and SF.MAX (25 R405). -/
def minMaxFloat (c : Nat) (greater : Bool) (vs : List Nat) : Nat :=
  match pickNan c (vs.map (fpDecode c)) false with
  | some p => p.1
  | none => match vs with
    | [] => 0
    | v :: r => r.foldl (fun a b => (fpMinMax c greater a b).1) v

/-- red on integers of `w` bits: signed, exact, wrapped once; MEAN truncates toward zero (25 R405; log 30). DEDUCED -/
def redInt (w rop : Nat) (vs : List Nat) : Nat :=
  let xs := vs.map (sintW w)
  let r : Int := match rop with
    | 1 => (leastInt xs).getD 0
    | 2 => (greatestInt xs).getD 0
    | 3 => (xs.foldl (· + ·) 0).tdiv vs.length
    | _ => xs.foldl (· + ·) 0
  wrapW w r

/-- red of one element of every member, in ascending rank (25 R405). -/
def red (fmt rop : Nat) (vs : List Nat) : Nat :=
  if fmt = 2 then redInt 32 rop vs
  else if fmt = 3 then redInt 64 rop vs
  else if rop = 1 || rop = 2 then minMaxFloat fmt (rop == 2) vs
  else sumFloat fmt (rop == 3) vs

/-- What the member of rank `r` writes: offsets in elements from DST, and the elements, by member and number, that each comes from
(25 R405). -/
def collSources (op n r count : Nat) : List (Nat × List (Nat × Nat)) :=
  let all (i : Nat) : List (Nat × Nat) := (List.range n).map fun m => (m, i)
  match op with
  | 0 => (List.range count).map fun i => (i, all i)
  | 1 =>
    let b := (count + n - 1) / n
    (List.range (min b (count - r * b))).map fun j => (j, all (r * b + j))
  | _ => (List.range n).flatMap fun m => (List.range count).map fun i => (m * count + i, [(m, i)])

/-- An element of the result from the elements that it comes from: reduced, or gathered (25 R405). -/
def collValue (op fmt rop : Nat) (vs : List Nat) : Nat := if op ≤ 1 then red fmt rop vs else vs.headD 0

/-! ### Segments (25 R398, R405) -/

/-- A span put into a list of spans by rising offset. -/
def putSpan (f : Nat × Nat) : List (Nat × Nat) → List (Nat × Nat)
  | [] => [f]
  | g :: r => if f.1 ≤ g.1 then f :: g :: r else g :: putSpan f r

/-- How far spans reach from 0 without a gap. -/
def spansReach (l : List (Nat × Nat)) : Nat := l.foldl (fun n f => if f.1 ≤ n then max n (f.1 + f.2) else n) 0

/-- The run with bytes of a member's source. -/
def addSegment (rank off : Nat) (bs : List Byte) (r : CollRun) : CollRun :=
  let g := (r.segs.find? (·.rank == rank)).getD ⟨rank, [], []⟩
  { r with segs := ⟨rank, memWrite g.bytes off bs, putSpan (off, bs.length) g.spans⟩ :: r.segs.filter (·.rank != rank) }

/-- Rank of a package in a group (25 R404). -/
def rankOf (g : Group) (p : BitVec 11) : Nat := g.members.findIdx (· == p)

/-- What a run's accesses are translated under (25 R403). -/
def CollRun.xl (r : CollRun) : Xl := ⟨r.ten, r.asid, r.ptb, !r.sup⟩

/-- The bytes `o` to `o + n` of member `m`'s source have arrived, or, of the run's own, have been read. -/
def CollRun.has (r : CollRun) (m o n : Nat) : Bool :=
  r.segs.any fun g => g.rank == m && (List.range n).all fun i => g.spans.any fun f => decide (f.1 ≤ o + i) && decide (o + i < f.1 + f.2)

/-- Element `i` of member `m`'s source, as far as it has come. -/
def CollRun.elem (r : CollRun) (m i : Nat) : Nat :=
  let n := collBytes r.fmt.toNat
  match r.segs.find? (·.rank == m) with
  | some g => leNat (memRead g.bytes (i * n) n)
  | none => 0

/-! ### What a run reads and writes (25 R405, R409) -/

/-- The run reads byte `o` of its own source, unless it has read it. -/
def collByte (own : Nat) (r : CollRun) (o : Nat) : EM CollRun := do
  if r.has own o 1 then return r
  let bs ← engRead 3 r.ctxid r.xl false (r.src + BitVec.ofNat 64 o) 1
  return addSegment own o bs r

/-- The run reads those of the bytes of its own source that `want` names, in order. -/
def collFetch (own : Nat) (want : Nat → Bool) (r : CollRun) : EM CollRun :=
  ((List.range (r.count * collBytes r.fmt.toNat)).filter want).foldlM (collByte own) r

/-- The run writes those elements of its destination that `want` names by their place in the result and whose sources it has. -/
def collWrite (n own : Nat) (want : Nat → Bool) (r : CollRun) : EM Unit := do
  let w := collBytes r.fmt.toNat
  (collSources r.op.toNat n own r.count).zipIdx.forM fun p => do
    if want p.2 && p.1.2.all fun q => r.has q.1 (q.2 * w) w then
      let v := collValue r.op.toNat r.fmt.toNat r.rop.toNat (p.1.2.map fun q => r.elem q.1 q.2)
      engWrite 3 r.ctxid r.xl false (r.dst + BitVec.ofNat 64 (p.1.1 * w)) (leBytes w v)

/-- The reads and writes of a run for the group: the run as it then stands. -/
def collMove (g : Group) (reads writes : Nat → Bool) (r : CollRun) : EM CollRun := do
  let own := rankOf g (← get).pkg
  let r1 ← collFetch own reads r
  collWrite g.members.length own writes r1
  return r1

/-- What a run that is in progress does at its events, beside them: it reads bytes of its source, and writes elements of its destination
whose sources have come. The oracle names both, each a bit of a number, and no bit when it gives none, so that a byte of the source
contributes what it held at any of the run's events, and a value of an attempt that is abandoned can stand in the destination (25 R409;
log 30). DEDUCED -/
def collEarly (g : Group) (r : CollRun) (s : State) : State :=
  let (k, s1) := s.choice
  let (j, s2) := s1.choice
  if k = 0 && j = 0 then s2 else
  match collMove g k.testBit j.testBit r s2 with
  | .ok q s3 => s3.putRun q
  | .error (.fail c a) s3 => failRun r c (a.setWidth 49) s3
  | .error .hold _ => s2

/-- A segment from another member for a run of the focused core: 25 R398 gives COLL messages no layout, and the model's is group,
operation, format and epoch in bytes 0 to 7, index in 8 to 15, COUNT in 16 to 23, offset in 24 to 31, source bytes from 32
(log 30). DESIGN CHOICE. Other parameters than the run's fail it with MISMATCH (25 R408). -/
def segmentFor (m : Msg) (g : Group) (r : CollRun) (s : State) : State :=
  let n := collBytes r.fmt.toNat
  if msgAt m 1 1 != r.op.toNat || msgAt m 2 1 != r.fmt.toNat || msgAt m 16 8 != r.count then failGroup r 0x0F s
  else
    let off := msgAt m 24 8
    let q := addSegment (rankOf g (m.src.setWidth 11)) off ((m.payload.drop 32).take (r.count * n - off)) r
    collEarly g q (s.putRun q)

/-- COLL (25 R405): a segment for no run in progress is not taken yet. -/
def execColl (m : Msg) (st : State) : Out :=
  .next (match st.groupOf (msgAt m 0 1) with
    | none => st
    | some g =>
      match st.runs.find? fun r => r.core == st.cur && r.run == .running && r.group == g.num && r.index == msgAt m 8 8 &&
          r.epoch.toNat == msgAt m 4 4 with
      | some r =>
        if msgClean m && g.members.elem (m.src.setWidth 11) && m.src.toNat < 2048 && m.src.setWidth 11 != st.pkg then segmentFor m g r st
        else st
      | none => st)

/-! ### The end of a run (25 R405-R409) -/

/-- Every other member's source has arrived. -/
def CollRun.complete (r : CollRun) (n own : Nat) : Bool :=
  (List.range n).all fun m => m == own ||
    r.segs.any fun g => g.rank == m && decide (r.count * collBytes r.fmt.toNat ≤ spansReach g.spans)

/-- The status word of a run (25 R406). -/
def collStatus (r : CollRun) (n own : Nat) : Word :=
  0#7 ++ BitVec.ofBool r.shrunk ++ 0#8 ++ r.epoch.setWidth 16 ++ BitVec.ofNat 16 n ++ BitVec.ofNat 16 own

/-- A run that ends: it reads what it has not read of its source, and writes its destination whole. -/
def endRun (r : CollRun) (g : Group) (s : State) : State :=
  let n := g.members.length
  let own := rankOf g s.pkg
  match collMove g (fun _ => true) (fun _ => true) r s with
  | .ok q s1 => recordRun r 0 1 (s1.putRun { q with run := .ended, result := collStatus r n own })
  | .error (.fail c a) s1 => failRun r c (a.setWidth 49) s1
  | .error .hold _ => s

/-- The group of a run of the focused core that has every member's source (25 R405). -/
def CollRun.ready (s : State) (r : CollRun) : Option Group :=
  if r.core == s.cur && r.run == .running then
    (s.groupOf r.group).filter fun g => r.complete g.members.length (rankOf g s.pkg)
  else none

/-- COLLECTIVE_COMPLETE (25 R403, R405, R406): a run of the focused core that has every member's source ends; of two, one of which
belongs to a context that is not bound there, the oracle chooses (log 1). -/
def execCollectiveComplete (st : State) : Out :=
  .next (match st.runs.filterMap fun r => (r.ready st).map fun g => (r, g) with
    | [] => st
    | [p] => endRun p.1 p.2 st
    | p :: ps =>
      let (k, s1) := st.choice
      let q := (p :: ps).getD k p
      endRun q.1 q.2 s1)

/-! ### CE.COLL (25 R401-R404) -/

/-- The run that a record starts (25 R402-R404). A group that does not exist, or of which the package is no member, fails the
run at once. -/
def startRun (bs : List Byte) (op : BitVec 3) (s : State) : State :=
  let w (k : Nat) : Word := BitVec.ofNat 64 (leNat ((bs.drop (8 * k)).take 8))
  let g := (w 3).extractLsb' 16 8 |>.toNat
  let r := s.core.regs
  let serial := nextSerial (s.engine 3).serial
  let k := s.groupOf g
  let run : CollRun := {
    core := s.cur, ctxid := s.core.slot.ctxid, serial := serial, ten := r.ten, asid := r.asid, ptb := r.ptb, sup := !r.user
    op := op, src := w 0, dst := w 1, count := (w 2).toNat, fmt := (w 3).extractLsb' 0 8, rop := (w 3).extractLsb' 8 3
    group := g, index := (k.map (·.begun)).getD 0, epoch := (k.map (·.epoch)).getD 0
    shrunk := false, segs := [], run := .running, result := 0 }
  let s1 := s.mapEngine 3 fun e => { e with serial := serial, run := .running }
  let s2 := recordRun run 0 0 (s1.putRun run)
  match k with
  | some q => collEarly q run (beginGroup g s2)
  | none => failGroup run 0x0E s2

/-- The record of a CE.COLL, read in the singleton chunk that the instruction is (14 R282; 25 R403 step 1): the answers of a remote
one, else its bytes. -/
def collRead (w va : Word) : M (List Byte) := do
  if (← get).core.wait == some .remote then takeRemote else
  endChunkM 2
  match ← planAccess w .load va 64 with
  | .error (c, t) => raise c t
  | .ok pl =>
    guardWindows false pl.pieces
    needHbm pl.pieces
    needClean pl.pieces
    if pl.pieces.any (·.place == .remote) then remoteRead pl.pieces else
    let s ← get
    return pl.pieces.flatMap (directRead s)

/-- CE.COLL (25 R403). The singleton chunk of a remote record has committed before its messages. -/
def collBody (w : Word) (d a : BitVec 5) (op : BitVec 3) : M Unit := do
  let s ← get
  let va := s.x a
  ensure (va.extractLsb' 0 6 == 0) .align va
  let bs ← collRead w va
  ensure ((← get).engine 3).run.idle? .badHandle 3
  ensure (collOk bs) .illegal va
  if s.core.wait != some .remote then singleM 2 []
  modify (startRun bs op)
  putX d (((← get).engine 3).handle 3)

/-- CE_COLL (25 R401-R403). -/
def execCeColl (d a : BitVec 5) (o : BitVec 3) (st : State) : Out := run (collBody ((wordCeColl d a o).setWidth 64) d a o) st

/-! ### Membership (25 R404, R407) -/

/-- A run of the group is in progress. -/
def groupRuns (g : Nat) (s : State) : Bool := s.runs.any fun r => r.group == g && r.run == .running

/-- The package ids of a GROUP-SET with the ranks they stand at: bytes 24 to 31 the first rank, then two bytes each (log 27), of which the
low 11 bits are the id (log 93). DESIGN CHOICE -/
def groupIds (m : Msg) (n : Nat) : List (Nat × BitVec 11) :=
  let first := msgAt m 24 8
  (List.range (min ((m.payload.length - 32) / 2) (n - first))).map fun j => (first + j, BitVec.ofNat 11 (msgAt m (32 + 2 * j) 2))

/-- A membership entry written; EPOCH advances by one at each change (25 R404). -/
def setGroup (g : Nat) (val : Bool) (members : List (BitVec 11)) (s : State) : State :=
  let epoch := ((s.groups.find? (·.num == g)).map (·.epoch)).getD 0
  { s with groups := s.groups.filter (·.num != g) ++ [⟨g, val, epoch + 1, members, 0⟩] }

/-- GROUP-SET (25 R404): bytes 8 to 15 the group, 16 to 23 its entry, then ids; a list that takes more than one message comes in
parts that share one TAG, and the reply follows the part that completes it (log 27). DESIGN CHOICE -/
def groupSetOp (m : Msg) (s : State) : Served :=
  let g := msgAt m 8 8
  let entry : Word := BitVec.ofNat 64 (msgAt m 16 8)
  let val := entry.getLsbD 63
  let n := if val then (entry.extractLsb' 32 12).toNat else 0
  let old := (s.setting.find? fun j => j.src == m.src && j.tag == m.tag).getD ⟨m.src, m.tag, g, entry, []⟩
  let s1 := { s with setting := s.setting.filter fun j => !(j.src == m.src && j.tag == m.tag) }
  if 256 ≤ g || entry.extractLsb' 44 19 != 0 || (val && (n == 0 || decide (2048 < n))) || old.num != g || old.entry != entry then
    served 0xFF s1
  else if groupRuns g s then served 0x02 s1
  else
    let ids := (groupIds m n).foldl (fun l p => keyPut l p.1 p.2) old.ids
    if ids.length < n then (none, { s1 with setting := s1.setting ++ [{ old with ids := ids }] })
    else served 0 (setGroup g val (ids.map (·.2)) s1)

/-- What a run that is in progress does at an event of another core: it reads and writes as the engine of its own core (25 R403, R409; 14
R289). -/
def collEarlyAt (g : Group) (r : CollRun) (s : State) : State := onCore (r.core % 144) (collEarly g r) s

/-- A run of a group that has lost a member starts again, and its new attempt, like the old one, may read and write at once; that of the
member fails with EXPELLED (25 R407-R409). -/
def shrinkRun (g : Group) (own : Bool) (s : State) (r : CollRun) : State :=
  if r.group != g.num || r.run != .running then s
  else if own then failGroup r 0x10 s
  else
    let s1 := collEarlyAt g r s
    if s1.runs.any fun q => q.ctxid == r.ctxid && q.run == .running then
      let q : CollRun := { r with segs := [], epoch := g.epoch + 1, shrunk := true }
      match s1.groupOf g.num with
      | some k => collEarlyAt k q (s1.putRun q)
      | none => s1.putRun q
    else s1

/-- MEMBER_FAIL's effect (25 R407). An entry that loses its last member stays, with VAL = 1 and no members (log 99). DESIGN CHOICE -/
def memberFail (g : Nat) (p : BitVec 11) (s : State) : State :=
  match s.groups.find? fun k => k.num == g && k.val && k.members.elem p with
  | none => s
  | some k =>
    let s1 := { s with groups := s.groups.map fun x =>
      if x.num == g then { x with members := x.members.filter (· != p), epoch := x.epoch + 1 } else x }
    s.runs.foldl (shrinkRun k (p == s.pkg)) s1

/-- MEMBER-FAIL (25 R407): bytes 8 to 15 the group, 16 to 23 the package (log 27), of which the low 11 bits
are the id (log 93). DESIGN CHOICE. One that names no entry with VAL = 1 of which the package is a member changes nothing and answers STAT 0
(log 99). DESIGN CHOICE -/
def memberFailOp (m : Msg) (s : State) : Served :=
  served 0 (memberFail (msgAt m 8 8) (BitVec.ofNat 11 (msgAt m 16 8)) s)

end Sys2Proof.Machine
end

