-- ==== Sys2Proof/Machine/VecMem.lean ====
section
/-! DEFINITION. Vector loads, gathers and tensor loads: majors VL, VG and TL (07 R144-R160), and what their stores share with
them. -/
namespace Sys2Proof.Machine

/-! ### Elements in memory (07 R146, R147) -/

/-- Bytes that an element accesses: a whole block for BFP (07 R146). -/
def elemBytes (c : Nat) : Nat := if isBfp c then 4 * (bfpBits c + 1) else if c = 10 then 1 else fmtWidth c / 8
/-- The unit-stride address of element `i` (07 R146). -/
def unitAddr (base : Word) (c i : Nat) : Word :=
  base + BitVec.ofNat 64 (if isBfp c then elemBytes c * (i / 32) else if c = 10 then i / 2 else elemBytes c * i)
/-- The strided address of element `i` (07 R146). -/
def strideAddr (base stride : Word) (i : Nat) : Word := base + stride * BitVec.ofNat 64 i

/-- The registers with element `i` of the group at v[d] loaded from the bytes it accesses (07 R146, R147). -/
def putElem (c : Nat) (d : BitVec 5) (i : Nat) (bs : List Byte) (r : Regs) : Regs :=
  if isBfp c then
    let m := bfpBits c
    let src := leNat bs
    r.setBlock d (i / 32) (mixBits (planeBits m (i % 32)) (withHeader m (r.block d (i / 32)) (src % 2 ^ 32)) src)
  else if c = 10 then r.setElem d 4 i (leNat bs / 2 ^ (4 * (i % 2)) % 16)
  else r.setElem d (fmtWidth c) i (leNat bs)

/-! ### Plans of the elements (07 R148, R149) -/

/-- What the elements access: address and bytes of each, and a check that comes before its page's. -/
structure ElemAccess where
  addr  : Nat → Word
  n     : Nat → Nat
  check : Nat → Option (Cause × Word)

/-- How an access is made: as a load or a store, with its O and P bits, whether its elements are whole bytes, and whether a PREEMPT
may stop it at any element, not at an active one alone (07 R149, R150, R154; 13 R261). -/
structure Mode where
  acc   : Acc
  ord   : Bool
  late  : Bool
  whole : Bool
  any   : Bool
  deriving DecidableEq, Repr

/-- The pieces of element `i`, or the check that fails (07 R149 steps 1 to 4). -/
def ElemAccess.pieces (ac : ElemAccess) (k : Acc) (i : Nat) : M (Except (Cause × Word) (List Piece)) := do
  match ac.check i with
  | some e => return .error e
  | none => xlAccess (← get).core.xl k (ac.addr i) (ac.n i)

/-- The plans of elements in order up to the first that fails, and that one with its cause and value (07 R148, R149). -/
def planElems (md : Mode) (ac : ElemAccess) : List Nat → M (List (Nat × Plan) × Option (Nat × Cause × Word))
  | [] => return ([], none)
  | i :: is => do
    match ← ac.pieces md.acc i with
    | .error e => return ([], some (i, e))
    | .ok ps =>
      match planChecks (← get).cur md.acc (ac.addr i) (ac.n i) md.ord md.whole ps with
      | .error e => return ([], some (i, e))
      | .ok pl =>
        let p ← planElems md ac is
        return ((i, pl) :: p.1, p.2)

/-- The mask and tile state that the elements use through register windows, up to the first that fails (17 R348, 04 R75). -/
def elemKinds (md : Mode) (ac : ElemAccess) : List Nat → M (Bool × Bool)
  | [] => return (false, false)
  | i :: is => do
    match ← ac.pieces md.acc i with
    | .error _ => return (false, false)
    | .ok ps =>
      let s ← get
      let u := windowKinds s.cur ps
      match planChecks s.cur md.acc (ac.addr i) (ac.n i) md.ord md.whole ps with
      | .error _ => return u.2
      | .ok _ =>
        let v ← elemKinds md ac is
        return (u.2.1 || v.1, u.2.2 || v.2)

/-- What a body would find, seen from a state that it leaves as it stands. -/
def peek (m : M (Bool × Bool)) (s : State) : Bool × Bool :=
  match m s with
  | .ok u _ => u
  | .error .. => (false, false)

/-- Runs a vector memory instruction: the state that it uses through windows, as `sight` finds it, is checked with its own
(02 R26 step 7, 17 R348). One that waits for a remote element performs that element first, by `resume`: its access has been made, and no
check stands before it any more (14 R282, R293). -/
def memRun (e : Entry) (resume : M Unit) (sight : M (Bool × Bool)) (body : M Unit) (s : State) : Out :=
  if s.core.wait == some .remote then
    match resume s with
    | .ok _ s1 => vecRun (e.using (peek sight s1)) body s1
    | .error x s1 => vecBody (throw x) s1
  else vecRun (e.using (peek sight s)) body s

/-- A plan reads a poisoned line (17 R356). -/
def Plan.poisoned (s : State) (pl : Plan) : Bool := (memLines pl.pieces).any fun l => s.poisoned (64 * l)

/-- VL.LDFF: a poisoned element that is not the first trims like a fault (07 R149). -/
def cutPoison (s : State) (first : Option Nat) (p : List (Nat × Plan) × Option (Nat × Cause × Word)) :
    List (Nat × Plan) × Option (Nat × Cause × Word) :=
  match p.1.find? fun e => some e.1 != first && e.2.poisoned s with
  | some e => (p.1.takeWhile (·.1 != e.1), some (e.1, .machineCheck, 0))
  | none => p

/-! ### How the elements of one instruction fall into chunks (14 R281, R282) -/

/-- What an element's access is: part of the chunk, of a singleton chunk over windows, a singleton chunk of its own on a device page,
or an access with remote bytes (14 R282; log 67). DEDUCED -/
inductive Way where
  | inside | window | device | remote
  deriving DecidableEq, Repr

/-- The way of a plan. -/
def Plan.way (pl : Plan) : Way :=
  if pl.pieces.any (·.place == .remote) then .remote
  else if !pl.single then .inside
  else if pl.pieces.any (·.device) then .device else .window

/-- What a vector memory instruction leaves at element `k`: `close` gives the zero maps of the registers up to there. -/
def standElem (close : Nat → Regs → Regs) (k : Nat) : M Unit := modRegs fun r => (close k r).standAt k

/-- The chunk ends inside the instruction, at element `k`, and the instruction goes on in the next (14 R281). -/
def splitAt (close : Nat → Regs → Regs) (k : Nat) (reason : BitVec 4) : M Unit := do
  standElem close k
  newChunkM reason

/-- The chunk before element `k` commits with what stands below `k` (14 R282). -/
def commitBelow (close : Nat → Regs → Regs) (k : Nat) : M Unit := do
  standElem close k
  endChunkM 2

/-- A singleton chunk for element `k`, which writes the lines `wl` (14 R282). -/
def singleAt (close : Nat → Regs → Regs) (k : Nat) (wl : List Nat) : M Unit := do
  commitBelow close k
  singleM 2 wl

/-- An element of the instruction has been performed in the chunk, which has used the instruction's fetch, the translations `fx`
(14 R281, R284; 03 R61). -/
def beginElem (fx : List Tlb) (f : Chunk → Chunk) : M Unit :=
  modify fun s => s.mapChunk fun ch =>
    { f ch with begun := true, used := fx.foldl (fun u t => if u.elem t then u else t :: u) (f ch).used }

/-- The core is inside its instruction when its UNBIND reaches it: between its elements, or while it waits for a remote one or for its turn
to go on (16 R333). -/
def Core.cuts (c : Core) : Bool := (c.inside || !c.boundary) && c.slot.state == .unbinding && c.regs.user

/-- Where an instruction over the active elements `act` may stop at or above element `k`, of those up to `hi`: at an active element,
below which everything has arrived, or at `hi` (07 R154). -/
def nextActive (act : List Nat) (hi k : Nat) : Nat := min hi ((act.find? fun i => decide (k ≤ i)).getD hi)

/-- The element at which a PREEMPT stops an instruction over the elements `lo` to `hi`, if it stops inside: the oracle chooses
(07 R154, 11 R236, 13 R266; log 61). `place` tells where a stop may stand. VSTART holds no number above 4,095 (07 R136): an instruction
that has no element left below it completes. -/
def cutPoint (place : Nat → Nat) (lo hi : Nat) : M (Option Nat) := do
  if !(← get).core.cuts then return none
  match ← oracle with
  | 0 => return none
  | k + 1 =>
    let p := place (lo + k % (hi - lo + 1))
    return if p < 4096 then some p else none

/-- The elements below a stop. -/
def belowStop (ps : List (Nat × Plan)) : Option Nat → List (Nat × Plan)
  | some k => ps.filter (·.1 < k)
  | none => ps

/-- What the accesses of an instruction need before the first of them: open registers, presence bits, HBM, clean data, and no
pending commutative update under them (05 R100, 27 R425, 17 R356, 13 R272). -/
def elemsReady (md : Mode) (ps : List Piece) : M Unit := do
  guardWindows (md.acc == .store) ps
  needHbm ps
  if md.acc == .load || !md.whole then needClean ps
  endIfCom ps

/-- The PREEMPT is taken at element `k` (07 R153, 13 R266); `halt` is where a load stands. -/
def cutAt (close : Nat → Regs → Regs) (k : Nat) (halt : Option Halt) : M Unit := do
  standElem close k
  modCore fun c => { c with halt := halt }
  throw .cut

/-! ### Loads -/

/-- Where the elements of a load go: `put` for one element, `close` for the zero maps up to an element, `lend` for the places of an
element's bytes, `halt` for where it stands at an element (07 R142, R143, R148, R150). -/
structure Dest where
  put   : Nat → List Byte → Regs → Regs
  close : Nat → Regs → Regs
  lend  : Nat → List Lend
  halt  : Nat → Option Halt

/-- The bytes of memory that a P = 1 load has read, with their physical addresses (07 R150). -/
def lendsOf (ps : List Piece) (ls : List Lend) : List Lend :=
  (ls.zip (ps.flatMap fun p => (List.range p.n).map fun i => (p.place == .mem, p.pa + i))).filterMap fun x =>
    if x.2.1 then some { x.1 with pa := x.2.2 } else none

/-- Reads the planned elements in order and writes each into its register; `shared` tells that a singleton chunk over windows is
open (07 R148, 14 R282). -/
def loadElems (md : Mode) (ds : Dest) (fx : List Tlb) : Bool → List (Nat × Plan) → M Unit
  | _, [] => return
  | shared, (i, pl) :: ps => do
    match pl.way with
    | .inside =>
      let bs ← insideRead pl.pieces
      modRegs (ds.put i bs)
      beginElem fx fun ch => if md.late then { ch with lends := lendsOf pl.pieces (ds.lend i) ++ ch.lends } else ch
      loadElems md ds fx false ps
    | .remote =>
      singleAt ds.close i []
      modify fun s => pl.pieces.foldl sendRead s
      await .remote
    | w =>
      if !(shared && w == .window) then singleAt ds.close i []
      let s ← get
      modRegs (ds.put i (pl.pieces.flatMap (directRead s)))
      standElem ds.close (i + 1)
      loadElems md ds fx (w == .window) ps

/-- The answer of the remote element for which a load waits, the first of those left (14 R293). -/
def resumeLoad (ds : Dest) : List Nat → M Unit
  | [] => return
  | i :: _ => do
    let bs ← takeRemote
    modRegs (ds.put i bs)
    standElem ds.close (i + 1)

/-- VL trimmed to the element that fails, if one trims: before the reads, as 07 R148 has it, so that a load which is pre-empted or
waits leaves it trimmed (log 69). DEDUCED -/
def trimVl (trim : Option (Nat × Cause × Word)) : M Unit :=
  match trim with
  | some f => modRegs fun r => { r with vl := BitVec.ofNat 64 f.1 }.dirty true false false
  | none => pure ()

/-- Where a load or store of mode `md` over the active elements `act` up to `hi` may stop for a PREEMPT: anywhere with all below it
performed, or, as 07 R154 and 13 R266 have it for O = 0 loads and for stores, at an element that is still to be performed. -/
def Mode.stops (md : Mode) (act : List Nat) (hi : Nat) : Nat → Nat := if md.any then id else nextActive act hi

/-- The load of 07 R148 over the active elements `act`, of those from VSTART to `hi` − 1; `first` is the first active element at its start.
`trims` tells whether a RANGE element that is not the first trims VL, `ff` whether any does. -/
def loadRun (md : Mode) (first : Option Nat) (act : List Nat) (hi : Nat) (ff trims : Bool) (ac : ElemAccess) (ds : Dest) : M Unit := do
  let fx := (← get).core.fetched
  let p0 ← planElems md ac act
  let s ← get
  let p := if ff then cutPoison s first p0 else p0
  let trim := p.2.filter fun f => first != some f.1 && (ff || (trims && f.2.1 == .range))
  let fault := if trim.isSome then none else p.2
  let hi1 := ((trim.or fault).map (·.1)).getD hi
  let stop ← cutPoint (md.stops act hi1) (← regs).vstart.toNat hi1
  let todo := belowStop p.1 stop
  elemsReady md (todo.flatMap (·.2.pieces))
  trimVl trim
  loadElems md ds fx false todo
  match stop, fault with
  | some k, _ => cutAt ds.close k (ds.halt k)
  | none, some (k, c, t) =>
    standElem ds.close k
    modCore fun c => { c with halt := ds.halt k }
    raise c t
  | none, none => modRegs fun r => (ds.close hi1 r).vecDone false false

/-- A VQ entry of a vector access with its governing mask (17 R348). -/
def memEntry (w : Word) (m : BitVec 4) : Entry := ⟨w, true, m != 0, false, true, false⟩

/-- The formats of an access by element (07 R145, 13 R260). -/
def wideFmts (c : Nat) : Bool := decide (c ≤ 10) || isBfp c
/-- The formats of an access that takes neither .e2m1 nor BFP (07 R145, R156, R158). -/
def byteFmts (c : Nat) : Bool := decide (c ≤ 9)

/-- The checks of a load before its first access: format, groups, open registers, presence of the index group (07 R133, R145;
05 R100). -/
def loadGuard (w : Word) (ok : Nat → Bool) (d : BitVec 5) (m : BitVec 4) (vs : List (BitVec 5)) : M Unit := do
  let r ← regs
  elemGuard w (ok r.fmt) d m vs

/-- The zero maps after a load of elements `lo` to `hi` − 1 at v[d]: of the groups of those elements, or, under BFP, of the blocks
among them that are written because they hold an active element (07 R141, R143, R147). -/
def Regs.rezeroLoad (r : Regs) (d : BitVec 5) (act : List Nat) (lo hi : Nat) : Regs :=
  if isBfp r.fmt then
    (((act.filter fun i => decide (lo ≤ i ∧ i < hi)).map (· / 32)).eraseDups).foldl (·.rezeroOne d ·) r
  else r.rezero d (fmtPlace r.fmt) lo hi

/-- Where the bytes of element `i` go in the group at v[d]: a byte of `.e2m1` gives half of itself, a block its header and the plane
bits of the element (07 R146, R147). -/
def elemLends (c : Nat) (d : BitVec 5) (i : Nat) : List Lend :=
  let base := if isBfp c then 512 * (i / 32) else if c = 10 then 8 * (i / 2) else fmtWidth c * i
  let mask (j : Nat) : BitVec 8 :=
    if isBfp c then BitVec.ofNat 8 ((planeBits (bfpBits c) (i % 32) + (2 ^ 32 - 1)) >>> (8 * j))
    else if c = 10 then (if i % 2 = 0 then 0x0F else 0xF0) else 0xFF
  (List.range (elemBytes c)).map fun j => ⟨0, d.toNat + (base + 8 * j) / 16384, (base + 8 * j) % 16384, mask j⟩

/-- `n` registers from register `d`, a bit each. -/
def regSpan (d n : Nat) : BitVec 32 := BitVec.ofNat 32 ((2 ^ n - 1) <<< d)

/-- A load of elements below VL into the group at v[d] that stands at element `k` (07 R142). -/
def groupHalt (r : Regs) (d : BitVec 5) (k : Nat) : Halt :=
  ⟨d.toNat, regSpan d.toNat ((r.vl.toNat * fmtPlace r.fmt + 16383) / 16384), fmtPlace r.fmt, k⟩

/-- The group at v[d] as the destination of a load of the active elements `act` (07 R142, R143). -/
def groupDest (r : Regs) (d : BitVec 5) (act : List Nat) : Dest where
  put := putElem r.fmt d
  close := fun k q => q.rezeroLoad d act r.vstart.toNat k
  lend := elemLends r.fmt d
  halt := fun k => some (groupHalt r d k)

/-- How a load is made. -/
def loadMode (o p : Bool) : Mode := ⟨.load, o, p, true, o⟩

/-- A load by element into the group at v[d]. -/
def vecLoad (w : Word) (ok : Nat → Bool) (d : BitVec 5) (m : BitVec 4) (vs : List (BitVec 5)) (md : Mode) (ff : Bool)
    (ac : State → ElemAccess) : M Unit := do
  loadGuard w ok d m vs
  let s ← get
  let r := s.core.regs
  loadRun md (s.core.origin.actives m).head? (r.actives m) r.vl.toNat ff false (ac s) (groupDest r d (r.actives m))

/-- The remote element of a load by element into the group at v[d], for which it waits. -/
def vecResume (d : BitVec 5) (m : BitVec 4) : M Unit := do
  let r ← regs
  resumeLoad (groupDest r d (r.actives m)) (r.actives m)

/-- The state that a load or store by element uses through windows; an open mask or an index that is not present yet tells nothing. -/
def vecSight (w : Word) (ok : Nat → Bool) (m : BitVec 4) (vs : List (BitVec 5)) (md : Mode) (ac : State → ElemAccess) :
    M (Bool × Bool) := do
  let s ← get
  let r := s.core.regs
  ensure (ok r.fmt && vs.all r.groupOk) .illegal w
  guardMask m
  vs.forM fun v => needElems v (fmtPlace r.fmt) (r.actives m)
  elemKinds md (ac s) (r.actives m)

/-- Unit-stride elements at x[a]. -/
def unitAccess (a : BitVec 5) (s : State) : ElemAccess :=
  ⟨unitAddr (s.x a) s.core.regs.fmt, fun _ => elemBytes s.core.regs.fmt, fun _ => none⟩
/-- Strided elements at x[a] with stride x[b]. -/
def strideAccess (a b : BitVec 5) (s : State) : ElemAccess :=
  ⟨strideAddr (s.x a) (s.x b), fun _ => elemBytes s.core.regs.fmt, fun _ => none⟩
/-- Elements at x[a] and an index of vb, scaled by the element's bytes or not (07 R156); every index is read before any element is
written (07 R157). -/
def indexAccess (scaled : Bool) (a b : BitVec 5) (s : State) : ElemAccess :=
  let r := s.core.origin
  let n := elemBytes r.fmt
  ⟨fun i => s.x a + BitVec.ofNat 64 (r.elem b (fmtWidth r.fmt) i * (if scaled then n else 1)), fun _ => n, fun _ => none⟩

/-- VL_LD (07 R144-R150). -/
def execVlLd (d a : BitVec 5) (m : BitVec 4) (o p : Bool) (st : State) : Out :=
  let w := tvalWord (encode (.vlLd d a m o p))
  let md := loadMode o p
  memRun (memEntry w m) (vecResume d m) (vecSight w wideFmts m [] md (unitAccess a)) (vecLoad w wideFmts d m [] md false (unitAccess a)) st

/-- VL_LDS (07 R144-R150). -/
def execVlLds (d a b : BitVec 5) (m : BitVec 4) (o p : Bool) (st : State) : Out :=
  let w := tvalWord (encode (.vlLds d a b m o p))
  let md := loadMode o p
  memRun (memEntry w m) (vecResume d m) (vecSight w byteFmts m [] md (strideAccess a b)) (vecLoad w byteFmts d m [] md false (strideAccess a b)) st

/-- VL_LDFF (07 R144-R150): fault-only-first. -/
def execVlLdff (d a : BitVec 5) (m : BitVec 4) (o p : Bool) (st : State) : Out :=
  let w := tvalWord (encode (.vlLdff d a m o p))
  let md := loadMode o p
  memRun (memEntry w m) (vecResume d m) (vecSight w wideFmts m [] md (unitAccess a)) (vecLoad w wideFmts d m [] md true (unitAccess a)) st

/-- VL.LDR and VS.STR: groups from VSTART on (07 R151, 13 R265). -/
def Regs.groupsFrom (r : Regs) : List Nat := List.range' r.vstart.toNat (32 - r.vstart.toNat)
/-- The groups of a register at x[a] (07 R151). -/
def groupAccess (a : BitVec 5) (s : State) : ElemAccess := ⟨fun g => s.x a + BitVec.ofNat 64 (64 * g), fun _ => 64, fun _ => none⟩

/-- Register v[d] as the destination of VL.LDR (07 R151). -/
def regDest (r : Regs) (d : BitVec 5) : Dest where
  put := fun g bs q => { q with v := vecMod q.v d.toNat fun v => setBytes v (64 * g) bs }
  close := fun k q => (List.range' r.vstart.toNat (k - r.vstart.toNat)).foldl (·.rezeroOne d ·) q
  lend := fun g => (List.range 64).map fun j => ⟨0, d.toNat, 512 * g + 8 * j, 0xFF⟩
  halt := fun k => some ⟨d.toNat, regSpan d.toNat 1, 512, k⟩

/-- VL.LDR (07 R151). -/
def ldrBody (d a : BitVec 5) (md : Mode) : M Unit := do
  guardRegs 0 d.toNat 1
  let s ← get
  loadRun md s.core.regs.groupsFrom.head? s.core.regs.groupsFrom 32 false false (groupAccess a s) (regDest s.core.regs d)

/-- The remote group of VL.LDR for which it waits. -/
def ldrResume (d : BitVec 5) : M Unit := do
  let r ← regs
  resumeLoad (regDest r d) r.groupsFrom

/-- The state that VL.LDR or VS.STR uses through windows. -/
def groupSight (a : BitVec 5) (md : Mode) : M (Bool × Bool) := do
  let s ← get
  elemKinds md (groupAccess a s) s.core.regs.groupsFrom

/-- VL_LDR (07 R144, R151). -/
def execVlLdr (d a : BitVec 5) (o p : Bool) (st : State) : Out :=
  let md := loadMode o p
  memRun (memEntry (tvalWord (encode (.vlLdr d a o p))) 0) (ldrResume d) (groupSight a md) (ldrBody d a md) st

/-- VG_GATH (07 R156, R157). -/
def execVgGath (d a v : BitVec 5) (m : BitVec 4) (o p : Bool) (st : State) : Out :=
  let w := tvalWord (encode (.vgGath d a v m o p))
  let md := loadMode o p
  memRun (memEntry w m) (vecResume d m) (vecSight w byteFmts m [v] md (indexAccess true a v))
    (vecLoad w byteFmts d m [v] md false (indexAccess true a v)) st

/-- VG_GATHB (07 R156, R157). -/
def execVgGathb (d a v : BitVec 5) (m : BitVec 4) (o p : Bool) (st : State) : Out :=
  let w := tvalWord (encode (.vgGathb d a v m o p))
  let md := loadMode o p
  memRun (memEntry w m) (vecResume d m) (vecSight w byteFmts m [v] md (indexAccess false a v))
    (vecLoad w byteFmts d m [v] md false (indexAccess false a v)) st

/-! ### Scratchpad loads (07 R146, R149, R152) -/

/-- The offset of element `i` at x[a]. -/
def scratchOff (s : State) (a : BitVec 5) (i : Nat) : Word := unitAddr (s.x a) s.core.regs.fmt i
/-- The check of element `i` that fails (07 R149 steps 1 and 2). -/
def scratchFault (s : State) (a : BitVec 5) (i : Nat) : Option (Cause × Word) :=
  let o := scratchOff s a i
  let n := elemBytes s.core.regs.fmt
  if !inScratch o n then some (.range, o)
  else if (s.x a).toNat % n != 0 then some (.align, s.x a)
  else none

/-- The element of a scratchpad load that trims VL: one out of range that is not the first (07 R148). -/
def scratchTrim (act : List Nat) (fault : Option (Nat × Cause × Word)) : Option (Nat × Cause × Word) :=
  fault.filter fun f => act.head? != some f.1 && f.2.1 == .range

/-- How a scratchpad load of the elements from VSTART to `hi` − 1 ends: pre-empted, at an element that traps, or whole (07 R148, R153). -/
def scratchEnd (ds : Dest) (hi : Nat) (stop : Option Nat) (fault : Option (Nat × Cause × Word)) : M Unit :=
  match stop, fault with
  | some k, _ => cutAt ds.close k (ds.halt k)
  | none, some (k, c, t) => do
    standElem ds.close k
    modCore fun c => { c with halt := ds.halt k }
    raise c t
  | none, none => modRegs fun r => (ds.close hi r).vecDone false false

/-- The first active element that fails, with its cause and value. -/
def firstFault (f : Nat → Option (Cause × Word)) (act : List Nat) : Option (Nat × Cause × Word) :=
  act.findSome? fun i => (f i).map fun e => (i, e)
/-- The active elements below the one that fails. -/
def belowFault (act : List Nat) (fault : Option (Nat × Cause × Word)) : List Nat :=
  match fault with
  | some (k, _) => act.takeWhile (· != k)
  | none => act

/-- The elements of a scratchpad load that are read: below the one that fails and below the stop. -/
def scratchTodo (act : List Nat) (fault : Option (Nat × Cause × Word)) (stop : Option Nat) : List Nat :=
  (belowFault act fault).filter fun i => stop.all (i < ·)

/-- VL.LDSP (07 R152). -/
def ldspBody (w : Word) (d a : BitVec 5) (m : BitVec 4) : M Unit := do
  loadGuard w (fun c => decide (c ≤ 10)) d m []
  let s ← get
  let r := s.core.regs
  let c := r.fmt
  let act := r.actives m
  let fault := firstFault (scratchFault s a) act
  let hi := (fault.map (·.1)).getD r.vl.toNat
  let trim := scratchTrim act fault
  trimVl trim
  let stop ← cutPoint (nextActive act hi) r.vstart.toNat hi
  modRegs fun q => (scratchTodo act fault stop).foldl
    (fun q i => putElem c d i (memRead s.core.scratch (scratchOff s a i).toNat (elemBytes c)) q) q
  scratchEnd (groupDest r d act) hi stop (if trim.isSome then none else fault)

/-- VL_LDSP (07 R144, R152). -/
def execVlLdsp (d a : BitVec 5) (m : BitVec 4) (st : State) : Out :=
  let w := tvalWord (encode (.vlLdsp d a m))
  vecRun (memEntry w m) (ldspBody w d a m) st

/-- The granule of element `i` (04 R79). -/
def granuleOf (s : State) (a : BitVec 5) (i : Nat) : Nat := (scratchOff s a i).toNat / 16

/-- The first element of the granule of element `i` (07 R154). -/
def granuleStart (s : State) (a : BitVec 5) (i : Nat) : Nat :=
  let lo := s.core.regs.vstart.toNat
  ((List.range' lo (i + 1 - lo)).find? fun j => granuleOf s a j == granuleOf s a i).getD i

/-- The stop of a consuming load whose granule is not full: the first element of the granule, VSTART when nothing has been
read (07 R154). What was read below it forms a chunk (14 R282). -/
def consumeStop (s : State) (a d : BitVec 5) (first i : Nat) : M Unit := do
  let r := s.core.regs
  let k := if i = first then r.vstart.toNat else granuleStart s a i
  if i ≠ first then
    modRegs fun q => (q.rezero d (fmtPlace r.fmt) r.vstart.toNat k).standAt k
    singleM 2 []
  modCore fun c => { c with halt := some (groupHalt r d k) }
  await (.fullEmpty (granuleOf s a i))

/-- The elements of a consuming load in order (07 R152): each waits for its granule; the last of a granule clears it. -/
def consumeElems (s : State) (a d : BitVec 5) (clear : Bool) (first : Nat) : List Nat → M Unit
  | [] => return
  | i :: is => do
    let c := s.core.regs.fmt
    let g := granuleOf s a i
    if !(← get).core.full g then consumeStop s a d first i
    let bs := memRead (← get).core.scratch (scratchOff s a i).toNat (elemBytes c)
    modRegs (putElem c d i bs)
    if clear && (is.head?.map (granuleOf s a)) != some g then modCore fun k => { k with fe := setField k.fe g 1 0 }
    consumeElems s a d clear first is

/-- Where a consuming load may stop at or below element `k`: at the first element of the granule, and at VSTART when it has read
nothing below (07 R154). -/
def consumePlace (s : State) (a : BitVec 5) (act : List Nat) (k : Nat) : Nat :=
  let g := granuleStart s a k
  if act.any (decide <| · < g) then g else s.core.regs.vstart.toNat

/-- VL.LDF and VL.LDF.C (07 R152): a singleton chunk, which a pre-emption may stop (14 R282); where it stops having read nothing no
chunk lies (14 R284). -/
def ldfBody (w : Word) (d a : BitVec 5) (m : BitVec 4) (clear : Bool) : M Unit := do
  loadGuard w (fun c => decide (c ≤ 10)) d m []
  endChunkM 2
  let s ← get
  let r := s.core.regs
  let act := r.actives m
  let fault := firstFault (scratchFault s a) act
  let hi := (fault.map (·.1)).getD r.vl.toNat
  let trim := scratchTrim act fault
  let bad := if trim.isSome then none else fault
  trimVl trim
  let stop ← cutPoint (consumePlace s a act) r.vstart.toNat (hi - 1)
  let todo := scratchTodo act fault stop
  consumeElems s a d clear (act.headD 0) todo
  if (stop.isNone && bad.isNone) || !todo.isEmpty then singleM 2 []
  scratchEnd (groupDest r d act) hi stop bad

/-- VL_LDF (07 R144, R152). -/
def execVlLdf (d a : BitVec 5) (m : BitVec 4) (c : Bool) (st : State) : Out :=
  let w := tvalWord (encode (.vlLdf d a m c))
  vecRun (memEntry w m) (ldfBody w d a m c) st

/-! ### Tensors (07 R158-R160) -/

/-- A shape record: base, rank, extents and strides (07 R159). -/
structure Shape where
  base    : Word
  rank    : Nat
  extents : List Nat
  strides : List Word
  deriving DecidableEq, Repr

/-- Elements of a shape (07 R159). -/
def Shape.size (h : Shape) : Nat := h.extents.foldl (· * ·) 1

/-- The record in v[n]; none when it breaks an entry of its table (07 R159). -/
def shapeOf (r : Regs) (n : BitVec 5) : Option Shape :=
  let e (i : Nat) : Nat := r.elem n 64 i
  let rank := e 1 / 256 % 256
  let exts := (List.range rank).map fun d => e (2 + d)
  let strs := (List.range rank).map fun d => BitVec.ofNat 64 (e (6 + d))
  let h : Shape := ⟨BitVec.ofNat 64 (e 0), rank, exts, strs⟩
  if e 1 / 2 ^ 16 == 0 && decide (1 ≤ rank) && decide (rank ≤ 4) && e 1 % 256 == r.fmt &&
      exts.all (fun x => decide (1 ≤ x) && decide (x < 2 ^ 32)) &&
      (List.range' rank (4 - rank)).all (fun d => e (2 + d) == 0 && e (6 + d) == 0) && decide (h.size < 2 ^ 63)
  then some h else none

/-- The address of the element with linear index `n` (07 R160). -/
def shapeAddr : List Nat → List Word → Nat → Word → Word
  | x :: xs, t :: ts, n, a => shapeAddr xs ts (n / x) (a + BitVec.ofNat 64 (n % x) * t)
  | _, _, _, a => a

/-- The linear index of element `i` at x[a] (07 R160). -/
def linearIndex (s : State) (a : BitVec 5) (i : Nat) : Word := s.x a + BitVec.ofNat 64 i

/-- The elements of a tensor (07 R160, 13 R268): out of range from N on. -/
def tensorAccess (h : Shape) (a : BitVec 5) (s : State) : ElemAccess :=
  ⟨fun i => shapeAddr h.extents h.strides (linearIndex s a i).toNat h.base, fun _ => elemBytes s.core.regs.fmt,
    fun i => if (linearIndex s a i).toNat < h.size then none else some (.range, linearIndex s a i)⟩

/-- The record that a tensor access reads, once, as its start finds it; none when it has no active element, since it then waits for nothing and reads no
record (07 R148, R159; log 19). DEDUCED -/
def needShape (w : Word) (v : BitVec 5) (act : List Nat) : M (Option Shape) := do
  if act.isEmpty then return none else
    needElems v 64 (List.range 10)
    match shapeOf (← get).core.origin v with
    | some h => return some h
    | none => raise .illegal w

/-- TL.LD (07 R160). -/
def tlLdBody (w : Word) (d a v : BitVec 5) (m : BitVec 4) (md : Mode) : M Unit := do
  loadGuard w byteFmts d m []
  let s ← get
  let r := s.core.regs
  match ← needShape w v (r.actives m) with
  | none => modRegs fun q => (q.rezero d (fmtPlace r.fmt) r.vstart.toNat r.vl.toNat).vecDone false false
  | some h => loadRun md (s.core.origin.actives m).head? (r.actives m) r.vl.toNat false true (tensorAccess h a s) (groupDest r d (r.actives m))

/-- The state that TL.LD or TL.ST uses through windows. -/
def tensorSight (w : Word) (a v : BitVec 5) (m : BitVec 4) (md : Mode) : M (Bool × Bool) := do
  let s ← get
  let r := s.core.regs
  ensure (byteFmts r.fmt) .illegal w
  guardMask m
  match ← needShape w v (r.actives m) with
  | none => return (false, false)
  | some h => elemKinds md (tensorAccess h a s) (r.actives m)

/-- TL_LD (07 R158-R160). -/
def execTlLd (d a v : BitVec 5) (m : BitVec 4) (o p : Bool) (st : State) : Out :=
  let w : Word := (wordTlLd d a v m o p).setWidth 64
  memRun (memEntry w m) (vecResume d m) (tensorSight w a v m (loadMode o p)) (tlLdBody w d a v m (loadMode o p)) st

end Sys2Proof.Machine
end

