-- ==== Sys2Proof/Machine/VecStore.lean ====
section
/-! DEFINITION. Vector stores, scatters and tensor stores: majors VS, VG and TL (13 R260-R268). -/
namespace Sys2Proof.Machine

/-- What the elements of a store write: whole bytes, or parts of the bytes it reads first (13 R261). -/
inductive Source where
  | whole (f : Regs → Nat → List Byte)
  | part (f : Regs → Nat → Nat → Nat)

/-- An element writes whole bytes. -/
def Source.isWhole : Source → Bool
  | .whole _ => true
  | .part _ => false

/-- The element of the group at v[s] as whole bytes. -/
def elemSource (s : BitVec 5) (r : Regs) (i : Nat) : List Byte :=
  let k := fmtWidth r.fmt
  leBytes (k / 8) (r.elem s k i)
/-- The bytes that hold element `i`, with its bits written: half a byte, or the header and the planes of a block (13 R261). -/
def partSource (s : BitVec 5) (r : Regs) (i old : Nat) : Nat :=
  if isBfp r.fmt then
    mixBits (planeBits (bfpBits r.fmt) (i % 32) + (2 ^ 32 - 1)) old (r.block s (i / 32))
  else
    let h := 4 * (i % 2)
    mixBits (15 <<< h) old (r.elem s 4 i <<< h)
/-- What a store of VTYPE's format writes from the group at v[s]. -/
def sourceOf (s : BitVec 5) (c : Nat) : Source := if c ≤ 9 then .whole (elemSource s) else .part (partSource s)

/-! ### Bytes of the chunk that a store writes (13 R263, R264) -/

/-- A byte of memory as the chunk sees it (14 R283). -/
def State.seesByte (s : State) (pa : Nat) : Byte := (cellFind s.core.chunkOr.wr pa).getD (s.home pa)

/-- The bytes that an element writes to memory, by physical address. -/
def memBytes (ps : List Piece) (bs : List Byte) : List (Nat × Byte) :=
  (splitBytes ps bs).flatMap fun p => if p.1.place == .mem then p.2.zipIdx.map fun b => (p.1.pa + b.2, b.1) else []

/-- What an element writes where a lower element of the chunk has written, without the O bit: for each such byte the oracle chooses
the element or what stands (13 R263; log 1). -/
def chooseBytes (seen : List Nat) : List (Nat × Byte) → M (List (Nat × Byte))
  | [] => return []
  | (pa, b) :: r => do
    let old := (← get).seesByte pa
    let c ← if !seen.elem pa || old == b then pure b else do pure (if (← oracle) = 0 then b else old)
    return (pa, c) :: (← chooseBytes seen r)

/-- The bytes of an element with the chosen ones in place. -/
def settle (ch : List (Nat × Byte)) (ps : List Piece) (bs : List Byte) : List Byte :=
  (splitBytes ps bs).flatMap fun p =>
    p.2.zipIdx.map fun b => if p.1.place == .mem then ((ch.find? (·.1 == p.1.pa + b.2)).map (·.2)).getD b.1 else b.1

/-- The bytes that an element writes, and the addresses of memory written so far. -/
def orderedBytes (ord : Bool) (seen : List Nat) (ps : List Piece) (bs : List Byte) : M (List Byte × List Nat) := do
  if ord then return (bs, seen) else
  let ws := memBytes ps bs
  let out ← if ws.any (seen.elem ·.1) then do pure (settle (← chooseBytes seen ws) ps bs) else pure bs
  return (out, ws.map (·.1) ++ seen)

/-- The old values of the bytes of memory that an element writes, as `s` sees them (13 R264). -/
def oldBytes (s : State) (ps : List Piece) : List (Nat × Byte) :=
  (ps.filter (·.place == .mem)).flatMap fun p => (List.range p.n).map fun i => (p.pa + i, s.seesByte (p.pa + i))

/-! ### Stores (13 R262) -/

/-- One element written inside the chunk: `s0` is the state before the instruction, `seen` what its lower elements have written in
the chunk. -/
def storeInside (md : Mode) (src : Source) (fx : List Tlb) (s0 : State) (seen : List Nat) (i : Nat) (ps : List Piece) : M (List Nat) := do
  let full := overLimit (← get).core.chunkOr ps
  if full then splitAt (fun _ r => r) i 4
  let seen := if full then [] else seen
  let p ← match src with
    | .whole f => orderedBytes md.ord seen ps (f (← regs) i)
    | .part f => do
      let old ← insideRead ps
      pure (leBytes old.length (f (← regs) i (leNat old)), seen)
  modify (insideWrite ps p.1)
  beginElem fx fun ch => if md.late then { ch with late := oldBytes s0 ps ++ ch.late } else ch
  return p.2

/-- One element written outside the chunks: a singleton chunk, or a part of the one over windows that is open (14 R282). -/
def storeSingle (shared : Bool) (i : Nat) (ps : List Piece) (bs : List Byte) : M Unit := do
  if !shared then singleAt (fun _ r => r) i (addLines [] (memLines ps))
  modify fun s => (splitBytes ps bs).foldl singleWrite s
  standElem (fun _ r => r) (i + 1)

/-- The pieces of an element that lie in this package, or those that do not, written outside the chunks. -/
def writeSide (remote : Bool) (ps : List Piece) (bs : List Byte) : M Unit :=
  modify fun s => ((splitBytes ps bs).filter fun p => (p.1.place == .remote) == remote).foldl singleWrite s

/-- An element with remote bytes that writes parts of bytes: one singleton chunk. It takes its CSN, writes the bytes that lie in this package,
and reads the others, for which the instruction waits (13 R261; 14 R281, R293; log 67). DEDUCED -/
def remotePart (f : Regs → Nat → Nat → Nat) (i : Nat) (ps : List Piece) : M Unit := do
  singleAt (fun _ r => r) i (addLines [] (memLines ps))
  let s ← get
  let old := ps.flatMap fun p => if p.place == .remote then List.replicate p.n 0 else directRead s p
  writeSide false ps (leBytes old.length (f (← regs) i (leNat old)))
  modify fun s => ps.foldl sendRead s
  await .remote

/-- The remote element that writes parts of bytes, for which a store waits, the first of those left: what it has read is written back where
it has been read, with its bits in place, whatever a translation of its address would find by now (13 R261; 14 R282, R293; log 67).
DEDUCED -/
def resumeStore (src : Source) : List Nat → M Unit
  | [] => return
  | i :: _ => do
    match src with
    | .whole _ => return
    | .part f =>
      let ps := ((← get).core.out.filter (!·.put)).map fun q => (⟨0, q.addr, q.n, q.tlb⟩ : Piece)
      let old ← takeRemote
      writeSide true ps (leBytes old.length (f (← regs) i (leNat old)))
      standElem (fun _ r => r) (i + 1)

/-- The planned elements written in order (13 R262, R263). -/
def storeElems (md : Mode) (src : Source) (fx : List Tlb) (s0 : State) : Bool → List Nat → List (Nat × Plan) → M Unit
  | _, _, [] => return
  | shared, seen, (i, pl) :: ps => do
    match pl.way with
    | .inside =>
      let seen ← storeInside md src fx s0 seen i pl.pieces
      storeElems md src fx s0 false seen ps
    | .remote =>
      match src with
      | .whole f => storeSingle false i pl.pieces (f (← regs) i)
      | .part f => remotePart f i pl.pieces
      storeElems md src fx s0 false [] ps
    | w =>
      let bs ← match src with
        | .whole f => do pure (f (← regs) i)
        | .part _ => pure []
      storeSingle (shared && w == .window) i pl.pieces bs
      storeElems md src fx s0 (w == .window) [] ps

/-- The planned elements of a store, of those up to `hi`, and its end (13 R262, R266). -/
def storePlanned (md : Mode) (p : List (Nat × Plan) × Option (Nat × Cause × Word)) (hi : Nat) (src : Source) : M Unit := do
  let fx := (← get).core.fetched
  let hi1 := (p.2.map (·.1)).getD hi
  let stop ← cutPoint (md.stops (p.1.map (·.1)) hi1) (← regs).vstart.toNat hi1
  let todo := belowStop p.1 stop
  elemsReady md (todo.flatMap (·.2.pieces))
  storeElems md src fx (← get) false [] todo
  match stop, p.2 with
  | some k, _ => cutAt (fun _ r => r) k none
  | none, some (k, c, t) => stopAt k c t
  | none, none => modRegs (·.vecDone false false)

/-- The store of 13 R262 over the active elements, of those up to `hi`. -/
def storeRun (md : Mode) (act : List Nat) (hi : Nat) (ac : ElemAccess) (src : Source) : M Unit := do
  storePlanned md (← planElems md ac act) hi src

/-- How a store is made, for VTYPE's format `c` (13 R261). -/
def storeMode (o p : Bool) (c : Nat) : Mode := ⟨.store, o, p, decide (c ≤ 9), false⟩

/-- The checks and waits of a store before its first access (07 R133, 13 R260, R262). -/
def storeGuard (w : Word) (ok : Nat → Bool) (m : BitVec 4) (vs : List (BitVec 5)) : M Unit := do
  let r ← regs
  ensure (ok r.fmt && vs.all r.groupOk) .illegal w
  guardMask m
  vs.forM fun v => needElems v (fmtPlace r.fmt) (r.actives m)

/-- A store by element from the group at v[s]. -/
def vecStore (w : Word) (ok : Nat → Bool) (s : BitVec 5) (m : BitVec 4) (o p : Bool) (ac : State → ElemAccess) : M Unit := do
  storeGuard w ok m [s]
  let st ← get
  let r := st.core.regs
  storeRun (storeMode o p r.fmt) (r.actives m) r.vl.toNat (ac st) (sourceOf s r.fmt)

/-- The remote element of a store by element from the group at v[s], for which it waits. -/
def storeResume (s : BitVec 5) (m : BitVec 4) : M Unit := do
  let r ← regs
  resumeStore (sourceOf s r.fmt) (r.actives m)

/-- VS_ST (13 R260-R264). -/
def execVsSt (s a : BitVec 5) (m : BitVec 4) (o p : Bool) (st : State) : Out :=
  let w := tvalWord (encode (.vsSt s a m o p))
  memRun (memEntry w m) (storeResume s m) (vecSight w wideFmts m [s] (storeMode o p st.core.regs.fmt) (unitAccess a))
    (vecStore w wideFmts s m o p (unitAccess a)) st

/-- VS_STS (13 R260-R264). -/
def execVsSts (s a b : BitVec 5) (m : BitVec 4) (o p : Bool) (st : State) : Out :=
  let w := tvalWord (encode (.vsSts s a b m o p))
  memRun (memEntry w m) (storeResume s m) (vecSight w byteFmts m [s] (storeMode o p st.core.regs.fmt) (strideAccess a b))
    (vecStore w byteFmts s m o p (strideAccess a b)) st

/-- VS.STR (13 R265). -/
def strBody (s a : BitVec 5) (md : Mode) : M Unit := do
  let st ← get
  let gs := st.core.regs.groupsFrom
  needElems s 512 gs
  storeRun md gs 32 (groupAccess a st) (.whole fun r g => bytesOf (r.vreg s.toNat) (64 * g) 64)

/-- VS_STR (13 R260, R265). -/
def execVsStr (s a : BitVec 5) (o p : Bool) (st : State) : Out :=
  let md := storeMode o p 0
  memRun (memEntry (tvalWord (encode (.vsStr s a o p))) 0) (pure ()) (groupSight a md) (strBody s a md) st

/-- Pieces reach the window of one of the registers `rs` of the core's own (04 R71). -/
def reachesRegs (cur : Nat) (rs : List Nat) (ps : List Piece) : Bool :=
  ps.any fun p => match p.place with
    | .reg c o => c == cur && (winRegs o p.n).any fun q => q.1 == 0 && rs.elem q.2
    | _ => false

/-- The elements of a scatter in runs, each of which writes no more lines of memory than a chunk holds: `ls` and `run` are the lines and
the elements, last first, of the run so far (14 R281). -/
def lineRuns (ls : List Nat) (run : List (Nat × Plan)) : List (Nat × Plan) → List (List (Nat × Plan))
  | [] => if run.isEmpty then [] else [run.reverse]
  | e :: es =>
    let ls1 := addLines ls (memLines e.2.pieces)
    if 4096 < ls1.length && !run.isEmpty then run.reverse :: lineRuns (addLines [] (memLines e.2.pieces)) [e] es
    else lineRuns ls1 (e :: run) es

/-- A run of the elements of a scatter over its own register's window: one singleton chunk, with VSTART at its first element. -/
def scatRun (val : Nat → List Byte) (run : List (Nat × Plan)) : M Unit := do
  standElem (fun _ r => r) (run.headD (0, ⟨[], false⟩)).1
  singleM 2 (addLines [] (memLines (run.flatMap (·.2.pieces))))
  modify fun s => run.foldl (fun s e => (splitBytes e.2.pieces (val e.1)).foldl singleWrite s) s

/-- A scatter over the window of its own index or data register: its elements are one singleton chunk, or, where they take more lines of
memory than a chunk holds, one after another, each ended at an element; no PREEMPT stops it inside, where it would read the registers again,
and it waits for a commit that a reserved chunk holds up before the first element alone (13 R267, 14 R281; log 67, log 83). DEDUCED -/
def scatSingle (md : Mode) (p : List (Nat × Plan) × Option (Nat × Cause × Word)) (val : Nat → List Byte) : M Unit := do
  let ps := p.1.flatMap (·.2.pieces)
  elemsReady md ps
  commitBelow (fun _ r => r) (← regs).vstart.toNat
  if (← get).blocked (addLines [] (memLines ps)) [] then await .reservation
  (lineRuns [] [] p.1).forM (scatRun val)
  match p.2 with
  | some (k, c, t) => stopAt k c t
  | none => modRegs (·.vecDone false false)

/-- A scatter: every index and value is read before the first write (13 R267). -/
def scatBody (w : Word) (scaled : Bool) (s a v : BitVec 5) (m : BitVec 4) (o p : Bool) : M Unit := do
  storeGuard w byteFmts m [s, v]
  let st ← get
  let r := st.core.regs
  let md := storeMode o p r.fmt
  let q ← planElems md (indexAccess scaled a v st) (r.actives m)
  let own := List.range' s.toNat r.grp ++ List.range' v.toNat r.grp
  if q.1.any fun e => reachesRegs st.cur own e.2.pieces then scatSingle md q (elemSource s r)
  else storePlanned md q r.vl.toNat (.whole fun _ i => elemSource s r i)

/-- VG_SCAT (13 R267). -/
def execVgScat (s a v : BitVec 5) (m : BitVec 4) (o p : Bool) (st : State) : Out :=
  let w := tvalWord (encode (.vgScat s a v m o p))
  memRun (memEntry w m) (pure ()) (vecSight w byteFmts m [s, v] (storeMode o p st.core.regs.fmt) (indexAccess true a v))
    (scatBody w true s a v m o p) st

/-- VG_SCATB (13 R267). -/
def execVgScatb (s a v : BitVec 5) (m : BitVec 4) (o p : Bool) (st : State) : Out :=
  let w := tvalWord (encode (.vgScatb s a v m o p))
  memRun (memEntry w m) (pure ()) (vecSight w byteFmts m [s, v] (storeMode o p st.core.regs.fmt) (indexAccess false a v))
    (scatBody w false s a v m o p) st

/-- TL.ST (13 R268). -/
def tlStBody (w : Word) (v a s : BitVec 5) (m : BitVec 4) (o p : Bool) : M Unit := do
  storeGuard w byteFmts m [v]
  let st ← get
  let r := st.core.regs
  match ← needShape w s (r.actives m) with
  | none => modRegs (·.vecDone false false)
  | some h => storeRun (storeMode o p r.fmt) (r.actives m) r.vl.toNat (tensorAccess h a st) (sourceOf v r.fmt)

/-- TL_ST (13 R268). -/
def execTlSt (v a s : BitVec 5) (m : BitVec 4) (o p : Bool) (st : State) : Out :=
  let w : Word := (wordTlSt v a s m o p).setWidth 64
  memRun (memEntry w m) (storeResume v m) (tensorSight w a s m (storeMode o p st.core.regs.fmt)) (tlStBody w v a s m o p) st

end Sys2Proof.Machine
end

