-- ==== Sys2Proof/Machine/Comb.lean ====
section
/-! DEFINITION. The comb: tiles, outer products and tile moves, majors MX and MT (11 R226-R239). -/
namespace Sys2Proof.Machine

/-! ### Tiles (11 R226) -/

/-- Tile `t`; there is none above t15. -/
def Regs.tile (r : Regs) (t : Nat) : TReg := r.t.toList.getD t 0
/-- The cells of row `n` of tile `t`, cell 0 first. -/
def Regs.cells (r : Regs) (t n : Nat) : List Nat := (List.range 64).map fun c => getField (r.tile t) (2048 * n + 32 * c) 32
/-- The values of row `n` of a tile, or of the pair that begins at it under binary64. -/
def Regs.row (r : Regs) (t n : Nat) (f64 : Bool) : List Nat :=
  if f64 then (r.cells t n).zipWith (fun a b => a + 2 ^ 32 * b) (r.cells (t + 1) n) else r.cells t n
/-- Cells as one number, cell 0 lowest. -/
def packCells : List Nat → Nat
  | [] => 0
  | v :: vs => v % 2 ^ 32 + 2 ^ 32 * packCells vs
/-- The registers with the cells of row `n` of tile `t` written. -/
def Regs.setCells (r : Regs) (t n : Nat) (vs : List Nat) : Regs :=
  { r with t := vecMod r.t t fun x => setField x (2048 * n) 2048 (packCells vs) }
/-- The registers with row `n` of a tile or a pair written. -/
def Regs.setRow (r : Regs) (t n : Nat) (f64 : Bool) (vs : List Nat) : Regs :=
  let r1 := r.setCells t n vs
  if f64 then r1.setCells (t + 1) n (vs.map (· / 2 ^ 32)) else r1

/-- Tiles of an operand. -/
def tileCount (f64 : Bool) : Nat := if f64 then 2 else 1
/-- The active rows among those given (11 R229, R233). -/
def Regs.rows (r : Regs) (m : BitVec 4) (ns : List Nat) : List Nat := ns.filter (r.governs m)

/-! ### Outer products (11 R228-R231) -/

/-- VTYPE.FMT that a format of MX requires (11 R228). -/
def mxFmt (f : BitVec 4) : Nat :=
  match f.toNat with
  | 0 => 5
  | 1 => 4
  | 2 => 6
  | 3 => 7
  | 4 | 5 => 0
  | 6 => 8
  | 7 => 9
  | 8 => 10
  | n => n + 7

/-- The accumulator's format: binary64 for binary64 (11 R228). -/
def mxAcc (f : BitVec 4) : Nat := if f = 1 then 4 else 5
/-- The format is of integers (11 R228). -/
def mxInt (f : BitVec 4) : Bool := f == 4 || f == 5
/-- Elements in a register (11 R228). -/
def mxElems (f : BitVec 4) : Nat := 16384 / fmtPlace (mxFmt f)

/-- The iteration of the frame, 0 outside one (11 R230). -/
def Regs.iteration (r : Regs) : Nat := if r.inFrame then (r.rps.extractLsb' 24 24).toNat else 0

/-- Element `i` of an operand as a value (11 R230). -/
def mxValue (r : Regs) (f : BitVec 4) (n : BitVec 5) (i : Nat) : Fp :=
  let c := mxFmt f
  if isBfp c then r.bfpElem n (bfpBits c) i else fpDecode c (r.elem n (fmtWidth c) i)
/-- Element `i` of an operand as an integer (11 R230). -/
def mxInteger (r : Regs) (f : BitVec 4) (n : BitVec 5) (i : Nat) : Int :=
  let v := r.elem n 8 i
  if f = 4 then sintW 8 v else v

/-- The elements of vb that column `c` reads for depth `k`: none beyond the register (11 R230). -/
def mxCol (f : BitVec 4) (q depth c k : Nat) : Option Nat :=
  let i := (c + q) * depth + k
  if i < mxElems f then some i else none

/-- A cell plus the sum of its products, rounded once; NaNs by 08 R171 (11 R230). -/
def mxCellFp (acc mode : Nat) (cell : Fp) (ps : List (Fp × Fp)) : Nat × Nat :=
  let ts := ps.map (fun p => fpMul p.1 p.2) ++ [some cell]
  let ops := ps.flatMap (fun p => [p.1, p.2]) ++ [cell]
  let bad := invalid ts
  finish acc mode 0 ops (if bad then none else fpSum (mode == 2) (ts.filterMap id)) bad 0
where
  /-- An invalid product or opposite infinities stand among the terms (08 R171). -/
  invalid (ts : List (Option Fp)) : Bool := ts.any (·.isNone) || opposite (ts.filterMap id)

/-- The new value of a cell of row `n` and column `c`, with its flags (11 R230). -/
def mxCell (r : Regs) (f : BitVec 4) (a b : BitVec 5) (q depth n c cell : Nat) : Nat × Nat :=
  let ks := List.range depth
  if mxInt f then
    (wrapW 32 (ks.foldl (fun s k => s + mxInteger r f a (n * depth + k) *
      ((mxCol f q depth c k).map (mxInteger r f b)).getD 0) (sintW 32 cell)), 0)
  else
    mxCellFp (mxAcc f) r.rm (fpDecode (mxAcc f) cell)
      (ks.map fun k => (mxValue r f a (n * depth + k), ((mxCol f q depth c k).map (mxValue r f b)).getD (.zero false)))

/-- The new values of the active rows. -/
def mxRows (r : Regs) (f : BitVec 4) (t : Nat) (a b : BitVec 5) (q depth : Nat) (ns : List Nat) : List (Nat × List (Nat × Nat)) :=
  ns.map fun n => (n, (r.row t n (f == 1)).zipIdx.map fun p => mxCell r f a b q depth n p.2 p.1)

/-- Elements of va that the active rows read, and of vb that the columns read (11 R230). -/
def mxReads (f : BitVec 4) (q depth : Nat) (ns : List Nat) : List Nat × List Nat :=
  (ns.flatMap fun n => List.range' (n * depth) depth,
    (List.range' (q * depth) (64 * depth)).filter fun i => decide (i < mxElems f))

/-- An MX instruction (11 R229-R231): `q` is the slide. -/
def mxBody (w : Word) (t : BitVec 4) (a b : BitVec 5) (m f : BitVec 4) (q : Nat) : M Unit := do
  let s ← get
  let r := s.core.regs
  let f64 := f == 1
  ensure (r.fmt == mxFmt f && r.grp == 1 && r.vl.toNat % 64 == 0 && r.vstart == 0) .illegal w
  if f64 && !s.hbmServed then await .reduced
  else if r.vl.toNat = 0 then modRegs (·.vecDone false false) else
    guardRegs 2 t.toNat (tileCount f64)
    guardMask m
    let ns := r.rows m (List.range 64)
    let depth := r.vl.toNat / 64
    let rd := mxReads f q depth ns
    needElems a (fmtPlace r.fmt) rd.1
    needElems b (fmtPlace r.fmt) rd.2
    match (if f = 0 then ((rd.1.map (r.elem a 32)) ++ rd.2.map (r.elem b 32)).find? isToken else none) with
    | some x => raise .verdictOperand (BitVec.ofNat 64 x)
    | none =>
      let rows := mxRows r f t.toNat a b q depth ns
      let fl := rows.foldl (fun u p => p.2.foldl (fun u c => u ||| c.2) u) 0
      if r.traps fl then raise .fp (BitVec.ofNat 64 fl)
      else modRegs fun r =>
        ((rows.foldl (fun r p => r.setRow t.toNat p.1 f64 (p.2.map (·.1))) r).accrue fl).vecDone false true

/-- A VQ entry of MX (11 R229). -/
def mxEntry (w : Word) (m : BitVec 4) : Entry := ⟨w, true, m != 0, true, true, false⟩

/-- MX_OPA (11 R228-R231). -/
def execMxOpa (t : BitVec 4) (a b : BitVec 5) (m f : BitVec 4) (st : State) : Out :=
  let w := tvalWord (encode (.mxOpa t a b m f))
  vecRun (mxEntry w m) (mxBody w t a b m f 0) st

/-- MX_SLIDE (11 R228-R231). -/
def execMxSlide (t : BitVec 4) (a b : BitVec 5) (m f : BitVec 4) (st : State) : Out :=
  let w := tvalWord (encode (.mxSlide t a b m f))
  vecRun (mxEntry w m) (mxBody w t a b m f st.core.regs.iteration) st

/-! ### Tile moves (11 R233-R239) -/

/-- A VQ entry of MT: `v` tells that it uses vector state (11 R233). -/
def mtEntry (w : Word) (v : Bool) (m : BitVec 4) : Entry := ⟨w, v, m != 0, true, false, false⟩

/-- MT.ZERO (11 R234): it leaves VSTART (11 R233). -/
def mtZeroBody (t m : BitVec 4) (f64 : Bool) : M Unit := do
  guardRegs 2 t.toNat (tileCount f64)
  guardMask m
  modRegs fun r =>
    ((r.rows m (List.range 64)).foldl (fun q n => q.setRow t.toNat n f64 (List.replicate 64 0)) r).dirty false false true

/-- MT_ZERO (11 R233, R234). -/
def execMtZero (t m : BitVec 4) (f64 : Bool) (st : State) : Out :=
  vecRun (mtEntry (tvalWord (encode (.mtZero t m f64))) false m) (mtZeroBody t m f64) st

/-- Bytes of a cell (11 R233). -/
def cellBytes (f64 : Bool) : Nat := if f64 then 8 else 4
/-- The pitch of rows: dense for x0 (11 R235). -/
def rowPitch (s : State) (b : BitVec 5) (f64 : Bool) : Word := if b = 0 then BitVec.ofNat 64 (64 * cellBytes f64) else s.x b
/-- The address of row `n` (11 R235). -/
def rowAddr (s : State) (a b : BitVec 5) (f64 : Bool) (n : Nat) : Word := s.x a + BitVec.ofNat 64 n * rowPitch s b f64

/-- The rows as elements of an access, and the bitmap of `.Z` as element 64 (11 R235, R236). -/
def rowAccess (s : State) (a b : BitVec 5) (f64 : Bool) : ElemAccess :=
  ⟨rowAddr s a b f64, fun n => if n = 64 then 8 else 64 * cellBytes f64, fun _ => none⟩

/-- Values of `n` bytes from a row of memory. -/
def rowValues (n : Nat) (bs : List Byte) : List Nat := (List.range 64).map fun c => leNat ((bs.drop (n * c)).take n)

/-- A tile or a pair as the destination of MT.LD (11 R235): no vector register is written. -/
def tileDest (t : Nat) (f64 : Bool) : Dest where
  put := fun n bs r => (r.setRow t n f64 (rowValues (cellBytes f64) bs)).dirty false false true
  close := fun _ r => r
  lend := fun _ => []
  halt := fun _ => none

/-- Rows not before VSTART. -/
def Regs.rowsFrom (r : Regs) : List Nat := List.range' r.vstart.toNat (64 - r.vstart.toNat)

/-- How MT accesses are made: the O bit counts as 0 (11 R235). -/
def rowMode (k : Acc) : Mode := ⟨k, false, false, true, true⟩

/-- The rows that MT.ST writes and the bitmap, if it is written: with `.Z` and an active row (11 R235). -/
def storeRows (r : Regs) (m : BitVec 4) (z : Bool) : List Nat :=
  r.rows m r.rowsFrom ++ (if z && !(r.rows m (List.range 64)).isEmpty then [64] else [])

/-- The state that MT.LD or MT.ST uses through windows. -/
def rowSight (md : Mode) (a b : BitVec 5) (m : BitVec 4) (f64 z : Bool) : M (Bool × Bool) := do
  guardMask m
  let s ← get
  elemKinds md (rowAccess s a b f64) (storeRows s.core.regs m z)

/-- MT.LD (11 R235). -/
def mtLdBody (t : BitVec 4) (a b : BitVec 5) (m : BitVec 4) (f64 : Bool) : M Unit := do
  guardRegs 2 t.toNat (tileCount f64)
  guardMask m
  let s ← get
  let r := s.core.regs
  loadRun (rowMode .load) (r.rows m r.rowsFrom).head? (r.rows m r.rowsFrom) 64 false false (rowAccess s a b f64) (tileDest t.toNat f64)

/-- The remote row of MT.LD for which it waits. -/
def rowResume (t m : BitVec 4) (f64 : Bool) : M Unit := do
  let r ← regs
  resumeLoad (tileDest t.toNat f64) (r.rows m r.rowsFrom)

/-- MT_LD (11 R233, R235, R236). -/
def execMtLd (t : BitVec 4) (a b : BitVec 5) (m : BitVec 4) (f64 : Bool) (st : State) : Out :=
  memRun (mtEntry (tvalWord (encode (.mtLd t a b m f64))) true m) (rowResume t m f64) (rowSight (rowMode .load) a b m f64 false)
    (mtLdBody t a b m f64) st

/-- The bitmap of rows that are all zero (11 R237). -/
def rowMap (r : Regs) (t : Nat) (f64 : Bool) : Nat :=
  (List.range 64).foldl (fun v n => if (r.row t n f64).all (· == 0) then v + 2 ^ n else v) 0

/-- The bytes of a row, or the bitmap (11 R235, R237). -/
def rowBytes (t : Nat) (f64 : Bool) (r : Regs) (n : Nat) : List Byte :=
  if n = 64 then leBytes 8 (rowMap r t f64) else (r.row t n f64).flatMap (leBytes (cellBytes f64))

/-- MT.ST and MT.ST.Z (11 R235, R237): the rows are written in ascending order (11 R238). It counts as reading its tile,
whatever rows are active: one that is open traps also where no row is (11 R227, 05 R100; log 82). DESIGN CHOICE -/
def mtStBody (t : BitVec 4) (a b : BitVec 5) (m : BitVec 4) (f64 z : Bool) : M Unit := do
  guardRegs 2 t.toNat (tileCount f64)
  guardMask m
  let s ← get
  let p ← planElems (rowMode .store) (rowAccess s a b f64) (storeRows s.core.regs m z)
  storePlanned { rowMode .store with ord := true } p 64 (.whole (rowBytes t.toNat f64))

/-- MT_ST (11 R233, R235-R238). -/
def execMtSt (t : BitVec 4) (a b : BitVec 5) (m : BitVec 4) (f64 z : Bool) (st : State) : Out :=
  memRun (mtEntry (tvalWord (encode (.mtSt t a b m f64 z))) true m) (pure ()) (rowSight (rowMode .store) a b m f64 z)
    (mtStBody t a b m f64 z) st

/-- MT.RDROW (11 R239). -/
def rdrowBody (t : BitVec 4) (d b : BitVec 5) (f64 : Bool) : M Unit := do
  let n := (← getX b).toNat
  guardRegs 2 t.toNat (tileCount f64)
  guardRegs 0 d.toNat 1
  ensure (decide (n < 64)) .range (BitVec.ofNat 64 n)
  let k := 8 * cellBytes f64
  modRegs fun r => (((r.row t.toNat n f64).zipIdx.foldl (fun q p => q.setElem d k p.2 p.1) r).rezero d k 0 64).vecDone false false

/-- MT_RDROW (11 R239). -/
def execMtRdrow (t : BitVec 4) (d b : BitVec 5) (f64 : Bool) (st : State) : Out :=
  vecRun (mtEntry (tvalWord (encode (.mtRdrow t d b f64))) true 0) (rdrowBody t d b f64) st

/-- MT.WRROW (11 R239). -/
def wrrowBody (t : BitVec 4) (a b : BitVec 5) (f64 : Bool) : M Unit := do
  let n := (← getX b).toNat
  guardRegs 2 t.toNat (tileCount f64)
  ensure (decide (n < 64)) .range (BitVec.ofNat 64 n)
  let k := 8 * cellBytes f64
  needElems a k (List.range 64)
  modRegs fun r => (r.setRow t.toNat n f64 ((List.range 64).map (r.elem a k))).vecDone false true

/-- MT_WRROW (11 R239). -/
def execMtWrrow (t : BitVec 4) (a b : BitVec 5) (f64 : Bool) (st : State) : Out :=
  vecRun (mtEntry (tvalWord (encode (.mtWrrow t a b f64))) true 0) (wrrowBody t a b f64) st

end Sys2Proof.Machine
end

