-- ==== Sys2Proof/Machine/Control.lean ====
section
/-! DEFINITION. Branches, jumps, LP.LOOP and the VC instructions: majors BR, JL, JR, LP and VC (15 R309-R314, 10 R212-R214,
07 R138, R139). -/
namespace Sys2Proof.Machine

/-- A signed word displacement from `pc` (02 R24). -/
def target {w : Nat} (pc : Word) (o : BitVec w) : Word := pc + BitVec.ofInt 64 (o.toInt * 4)

/-- A conditional branch (15 R310). -/
def branch (taken : Bool) (o : BitVec 13) (st : State) : Out :=
  .next (st.jump (if taken then target st.pc o else st.pc + 4))

/-- BR_EQ (15 R309, R310). -/
def execBrEq (a b : BitVec 5) (o : BitVec 13) (st : State) : Out := branch (st.x a == st.x b) o st

/-- BR_NE (15 R309, R310). -/
def execBrNe (a b : BitVec 5) (o : BitVec 13) (st : State) : Out := branch (st.x a != st.x b) o st

/-- BR_LT (15 R309, R310). -/
def execBrLt (a b : BitVec 5) (o : BitVec 13) (st : State) : Out := branch ((st.x a).slt (st.x b)) o st

/-- BR_GE (15 R309, R310). -/
def execBrGe (a b : BitVec 5) (o : BitVec 13) (st : State) : Out := branch (!(st.x a).slt (st.x b)) o st

/-- BR_LTU (15 R309, R310). -/
def execBrLtu (a b : BitVec 5) (o : BitVec 13) (st : State) : Out := branch ((st.x a).ult (st.x b)) o st

/-- BR_GEU (15 R309, R310). -/
def execBrGeu (a b : BitVec 5) (o : BitVec 13) (st : State) : Out := branch (!(st.x a).ult (st.x b)) o st

/-- JL_JAL (15 R311). -/
def execJlJal (d : BitVec 5) (o : BitVec 21) (st : State) : Out :=
  .next ((st.setX d (st.pc + 4)).jump (target st.pc o))

/-- JR_JALR (15 R313). -/
def execJrJalr (d a : BitVec 5) (st : State) : Out :=
  let t := st.x a
  if t.extractLsb' 0 2 != 0 then .next (takeTrap .align false t none st)
  else .next ((st.setX d (st.pc + 4)).jump t)

/-- JR.JTAB (15 R314); `w` is its word. -/
def tableBody (w : Word) (d a b : BitVec 5) : M Word := do
  let s ← get
  let i := s.x d
  if !i.ult (s.x b) then return s.pc + 4
  let ea := s.x a + 4 * i
  ensure (ea.extractLsb' 0 2 == 0) .align ea
  let e := leNat (← memLoad w ea 4)
  let t := s.pc + sextN 4 e
  ensure (t.extractLsb' 0 2 == 0) .align t
  return t

/-- JR_JTAB (15 R314). -/
def execJrJtab (d a b : BitVec 5) (st : State) : Out := runJump (tableBody (tvalWord (encode (.jrJtab d a b))) d a b) st

/-- Elements and bytes of an advance under a format (10 R213). -/
def fmtUnit (c : Nat) : Nat × Nat := if isBfp c then (32, 4 * (c - 14 + 1)) else if c = 10 then (2, 1) else (1, fmtWidth c / 8)

/-- The traps of LP.LOOP, before any state changes (10 R212, R213). -/
def loopTrap (w : Word) (adv : BitVec 4) (r : Regs) : Option (Cause × Word) :=
  let n := r.vl.toNat
  let left := r.count - min n r.count
  if r.off 10 then some (.vuse, w)
  else if r.vill then some (.illegal, w)
  else if n = 0 && r.count != 0 then some (.range, 0)
  else if adv != 0 && n % (fmtUnit r.fmt).1 != 0 && left != 0 then some (.range, r.vl)
  else none

/-- The registers after LP.LOOP, but for the program counter (10 R213). -/
def Regs.loop (r : Regs) (adv : BitVec 4) : Regs :=
  let n := r.vl.toNat
  let u := fmtUnit r.fmt
  let step : Word := BitVec.ofNat 64 ((n + u.1 - 1) / u.1 * u.2)
  let r1 := (List.range 4).foldl (fun r k =>
    if adv.getLsbD k then r.wr (BitVec.ofNat 5 (12 + k)) (r.rd (BitVec.ofNat 5 (12 + k)) + step) else r) r
  let r2 := { r1 with vrem := setField r1.vrem 0 48 (r.count - min n r.count) }
  { r2.grant with vstart := 0 }.dirty true false false

/-- LP_LOOP (10 R212, R213): a taken back-edge ends the chunk when three quarters of its budget are spent (14 R279). -/
def execLpLoop (adv : BitVec 4) (o : BitVec 22) (st : State) : Out :=
  let r := st.core.regs
  match loopTrap (tvalWord (encode (.lpLoop adv o))) adv r with
  | some (c, v) => .next (takeTrap c false v none st)
  | none =>
    let s1 := st.mapRegs (·.loop adv)
    if r.count - min r.vl.toNat r.count = 0 then .next s1.retire
    else
      let budget := (r.chb.extractLsb' 0 17).toNat
      let ends := decide (3 * (budget / 4) ≤ st.core.chunkOr.count + 1) && s1.core.endAfter.isNone
      let s2 := s1.jump (target r.pc o)
      .next (if ends then s2.mapCore fun c => { c with endAfter := some 6 } else s2)

/-- Runs a VC instruction: vector state must not be off (07 R136, R138, 17 R348). -/
def vcRun (w : Word) (d : BitVec 5) (f : Regs → Regs) (res : Regs → Word) (st : State) : Out :=
  if st.core.regs.off 10 then .next (takeTrap .vuse false w none st)
  else
    let r1 := f st.core.regs
    .next ((st.mapRegs fun _ => r1).setX d (res r1)).retire

/-- Runs a VC instruction that writes VL: vector state becomes dirty (17 R348). -/
def vcGrant (w : Word) (d : BitVec 5) (f : Regs → Regs) (st : State) : Out :=
  vcRun w d (fun r => (f r).grant.dirty true false false) (·.vl) st

/-- VC_SETL (07 R139). -/
def execVcSetl (d a b : BitVec 5) (st : State) : Out :=
  let w := tvalWord (encode (.vcSetl d a b))
  let n := st.x a
  if !st.core.regs.off 10 && n.extractLsb' 48 16 != 0 then .next (takeTrap .range false n none st)
  else
    let cap := if b = 0 then 0 else min (st.x b).toNat 0xFFFF
    vcGrant w d (fun r => { r with vrem := BitVec.ofNat 64 (cap * 2 ^ 48 + n.toNat) }) st

/-- VC_SETT (07 R139). -/
def execVcSett (d a : BitVec 5) (st : State) : Out :=
  vcGrant (tvalWord (encode (.vcSett d a))) d (·.setType (st.x a)) st

/-- VC_SETTI (07 R139). -/
def execVcSetti (d : BitVec 5) (g : BitVec 2) (f : BitVec 5) (st : State) : Out :=
  vcGrant (tvalWord (encode (.vcSetti d g f))) d (·.setType ((g ++ f).setWidth 64)) st

/-- VC_VLMAX (07 R139): it reads vector state and writes none. -/
def execVcVlmax (d : BitVec 5) (st : State) : Out :=
  vcRun (tvalWord (encode (.vcVlmax d))) d id (fun r => BitVec.ofNat 64 r.vlmax) st

end Sys2Proof.Machine
end

