-- ==== Sys2Proof/Machine/CopyEngine.lean ====
section
/-! DEFINITION. Copy-engine programs: majors EM, EA, ES and EB (05 R103-R106). -/
namespace Sys2Proof.Machine

/-- One step of a transfer: its bytes come from `src`, or are the fill pattern; its byte count (05 R105). -/
def copyStep (dl sl : Bool) (dst src : Word) (len : Nat) (fill : Option Word) : EM Nat := do
  let n := min len (64 - dst.toNat % 64)
  let bs ← match fill with
    | some v => pure ((List.range n).map fun i => byteOf v ((dst.toNat + i) % 8))
    | none => eRead sl src n
  eWrite dl dst bs
  return n

/-- EM.COPY, one step an execution: the word stays until e[b] is zero (05 R105, R113). -/
def copyBody (d a b : BitVec 4) (dl sl : Bool) : EM Word := do
  let g ← engine
  let left := (g.reg b).toNat
  if left = 0 then return g.nextPc
  let n ← copyStep dl sl (g.reg d) (g.reg a) left none
  let k := BitVec.ofNat 64 n
  modEngine fun g => ((g.setReg d (g.reg d + k)).setReg a (g.reg a + k)).setReg b (g.reg b - k)
  return if left = n then g.nextPc else g.pc

/-- EM.FILL, one step an execution (05 R105). -/
def fillBody (d a b : BitVec 4) (dl : Bool) : EM Word := do
  let g ← engine
  let left := (g.reg b).toNat
  if left = 0 then return g.nextPc
  let n ← copyStep dl false (g.reg d) 0 left (some (g.reg a))
  let k := BitVec.ofNat 64 n
  modEngine fun g => (g.setReg d (g.reg d + k)).setReg b (g.reg b - k)
  return if left = n then g.nextPc else g.pc

/-- The registers of EM.COPY2 after a row: the pitches are signed halves of e[c+1] (05 R105). -/
def Engine.rowDone (g : Engine) (d a c : BitVec 4) : Engine :=
  let p := g.reg (c + 1)
  let g1 := (g.setReg d (g.reg d + (p.extractLsb' 32 32).signExtend 64)).setReg a (g.reg a + (p.extractLsb' 0 32).signExtend 64)
  { g1.setReg c (g.reg c - 1) with part := 0 }

/-- EM.COPY2, one step an execution: the registers change after a complete row (05 R105, R111, R113). -/
def copy2Body (d a b c : BitVec 4) (dl sl : Bool) : EM Word := do
  let g ← engine
  let len := (g.reg b).toNat
  engEnsure (decide (len ≤ 65536)) 0x09 g.pc
  if g.reg c = 0 then return g.nextPc
  let o := BitVec.ofNat 64 g.part
  let n ← if g.part < len then copyStep dl sl (g.reg d + o) (g.reg a + o) (len - g.part) none else pure 0
  if g.part + n < len then
    modEngine fun g => { g with part := g.part + n }
    return g.pc
  else
    modEngine (·.rowDone d a c)
    return if g.reg c = 1 then g.nextPc else g.pc

/-- EM.LD (05 R105). -/
def emLdBody (d a : BitVec 4) (sl : Bool) : EM Word := do
  let g ← engine
  engEnsure ((g.reg a).extractLsb' 0 3 == 0) 0x07 (g.reg a)
  let bs ← eRead sl (g.reg a) 8
  modEngine (·.setReg d (BitVec.ofNat 64 (leNat bs)))
  return g.nextPc

/-- EM.ST (05 R105). -/
def emStBody (a b : BitVec 4) (dl : Bool) : EM Word := do
  let g ← engine
  engEnsure ((g.reg a).extractLsb' 0 3 == 0) 0x07 (g.reg a)
  eWrite dl (g.reg a) (leBytes 8 (g.reg b).toNat)
  return g.nextPc

/-- EM_COPY (05 R105). -/
def execEmCopy (d a b : BitVec 4) (dl sl : Bool) (st : State) : Out := runEng (copyBody d a b dl sl) st

/-- EM_COPY2 (05 R105). -/
def execEmCopy2 (d a b c : BitVec 4) (dl sl : Bool) (st : State) : Out := runEng (copy2Body d a b c dl sl) st

/-- EM_FILL (05 R105). -/
def execEmFill (d a b : BitVec 4) (dl : Bool) (st : State) : Out := runEng (fillBody d a b dl) st

/-- EM_LD (05 R105). -/
def execEmLd (d a : BitVec 4) (sl : Bool) (st : State) : Out := runEng (emLdBody d a sl) st

/-- EM_ST (05 R105). -/
def execEmSt (a b : BitVec 4) (dl : Bool) (st : State) : Out := runEng (emStBody a b dl) st

/-- EA_ADD (05 R106). -/
def execEaAdd (d a b : BitVec 4) (st : State) : Out := runEng (engOp (fun x y => x + y) d a b) st

/-- EA_SUB (05 R106). -/
def execEaSub (d a b : BitVec 4) (st : State) : Out := runEng (engOp (fun x y => x - y) d a b) st

/-- EA_AND (05 R106). -/
def execEaAnd (d a b : BitVec 4) (st : State) : Out := runEng (engOp (fun x y => x &&& y) d a b) st

/-- EA_OR (05 R106). -/
def execEaOr (d a b : BitVec 4) (st : State) : Out := runEng (engOp (fun x y => x ||| y) d a b) st

/-- EA_XOR (05 R106). -/
def execEaXor (d a b : BitVec 4) (st : State) : Out := runEng (engOp (fun x y => x ^^^ y) d a b) st

/-- EA_SLL (05 R106). -/
def execEaSll (d a b : BitVec 4) (st : State) : Out := runEng (engOp (fun x y => x <<< shift6 y) d a b) st

/-- EA_SRL (05 R106). -/
def execEaSrl (d a b : BitVec 4) (st : State) : Out := runEng (engOp (fun x y => x >>> shift6 y) d a b) st

/-- EA_SRA (05 R106). -/
def execEaSra (d a b : BitVec 4) (st : State) : Out := runEng (engOp (fun x y => x.sshiftRight (shift6 y)) d a b) st

/-- EA_MUL (05 R106). -/
def execEaMul (d a b : BitVec 4) (st : State) : Out := runEng (engOp (fun x y => x * y) d a b) st

/-- EA_MINU (05 R106). -/
def execEaMinu (d a b : BitVec 4) (st : State) : Out := runEng (engOp (fun x y => if x ≤ y then x else y) d a b) st

/-- EA_MAXU (05 R106). -/
def execEaMaxu (d a b : BitVec 4) (st : State) : Out := runEng (engOp (fun x y => if x ≤ y then y else x) d a b) st

/-- EA_SLTU (05 R106). -/
def execEaSltu (d a b : BitVec 4) (st : State) : Out := runEng (engOp (fun x y => bitWord (x < y)) d a b) st

/-- ES_ADDI (05 R106). -/
def execEsAddi (d a : BitVec 4) (i : BitVec 14) (st : State) : Out := runEng (engUnary (fun x => x + i.signExtend 64) d a) st

/-- ES_ORI (05 R106): the immediate is unsigned. -/
def execEsOri (d a : BitVec 4) (i : BitVec 14) (st : State) : Out := runEng (engUnary (fun x => x ||| i.setWidth 64) d a) st

/-- ES_SLLI (05 R106). -/
def execEsSlli (d a : BitVec 4) (i : BitVec 6) (st : State) : Out := runEng (engUnary (fun x => x <<< i.toNat) d a) st

/-- ES_DRAIN (05 R106). -/
def execEsDrain (st : State) : Out := runEng engDrain st

/-- ES_END (05 R106). -/
def execEsEnd (st : State) : Out := runEng engEnd st

/-- ES_ERR (05 R106). -/
def execEsErr (i : BitVec 14) (st : State) : Out := runEng (engUser i) st

/-- EB_EQ (05 R106). -/
def execEbEq (a b : BitVec 4) (o : BitVec 15) (st : State) : Out := runEng (engBranch (fun x y => x == y) a b o) st

/-- EB_NE (05 R106). -/
def execEbNe (a b : BitVec 4) (o : BitVec 15) (st : State) : Out := runEng (engBranch (fun x y => x != y) a b o) st

/-- EB_LT (05 R106). -/
def execEbLt (a b : BitVec 4) (o : BitVec 15) (st : State) : Out := runEng (engBranch (fun x y => x.slt y) a b o) st

/-- EB_GE (05 R106). -/
def execEbGe (a b : BitVec 4) (o : BitVec 15) (st : State) : Out := runEng (engBranch (fun x y => !x.slt y) a b o) st

/-- EB_LTU (05 R106). -/
def execEbLtu (a b : BitVec 4) (o : BitVec 15) (st : State) : Out := runEng (engBranch (fun x y => x < y) a b o) st

/-- EB_GEU (05 R106). -/
def execEbGeu (a b : BitVec 4) (o : BitVec 15) (st : State) : Out := runEng (engBranch (fun x y => y ≤ x) a b o) st

/-- EB_AL (05 R106). -/
def execEbAl (o : BitVec 15) (st : State) : Out := runEng (engBranch (fun _ _ => true) 0 0 o) st

end Sys2Proof.Machine
end

