-- ==== Sys2Proof/Machine/Forager.lean ====
section
/-! DEFINITION. Forager programs: majors GW, GA, GE and GB (06 R121-R130). -/
namespace Sys2Proof.Machine

/-- A load of `n` bytes, zero-extended (06 R124). -/
def gwLoad (n : Nat) (d a : BitVec 4) (l inc : Bool) : EM Word := do
  let g ← engine
  let ea := g.reg a
  engEnsure (ea.toNat % n == 0) 0x07 ea
  let bs ← eRead l ea n
  if inc then modEngine (·.setReg a (ea + BitVec.ofNat 64 n))
  modEngine (·.setReg d (BitVec.ofNat 64 (leNat bs)))
  return g.nextPc

/-- A store of `n` bytes, of the register pair b, b + 1 when they are 16 (06 R124). -/
def gwStore (n : Nat) (a b : BitVec 4) (l inc : Bool) : EM Word := do
  let g ← engine
  let ea := g.reg a
  engEnsure (ea.toNat % n == 0) 0x07 ea
  eWrite l ea (leBytes (min n 8) (g.reg b).toNat ++ if n = 16 then leBytes 8 (g.reg (b + 1)).toNat else [])
  if inc then modEngine (·.setReg a (ea + BitVec.ofNat 64 n))
  return g.nextPc

/-- The dense row: the elements at their column ids, the later one where two have one id (06 R125). -/
def denseRow (w : Nat) (es : List (Nat × List Byte)) : List Byte :=
  (List.range 64).flatMap fun c => ((es.reverse.find? (·.1 == c)).map (·.2)).getD (List.replicate w 0)

/-- The steps of a spread's writes (06 R125). -/
def spreadSteps (l : Bool) : Nat → Word → List Byte → EM Unit
  | 0, _, _ => return
  | fuel + 1, dst, bs =>
    if bs.isEmpty then return else do
      let m := min bs.length (64 - dst.toNat % 64)
      eWrite l dst (bs.take m)
      spreadSteps l fuel (dst + BitVec.ofNat 64 m) (bs.drop m)

/-- A body that, when it is held up, leaves nothing done. -/
def atOnce {α : Type} (m : EM α) : EM α := fun s =>
  match m s with
  | .error .hold _ => .error .hold s
  | r => r

/-- A spread of elements of `w` bytes (06 R125). Its writes begin when none of them is held up, so that one that has begun writing
completes (06 R120). -/
def spread (w : Nat) (d a b c : BitVec 4) (l inc : Bool) : EM Word := do
  let g ← engine
  let n := (g.reg c).toNat
  engEnsure (decide (n ≤ 64)) 0x09 g.pc
  engEnsure ((g.reg d).toNat % 16 == 0) 0x07 (g.reg d)
  engEnsure ((g.reg b).toNat % w == 0) 0x07 (g.reg b)
  let ids ← (List.range n).mapM fun k => do return leNat (← eRead false (g.reg a + BitVec.ofNat 64 k) 1)
  match (List.range n).find? fun k => decide (64 ≤ ids.getD k 0) with
  | some k => engError 0x0C (g.reg a + BitVec.ofNat 64 k)
  | none => pure ()
  let vals ← (List.range n).mapM fun k => eRead false (g.reg b + BitVec.ofNat 64 (w * k)) w
  atOnce (spreadSteps l 16 (g.reg d) (denseRow w (ids.zip vals)))
  if inc then
    modEngine fun g => ((g.setReg d (g.reg d + BitVec.ofNat 64 (64 * w))).setReg a (g.reg a + BitVec.ofNat 64 n)).setReg b
      (g.reg b + BitVec.ofNat 64 (w * n))
  return g.nextPc

/-- GW_LB (06 R124). -/
def execGwLb (d a : BitVec 4) (l inc : Bool) (st : State) : Out := runEng (gwLoad 1 d a l inc) st

/-- GW_LH (06 R124). -/
def execGwLh (d a : BitVec 4) (l inc : Bool) (st : State) : Out := runEng (gwLoad 2 d a l inc) st

/-- GW_LW (06 R124). -/
def execGwLw (d a : BitVec 4) (l inc : Bool) (st : State) : Out := runEng (gwLoad 4 d a l inc) st

/-- GW_LD (06 R124). -/
def execGwLd (d a : BitVec 4) (l inc : Bool) (st : State) : Out := runEng (gwLoad 8 d a l inc) st

/-- GW_SB (06 R124). -/
def execGwSb (a b : BitVec 4) (l inc : Bool) (st : State) : Out := runEng (gwStore 1 a b l inc) st

/-- GW_SH (06 R124). -/
def execGwSh (a b : BitVec 4) (l inc : Bool) (st : State) : Out := runEng (gwStore 2 a b l inc) st

/-- GW_SW (06 R124). -/
def execGwSw (a b : BitVec 4) (l inc : Bool) (st : State) : Out := runEng (gwStore 4 a b l inc) st

/-- GW_SD (06 R124). -/
def execGwSd (a b : BitVec 4) (l inc : Bool) (st : State) : Out := runEng (gwStore 8 a b l inc) st

/-- GW_SQ (06 R124). -/
def execGwSq (a b : BitVec 4) (l inc : Bool) (st : State) : Out := runEng (gwStore 16 a b l inc) st

/-- GW_SPRB (06 R125). -/
def execGwSprb (d a b c : BitVec 4) (l inc : Bool) (st : State) : Out := runEng (spread 1 d a b c l inc) st

/-- GW_SPRH (06 R125). -/
def execGwSprh (d a b c : BitVec 4) (l inc : Bool) (st : State) : Out := runEng (spread 2 d a b c l inc) st

/-- GW_SPRW (06 R125). -/
def execGwSprw (d a b c : BitVec 4) (l inc : Bool) (st : State) : Out := runEng (spread 4 d a b c l inc) st

/-- GW_SPRD (06 R125). -/
def execGwSprd (d a b c : BitVec 4) (l inc : Bool) (st : State) : Out := runEng (spread 8 d a b c l inc) st

/-- GA_ADD (06 R126). -/
def execGaAdd (d a b : BitVec 4) (st : State) : Out := runEng (engOp (fun x y => x + y) d a b) st

/-- GA_SUB (06 R126). -/
def execGaSub (d a b : BitVec 4) (st : State) : Out := runEng (engOp (fun x y => x - y) d a b) st

/-- GA_AND (06 R126). -/
def execGaAnd (d a b : BitVec 4) (st : State) : Out := runEng (engOp (fun x y => x &&& y) d a b) st

/-- GA_OR (06 R126). -/
def execGaOr (d a b : BitVec 4) (st : State) : Out := runEng (engOp (fun x y => x ||| y) d a b) st

/-- GA_XOR (06 R126). -/
def execGaXor (d a b : BitVec 4) (st : State) : Out := runEng (engOp (fun x y => x ^^^ y) d a b) st

/-- GA_SLL (06 R126). -/
def execGaSll (d a b : BitVec 4) (st : State) : Out := runEng (engOp (fun x y => x <<< shift6 y) d a b) st

/-- GA_SRL (06 R126). -/
def execGaSrl (d a b : BitVec 4) (st : State) : Out := runEng (engOp (fun x y => x >>> shift6 y) d a b) st

/-- GA_MUL (06 R126). -/
def execGaMul (d a b : BitVec 4) (st : State) : Out := runEng (engOp (fun x y => x * y) d a b) st

/-- GA_MINU (06 R126). -/
def execGaMinu (d a b : BitVec 4) (st : State) : Out := runEng (engOp (fun x y => if x ≤ y then x else y) d a b) st

/-- GA_MAXU (06 R126). -/
def execGaMaxu (d a b : BitVec 4) (st : State) : Out := runEng (engOp (fun x y => if x ≤ y then y else x) d a b) st

/-- GA_SLTU (06 R126). -/
def execGaSltu (d a b : BitVec 4) (st : State) : Out := runEng (engOp (fun x y => bitWord (x < y)) d a b) st

/-- Number of trailing zero bits; 64 for 0 (06 R126). -/
def trailingZeros (x : Word) : Word := BitVec.ofNat 64 (((List.range 64).find? (x.getLsbD ·)).getD 64)
/-- Number of one bits (06 R126). -/
def oneBits (x : Word) : Word := BitVec.ofNat 64 ((List.range 64).filter (x.getLsbD ·)).length

/-- GA_CTZ (06 R126). -/
def execGaCtz (d a : BitVec 4) (st : State) : Out := runEng (engUnary trailingZeros d a) st

/-- GA_POPC (06 R126). -/
def execGaPopc (d a : BitVec 4) (st : State) : Out := runEng (engUnary oneBits d a) st

/-- GA_BCLR (06 R126). -/
def execGaBclr (d a : BitVec 4) (st : State) : Out := runEng (engUnary (fun x => x &&& (x - 1)) d a) st

/-- GE_ADDI (06 R127). -/
def execGeAddi (d a : BitVec 4) (i : BitVec 14) (st : State) : Out := runEng (engUnary (fun x => x + i.signExtend 64) d a) st

/-- GE_ORI (06 R127): the immediate is unsigned. -/
def execGeOri (d a : BitVec 4) (i : BitVec 14) (st : State) : Out := runEng (engUnary (fun x => x ||| i.setWidth 64) d a) st

/-- GE_SLLI (06 R127). -/
def execGeSlli (d a : BitVec 4) (i : BitVec 6) (st : State) : Out := runEng (engUnary (fun x => x <<< i.toNat) d a) st

/-- GE_SRLI (06 R127). -/
def execGeSrli (d a : BitVec 4) (i : BitVec 6) (st : State) : Out := runEng (engUnary (fun x => x >>> i.toNat) d a) st

/-- GE_DRAIN (06 R127). -/
def execGeDrain (st : State) : Out := runEng engDrain st

/-- GE_END (06 R127). -/
def execGeEnd (st : State) : Out := runEng engEnd st

/-- GE_ERR (06 R127). -/
def execGeErr (i : BitVec 14) (st : State) : Out := runEng (engUser i) st

/-- GB_EQ (06 R128). -/
def execGbEq (a b : BitVec 4) (o : BitVec 15) (st : State) : Out := runEng (engBranch (fun x y => x == y) a b o) st

/-- GB_NE (06 R128). -/
def execGbNe (a b : BitVec 4) (o : BitVec 15) (st : State) : Out := runEng (engBranch (fun x y => x != y) a b o) st

/-- GB_LT (06 R128). -/
def execGbLt (a b : BitVec 4) (o : BitVec 15) (st : State) : Out := runEng (engBranch (fun x y => x.slt y) a b o) st

/-- GB_GE (06 R128). -/
def execGbGe (a b : BitVec 4) (o : BitVec 15) (st : State) : Out := runEng (engBranch (fun x y => !x.slt y) a b o) st

/-- GB_LTU (06 R128). -/
def execGbLtu (a b : BitVec 4) (o : BitVec 15) (st : State) : Out := runEng (engBranch (fun x y => x < y) a b o) st

/-- GB_GEU (06 R128). -/
def execGbGeu (a b : BitVec 4) (o : BitVec 15) (st : State) : Out := runEng (engBranch (fun x y => y ≤ x) a b o) st

/-- GB_AL (06 R128). -/
def execGbAl (o : BitVec 15) (st : State) : Out := runEng (engBranch (fun _ _ => true) 0 0 o) st

end Sys2Proof.Machine
end

