-- ==== Sys2Proof/Machine/Objects.lean ====
section
/-! DEFINITION. Objects: the DOF header and tables, the placing of an image, symbols and relocations (23 R374-R382). -/
namespace Sys2Proof.Machine

/-- `n` bytes of an object from offset `o` up as a number. -/
def field (obj : List Byte) (o n : Nat) : Nat := leNat ((obj.drop o).take n)

/-- A section-table entry (23 R375). -/
structure Sect where
  kind  : Nat
  align : Nat
  foff  : Nat
  fsize : Nat
  msize : Nat
  rsv   : Nat
  deriving DecidableEq, Repr

/-- Entry `k` of the section table (23 R375). -/
def sectOf (obj : List Byte) (k : Nat) : Sect :=
  let o := field obj 0x10 8 + 32 * k
  ⟨field obj o 1, field obj (o + 1) 1, field obj (o + 8) 8, field obj (o + 16) 8, field obj (o + 24) 8, field obj (o + 2) 6⟩

/-- The section table (23 R374, R375). -/
def sectsOf (obj : List Byte) : List Sect := (List.range (field obj 0x0A 1)).map (sectOf obj)
/-- The section of a kind. -/
def sectKind (ss : List Sect) (k : Nat) : Option Sect := ss.find? (·.kind == k)

/-- A section-table entry is valid (23 R375). -/
def sectOk (obj : List Byte) (x : Sect) : Bool :=
  decide (1 ≤ x.kind) && decide (x.kind ≤ 9) && decide (x.align ≤ 16) && x.rsv == 0 &&
  decide (x.foff + x.fsize ≤ obj.length || x.fsize = 0) &&
  (if x.kind ≤ 3 then decide (x.fsize ≤ x.msize) else if x.kind ≤ 5 then x.fsize == 0 else x.msize == 0)

/-- A symbol as `.sym` gives it (23 R376). -/
structure RawSym where
  name  : Nat
  sect  : Nat
  bind  : Nat
  type  : Nat
  rsv   : Nat
  value : Nat
  size  : Nat
  deriving DecidableEq, Repr

/-- Number of symbols (23 R376). -/
def symCount (obj : List Byte) (ss : List Sect) : Nat :=
  match sectKind ss 6 with
  | some x => field obj x.foff 8
  | none => 0

/-- Symbol `i` of an object (23 R376). -/
def symOf (obj : List Byte) (ss : List Sect) (i : Nat) : RawSym :=
  let o := ((sectKind ss 6).map (·.foff)).getD 0 + 8 + 24 * i
  ⟨field obj o 4, field obj (o + 4) 1, field obj (o + 5) 1, field obj (o + 6) 1, field obj (o + 7) 1, field obj (o + 8) 8,
    field obj (o + 16) 8⟩

/-- The bytes of the string area of `.sym`. -/
def stringArea (obj : List Byte) (ss : List Sect) : List Byte :=
  match sectKind ss 6 with
  | some x => ((obj.drop x.foff).take x.fsize).drop (8 + 24 * field obj x.foff 8)
  | none => []

/-- Name of a symbol, up to its zero byte. -/
def symName (obj : List Byte) (ss : List Sect) (y : RawSym) : List Byte := ((stringArea obj ss).drop y.name).takeWhile (· != 0)

/-- A symbol is valid: its fields lie in range, its section exists, its name ends in a zero byte (23 R376). A section that is present and is
never placed, of kind 6 to 9, exists too: the symbol's address is then its VALUE (log 100). DESIGN CHOICE -/
def symOk (obj : List Byte) (ss : List Sect) (y : RawSym) : Bool :=
  y.rsv == 0 && decide (y.type ≤ 4) && decide (y.bind ≤ 2) &&
  (if y.bind = 2 then y.sect == 255 else if y.type = 3 then y.sect == 0 else (sectKind ss y.sect).isSome) &&
  ((stringArea obj ss).drop y.name).any (· == 0)

/-- `.sym` is valid (23 R376). -/
def symsOk (obj : List Byte) (ss : List Sect) : Bool :=
  match sectKind ss 6 with
  | none => true
  | some x =>
    let n := field obj x.foff 8
    decide (8 ≤ x.fsize) && decide (8 + 24 * n ≤ x.fsize) && decide (1 ≤ n) &&
    symOf obj ss 0 == ⟨0, 0, 0, 0, 0, 0, 0⟩ && ((List.range n).drop 1).all fun i => symOk obj ss (symOf obj ss i)

/-- A relocation (23 R377). -/
structure Rel where
  off    : Nat
  sect   : Nat
  type   : Nat
  rsv    : Nat
  sym    : Nat
  pair   : Nat
  addend : Int
  deriving DecidableEq, Repr

/-- Relocation `j` of an object (23 R377). -/
def relOf (obj : List Byte) (x : Sect) (j : Nat) : Rel :=
  let o := x.foff + 24 * j
  ⟨field obj o 4, field obj (o + 4) 1, field obj (o + 5) 1, field obj (o + 6) 2, field obj (o + 8) 4, field obj (o + 12) 4,
    (BitVec.ofNat 64 (field obj (o + 16) 8)).toInt⟩

/-- The relocations of an object in order (23 R377). -/
def relsOf (obj : List Byte) (ss : List Sect) : List Rel :=
  match sectKind ss 7 with
  | some x => (List.range (x.fsize / 24)).map (relOf obj x)
  | none => []

/-- GOT20 or GOTLO12 (23 R379). -/
def Rel.isGot (r : Rel) : Bool := r.type == 5 || r.type == 6

/-- The symbols of the GOT's entries, rising (23 R379). -/
def gotSyms (rs : List Rel) : List Nat := (rs.filter (·.isGot)).foldl (fun l r => rising r.sym l) []

/-- `.got` has its size, and exists when a relocation needs it (23 R379). -/
def gotOk (ss : List Sect) (rs : List Rel) : Bool :=
  match sectKind ss 5 with
  | some x => x.msize == 8 * ((gotSyms rs).length + 1)
  | none => (gotSyms rs).isEmpty

/-- Step 1 of a load (23 R374-R377, R382). A `.rel` whose FSIZE is no multiple of 24 fails it (log 88). DESIGN CHOICE -/
def headerOk (obj : List Byte) : Bool :=
  let ss := sectsOf obj
  let rel := sectKind ss 7
  decide (64 ≤ obj.length) && field obj 0 4 == 0x31464F44 && field obj 4 4 == 0 && field obj 8 2 == 1 && field obj 0x0C 4 == 0 &&
  decide (1 ≤ ss.length) && decide (ss.length ≤ 9) && field obj 0x10 8 % 8 == 0 &&
  decide (field obj 0x10 8 + 32 * ss.length ≤ obj.length) && ss.all (sectOk obj) &&
  (ss.map (·.kind)).eraseDups.length == ss.length && symsOk obj ss &&
  (match rel with
    | some x => x.fsize % 24 == 0
    | none => true) &&
  gotOk ss (relsOf obj ss)

/-- FEAT0 to FEAT3 (17 R344). -/
def featWord (k : Nat) : Nat := if k = 0 then 1 else if k = 3 then 3 else 0

/-- Step 2 of a load (23 R382): FEAT3.GEN is 3. MINGEN = 0, outside the 1 to 3 of its field, is below GEN and passes (23 R374; log 100).
DESIGN CHOICE -/
def featuresOk (obj : List Byte) : Bool :=
  ((List.range 4).all fun k => field obj (0x18 + 8 * k) 8 &&& (2 ^ 64 - 1 - featWord k) == 0) && decide (field obj 0x0B 1 ≤ 3)

/-! ### Placing (23 R378) -/

/-- A section in its place: its bytes in memory, and how many came from the file. -/
structure Placed where
  kind  : Nat
  va    : Nat
  fsize : Nat
  data  : List Byte
  deriving DecidableEq, Repr

/-- `n` bytes. -/
def pad (bs : List Byte) (n : Nat) : List Byte := bs ++ List.replicate (n - bs.length) 0
/-- The least multiple of `k` at or above `a`. -/
def alignUp (a k : Nat) : Nat := (a + k - 1) / k * k

/-- The loaded sections from `.text` on, each behind the one before; `at` is the end so far (23 R378). Where there is no `.text` the first
section stands at the least multiple of 65,536 and its alignment at or above B (log 89). DESIGN CHOICE -/
def placeFrom (obj : List Byte) (at' : Nat) : List Sect → List Placed
  | [] => []
  | x :: r =>
    let va := if x.kind = 1 then at' else alignUp at' (max 65536 (2 ^ x.align))
    ⟨x.kind, va, x.fsize, pad ((obj.drop x.foff).take x.fsize) x.msize⟩ :: placeFrom obj (va + x.msize) r

/-- The sections of an image in their places (23 R378). -/
def placeAll (obj : List Byte) (ss : List Sect) (base : Nat) : List Placed :=
  placeFrom obj base ([1, 2, 3, 4, 5].filterMap (sectKind ss))

/-- The end of an image. -/
def imageEnd (base : Nat) (ps : List Placed) : Nat := ps.foldl (fun _ p => p.va + p.data.length) base

/-- First VAs of the 64 KiB pages that a section touches (23 R378). -/
def pagesOf (p : Placed) : List Nat :=
  if p.data.isEmpty then [] else
  (List.range ((p.va + p.data.length - 1) / 65536 - p.va / 65536 + 1)).map fun i => 65536 * (p.va / 65536 + i)

/-- Step 3 of a load (23 R378). -/
def baseOk (ss : List Sect) (base : Word) (ps : List Placed) : Bool :=
  canonical base && base.toNat % 4096 == 0 && base.toNat % 2 ^ ((sectKind ss 1).map (·.align)).getD 0 == 0 &&
  decide (imageEnd base.toNat ps ≤ 2 ^ 48)

/-! ### Symbols (23 R381) -/

/-- The global symbol that provides a name: of the image loaded first (23 R381). -/
def resolve (imgs : List Image) (name : List Byte) : Option (Word × Word) :=
  imgs.findSome? fun im => (im.syms.find? fun y => y.global && y.name == name).map fun y => (im.base, y.addr)

/-- Address of a section. -/
def placedVa (ps : List Placed) (k : Nat) : Nat := ((ps.find? (·.kind == k)).map (·.va)).getD 0

/-- Address of symbol `i`; none for an extern that does not resolve (23 R381). -/
def symAddr (obj : List Byte) (ss : List Sect) (ps : List Placed) (imgs : List Image) (i : Nat) : Option Nat :=
  let y := symOf obj ss i
  if y.bind = 2 then (resolve imgs (symName obj ss y)).map (·.2.toNat)
  else some (if y.sect = 0 then y.value else (placedVa ps y.sect + y.value) % 2 ^ 64)

/-! ### Relocations (23 R380) -/

/-- What a relocation works on. -/
structure RelEnv where
  addrs : List Nat
  got   : List Nat
  gotVa : Nat
  rels  : List Rel
  deriving DecidableEq, Repr

/-- Offset of a symbol's GOT entry from GOTBASE (23 R379). -/
def RelEnv.gotOffset (e : RelEnv) (sym : Nat) : Nat := 8 * (e.got.findIdx (· == sym) + 1)
/-- Address of a symbol. -/
def RelEnv.addr (e : RelEnv) (sym : Nat) : Nat := e.addrs.getD sym 0

/-- The word that a relocation patches; none when it is not one inside the file's bytes. -/
def relWord (ps : List Placed) (r : Rel) : Option Nat :=
  match ps.find? (·.kind == r.sect) with
  | some p => if r.sect ≤ 3 && r.off % 4 = 0 && r.off + 4 ≤ p.fsize then some (field p.data r.off 4) else none
  | none => none

/-- V of a HI20 or GOT20 (23 R380). -/
def hiValue (e : RelEnv) (ps : List Placed) (r : Rel) (w : Nat) : Int :=
  if r.type = 5 then e.gotOffset r.sym + r.addend
  else (e.addr r.sym : Int) + r.addend - (if w.testBit 20 then (placedVa ps r.sect + r.off : Nat) else 0 : Nat)

/-- V of the paired entry, of the type wanted (23 R380). Whether the paired entry itself is malformed is its own affair: a load with
one fails at that entry, if not before. -/
def pairValue (e : RelEnv) (ps : List Placed) (r : Rel) (want : Nat) : Option Int :=
  (e.rels[r.pair]?.filter fun q => q.type == want).map fun q => hiValue e ps q ((relWord ps q).getD 0)

/-- The `n` bits of a word from `lo` up replaced. -/
def wordField (w lo n : Nat) (v : Int) : Nat := (setField (BitVec.ofNat 32 w) lo n (v % 2 ^ n).toNat).toNat

/-- hi(V) (23 R380). -/
def hi20 (v : Int) : Int := (v + 0x800) / 4096

/-- A relocation of a word: the new word; false is a malformed one, true one that overflows (23 R380). One whose TYPE is in no row of its
table is malformed (log 79). DESIGN CHOICE -/
def patchWord (e : RelEnv) (ps : List Placed) (r : Rel) (w : Nat) : Except Bool Nat :=
  let major := w >>> 26
  let v : Int := (e.addr r.sym : Int) + r.addend - (placedVa ps r.sect + r.off : Nat)
  match r.type with
  | 2 | 5 =>
    if major != 3 || (r.type == 5 && w.testBit 20) then .error false
    else
      let v := hiValue e ps r w
      if v + 0x800 < -2 ^ 31 || (2 ^ 31 : Int) ≤ v + 0x800 then .error true else .ok (wordField w 0 20 (hi20 v))
  | 3 =>
    match pairValue e ps r 2 with
    | some v => if [2, 4, 13].elem major then .ok (wordField w 0 12 v) else .error false
    | none => .error false
  | 4 =>
    match pairValue e ps r 2 with
    | some v => if major = 5 then .ok (wordField (wordField w 21 5 (v / 128)) 0 7 v) else .error false
    | none => .error false
  | 6 =>
    if !([2, 4].elem major) then .error false
    else if r.pair = 0xFFFFFFFF then
      let v : Int := e.gotOffset r.sym + r.addend
      if v < -2048 || 2047 < v then .error true else .ok (wordField w 0 12 v)
    else match pairValue e ps r 5 with
      | some v => .ok (wordField w 0 12 v)
      | none => .error false
  | 7 =>
    if major != 7 then .error false
    else if v % 4 != 0 || v < -4194304 || 4194300 < v then .error true else .ok (wordField w 0 21 (v / 4))
  | 8 =>
    if major != 6 then .error false
    else if v % 4 != 0 || v < -16384 || 16380 < v then .error true else .ok (wordField w 0 13 (v / 4))
  | _ => .error false

/-- Bytes of a section replaced. -/
def patch (ps : List Placed) (k o : Nat) (bs : List Byte) : List Placed :=
  ps.map fun p => if p.kind = k then { p with data := p.data.take o ++ bs ++ p.data.drop (o + bs.length) } else p

/-- One relocation applied (23 R380). One whose SYM is not below the number of symbols is malformed (log 79). DESIGN CHOICE. A reserved bit of
an entry is malformed, as 23 R380 lists, and no failure of step 1 (23 R382; log 86). DEDUCED -/
def relocate (e : RelEnv) (n : Nat) (ps : List Placed) (r : Rel) : Except Bool (List Placed) :=
  if r.rsv != 0 || n ≤ r.sym then .error false
  else if r.type = 1 then
    match ps.find? (·.kind == r.sect) with
    | some p =>
      if (r.sect = 2 || r.sect = 3) && r.off + 8 ≤ p.fsize then
        .ok (patch ps r.sect r.off (leBytes 8 (((e.addr r.sym : Int) + r.addend) % 2 ^ 64).toNat))
      else .error false
    | none => .error false
  else
    match relWord ps r with
    | none => .error false
    | some w => match patchWord e ps r w with
      | .ok w' => .ok (patch ps r.sect r.off (leBytes 4 w'))
      | .error b => .error b

/-- The relocations applied in order; the first that fails, with its index (23 R382 step 6). -/
def relocateAll (e : RelEnv) (n : Nat) : Nat → List Placed → List Rel → Except (Bool × Nat) (List Placed)
  | _, ps, [] => .ok ps
  | j, ps, r :: rs =>
    match relocate e n ps r with
    | .ok ps1 => relocateAll e n (j + 1) ps1 rs
    | .error b => .error (b, j)

/-- The GOT's bytes (23 R379). -/
def gotBytes (base : Nat) (e : RelEnv) : List Byte := leBytes 8 base ++ e.got.flatMap fun y => leBytes 8 (e.addr y)

end Sys2Proof.Machine
end

