-- ==== Sys2Proof/Machine/Loader.lean ====
section
/-! DEFINITION. The object-load service of the primary MC: page tables, loads, unloads, kernel lists and the fragments of a load
(23 R381-R385). -/
namespace Sys2Proof.Machine

/-! ### Page tables that firmware writes (03 R48-R50) -/

/-- A write by a management core (14 R290). -/
def fwWrite (pa : Nat) (bs : List Byte) (s : State) : State := outsideWrite 4 0 0 pa bs s
/-- A doubleword at its home. -/
def State.homeWord (s : State) (pa : Nat) : Word := BitVec.ofNat 64 (s.homeNat pa 8)
/-- Address of a table's entry for a VA, `lvl` levels above the last (03 R48). -/
def entryAt (tab lvl va : Nat) : Nat := tab + 8 * (va / 2 ^ (16 + 11 * lvl) % 2048)
/-- The table or frame an entry names (03 R48). -/
def entryAddr (e : Word) : Nat := (e.extractLsb' 14 38).toNat * 0x4000

/-- A VA is mapped, or is part of a mapping: an entry on its path is a valid leaf (03 R51), or one at which a walk faults, which the service
does not write over and under which no page that it maps could be reached: a pointer below level 0, a pointer or a leaf with a wrong field,
or a pointer, or a ROOT, that names no table in backed HBM or LPDDR (03 R48, R49; 23 R382, R383; log 87). DESIGN CHOICE. The service reads an
entry, and writes an entry or a line of a frame, that lies in a poisoned line as data (log 109). DESIGN CHOICE -/
def mappedFrom (s : State) (va : Nat) : Nat → Nat → Bool
  | lvl, tab =>
    let e := s.homeWord (entryAt tab lvl va)
    if 1 < tab / 2 ^ 48 || !backed tab 0x4000 then true
    else if !e.getLsbD 0 then false
    else if e.getLsbD 1 || pteReserved e then true
    else match lvl with
      | 0 => true
      | l + 1 => mappedFrom s va l (entryAddr e)

/-- The tables on the path of a VA, from `lvl` levels above the last down (03 R48). -/
def tablesOn (s : State) (va : Nat) : Nat → Nat → List Nat
  | lvl, tab =>
    let e := s.homeWord (entryAt tab lvl va)
    tab :: (if !e.getLsbD 0 || e.getLsbD 1 then [] else match lvl with
      | 0 => []
      | l + 1 => tablesOn s va l (entryAddr e))

/-- The service may reach the tables of pages: they are in LPDDR, or HBM is served (27 R425); and no fence holds HOST accesses back
(14 R292 step 5). -/
def tablesServed (s : State) (root : Nat) (vas : List Nat) : Bool :=
  !s.fenced 4 0 0 && (s.hbmServed || vas.all fun va => (tablesOn s va 2 root).all fun t => t / 2 ^ 48 != 0)

/-- The table that an entry names, taken from the pool when the entry names none. -/
def childTable (tab lvl va : Nat) (s : State) : Nat × State :=
  let a := entryAt tab lvl va
  let e := s.homeWord a
  if e.getLsbD 0 then (entryAddr e, s) else
  let t := alignUp s.pool 0x4000
  (t, fwWrite a (leBytes 8 (t + 1)) (clearFrame t 0x4000 { s with pool := t + 0x4000 }))

/-- A page of 64 KiB mapped with a leaf. -/
def mapPage (root va pte : Nat) (s : State) : State :=
  let (t1, s1) := childTable root 2 va s
  let (t0, s2) := childTable t1 1 va s1
  fwWrite (entryAt t0 0 va) (leBytes 8 pte) s2

/-- A page of 64 KiB made invalid. -/
def unmapPage (root : Nat) (s : State) (va : Nat) : State :=
  let t1 := entryAddr (s.homeWord (entryAt root 2 va))
  let t0 := entryAddr (s.homeWord (entryAt t1 1 va))
  fwWrite (entryAt t0 0 va) (leBytes 8 0) s

/-- The bits of a section's leaves: X, W, RD, U and CLS as 23 R378 says; A is set, and D on writable pages, so that no access
faults for want of them (log 28). DESIGN CHOICE -/
def leafBits (kind : Nat) : Nat :=
  if kind = 1 then 0x163 else if kind = 2 || kind = 5 then 0x14B else 0x1DB

/-! ### Loads (23 R382, R383) -/

/-- A status word (23 R382). -/
def loadStatus (code detail : Nat) : Word := BitVec.ofNat 64 (code * 2 ^ 56 + detail % 2 ^ 32)

/-- The root of an address space: of the lowest-numbered descriptor of the tenant and ASID, valid or not (23 R382 step 4). -/
def spaceRoot (s : State) (ten asid : BitVec 16) : Option Nat :=
  ((List.range 1024).find? fun q => let d := keyGet s.queues q Queue.reset; d.ten == ten && d.asid == asid).map fun q =>
    (keyGet s.queues q Queue.reset).root.toNat * 0x4000

/-- The images of an address space, earliest first. -/
def State.imagesOf (s : State) (ten asid : BitVec 16) : List Image := s.images.filter fun im => im.ten == ten && im.asid == asid

/-- What a load that passes its checks is to do. -/
structure LoadPlan where
  root  : Nat
  base  : Nat
  parts : List Placed
  syms  : List Sym
  gotVa : Nat
  uses  : List Word
  deriving DecidableEq, Repr

/-- The frames of an image fit in what unloads have freed and the rest of the pool (23 R382 step 4, R384). -/
def framesFit (s : State) (pages : Nat) : Bool :=
  backed (alignUp s.pool 0x10000) (0x10000 * (pages + 1 - s.frames.length) + 0x8000 * pages)

/-- The first VAs of the pages that an object takes at a base. -/
def objPages (obj : List Byte) (base : Word) : List Nat := ((placeAll obj (sectsOf obj) base.toNat).flatMap pagesOf).eraseDups

/-- The base of a load: B, or PREF for 0 (23 R382). -/
def loadBase (obj : List Byte) (b : Word) : Word := if b = 0 then BitVec.ofNat 64 (field obj 0x38 8) else b

/-- A symbol of an image that others see, or a kernel. -/
def symEntry (obj : List Byte) (ss : List Sect) (addrs : List Nat) (i : Nat) : Option Sym :=
  let y := symOf obj ss i
  if (y.bind = 1 || y.type = 1) && y.bind != 2 && i != 0 then
    some ⟨symName obj ss y, BitVec.ofNat 64 (addrs.getD i 0), y.type == 1, y.bind == 1, i⟩
  else none

/-- The steps of a load up to the relocations; the status of the first that fails (23 R382). -/
def loadCheck (obj : List Byte) (ten asid : BitVec 16) (b : Word) (s : State) : Except Word LoadPlan :=
  if !headerOk obj then .error (loadStatus 1 0)
  else if !featuresOk obj then .error (loadStatus 2 0)
  else
    let ss := sectsOf obj
    let base := loadBase obj b
    let ps := placeAll obj ss base.toNat
    let pages := objPages obj base
    if !baseOk ss base ps then .error (loadStatus 3 0) else
    match spaceRoot s ten asid with
    | none => .error (loadStatus 4 0)
    | some root =>
      if pages.any (fun va => mappedFrom s va 2 root) || !framesFit s pages.length then .error (loadStatus 4 0) else
      let imgs := s.imagesOf ten asid
      let n := symCount obj ss
      let found := (List.range n).map (symAddr obj ss ps imgs)
      match (List.range n).find? fun i => (found.getD i none).isNone with
      | some i => .error (loadStatus 5 i)
      | none =>
        let addrs := found.map (·.getD 0)
        let rels := relsOf obj ss
        let e : RelEnv := ⟨addrs, gotSyms rels, placedVa ps 5, rels⟩
        match relocateAll e n 0 ps rels with
        | .error (true, j) => .error (loadStatus 6 j)
        | .error (false, j) => .error (loadStatus 7 j)
        | .ok ps1 =>
          .ok ⟨root, base.toNat, ps1.map fun p => if p.kind = 5 then { p with data := pad (gotBytes base.toNat e) p.data.length } else p,
            (List.range n).filterMap (symEntry obj ss addrs), placedVa ps 5,
            ((List.range n).filterMap fun i => if (symOf obj ss i).bind = 2 then
              (resolve imgs (symName obj ss (symOf obj ss i))).map (·.1) else none).eraseDups⟩

/-- A frame of 64 KiB for a page: one that an unload has freed, else the pool's next (23 R384; log 12). -/
def takeFrame (s : State) : Nat × State :=
  match s.frames with
  | f :: r => (f, { s with frames := r })
  | [] => let f := alignUp s.pool 0x10000; (f, { s with pool := f + 0x10000 })

/-- One page of a section: a frame, the section's bytes in it and zero elsewhere, and its leaf (23 R378). The pages so far, and
their frames, are kept. -/
def loadPage (root : Nat) (p : Placed) (acc : List (Nat × Nat) × State) (va : Nat) : List (Nat × Nat) × State :=
  let (f, s1) := takeFrame acc.2
  let lo := max va p.va
  let bs := (p.data.drop (lo - p.va)).take (va + 65536 - lo)
  (acc.1 ++ [(va, f)], mapPage root va (f + leafBits p.kind) (fwWrite (f + (lo - va)) bs (clearFrame f 0x10000 s1)))

/-- The ordering of HOST writes before CORE accesses, over the package: chunks that have read a line of such a write are squashed
(14 R292; 23 R383). -/
def fenceHost (s : State) : State :=
  let hit (c : Core) : Bool := c.chunk.any (fenceHits 4 4 s)
  ((s.cores.filter fun p => hit p.2).map (·.1)).foldl (squashAt 1 s.csn) s

/-- A load whose checks have passed (23 R383). No translation of the pages existed, so the invalidation leaves nothing to do; the SY.ICINV of
its end takes every fetched word away. -/
def loadImage (ten asid : BitVec 16) (pl : LoadPlan) (s : State) : State :=
  let (pages, s1) := pl.parts.foldl (fun acc p => (pagesOf p).foldl (loadPage pl.root p) acc) ([], s)
  let im : Image := ⟨ten, asid, BitVec.ofNat 64 pl.base, imageEnd pl.base pl.parts, pl.root, pages, pl.syms,
    BitVec.ofNat 64 pl.gotVa, pl.uses⟩
  textDrop (fun _ => true) (fenceHost { s1 with images := s1.images ++ [im] })

/-- The report of a load: status, and on OK base, GOTBASE and the count of kernels (23 R383, R385). -/
def loadObject (obj : List Byte) (ten asid : BitVec 16) (b : Word) (s : State) : List Byte × State :=
  match loadCheck obj ten asid b s with
  | .error w => (leBytes 8 w.toNat, s)
  | .ok pl =>
    (leBytes 8 0 ++ leBytes 8 pl.base ++ leBytes 8 pl.gotVa ++ leBytes 8 (pl.syms.filter (·.kernel)).length,
      loadImage ten asid pl s)

/-! ### Unloads (23 R384) -/

/-- An image may not be unloaded: a context entered it and has not ended, or another image uses it (23 R384). -/
def imageBusy (im : Image) (s : State) : Bool :=
  (s.ctxs.any fun k => k.state != .ended && k.ten == im.ten && k.asid == im.asid &&
    decide (im.base.toNat ≤ k.entry.toNat) && decide (k.entry.toNat < im.stop)) ||
  (s.imagesOf im.ten im.asid).any fun o => o.uses.elem im.base

/-- A held translation of a page of an image. -/
def Image.held (im : Image) (t : Tlb) : Bool :=
  t.ten == im.ten.setWidth 64 && (t.pte.getLsbD 9 || t.asid == im.asid.setWidth 64) &&
  im.pages.any fun p => decide (t.va ≤ p.1) && decide (p.1 < t.va + t.size)

/-- The PKG-scope invalidation of an image's pages: translations leave every TLB, and chunks that used one are squashed
(03 R61, 23 R384). It is a management core's, and takes no CSN (log 29). DEDUCED -/
def tinvImage (im : Image) (s : State) : State :=
  let drop (c : Core) : Core := { c with tlb := c.tlb.filter fun t => !im.held t }
  let hit (c : Core) : Bool := c.chunk.any fun ch => !ch.empty && ch.used.any im.held
  ((s.cores.filter fun p => hit p.2).map (·.1)).foldl (squashAt 2 s.csn) { s with
    core := drop s.core
    others := s.others.map fun p => (p.1, drop p.2)
    dieTlb := s.dieTlb.map fun l => l.filter fun t => !im.held t }

/-- An unload and its status: its TINV, its SY.ICINV, and the frames free afterwards (23 R384). The frames of its pages are meant; the tables that loads took stay,
empty or not (log 100). DESIGN CHOICE -/
def unloadImage (ten asid : BitVec 16) (b : Word) (s : State) : Word × State :=
  match (s.imagesOf ten asid).find? (·.base == b) with
  | none => (loadStatus 3 0, s)
  | some im =>
    if imageBusy im s then (loadStatus 8 0, s) else
    let s1 := (im.pages.map (·.1)).foldl (unmapPage im.root) s
    (0, textDrop (fun _ => true) (tinvImage im { s1 with
      images := s1.images.filter (· != im), frames := s1.frames ++ im.pages.map (·.2) }))

/-! ### Requests (23 R385) -/

/-- Two fragments agree where they overlap (23 R385). -/
def agree (a b : Nat × List Byte) : Bool :=
  (List.range b.2.length).all fun i =>
    let o := b.1 + i
    if a.1 ≤ o && o < a.1 + a.2.length then a.2.getD (o - a.1) 0 == b.2.getD i 0 else true

/-- Fragments by rising offset with one more. -/
def putFrag (f : Nat × List Byte) : List (Nat × List Byte) → List (Nat × List Byte)
  | [] => [f]
  | g :: r => if f.1 ≤ g.1 then f :: g :: r else g :: putFrag f r

/-- The bytes that fragments give from the start on without a gap (23 R385). -/
def joinFrags : List Byte → List (Nat × List Byte) → List Byte
  | bs, [] => bs
  | bs, f :: r => if f.1 ≤ bs.length then joinFrags (bs ++ f.2.drop (bs.length - f.1)) r else bs

/-- The jobs with one replaced, or without it. -/
def putJob (src : BitVec 12) (tag : Word) (j : Option LoadJob) (s : State) : State :=
  { s with jobs := (s.jobs.filter fun k => !(k.src == src && k.tag == tag)) ++ j.toList }

/-- The tables that loading an object touches may be reached (27 R425). -/
def loadReaches (obj : List Byte) (ten asid : BitVec 16) (b : Word) (s : State) : Bool :=
  match spaceRoot s ten asid with
  | some root => !(headerOk obj && featuresOk obj) || tablesServed s root (objPages obj (loadBase obj b))
  | none => true

/-- LOAD: one fragment of a load (23 R385): the object is loaded when every byte has arrived. A fragment that would complete it is
not taken while the service must wait for the tables (27 R425). A length T outside 64 to 2^32 − 1 ends the load as the fragments that
23 R385 lists do (log 85). DESIGN CHOICE -/
def loadOp (m : Msg) (ten asid : BitVec 16) (s : State) : Served :=
  let base := BitVec.ofNat 64 (msgAt m 24 8)
  let total := msgAt m 32 8
  let off := msgAt m 40 8
  let bs := (m.payload.drop 48).take (total - off)
  let job : LoadJob := (s.jobs.find? fun k => k.src == m.src && k.tag == m.tag).getD
    ⟨m.src, m.tag, ten, asid, base, total, [], false⟩
  if job.failed then (none, s)
  else if total < 64 || 2 ^ 32 ≤ total || total ≤ off || job.ten != ten || job.asid != asid || job.base != base ||
      job.total != total || !job.frags.all (agree · (off, bs)) then
    (some (0, leBytes 8 (loadStatus 1 0).toNat), putJob m.src m.tag (some { job with failed := true }) s)
  else
    let frags := putFrag (off, bs) job.frags
    let obj := joinFrags [] frags
    if obj.length < total then (none, putJob m.src m.tag (some { job with frags := frags }) s)
    else if !loadReaches obj ten asid base s then (none, s)
    else
      let (rep, s1) := loadObject obj ten asid base (putJob m.src m.tag none s)
      (some (0, rep), s1)

/-- UNLOAD (23 R384, R385); it waits for the image's tables (27 R425). -/
def unloadOp (m : Msg) (ten asid : BitVec 16) (s : State) : Served :=
  let b := BitVec.ofNat 64 (msgAt m 24 8)
  if ((s.imagesOf ten asid).find? (·.base == b)).any fun im => !tablesServed s im.root (im.pages.map (·.1)) then (none, s) else
  let (w, s1) := unloadImage ten asid b s
  (some (0, leBytes 8 w.toNat), s1)

/-- A kernel as KLIST gives it (23 R385). -/
def kernelEntry (y : Sym) : List Byte :=
  leBytes 8 y.addr.toNat ++ leBytes 4 y.index ++ leBytes 4 y.name.length ++ pad (y.name.take 16) 16

/-- KLIST (23 R385). -/
def klistOp (m : Msg) (ten asid : BitVec 16) (s : State) : Served :=
  match (s.imagesOf ten asid).find? (·.base == BitVec.ofNat 64 (msgAt m 24 8)) with
  | none => served 0x03 s
  | some im => (some (0, (((im.syms.filter (·.kernel)).drop (msgAt m 32 8)).take 7).flatMap kernelEntry), s)

/-- A request of the object-load service: bytes 20 to 23 are zero, and the sender has the rights to its tenant (23 R385). -/
def imageRequest (m : Msg) (f : BitVec 16 → BitVec 16 → State → Served) (s : State) : Served :=
  let ten := msgAt m 16 2
  if msgAt m 20 4 != 0 then served 0xFF s
  else if !s.mayTenant m.src ten then served 0x01 s
  else f (BitVec.ofNat 16 ten) (BitVec.ofNat 16 (msgAt m 18 2)) s

end Sys2Proof.Machine
end

