-- ==== Sys2Proof/Machine/Mgmt.lean ====
section
/-! DEFINITION. The fabric management service: a MGMT message is dispatched by the operation code and the subcode that its payload
holds (25 R400, 23 R385, 26 R420). -/
namespace Sys2Proof.Machine

/-- The operation that a payload names, by code (bytes 0 to 7) and subcode (bytes 8 to 15); none for a code or a subcode that is no
operation (25 R400, 23 R385, 26 R420). -/
def mgmtOp (m : Msg) : Option (State → Served) :=
  match msgAt m 0 8, msgAt m 8 8 with
  | 1, 0 => some (imageRequest m (loadOp m))
  | 1, 1 => some (imageRequest m (unloadOp m))
  | 1, 2 => some (imageRequest m (klistOp m))
  | 2, _ => some (queueSetOp m)
  | 3, _ => some (agingSetOp m)
  | 4, 0 => some (capsuleListOp m)
  | 4, 1 => some (capsuleGetOp m)
  | 4, 2 => some (capsuleAckOp m)
  | 4, 3 => some idkeyOp
  | 5, _ => some debugFreezeOp
  | 6, _ => some (groupSetOp m)
  | 7, _ => some (memberFailOp m)
  | 8, _ => some (redirectClearOp m)
  | _, _ => none

/-- A MGMT message: 0xFF for a malformed header or an operation that does not exist, 0x01 for want of rights, else the operation's
own reply, if it has one (25 R397, R400). It is not taken before the MCs have booted. -/
def mgmtService (m : Msg) (s : State) : State :=
  if !s.mcUp then s
  else if !msgClean m then reply 0x20 m 0xFF [] s
  else match mgmtOp m with
    | none => reply 0x20 m 0xFF [] s
    | some f =>
      if !s.mayDo m.src (msgAt m 0 8) then reply 0x20 m 0x01 [] s
      else match f s with
        | (some (stat, bs), s1) => reply 0x20 m stat bs s1
        | (none, s1) => s1

/-- LOAD (23 R382, R383, R385). -/
def execLoad (m : Msg) (st : State) : Out := .next (mgmtService m st)
/-- UNLOAD (23 R384, R385). -/
def execUnload (m : Msg) (st : State) : Out := .next (mgmtService m st)
/-- KLIST (23 R385). -/
def execKlist (m : Msg) (st : State) : Out := .next (mgmtService m st)
/-- QUEUE_SET (25 R400, 16 R328). -/
def execQueueSet (m : Msg) (st : State) : Out := .next (mgmtService m st)
/-- AGING_SET (25 R400, 16 R335). -/
def execAgingSet (m : Msg) (st : State) : Out := .next (mgmtService m st)
/-- CAPSULE_LIST (26 R420). -/
def execCapsuleList (m : Msg) (st : State) : Out := .next (mgmtService m st)
/-- CAPSULE_GET (26 R420). -/
def execCapsuleGet (m : Msg) (st : State) : Out := .next (mgmtService m st)
/-- CAPSULE_ACK (26 R420). -/
def execCapsuleAck (m : Msg) (st : State) : Out := .next (mgmtService m st)
/-- IDKEY (26 R420). -/
def execIdkey (m : Msg) (st : State) : Out := .next (mgmtService m st)
/-- DEBUG_FREEZE (26 R421). -/
def execDebugFreeze (m : Msg) (st : State) : Out := .next (mgmtService m st)
/-- GROUP_SET (25 R404). -/
def execGroupSet (m : Msg) (st : State) : Out := .next (mgmtService m st)
/-- MEMBER_FAIL (25 R407). -/
def execMemberFail (m : Msg) (st : State) : Out := .next (mgmtService m st)
/-- REDIRECT_CLEAR (25 R400, 03 R65). -/
def execRedirectClear (m : Msg) (st : State) : Out := .next (mgmtService m st)

end Sys2Proof.Machine
end

