-- ==== Sys2Proof/Machine/Policy.lean ====
section
/-! DEFINITION. The shipped policy firmware at a quantum boundary: priority, rotation, aging, slots given up by waiting contexts,
and the free slots filled (16 R329, R335, R336). -/
namespace Sys2Proof.Machine

/-- A list sorted by insertion. -/
def sortBy {α : Type} (le : α → α → Bool) : List α → List α
  | [] => []
  | x :: r =>
    let rec put : List α → List α
      | [] => [x]
      | y :: t => if le x y then x :: y :: t else y :: put t
    put (sortBy le r)

/-- The contexts of a queue that have not ended, the oldest group first, and in order of rank (16 R336). -/
def queueLive (s : State) (q : Nat) : List Ctx :=
  sortBy (fun a b => decide (a.group.toNat < b.group.toNat) || (a.group == b.group && decide (a.rank ≤ b.rank)))
    (s.ctxs.filter fun k => k.queue == q && k.state != .ended)

/-- The contexts of a queue that wait for a slot, in the order in which they take one: those that have given one up come after those
that have not, the one that did so last at the end, so that every participant of a barrier comes to run (16 R336). -/
def queueOrder (s : State) (q : Nat) : List Ctx := sortBy (fun a b => decide (a.gave ≤ b.gave)) ((queueLive s q).filter (·.waits))

/-- Priority of a queue: that with which its oldest contexts were launched, since a change of the descriptor affects only later
launches (16 R328; log 64). DEDUCED -/
def queuePrio (s : State) (q : Nat) : Nat := ((queueLive s q).head?.map (·.prio.toNat)).getD 0
/-- Priority of a queue that has waited since a quantum: one higher for each A quanta (16 R335). -/
def agedPrio (s : State) (w : Nat × Nat) : Nat :=
  queuePrio s w.1 + (if s.policy.aging = 0 then 0 else (s.policy.quantum - w.2) / s.policy.aging)

/-- Waiting queues: the highest priority first, and among equals the one that has waited longest (16 R335). -/
def waitingOrder (s : State) : List (Nat × Nat) :=
  sortBy (fun a b => decide (agedPrio s b < agedPrio s a) || (agedPrio s a == agedPrio s b && decide (a.2 ≤ b.2))) s.policy.waiting

/-- Mapped queues: the lowest priority first, and among equals the one mapped longest (16 R335). -/
def victimOrder (s : State) : List (Nat × Nat) :=
  sortBy (fun a b => decide (queuePrio s a.1 < queuePrio s b.1) ||
    (queuePrio s a.1 == queuePrio s b.1 && decide (a.2 ≤ b.2))) s.policy.mapped

/-- The slots of the queues named are unbound; a bind that has not completed there holds the UNBIND (16 R331, R335). -/
def unbindQueues (qs : List Nat) (s : State) : State :=
  (s.cores.filter fun p => (p.2.slot.state == .bound || p.2.slot.state == .binding) && qs.elem p.2.slot.queue.toNat).foldl (fun s p => onCore p.1 unbindCmd s) s

/-! ### Placement (16 R329) -/

/-- The die of a core runs and the core accepts binds (16 R341, 17 R355, 27 R424). -/
def coreOpen (s : State) (n : Nat) : Bool :=
  let c := s.coreAt n
  s.power.dieOn.getLsbD (dieOf n) && decide (n % 48 / 4 < s.power.quads.toList.getD (dieOf n) 0) && !c.lost && c.supvec != 0
/-- The core's slot is EMPTY. -/
def coreFree (s : State) (n : Nat) : Bool := (s.coreAt n).slot.state == .empty

/-- A wait at which a bound context gives up its slot (16 R336). -/
def Wait.yields : Wait → Bool
  | .fullEmpty _ | .barrier _ | .rend _ => true
  | _ => false

/-- The core is free for queue `q`, or a context of that queue leaves it or waits in it (16 R336). -/
def coreYields (s : State) (q n : Nat) : Bool :=
  let c := s.coreAt n
  coreFree s n || (c.slot.queue.toNat == q &&
    (c.slot.state == .unbinding || (c.slot.state == .bound && c.wait.any (·.yields))))

/-- The core's slot is free, or its context leaves it. -/
def coreLeft (s : State) (n : Nat) : Bool := coreFree s n || (s.coreAt n).slot.state == .unbinding

/-- The group's home is still to be chosen, and core `n` belongs to one whose cores, for every rank, are open and such as `gives` names
(16 R329, R336). -/
def mayChoose (s : State) (gives : Nat → Bool) (k : Ctx) (n : Nat) : Bool :=
  match homeOf k.place n with
  | none => false
  | some h => k.home.isNone && (List.range k.size).all fun r =>
    let c := homeCore k.place h r
    coreOpen s c && gives c

/-- A context could bind on the core if its slot were free, and with it those that `gives` names (16 R329, R336). -/
def mayUse (s : State) (gives : Nat → Bool) (k : Ctx) (n : Nat) : Bool :=
  coreOpen s n && k.fits n && (k.home.isSome || (homeOf k.place n).isNone || mayChoose s gives k n)

/-- The bind record of a context written to a slot, with BIND (16 R330). -/
def bindOn (k : Ctx) (n : Nat) (s : State) : State :=
  onCore n (fun s => bindCmd (s.mapCore fun c => { c with slot := { c.slot with
    savepa := k.savepa, queue := BitVec.ofNat 10 k.queue, prio := k.prio, ctxid := k.ctxid } })) s

/-- The waiting queues that come before a queue: all of at least its priority while it is mapped, those that stand ahead of it while it
waits (16 R335). -/
def queuesBefore (s : State) (q : Nat) : List Nat :=
  (((waitingOrder s).takeWhile (·.1 != q)).filter fun w => decide (queuePrio s q ≤ agedPrio s w)).map (·.1)

/-- Core `n` is left to a group that waits for every core of its home: one of the queue of context `k`, from which `k`, having given up a
slot later, does not take it back (16 R336), or one of a queue that comes before (16 R335; log 92). DEDUCED -/
def keptFor (s : State) (k : Ctx) (n : Nat) : Bool :=
  s.ctxs.any fun j => j.waits &&
    ((j.queue == k.queue && decide (j.gave < k.gave) && mayChoose s (coreYields s k.queue) j n) ||
      ((queuesBefore s k.queue).elem j.queue && mayChoose s (coreLeft s) j n))

/-- A core on which a context may be bound now: one that is open and free, and not left to a group (16 R329, R335; log 92). DEDUCED -/
def coreTakes (s : State) (k : Ctx) (n : Nat) : Bool := coreOpen s n && coreFree s n && !keptFor s k n

/-- The lowest-numbered home whose cores, for every rank, may take the group of a context (16 R329). -/
def chooseHome (s : State) (k : Ctx) : Option Nat :=
  (List.range (if k.place = 2 then 36 else 3)).find? fun h => (List.range k.size).all fun r => coreTakes s k (homeCore k.place h r)

/-- The core on which a context can be bound now. -/
def placeFor (s : State) (k : Ctx) : Option Nat :=
  if k.place = 2 || k.place = 3 then ((k.home.or (chooseHome s k)).map fun h => homeCore k.place h k.rank).filter (coreTakes s k)
  else (List.range 144).find? (coreTakes s k)

/-- A context bound where it can be; the bind chooses the home of its group (16 R329). -/
def bindContext (s : State) (k : Ctx) : State :=
  match ((s.ctxs.find? (·.ctxid == k.ctxid)).filter (·.waits)).bind fun k => (placeFor s k).map fun n => (k, n) with
  | none => s
  | some (k, n) => bindOn k n s

/-- One context of a queue that is not mapped bound, if one can be (16 R335). -/
def mapQueue (s : State) (q : Nat) : State :=
  refreshPolicy ((queueOrder s q).foldl (fun s k => if queueMapped s q then s else bindContext s k) s)

/-- The free slots filled: each waiting queue mapped in its order, then the further contexts of mapped queues, of the highest priority first
and among equals of the one mapped last (16 R335, R336; log 12). DESIGN CHOICE -/
def fillSlots (s : State) : State :=
  let s1 := ((waitingOrder s).map (·.1)).foldl mapQueue s
  ((victimOrder s1).reverse.map (·.1)).foldl (fun s q => (queueOrder s q).foldl bindContext s) s1

/-! ### Slots that a waiting queue takes (16 R335) -/

/-- The sets of open cores, each of which lets the context be bound once all its slots are free: one core, that of its rank in the home of
its group, or every core of a home that its group can choose (16 R329). -/
def Ctx.targets (s : State) (k : Ctx) : List (List Nat) :=
  (match homeOf k.place 0, k.home with
    | none, _ => (List.range 144).map fun n => [n]
    | some _, some h => [[homeCore k.place h k.rank]]
    | some _, none => (List.range (if k.place = 2 then 36 else 3)).map fun h => (List.range k.size).map (homeCore k.place h)).filter
      (·.all (coreOpen s))

/-- The queues that hold slots of the cores. -/
def holders (s : State) (cs : List Nat) : List Nat :=
  ((cs.filter fun n => !coreFree s n).map fun n => (s.coreAt n).slot.queue.toNat).eraseDups

/-- The mapped queues that a waiting queue displaces: the first, in their order, of lower priority, or of the same while none has turned
there, that holds alone the slots which it can use; where only several hold such slots together, as for a group that waits for every
core of its home, all of them (16 R335; log 92). DEDUCED -/
def victimsOf (s : State) (w : Nat × Nat) (vs : List (Nat × Nat)) (turned : List Nat) : List Nat :=
  let p := agedPrio s w
  let may := (vs.map (·.1)).filter fun v => decide (queuePrio s v < p) || (queuePrio s v == p && !turned.elem p)
  let sets := ((s.ctxs.filter fun k => k.queue == w.1 && k.waits).flatMap (·.targets s)).map (holders s)
  match may.find? fun v => sets.elem [v] with
  | some v => [v]
  | none => (may.findSome? fun v => sets.find? fun hs => hs.elem v && hs.all (may.elem ·)).getD []

/-- The queues whose slots waiting queues take, each at most once, and one of the same for each priority (16 R335). -/
def victims (s : State) : List (Nat × Nat) → List (Nat × Nat) → List Nat → List Nat
  | [], _, _ => []
  | w :: ws, vs, turned =>
    let p := agedPrio s w
    let out := victimsOf s w vs turned
    out ++ victims s ws (vs.filter fun v => !out.elem v.1) (if out.any (queuePrio s · == p) then p :: turned else turned)

/-! ### Contexts that wait in their slots (16 R336) -/

/-- The slots that waiting contexts give up: another context of their queue can use each (16 R336). -/
def givenUp (s : State) : List Nat :=
  (s.cores.filter fun p => p.2.slot.state == .bound && p.2.wait.any (·.yields) &&
    s.ctxs.any fun k => k.queue == p.2.slot.queue.toNat && k.waits && mayUse s (coreYields s k.queue) k p.1).map (·.1)

/-- A context gives up its slot: until it is bound again, the others of its queue come first (16 R336). -/
def giveUp (s : State) (n : Nat) : State :=
  let id := (s.coreAt n).slot.ctxid
  onCore n unbindCmd { s with ctxs := s.ctxs.map fun k => if k.ctxid == id then { k with gave := s.policy.quantum } else k }

/-- A quantum boundary: what is free is bound, and the queues to be displaced and the waiting contexts are unbound (16 R335, R336). -/
def quantumBoundary (s : State) : State :=
  let s1 := refreshPolicy { s with policy := { s.policy with quantum := s.policy.quantum + 1 } }
  let s2 := fillSlots s1
  let s3 := refreshPolicy s2
  let out := victims s3 (waitingOrder s3) (victimOrder s3) []
  let s4 := (givenUp s3).foldl giveUp s3
  refreshPolicy (unbindQueues out s4)

/-- A slot that has become free goes at once to a context that can use it (16 R335). -/
def fillFreed (s : State) : State :=
  if !s.policy.freed then s else
  let s0 := refreshPolicy s
  if !s0.mcUp then s0 else
  let s1 := refreshPolicy (fillSlots s0)
  { s1 with policy := { s1.policy with freed := false } }

/-- Firmware of a management core may declare a fatal fault at a quantum boundary: the oracle chooses the core, 1 to 3, or none
(26 R415, log 63). DESIGN CHOICE -/
def declareFault (s : State) : State :=
  let (k, s1) := s.choice
  if 1 ≤ k && k ≤ 3 then freeze (143 + k) 8 0 s1 else s1

/-- QUANTUM_BOUNDARY (16 R335): the launches that still wait are served first (16 R327). -/
def execQuantumBoundary (st : State) : Out :=
  .next (if st.mcUp then declareFault (quantumBoundary (serveInbox 0 st)) else st)

end Sys2Proof.Machine
end

