-- ==== Sys2Proof/Machine/ScalarFp.lean ====
section
/-! DEFINITION. Scalar floating point: major SF (09 R186-R188). -/
namespace Sys2Proof.Machine

/-- Format code of fw (09 R186). -/
def sfFmt (f : BitVec 2) : Nat := 4 + f.toNat
/-- The mode of rm: 0 takes FST.RM (09 R186, R187). -/
def sfMode (st : State) (r : BitVec 3) : Nat := if r = 0 then st.core.regs.rm else r.toNat - 1
/-- An operand of the format's width (09 R186). -/
def sfReg (st : State) (f : BitVec 2) (a : BitVec 5) : Nat := (st.x a).toNat % 2 ^ fpWidth (sfFmt f)
/-- A truth value as a result. -/
def boolResult (p : Bool × Nat) : Nat × Nat := (p.1.toNat, p.2)

/-- The trap of an SF instruction: a token among the operands read as binary32, else an enabled flag (09 R188, 08 R174). Of several tokens
TVAL is the first of a, b, x[d] (log 103). DEDUCED -/
def sfTrap (f : BitVec 2) (ops : List Nat) (fl : Nat) (r : Regs) : Option (Cause × Word) :=
  match (if f = 1 then ops.find? isToken else none) with
  | some x => some (.verdictOperand, BitVec.ofNat 64 x)
  | none => if r.traps fl then some (.fp, BitVec.ofNat 64 fl) else none

/-- Ends an SF instruction with its result and flags: its trap, or x[d] and FLAGS written and, for a stochastic rounding, SRCNT
advanced (09 R187, R188, 08 R180). -/
def sfRun (d : BitVec 5) (ops : List Nat) (f : BitVec 2) (res : Nat × Nat) (sr : Bool) (st : State) : Out :=
  match sfTrap f ops res.2 st.core.regs with
  | some (c, v) => .next (takeTrap c false v none st)
  | none =>
    .next ((st.mapRegs fun r =>
      let r1 := r.accrue res.2
      if sr then { r1 with srcnt := r1.srcnt + 1 } else r1).setX d (BitVec.ofNat 64 res.1)).retire

/-- SF_ADD (09 R187, which permits stochastic rounding for conversions alone). -/
def execSfAdd (d a b : BitVec 5) (f : BitVec 2) (r : BitVec 3) (st : State) : Out :=
  sfRun d [sfReg st f a, sfReg st f b] f (fpAdd (sfFmt f) (sfMode st r) (sfReg st f a) (sfReg st f b)) false st

/-- SF_SUB (09 R187). -/
def execSfSub (d a b : BitVec 5) (f : BitVec 2) (r : BitVec 3) (st : State) : Out :=
  sfRun d [sfReg st f a, sfReg st f b] f (fpSub (sfFmt f) (sfMode st r) (sfReg st f a) (sfReg st f b)) false st

/-- SF_MUL (09 R187). -/
def execSfMul (d a b : BitVec 5) (f : BitVec 2) (r : BitVec 3) (st : State) : Out :=
  sfRun d [sfReg st f a, sfReg st f b] f (fpMulOp (sfFmt f) (sfMode st r) (sfReg st f a) (sfReg st f b)) false st

/-- SF_DIV (09 R187). -/
def execSfDiv (d a b : BitVec 5) (f : BitVec 2) (r : BitVec 3) (st : State) : Out :=
  sfRun d [sfReg st f a, sfReg st f b] f (fpDivOp (sfFmt f) (sfMode st r) (sfReg st f a) (sfReg st f b)) false st

/-- SF_SQRT (09 R187). -/
def execSfSqrt (d a : BitVec 5) (f : BitVec 2) (r : BitVec 3) (st : State) : Out :=
  sfRun d [sfReg st f a] f (fpSqrtOp (sfFmt f) (sfMode st r) (sfReg st f a)) false st

/-- SF_FMA (09 R187). -/
def execSfFma (d a b : BitVec 5) (f : BitVec 2) (r : BitVec 3) (st : State) : Out :=
  sfRun d [sfReg st f a, sfReg st f b, sfReg st f d] f
    (fpFused (sfFmt f) (sfFmt f) (sfMode st r) false false (sfReg st f a) (sfReg st f b) (sfReg st f d)) false st

/-- SF_MIN (09 R187). -/
def execSfMin (d a b : BitVec 5) (f : BitVec 2) (st : State) : Out :=
  sfRun d [sfReg st f a, sfReg st f b] f (fpMinMax (sfFmt f) false (sfReg st f a) (sfReg st f b)) false st

/-- SF_MAX (09 R187). -/
def execSfMax (d a b : BitVec 5) (f : BitVec 2) (st : State) : Out :=
  sfRun d [sfReg st f a, sfReg st f b] f (fpMinMax (sfFmt f) true (sfReg st f a) (sfReg st f b)) false st

/-- SF_SGNJ (09 R187). -/
def execSfSgnj (d a b : BitVec 5) (f : BitVec 2) (st : State) : Out :=
  sfRun d [sfReg st f a, sfReg st f b] f ((withSign (sfFmt f) (sfReg st f a) (signOf (sfFmt f) (sfReg st f b)), 0)) false st

/-- SF_SGNJN (09 R187). -/
def execSfSgnjn (d a b : BitVec 5) (f : BitVec 2) (st : State) : Out :=
  sfRun d [sfReg st f a, sfReg st f b] f ((withSign (sfFmt f) (sfReg st f a) (!signOf (sfFmt f) (sfReg st f b)), 0)) false st

/-- SF_FEQ (09 R187). -/
def execSfFeq (d a b : BitVec 5) (f : BitVec 2) (st : State) : Out :=
  sfRun d [sfReg st f a, sfReg st f b] f (boolResult (fpEq (sfFmt f) (sfReg st f a) (sfReg st f b))) false st

/-- SF_FLT (09 R187). -/
def execSfFlt (d a b : BitVec 5) (f : BitVec 2) (st : State) : Out :=
  sfRun d [sfReg st f a, sfReg st f b] f (boolResult (fpLt (sfFmt f) (sfReg st f a) (sfReg st f b))) false st

/-- SF_FLE (09 R187). -/
def execSfFle (d a b : BitVec 5) (f : BitVec 2) (st : State) : Out :=
  sfRun d [sfReg st f a, sfReg st f b] f (boolResult (fpLe (sfFmt f) (sfReg st f a) (sfReg st f b))) false st

/-- SF_CLASS (09 R187). -/
def execSfClass (d a : BitVec 5) (f : BitVec 2) (st : State) : Out :=
  sfRun d [sfReg st f a] f (fpClass (sfFmt f) (sfReg st f a), 0) false st

/-- SF_CVTI (09 R187). -/
def execSfCvti (d a : BitVec 5) (f : BitVec 2) (r : BitVec 3) (st : State) : Out :=
  sfRun d [sfReg st f a] f (toInteger 64 true (sfMode st r) (st.core.regs.draw 0) (fpDecode (sfFmt f) (sfReg st f a))) (r == 6) st

/-- SF_CVTU (09 R187). -/
def execSfCvtu (d a : BitVec 5) (f : BitVec 2) (r : BitVec 3) (st : State) : Out :=
  sfRun d [sfReg st f a] f (toInteger 64 false (sfMode st r) (st.core.regs.draw 0) (fpDecode (sfFmt f) (sfReg st f a))) (r == 6) st

/-- SF_ICVT (09 R187). -/
def execSfIcvt (d a : BitVec 5) (f : BitVec 2) (r : BitVec 3) (st : State) : Out :=
  sfRun d [] f (fpRound (sfFmt f) (sfMode st r) (st.core.regs.draw 0) (Fp.ofInt (st.x a).toInt)) (r == 6) st

/-- SF_UCVT (09 R187). -/
def execSfUcvt (d a : BitVec 5) (f : BitVec 2) (r : BitVec 3) (st : State) : Out :=
  sfRun d [] f (fpRound (sfFmt f) (sfMode st r) (st.core.regs.draw 0) (Fp.ofInt (st.x a).toNat)) (r == 6) st

/-- SF_WIDEN (09 R187). -/
def execSfWiden (d a : BitVec 5) (f : BitVec 2) (st : State) : Out :=
  sfRun d [sfReg st f a] f (fpConvert (sfFmt f) 4 0 0 (sfReg st f a)) false st

/-- SF_NARROW (09 R187). -/
def execSfNarrow (d a : BitVec 5) (f : BitVec 2) (r : BitVec 3) (st : State) : Out :=
  sfRun d [] f (fpConvert 4 (sfFmt f) (sfMode st r) (st.core.regs.draw 0) (st.x a).toNat) (r == 6) st

end Sys2Proof.Machine
end

