-- ==== Sys2Proof/Machine/VecConv.lean ====
section
/-! DEFINITION. Conversions: major VV (09 R206-R209). -/
namespace Sys2Proof.Machine

/-- The pairs of VV.CVT, wider first (09 R207). -/
def cvtPairs : List (Nat × Nat) := [(4, 5), (5, 6), (5, 7), (6, 8), (7, 8), (6, 9), (7, 9), (8, 10), (9, 10)]
/-- VV.CVT converts from one format to the other (09 R207). -/
def cvtOk (src dst : Nat) : Bool := cvtPairs.elem (src, dst) || cvtPairs.elem (dst, src)
/-- A floating-point and an integer format of equal width (09 R206). -/
def sameWidth (f i : Nat) : Bool := decide (4 ≤ f) && decide (f ≤ 9) && decide (i ≤ 3) && fmtWidth f == fmtWidth i
/-- An integer format and the one of double its width (09 R206). -/
def doubles (n w : Nat) : Bool := decide (w ≤ 3) && w == n + 1

/-- Registers of the destination group of a conversion (09 R208). -/
def convGroup (r : Regs) (dst : Nat) : Nat := max 1 (r.grp * fmtPlace dst / fmtPlace r.fmt)
/-- The groups of a conversion are well placed (09 R208). -/
def convPlaced (r : Regs) (d a : BitVec 5) (dst : Nat) : Bool :=
  let gd := convGroup r dst
  decide (gd ≤ 8) && groupOk gd d && r.groupOk a &&
  (!overlap d gd a r.grp || (d == a && r.grp == 1 && gd == 1 && fmtPlace dst == fmtPlace r.fmt))

/-- The checks and waits of a conversion (09 R206, R208, R210). -/
def convGuard (w : Word) (ok : Bool) (d a : BitVec 5) (m : BitVec 4) (dst : Nat) : M Unit := do
  let r ← regs
  ensure (ok && convPlaced r d a dst) .illegal w
  guardMask m
  guardRegs 0 d.toNat (r.writes (fmtPlace dst))
  needElems a (fmtPlace r.fmt) (r.actives m)

/-- A stochastically rounding instruction has completed (08 R180). -/
def srDone (sr : Bool) : M Unit := if sr then modRegs fun r => { r with srcnt := r.srcnt + 1 } else pure ()

/-- The body of a conversion: `f` on source format, mode, draw and element (09 R206, R207). -/
def vvBody (w : Word) (ok : Nat → Nat → Bool) (d a c : BitVec 5) (m : BitVec 4) (rm : BitVec 3)
    (f : Nat → Nat → Nat → Nat → Nat × Nat) : M Unit := do
  let s ← get
  let r := s.core.regs
  let k := fmtWidth r.fmt
  let dst := c.toNat
  convGuard w (ok r.fmt dst) d a m dst
  mouldVec m d (fmtWidth dst) fun i =>
    let v := r.elem a k i
    orToken r.fmt [v] (f r.fmt (sfMode s rm) (r.draw i) v)
  srDone (rm == 6)

/-- An integer result that raises no flag. -/
def plain (v : Nat) : Nat × Nat := (v, 0)
/-- A number saturated to `w` unsigned bits (09 R206). -/
def satU (w v : Nat) : Nat := min v (2 ^ w - 1)

/-- VV.FROMBFP (09 R209). -/
def fromBfpBody (w : Word) (d a c : BitVec 5) (m : BitVec 4) : M Unit := do
  let r ← regs
  convGuard w (isBfp r.fmt && c == 5) d a m c.toNat
  mouldVec m d 32 fun i =>
    let v := fpTo 5 r.rm 0 (r.bfpElem a (bfpBits r.fmt) i)
    .val v.1 v.2

/-- The blocks of VV.TOBFP in ascending order up to one that must trap: the registers, and the element, cause and value
(09 R209). -/
def toBfpLoop (s : State) (d a : BitVec 5) (m mode : Nat) (act : List Nat) : List Nat → Regs → Regs × Option (Nat × Cause × Word)
  | [], r => (r, none)
  | b :: bs, r =>
    let is := act.filter (· / 32 == b)
    let src := s.core.regs
    let k := is.headD 0
    match (is.map (src.elem a 32)).find? isToken with
    | some t => (r, some (k, .verdictOperand, BitVec.ofNat 64 t))
    | none =>
      let p := formBlock m mode (r.block d b) (is.map fun i => (i % 32, src.draw i, fpDecode 5 (src.elem a 32 i)))
      if r.traps p.2 then (r, some (k, .fp, BitVec.ofNat 64 p.2))
      else toBfpLoop s d a m mode act bs ((r.setBlock d b p.1).accrue p.2)

/-- VV.TOBFP (09 R209). -/
def toBfpBody (w : Word) (d a c : BitVec 5) (m : BitVec 4) (rm : BitVec 3) : M Unit := do
  let s ← get
  let r := s.core.regs
  convGuard w (r.fmt == 5 && isBfp c.toNat) d a m c.toNat
  let act := r.actives m
  let p := toBfpLoop s d a (bfpBits c.toNat) (sfMode s rm) act (act.map (· / 32)).eraseDups r
  let hi := match p.2 with
    | some (k, _) => k
    | none => r.vl.toNat
  modRegs fun _ => p.1.rezero d 16 r.vstart.toNat hi
  match p.2 with
  | some (k, c, v) => stopAt k c v
  | none =>
    modRegs (·.vecDone false false)
    srDone (rm == 6)

/-- VV_FROMBFP (09 R206, R209). -/
def execVvFrombfp (d a f : BitVec 5) (m : BitVec 4) (st : State) : Out :=
  let w := tvalWord (encode (.vvFrombfp d a f m))
  vecRun (vecEntry w m) (fromBfpBody w d a f m) st

/-- VV_TOBFP (09 R206, R209). -/
def execVvTobfp (d a f : BitVec 5) (m : BitVec 4) (r : BitVec 3) (st : State) : Out :=
  let w := tvalWord (encode (.vvTobfp d a f m r))
  vecRun (vecEntry w m) (toBfpBody w d a f m r) st

/-- VV_CVT (09 R206, R207). -/
def execVvCvt (d a f : BitVec 5) (m : BitVec 4) (r : BitVec 3) (st : State) : Out :=
  let w := tvalWord (encode (.vvCvt d a f m r))
  vecRun (vecEntry w m) (vvBody w cvtOk d a f m r fun c k dr v => fpConvert c f.toNat k dr v) st

/-- VV_F32F4 (09 R206, R207). -/
def execVvF32f4 (d a f : BitVec 5) (m : BitVec 4) (r : BitVec 3) (st : State) : Out :=
  let w := tvalWord (encode (.vvF32f4 d a f m r))
  vecRun (vecEntry w m) (vvBody w (fun c e => c == 5 && e == 10) d a f m r fun _ k dr v => fpConvert 5 10 k dr v) st

/-- VV_FTOI (09 R206, R207). -/
def execVvFtoi (d a f : BitVec 5) (m : BitVec 4) (r : BitVec 3) (st : State) : Out :=
  let w := tvalWord (encode (.vvFtoi d a f m r))
  vecRun (vecEntry w m) (vvBody w sameWidth d a f m r fun c k dr v => toInteger (fmtWidth c) true k dr (fpDecode c v)) st

/-- VV_FTOU (09 R206, R207). -/
def execVvFtou (d a f : BitVec 5) (m : BitVec 4) (r : BitVec 3) (st : State) : Out :=
  let w := tvalWord (encode (.vvFtou d a f m r))
  vecRun (vecEntry w m) (vvBody w sameWidth d a f m r fun c k dr v => toInteger (fmtWidth c) false k dr (fpDecode c v)) st

/-- VV_ITOF (09 R206, R207). -/
def execVvItof (d a f : BitVec 5) (m : BitVec 4) (r : BitVec 3) (st : State) : Out :=
  let w := tvalWord (encode (.vvItof d a f m r))
  vecRun (vecEntry w m) (vvBody w (fun c e => sameWidth e c) d a f m r fun c k dr v => fpRound f.toNat k dr (Fp.ofInt (sintW (fmtWidth c) v))) st

/-- VV_UTOF (09 R206, R207). -/
def execVvUtof (d a f : BitVec 5) (m : BitVec 4) (r : BitVec 3) (st : State) : Out :=
  let w := tvalWord (encode (.vvUtof d a f m r))
  vecRun (vecEntry w m) (vvBody w (fun c e => sameWidth e c) d a f m r fun _ k dr v => fpRound f.toNat k dr (Fp.ofInt v)) st

/-- VV_SEXT (09 R206). -/
def execVvSext (d a f : BitVec 5) (m : BitVec 4) (st : State) : Out :=
  let w := tvalWord (encode (.vvSext d a f m))
  vecRun (vecEntry w m) (vvBody w doubles d a f m 1 fun c _ _ v => plain (wrapW (2 * fmtWidth c) (sintW (fmtWidth c) v))) st

/-- VV_ZEXT (09 R206). -/
def execVvZext (d a f : BitVec 5) (m : BitVec 4) (st : State) : Out :=
  let w := tvalWord (encode (.vvZext d a f m))
  vecRun (vecEntry w m) (vvBody w doubles d a f m 1 fun _ _ _ v => plain v) st

/-- VV_NRW (09 R206). -/
def execVvNrw (d a f : BitVec 5) (m : BitVec 4) (st : State) : Out :=
  let w := tvalWord (encode (.vvNrw d a f m))
  vecRun (vecEntry w m) (vvBody w (fun c e => doubles e c) d a f m 1 fun c _ _ v => plain (v % 2 ^ (fmtWidth c / 2))) st

/-- VV_NRWS (09 R206). -/
def execVvNrws (d a f : BitVec 5) (m : BitVec 4) (st : State) : Out :=
  let w := tvalWord (encode (.vvNrws d a f m))
  vecRun (vecEntry w m) (vvBody w (fun c e => doubles e c) d a f m 1 fun c _ _ v => plain (wrapW (fmtWidth c / 2) (satS (fmtWidth c / 2) (sintW (fmtWidth c) v)))) st

/-- VV_NRWU (09 R206). -/
def execVvNrwu (d a f : BitVec 5) (m : BitVec 4) (st : State) : Out :=
  let w := tvalWord (encode (.vvNrwu d a f m))
  vecRun (vecEntry w m) (vvBody w (fun c e => doubles e c) d a f m 1 fun c _ _ v => plain (satU (fmtWidth c / 2) v)) st

end Sys2Proof.Machine
end

