-- ==== Sys2Proof/Machine/Repeat.lean ====
section
/-! DEFINITION. Repeat frames (15 R315-R320): the words that may stand in one, stagger, and RP.REP. -/
namespace Sys2Proof.Machine

/-- The instruction of a word whose major may stand in a frame (15 R316), after 02 R26 steps 2 to 5. -/
def frameDecode (w : BitVec 32) : Option Instr :=
  (match bits w 26 6 with
    | 0x01#6 => decodeSA w
    | 0x0A#6 => decodeSM w
    | 0x0B#6 => decodeSF w
    | 0x13#6 => decodeVA w
    | 0x14#6 => decodeVF w
    | 0x15#6 => decodeVX w
    | 0x16#6 => decodeVR w
    | 0x17#6 => decodeVP w
    | 0x18#6 => decodeVV w
    | 0x19#6 => decodeMX w
    | _ => none).filter (·.wellFormed)

/-- How the vector register fields of a frame word must be placed: in groups of VTYPE, or as the instruction's own rule gives them. -/
inductive Places where
  | groups (vs : List (BitVec 5))
  /-- VX.COMPRESS, whose groups do not overlap (09 R198). -/
  | apart (d a : BitVec 5)
  /-- A widening accumulation of integers, or of floating point (09 R195). -/
  | wide (int : Bool) (d : BitVec 5) (vs : List (BitVec 5))
  /-- A reduction (09 R202). -/
  | fold (f : Fold) (d : BitVec 5) (vs : List (BitVec 5))
  /-- VR.DOTB (09 R204). -/
  | dotb (d a b : BitVec 5)
  /-- A conversion to the format that a field names (09 R208). -/
  | conv (d a c : BitVec 5)

/-- The vector operands of an instruction that may stand in a frame; none for one that may not (15 R316). -/
def framePlaces : Instr → Option Places
  | .saAdd _ _ _ => some (.groups [])
  | .saSub _ _ _ => some (.groups [])
  | .saAnd _ _ _ => some (.groups [])
  | .saOr _ _ _ => some (.groups [])
  | .saXor _ _ _ => some (.groups [])
  | .saAndn _ _ _ => some (.groups [])
  | .saSll _ _ _ => some (.groups [])
  | .saSrl _ _ _ => some (.groups [])
  | .saSra _ _ _ => some (.groups [])
  | .saRotr _ _ _ => some (.groups [])
  | .saSlt _ _ _ => some (.groups [])
  | .saSltu _ _ _ => some (.groups [])
  | .saMin _ _ _ => some (.groups [])
  | .saMax _ _ _ => some (.groups [])
  | .saMinu _ _ _ => some (.groups [])
  | .saMaxu _ _ _ => some (.groups [])
  | .saAddw _ _ _ => some (.groups [])
  | .saSubw _ _ _ => some (.groups [])
  | .saClz _ _ => some (.groups [])
  | .saCtz _ _ => some (.groups [])
  | .saPopc _ _ => some (.groups [])
  | .saAdds _ _ _ => some (.groups [])
  | .saSubs _ _ _ => some (.groups [])
  | .smMul _ _ _ => some (.groups [])
  | .smMulh _ _ _ _ _ => some (.groups [])
  | .smMadd _ _ _ => some (.groups [])
  | .smDiv _ _ _ _ => some (.groups [])
  | .smRem _ _ _ _ => some (.groups [])
  | .sfAdd _ _ _ _ _ => some (.groups [])
  | .sfSub _ _ _ _ _ => some (.groups [])
  | .sfMul _ _ _ _ _ => some (.groups [])
  | .sfDiv _ _ _ _ _ => some (.groups [])
  | .sfSqrt _ _ _ _ => some (.groups [])
  | .sfFma _ _ _ _ _ => some (.groups [])
  | .sfMin _ _ _ _ => some (.groups [])
  | .sfMax _ _ _ _ => some (.groups [])
  | .sfSgnj _ _ _ _ => some (.groups [])
  | .sfSgnjn _ _ _ _ => some (.groups [])
  | .sfFeq _ _ _ _ => some (.groups [])
  | .sfFlt _ _ _ _ => some (.groups [])
  | .sfFle _ _ _ _ => some (.groups [])
  | .sfClass _ _ _ => some (.groups [])
  | .sfCvti _ _ _ _ => some (.groups [])
  | .sfCvtu _ _ _ _ => some (.groups [])
  | .sfIcvt _ _ _ _ => some (.groups [])
  | .sfUcvt _ _ _ _ => some (.groups [])
  | .sfWiden _ _ _ => some (.groups [])
  | .sfNarrow _ _ _ _ => some (.groups [])
  | .vaAdd d a b _ x => some (.groups (if x then [d, a] else [d, a, b]))
  | .vaSub d a b _ x => some (.groups (if x then [d, a] else [d, a, b]))
  | .vaMul d a b _ x => some (.groups (if x then [d, a] else [d, a, b]))
  | .vaMulh d a b _ x => some (.groups (if x then [d, a] else [d, a, b]))
  | .vaMulhu d a b _ x => some (.groups (if x then [d, a] else [d, a, b]))
  | .vaAnd d a b _ x => some (.groups (if x then [d, a] else [d, a, b]))
  | .vaOr d a b _ x => some (.groups (if x then [d, a] else [d, a, b]))
  | .vaXor d a b _ x => some (.groups (if x then [d, a] else [d, a, b]))
  | .vaSll d a b _ x => some (.groups (if x then [d, a] else [d, a, b]))
  | .vaSrl d a b _ x => some (.groups (if x then [d, a] else [d, a, b]))
  | .vaSra d a b _ x => some (.groups (if x then [d, a] else [d, a, b]))
  | .vaMin d a b _ x => some (.groups (if x then [d, a] else [d, a, b]))
  | .vaMax d a b _ x => some (.groups (if x then [d, a] else [d, a, b]))
  | .vaMinu d a b _ x => some (.groups (if x then [d, a] else [d, a, b]))
  | .vaMaxu d a b _ x => some (.groups (if x then [d, a] else [d, a, b]))
  | .vaAdds d a b _ x => some (.groups (if x then [d, a] else [d, a, b]))
  | .vaAddsu d a b _ x => some (.groups (if x then [d, a] else [d, a, b]))
  | .vaSubs d a b _ x => some (.groups (if x then [d, a] else [d, a, b]))
  | .vaSubsu d a b _ x => some (.groups (if x then [d, a] else [d, a, b]))
  | .vaMacc d a b _ x => some (.groups (if x then [d, a] else [d, a, b]))
  | .vaWmacc d a b _ x => some (.wide true d (sourcesAB a b x))
  | .vaWmaccu d a b _ x => some (.wide true d (sourcesAB a b x))
  | .vaCeq _ a b _ x => some (.groups (if x then [a] else [a, b]))
  | .vaCne _ a b _ x => some (.groups (if x then [a] else [a, b]))
  | .vaClt _ a b _ x => some (.groups (if x then [a] else [a, b]))
  | .vaCle _ a b _ x => some (.groups (if x then [a] else [a, b]))
  | .vaCltu _ a b _ x => some (.groups (if x then [a] else [a, b]))
  | .vaCleu _ a b _ x => some (.groups (if x then [a] else [a, b]))
  | .vfAdd d a b _ x => some (.groups (if x then [d, a] else [d, a, b]))
  | .vfSub d a b _ x => some (.groups (if x then [d, a] else [d, a, b]))
  | .vfMul d a b _ x => some (.groups (if x then [d, a] else [d, a, b]))
  | .vfDiv d a b _ x => some (.groups (if x then [d, a] else [d, a, b]))
  | .vfSqrt d a _ => some (.groups [d, a])
  | .vfFma d a b _ x => some (.groups (if x then [d, a] else [d, a, b]))
  | .vfFms d a b _ x => some (.groups (if x then [d, a] else [d, a, b]))
  | .vfFnma d a b _ x => some (.groups (if x then [d, a] else [d, a, b]))
  | .vfMin d a b _ x => some (.groups (if x then [d, a] else [d, a, b]))
  | .vfMax d a b _ x => some (.groups (if x then [d, a] else [d, a, b]))
  | .vfSgnj d a b _ x => some (.groups (if x then [d, a] else [d, a, b]))
  | .vfSgnjn d a b _ x => some (.groups (if x then [d, a] else [d, a, b]))
  | .vfSgnjx d a b _ x => some (.groups (if x then [d, a] else [d, a, b]))
  | .vfWmacc d a b _ x => some (.wide false d (sourcesAB a b x))
  | .vfCeq _ a b _ x => some (.groups (if x then [a] else [a, b]))
  | .vfClt _ a b _ x => some (.groups (if x then [a] else [a, b]))
  | .vfCle _ a b _ x => some (.groups (if x then [a] else [a, b]))
  | .vfCun _ a b _ x => some (.groups (if x then [a] else [a, b]))
  | .vxMov d a _ => some (.groups [d, a])
  | .vxBcst d _ _ => some (.groups [d])
  | .vxIns d _ _ => some (.groups [d])
  | .vxIdx d _ => some (.groups [d])
  | .vxPerm d a b _ => some (.groups [d, a, b])
  | .vxSlup d a _ _ => some (.groups [d, a])
  | .vxSldn d a _ _ => some (.groups [d, a])
  | .vxSl1up d a _ _ => some (.groups [d, a])
  | .vxCompress d a _ => some (.apart d a)
  | .vxExpand d a _ => some (.groups [d, a])
  | .vxShlw d a _ => some (.groups [d, a])
  | .vxShrw d a _ => some (.groups [d, a])
  | .vxFshw d a _ => some (.groups [d, a])
  | .vrSum d a _ _ => some (.fold .sum d [a])
  | .vrMax d a _ _ => some (.fold .max d [a])
  | .vrMin d a _ _ => some (.fold .min d [a])
  | .vrMaxu d a _ _ => some (.fold .maxu d [a])
  | .vrMinu d a _ _ => some (.fold .minu d [a])
  | .vrAnd d a _ _ => some (.fold .and d [a])
  | .vrOr d a _ _ => some (.fold .or d [a])
  | .vrXor d a _ _ => some (.fold .xor d [a])
  | .vrDot d a b _ _ => some (.fold .dot d [a, b])
  | .vrDotu d a b _ _ => some (.fold .dotu d [a, b])
  | .vrMaxabs d a _ _ => some (.fold .maxabs d [a])
  | .vrScan d a _ _ => some (.groups [d, a])
  | .vrScanmax d a _ _ => some (.groups [d, a])
  | .vrDotb d a b _ _ _ => some (.dotb d a b)
  | .vpAnd _ _ _ _ => some (.groups [])
  | .vpOr _ _ _ _ => some (.groups [])
  | .vpXor _ _ _ _ => some (.groups [])
  | .vpAndn _ _ _ _ => some (.groups [])
  | .vpSet _ _ => some (.groups [])
  | .vpClr _ _ => some (.groups [])
  | .vpMwr _ _ _ => some (.groups [])
  | .vpZmap _ a => some (.groups [a])
  | .vpUpto _ _ _ _ => some (.groups [])
  | .vpConf d a _ _ => some (.groups [d, a])
  | .vpPart _ a _ _ t => if t then none else some (.groups [a])
  | .vvCvt d a c _ _ => some (.conv d a c)
  | .vvF32f4 d a c _ _ => some (.conv d a c)
  | .vvTobfp d a c _ _ => some (.conv d a c)
  | .vvFrombfp d a c _ => some (.conv d a c)
  | .vvFtoi d a c _ _ => some (.conv d a c)
  | .vvFtou d a c _ _ => some (.conv d a c)
  | .vvItof d a c _ _ => some (.conv d a c)
  | .vvUtof d a c _ _ => some (.conv d a c)
  | .vvSext d a c _ => some (.conv d a c)
  | .vvZext d a c _ => some (.conv d a c)
  | .vvNrw d a c _ => some (.conv d a c)
  | .vvNrws d a c _ => some (.conv d a c)
  | .vvNrwu d a c _ => some (.conv d a c)
  | .mxOpa _ a b _ _ => some (.groups [a, b])
  | .mxSlide _ a b _ _ => some (.groups [a, b])
  | _ => none

/-- The vector register fields of a frame word hold values that the instruction permits under VTYPE (07 R133; 09 R195, R198,
R202, R204, R208; log 66). DEDUCED. A format that the instruction does not accept permits no value less: the word is eligible, and traps
ILLEGAL when it is executed; the wide group of a widening accumulation, which such a format does not size, is then one of VTYPE's
(15 R316; log 94). DESIGN CHOICE -/
def Places.ok (r : Regs) : Places → Bool
  | .groups vs => vs.all r.groupOk
  | .apart d a => r.groupOk d && r.groupOk a && !overlap d r.grp a r.grp
  | .wide int d vs =>
    if (if int then decide (r.fmt ≤ 2) else decide (5 ≤ r.fmt) && decide (r.fmt ≤ 10)) then
      widePlaced r (r.grp * ((if int then wideInt r.fmt else fmtWidth (wideFp r.fmt)) / fmtWidth r.fmt)) d vs
    else (d :: vs).all r.groupOk
  | .fold f d vs => vs.all r.groupOk && groupOk (foldGroup r (fmtWidth (f.result r.fmt))) d
  | .dotb d a b => r.groupOk a && groupOk (dotbGroup r) b && groupOk (foldGroup r 32) d
  | .conv d a c => convPlaced r d a c.toNat

/-- A frame word, already staggered, is eligible under VTYPE: its instruction (15 R316). -/
def eligible (r : Regs) (w : BitVec 32) : Option Instr :=
  (frameDecode w).filter fun i => (framePlaces i).any (·.ok r)

/-- One register field of a word staggered; none when its value passes the field's limit (15 R317). -/
def staggerField (w : BitVec 32) (on : Bool) (lo width k : Nat) : Option (BitVec 32) :=
  if !on then some w else
  let v := getField w lo width + k
  if v < 2 ^ width then some (setField w lo width v) else none

/-- The word of iteration `q` (15 R317). -/
def stagger (stride stag : BitVec 3) (q : Nat) (w : BitVec 32) : Option (BitVec 32) := do
  let m := bits w 26 6 == 0x19#6
  let k := q * stride.toNat
  let w1 ← if m then staggerField w (stag.getLsbD 2) 22 4 k else staggerField w (stag.getLsbD 2) 21 5 k
  let w2 ← if m then staggerField w1 (stag.getLsbD 1) 17 5 k else staggerField w1 (stag.getLsbD 1) 16 5 k
  if m then staggerField w2 (stag.getLsbD 0) 12 5 k else staggerField w2 (stag.getLsbD 0) 11 5 k

/-- The state a frame word needs: VS, MS, TS (17 R348). -/
def frameState (w : BitVec 32) : Bool × Bool × Bool :=
  match bits w 26 6 with
  | 0x13#6 | 0x14#6 => (true, bits w 7 4 != 0 || bit w 5, false)
  | 0x15#6 | 0x16#6 | 0x18#6 => (true, bits w 7 4 != 0, false)
  | 0x17#6 => (true, bits w 0 7 != 0x18#7 || bits w 7 4 != 0 || bits w 11 5 != 0, false)
  | 0x19#6 => (true, bits w 8 4 != 0, true)
  | _ => (false, false, false)

/-- The fetch of a word of a frame at the RP.REP, part of its chunk (15 R318, 03 R61). -/
def fetchAt (pc : Word) : M (BitVec 32) := do
  match ← fetchText 3 (← get).core.xl pc with
  | .error c => raise c pc
  | .ok (w, p) =>
    modify fun s => s.mapChunk (useTlb [p])
    return w

/-- Iterations whose words differ or fail: a field that is staggered passes its limit within 33 (15 R317, R318). -/
def staggerCount (stride stag : BitVec 3) (n : Nat) : Nat := if stride = 0 || stag = 0 then min n 1 else min n 33

/-- The instruction of a frame word, already staggered, if it is eligible. While vector state is off VTYPE is not the context's own, and
a word that uses vector state is eligible whatever VTYPE holds: it, or the RP.REP before it, traps VUSE at step 7 of 02 R26
(15 R316, R318; 17 R348, R349; log 74). DEDUCED -/
def frameInstr (r : Regs) (u : BitVec 32) : Option Instr :=
  if r.off 10 && (frameState u).1 then (frameDecode u).filter fun i => (framePlaces i).isSome else eligible r u

/-- The check of a frame word for every iteration (15 R318); its staggered words. -/
def checkFrameWord (stride stag : BitVec 3) (n : Nat) (a : Word) (w : BitVec 32) : M (List (BitVec 32)) := do
  let r ← regs
  let ws := (List.range (staggerCount stride stag n)).map fun q =>
    (stagger stride stag q w).filter fun u => (frameInstr r u).isSome
  if ws.any (·.isNone) then raise .repeatFrame a
  return ws.filterMap id

/-- RP.REP (15 R318): the frame is fetched and checked whole, then RPS starts it. -/
def repBody (c : BitVec 5) (stride stag : BitVec 3) : M Word := do
  let pc := (← regs).pc
  let v ← getX c
  ensure (v.extractLsb' 28 36 == 0) .repeatFrame v
  let n := (v.extractLsb' 0 24).toNat
  let fl := v.extractLsb' 24 4
  let len := frameLen fl
  if n = 0 then return pc + 4 + BitVec.ofNat 64 (4 * len)
  let w : Word := (wordRpRep c stride stag).setWidth 64
  let ws ← (List.range len).mapM fun p => do
    let a := pc + 4 + BitVec.ofNat 64 (4 * p)
    checkFrameWord stride stag n a (← fetchAt a)
  let st := ws.flatten.map frameState
  needState (st.any (·.1)) (st.any (·.2.1)) (st.any (·.2.2)) w
  ensure (!(st.any (·.1) && (← regs).vtype.getLsbD 63)) .illegal w
  modRegs fun r => { r with rps := rpsWord true stride stag fl 0 0 (v.setWidth 24), susp := false }
  return pc + 4

/-- RP_REP (15 R318). -/
def execRpRep (c : BitVec 5) (s stag : BitVec 3) (st : State) : Out := runAt (repBody c s stag) st

/-- The word of a frame at its turn, staggered for the iteration; none when it is not eligible (15 R320). -/
def frameWord (r : Regs) (w : BitVec 32) : Option Instr :=
  (stagger (r.rps.extractLsb' 60 3) (r.rps.extractLsb' 57 3) (r.rps.extractLsb' 24 24).toNat w).bind (frameInstr r)

end Sys2Proof.Machine
end

