-- ==== Sys2Proof/Machine/VecMask.lean ====
section
/-! DEFINITION. Masks, conflicts and partitions: major VP (10 R215-R221). -/
namespace Sys2Proof.Machine

/-- A VQ entry of VP: vector state, mask state (17 R348); the check lane recomputes none (09 R193). -/
def maskEntry (w : Word) (m : Bool) : Entry := ⟨w, true, m, false, true, false⟩

/-- Mask registers read, none of which may be open (10 R224). -/
def guardMasks (ms : List (BitVec 4)) : M Unit := ms.forM fun m => guardRegs 1 m.toNat 1

/-- Bits of a mask register at the positions of the list, the others kept. -/
def Regs.putMask (r : Regs) (d : BitVec 4) (is : List Nat) (f : Nat → Bool) : Regs :=
  is.foldl (fun q i => q.setMaskBit d i (f i)) r

/-- Mask logic over the active elements (10 R216). Of several open registers BAD-HANDLE names m first, then ma, mb, then md, and they trap
also where no element is active (log 106). DESIGN CHOICE -/
def logicBody (d a b m : BitVec 4) (f : Bool → Bool → Bool) : M Unit := do
  guardMask m
  guardMasks [a, b]
  guardRegs 1 d.toNat 1
  modRegs fun r => (r.putMask d (r.actives m) fun i => f (r.maskBit a i) (r.maskBit b i)).vecDone true false

/-- VP_AND (10 R216). -/
def execVpAnd (d a b m : BitVec 4) (st : State) : Out :=
  vecRun (maskEntry (tvalWord (encode (.vpAnd d a b m))) true) (logicBody d a b m fun x y => x && y) st

/-- VP_OR (10 R216). -/
def execVpOr (d a b m : BitVec 4) (st : State) : Out :=
  vecRun (maskEntry (tvalWord (encode (.vpOr d a b m))) true) (logicBody d a b m fun x y => x || y) st

/-- VP_XOR (10 R216). -/
def execVpXor (d a b m : BitVec 4) (st : State) : Out :=
  vecRun (maskEntry (tvalWord (encode (.vpXor d a b m))) true) (logicBody d a b m fun x y => x != y) st

/-- VP_ANDN (10 R216). -/
def execVpAndn (d a b m : BitVec 4) (st : State) : Out :=
  vecRun (maskEntry (tvalWord (encode (.vpAndn d a b m))) true) (logicBody d a b m fun x y => x && !y) st

/-- VP.SET and VP.CLR (10 R216). -/
def constBody (d m : BitVec 4) (v : Bool) : M Unit := do
  guardMask m
  guardRegs 1 d.toNat 1
  modRegs fun r => (r.putMask d (r.actives m) fun _ => v).vecDone true false

/-- VP_SET (10 R216). -/
def execVpSet (d m : BitVec 4) (st : State) : Out :=
  vecRun (maskEntry (tvalWord (encode (.vpSet d m))) true) (constBody d m true) st

/-- VP_CLR (10 R216). -/
def execVpClr (d m : BitVec 4) (st : State) : Out :=
  vecRun (maskEntry (tvalWord (encode (.vpClr d m))) true) (constBody d m false) st

/-- The active elements whose bit in m[a] is set (10 R217). -/
def Regs.hits (r : Regs) (a m : BitVec 4) : List Nat := (r.actives m).filter (r.maskBit a)

/-- A read of masks into x[d] (10 R217). An open ma traps BAD-HANDLE also where no bit of it decides the result: no element is active, or k of
VP.MRD is 64 or more (log 106). DESIGN CHOICE -/
def readMaskBody (d : BitVec 5) (a m : BitVec 4) (f : Regs → Word) : M Unit := do
  guardMask m
  guardMasks [a]
  putX d (f (← regs))
  modRegs (·.vecDone false false)

/-- VP_CNT (10 R217). -/
def execVpCnt (d : BitVec 5) (a m : BitVec 4) (st : State) : Out :=
  vecRun (maskEntry (tvalWord (encode (.vpCnt d a m))) true)
    (readMaskBody d a m fun r => BitVec.ofNat 64 (r.hits a m).length) st

/-- VP_FFS (10 R217). -/
def execVpFfs (d : BitVec 5) (a m : BitVec 4) (st : State) : Out :=
  vecRun (maskEntry (tvalWord (encode (.vpFfs d a m))) true)
    (readMaskBody d a m fun r => match r.hits a m with
      | [] => BitVec.allOnes 64
      | i :: _ => BitVec.ofNat 64 i) st

/-- VP_MRD (10 R217). -/
def execVpMrd (d : BitVec 5) (a : BitVec 4) (b : BitVec 5) (st : State) : Out :=
  let k := (st.x b).toNat
  vecRun (maskEntry (tvalWord (encode (.vpMrd d a b))) true)
    (readMaskBody d a 0 fun r => if k < 64 then (r.m.get ⟨a.toNat, a.isLt⟩).extractLsb' (64 * k) 64 else 0) st

/-- VP.MWR: from k = 64 on it writes no mask (10 R218); it is an instruction that writes its mask register whatever k is, and traps
BAD-HANDLE while that is open (05 R100; log 62). DEDUCED -/
def mwrBody (d : BitVec 4) (v : Word) (k : Nat) : M Unit := do
  guardRegs 1 d.toNat 1
  modRegs fun r =>
    if k < 64 then
      { r with m := r.m.set d.toNat (setField (r.m.get ⟨d.toNat, d.isLt⟩) (64 * k) 64 v.toNat) d.isLt }.vecDone true false
    else r.vecDone false false

/-- VP_MWR (10 R218). -/
def execVpMwr (d : BitVec 4) (a b : BitVec 5) (st : State) : Out :=
  vecRun (maskEntry (tvalWord (encode (.vpMwr d a b))) true) (mwrBody d (st.x a) (st.x b).toNat) st

/-- VP.ZMAP (10 R218): it reads the zero maps of va alone, which are never open, and waits for no presence bit (log 11). DEDUCED -/
def zmapBody (w : Word) (d : BitVec 4) (a : BitVec 5) : M Unit := do
  let r ← regs
  ensure (r.groupOk a) .illegal w
  guardRegs 1 d.toNat 1
  modRegs fun r =>
    { r with m := r.m.set d.toNat ((List.range r.grp).foldl
        (fun v j => setField v (32 * j) 32 (r.z.toList.getD (a.toNat + j) 0).toNat) (r.m.get ⟨d.toNat, d.isLt⟩)) d.isLt }.vecDone
      true false

/-- VP_ZMAP (10 R218). -/
def execVpZmap (d : BitVec 4) (a : BitVec 5) (st : State) : Out :=
  let w := tvalWord (encode (.vpZmap d a))
  vecRun (maskEntry w true) (zmapBody w d a) st

/-- Elements 0 to VL − 1. -/
def Regs.all (r : Regs) : List Nat := List.range r.vl.toNat

/-- VP.UPTO (10 R219). -/
def uptoBody (w : Word) (d a m : BitVec 4) (incl : Bool) : M Unit := do
  let r ← regs
  ensure (r.vstart == 0) .illegal w
  guardMask m
  guardMasks [a]
  guardRegs 1 d.toNat 1
  modRegs fun r =>
    let f := (r.all.find? fun i => r.governs m i && r.maskBit a i).getD r.vl.toNat
    (r.putMask d r.all fun i => r.governs m i && (decide (i < f) || (incl && i == f))).vecDone true false

/-- VP_UPTO (10 R219). -/
def execVpUpto (d a m : BitVec 4) (i : Bool) (st : State) : Out :=
  let w := tvalWord (encode (.vpUpto d a m i))
  vecRun (maskEntry w true) (uptoBody w d a m i) st

/-- The last earlier active element with the key of element `i` whose condition bit is set (10 R220). -/
def dependence (key : Nat → Nat) (cond : Nat → Bool) (act : List Nat) (i : Nat) : Option Nat :=
  (act.filter fun j => decide (j < i) && key j == key i && cond j).getLast?

/-- VP.CONF (10 R220). -/
def confBody (w : Word) (d a : BitVec 5) (c m : BitVec 4) : M Unit := do
  let r ← regs
  ensure ((r.fmt == 2 || r.fmt == 3) && r.groupOk a && r.groupOk d) .illegal w
  guardMask m
  guardMask c
  guardRegs 0 d.toNat (r.writes (fmtPlace r.fmt))
  let k := fmtWidth r.fmt
  let act := r.actives m
  needElems a k act
  modRegs fun q => ((act.foldl (fun q i => q.setElem d k i
    ((dependence (r.elem a k) (r.governs c) act i).getD (2 ^ k - 1))) q).rezero d k r.vstart.toNat r.vl.toNat).vecDone false false

/-- VP_CONF (10 R220). -/
def execVpConf (d a : BitVec 5) (b m : BitVec 4) (st : State) : Out :=
  let w := tvalWord (encode (.vpConf d a b m))
  vecRun (maskEntry w (b != 0 || m != 0)) (confBody w d a b m) st

/-- The end of the run that begins at `s` (10 R221). -/
def runEnd (r : Regs) (a : BitVec 5) (m : BitVec 4) (s : Nat) : Nat :=
  let k := fmtWidth r.fmt
  (r.all.find? fun i => decide (s < i) && r.governs m i && decide ((s : Int) ≤ sintW k (r.elem a k i))).getD r.vl.toNat

/-- VP.PART (10 R221). It waits for every selected element above `s`, those above the end that it finds among them (log 107). DESIGN CHOICE -/
def partBody (w : Word) (d : BitVec 4) (a : BitVec 5) (s : Nat) (m : BitVec 4) (trim : Bool) : M Unit := do
  let r ← regs
  ensure ((r.fmt == 2 || r.fmt == 3) && r.vstart == 0 && r.groupOk a) .illegal w
  guardMask m
  guardRegs 1 d.toNat 1
  needElems a (fmtWidth r.fmt) (r.all.filter fun i => decide (s < i) && r.governs m i)
  let e := runEnd r a m s
  modRegs fun r =>
    let r1 := (r.putMask d r.all fun i => r.governs m i && decide (s ≤ i) && decide (i < e)).vecDone true false
    if trim then { r1 with vl := BitVec.ofNat 64 e } else r1

/-- VP_PART (10 R221). -/
def execVpPart (d : BitVec 4) (a b : BitVec 5) (m : BitVec 4) (t : Bool) (st : State) : Out :=
  let w := tvalWord (encode (.vpPart d a b m t))
  vecRun (maskEntry w true) (partBody w d a (st.x b).toNat m t) st

end Sys2Proof.Machine
end

