-- ==== Sys2Proof/Machine/VecMove.lean ====
section
/-! DEFINITION. Moving elements: major VX (09 R197-R200). -/
namespace Sys2Proof.Machine

/-- Writes elements into the group at v[d], all sources read before (09 R197): the value of each that is written; the zero
maps follow (09 R192). -/
def putElems (d : BitVec 5) (w : Nat) (es : List (Nat × Nat)) : M Unit :=
  modRegs fun r => ((es.foldl (fun r p => r.setElem d w p.1 p.2) r).rezero d w r.vstart.toNat r.vl.toNat).vecDone false false

/-- What one element of a move receives (09 R198): nothing, a value, or element `j` of va. -/
inductive Src where
  | keep
  | value (v : Nat)
  | elem (j : Nat)
  deriving DecidableEq, Repr

/-- The element of va that is read. -/
def Src.read : Src → Option Nat
  | .elem j => some j
  | _ => none

/-- The value an element receives. -/
def Src.get (r : Regs) (a : BitVec 5) (k : Nat) : Src → Option Nat
  | .keep => none
  | .value v => some v
  | .elem j => some (r.elem a k j)

/-- The body of a move: `f` tells what an element receives, `vs` names the vector sources read at the element itself, and
`va` those of which other elements are read too (09 R197, R198, R210). -/
def vxBody (w : Word) (ok : Nat → Bool) (d a : BitVec 5) (m : BitVec 4) (vs va : List (BitVec 5)) (f : State → Nat → Nat → Src) :
    M Unit := do
  let s ← get
  let r := s.core.regs
  ensure (va.all r.groupOk) .illegal w
  elemGuard w (ok r.fmt) d m vs
  let k := fmtWidth r.fmt
  let is := r.actives m
  va.forM fun v => needElems v k (is.filterMap fun i => (f s k i).read)
  putElems d k (is.filterMap fun i => ((f s k i).get r a k).map fun v => (i, v))

/-- The element formats of VX but for VX.MOV and VX.IDX (09 R197). -/
def vxFmt (c : Nat) : Bool := decide (c ≤ 10)

/-- A block with the planes of some elements and the header of another (09 R198). -/
def moveBlock (m : Nat) (js : List Nat) (src dst : Nat) : Nat :=
  mixBits (js.foldl (fun a j => a + planeBits m j) (2 ^ 32 - 1)) dst src

/-- VX.MOV of block floating point (09 R198). -/
def movBlocks (d a : BitVec 5) (m : BitVec 4) : M Unit := do
  let r ← regs
  let act := r.actives m
  let bs := (act.map (· / 32)).eraseDups
  let k := bfpBits r.fmt
  modRegs fun q => ((bs.foldl (fun q b => q.setBlock d b
      (moveBlock k ((act.filter (· / 32 == b)).map (· % 32)) (r.block a b) (r.block d b))) q).rezero d 16 r.vstart.toNat r.vl.toNat)
    |>.vecDone false false

/-- VX.MOV (09 R198). -/
def movBody (w : Word) (d a : BitVec 5) (m : BitVec 4) : M Unit := do
  let r ← regs
  if isBfp r.fmt then
    elemGuard w true d m [a]
    movBlocks d a m
  else vxBody w vxFmt d a m [a] [] fun _ _ i => .elem i

/-- VX_MOV (09 R198). -/
def execVxMov (d a : BitVec 5) (m : BitVec 4) (st : State) : Out :=
  let w := tvalWord (encode (.vxMov d a m))
  vecRun (vecEntry w m) (movBody w d a m) st

/-- VX_BCST (09 R198). -/
def execVxBcst (d a : BitVec 5) (m : BitVec 4) (st : State) : Out :=
  let w := tvalWord (encode (.vxBcst d a m))
  vecRun (vecEntry w m) (vxBody w vxFmt d a m [] [] fun s k _ => .value (lowBits k (s.x a))) st

/-- VX_IDX (09 R198). -/
def execVxIdx (d : BitVec 5) (m : BitVec 4) (st : State) : Out :=
  let w := tvalWord (encode (.vxIdx d m))
  vecRun (vecEntry w m) (vxBody w (fun c => decide (c ≤ 3)) d 0 m [] [] fun _ k i => .value (i % 2 ^ k)) st

/-- VX_PERM (09 R198). -/
def execVxPerm (d a b : BitVec 5) (m : BitVec 4) (st : State) : Out :=
  let w := tvalWord (encode (.vxPerm d a b m))
  vecRun (vecEntry w m) (vxBody w vxFmt d a m [b] [a] fun s k i =>
    let j := s.core.regs.elem b k i
    if j < s.core.regs.vl.toNat then .elem j else .value 0) st

/-- VX_SLUP (09 R198). -/
def execVxSlup (d a b : BitVec 5) (m : BitVec 4) (st : State) : Out :=
  let w := tvalWord (encode (.vxSlup d a b m))
  vecRun (vecEntry w m) (vxBody w vxFmt d a m [] [a] fun s _ i =>
    if (s.x b).toNat ≤ i then .elem (i - (s.x b).toNat) else .keep) st

/-- VX_SLDN (09 R198). -/
def execVxSldn (d a b : BitVec 5) (m : BitVec 4) (st : State) : Out :=
  let w := tvalWord (encode (.vxSldn d a b m))
  vecRun (vecEntry w m) (vxBody w vxFmt d a m [] [a] fun s _ i =>
    if i + (s.x b).toNat < s.core.regs.vl.toNat then .elem (i + (s.x b).toNat) else .value 0) st

/-- VX_SL1UP (09 R198). -/
def execVxSl1up (d a b : BitVec 5) (m : BitVec 4) (st : State) : Out :=
  let w := tvalWord (encode (.vxSl1up d a b m))
  vecRun (vecEntry w m) (vxBody w vxFmt d a m [] [a] fun s k i =>
    if i = 0 then .value (lowBits k (s.x b)) else .elem (i - 1)) st

/-- VX.XTR (09 R200); `w` is its word. -/
def xtrBody (w : Word) (d a b : BitVec 5) : M Unit := do
  let s ← get
  let r := s.core.regs
  ensure (vxFmt r.fmt && r.groupOk a) .illegal w
  let k := fmtWidth r.fmt
  let j := (s.x b).toNat
  if j < r.vl.toNat then needElems a k [j]
  putX d (BitVec.ofNat 64 (if j < r.vl.toNat then r.elem a k j else 0))
  modRegs (·.vecDone false false)

/-- VX_XTR (09 R200). -/
def execVxXtr (d a b : BitVec 5) (st : State) : Out :=
  let w := tvalWord (encode (.vxXtr d a b))
  vecRun (vecEntry w 0) (xtrBody w d a b) st

/-- VX.INS (09 R198). -/
def insBody (w : Word) (d a b : BitVec 5) : M Unit := do
  let s ← get
  let r := s.core.regs
  elemGuard w (vxFmt r.fmt) d 0 []
  let k := fmtWidth r.fmt
  let j := (s.x b).toNat
  if r.vstart.toNat ≤ j && j < r.vl.toNat then putElems d k [(j, lowBits k (s.x a))]
  else modRegs (·.vecDone false false)

/-- VX_INS (09 R198). -/
def execVxIns (d a b : BitVec 5) (st : State) : Out :=
  let w := tvalWord (encode (.vxIns d a b))
  vecRun (vecEntry w 0) (insBody w d a b) st

/-- The elements that a selector selects; the governing rule of 00 R10 does not apply (09 R198, 10 R215). -/
def Regs.selected (r : Regs) (m : BitVec 4) : List Nat := (List.range r.vl.toNat).filter (r.governs m)

/-- The checks of VX.COMPRESS and VX.EXPAND, which read the elements `js` of va (09 R198, R210). -/
def selectGuard (w : Word) (ok : Bool) (d a : BitVec 5) (m : BitVec 4) (js : List Nat) : M Unit := do
  let r ← regs
  ensure (vxFmt r.fmt && ok && r.vstart == 0 && r.groupOk d && r.groupOk a) .illegal w
  guardMask m
  guardRegs 0 d.toNat (r.writes (fmtPlace r.fmt))
  needElems a (fmtWidth r.fmt) js

/-- VX.COMPRESS (09 R198). -/
def compressBody (w : Word) (d a : BitVec 5) (m : BitVec 4) : M Unit := do
  let r ← regs
  selectGuard w (!overlap d r.grp a r.grp) d a m (r.selected m)
  let k := fmtWidth r.fmt
  putElems d k ((r.selected m).zipIdx.map fun p => (p.2, r.elem a k p.1))

/-- VX_COMPRESS (09 R198). -/
def execVxCompress (d a : BitVec 5) (m : BitVec 4) (st : State) : Out :=
  let w := tvalWord (encode (.vxCompress d a m))
  vecRun (vecEntry w m) (compressBody w d a m) st

/-- VX.EXPAND (09 R198). -/
def expandBody (w : Word) (d a : BitVec 5) (m : BitVec 4) : M Unit := do
  let r ← regs
  selectGuard w true d a m (List.range (r.selected m).length)
  let k := fmtWidth r.fmt
  putElems d k ((r.selected m).zipIdx.map fun p => (p.1, r.elem a k p.2))

/-- VX_EXPAND (09 R198). -/
def execVxExpand (d a : BitVec 5) (m : BitVec 4) (st : State) : Out :=
  let w := tvalWord (encode (.vxExpand d a m))
  vecRun (vecEntry w m) (expandBody w d a m) st

/-- The first `l` bits of the group at v[n] as a number (09 R199). -/
def Regs.bitString (r : Regs) (n : BitVec 5) (l : Nat) : Nat :=
  ((List.range r.grp).foldr (fun k a => (r.vreg (n.toNat + k)).toNat + 2 ^ 16384 * a) 0) % 2 ^ l

/-- The registers with the first `l` bits of the group at v[n] written (09 R199). -/
def Regs.setBitString (r : Regs) (n : BitVec 5) (l x : Nat) : Regs :=
  (List.range r.grp).foldl (fun r k =>
    { r with v := vecMod r.v (n.toNat + k) fun b => setField b 0 (min 16384 (l - 16384 * k)) (x / 2 ^ (16384 * k)) }) r

/-- A whole-register shift: `f` on the length, the string of va, the string of vd and the amount (09 R199). -/
def shiftBody (w : Word) (d a b : BitVec 5) (readsD : Bool) (f : Nat → Nat → Nat → Nat → Nat) : M Unit := do
  let s ← get
  let r := s.core.regs
  let k := fmtWidth r.fmt
  ensure (vxFmt r.fmt && r.vstart == 0 && r.groupOk d && r.groupOk a) .illegal w
  guardRegs 0 d.toNat (r.writes (fmtPlace r.fmt))
  needElems a k (List.range r.vl.toNat)
  if readsD then needElems d k (List.range r.vl.toNat)
  let l := r.vl.toNat * k
  let x := f l (r.bitString a l) (r.bitString d l) (s.x b).toNat
  modRegs fun r => ((r.setBitString d l x).rezero d k 0 r.vl.toNat).vecDone false false

/-- VX_SHLW (09 R199). -/
def execVxShlw (d a b : BitVec 5) (st : State) : Out :=
  let w := tvalWord (encode (.vxShlw d a b))
  vecRun (vecEntry w 0) (shiftBody w d a b false fun l x _ n => if l ≤ n then 0 else x <<< n % 2 ^ l) st

/-- VX_SHRW (09 R199). -/
def execVxShrw (d a b : BitVec 5) (st : State) : Out :=
  let w := tvalWord (encode (.vxShrw d a b))
  vecRun (vecEntry w 0) (shiftBody w d a b false fun l x _ n => if l ≤ n then 0 else x >>> n) st

/-- VX_FSHW (09 R199). -/
def execVxFshw (d a b : BitVec 5) (st : State) : Out :=
  let w := tvalWord (encode (.vxFshw d a b))
  vecRun (vecEntry w 0) (shiftBody w d a b true fun l x y n => if 2 * l ≤ n then 0 else (y <<< l + x) >>> n % 2 ^ l) st

end Sys2Proof.Machine
end

