-- ==== Sys2Proof/Machine/Verdict.lean ====
section
/-! DEFINITION. Verdict accumulation: major VD (12 R243-R259). -/
namespace Sys2Proof.Machine

/-- A VQ entry of VD (12 R243). -/
def vdEntry (w : Word) (m : Bool) : Entry := ⟨w, true, m, false, true, false⟩
/-- A mask field that may name none. -/
def maskField (m : BitVec 4) : Option (BitVec 4) := if m = 0 then none else some m

/-- Every boundary flag below VL stands at a multiple of 32 (12 R244, R253). -/
def flagsPlaced (r : Regs) (m : BitVec 4) : Bool :=
  m == 0 || ((List.range r.vl.toNat).filter (· % 32 != 0)).all fun i => !r.maskBit m i

/-! ### The bound monitor (12 R247) -/

/-- The tail bound of a header: none when it makes no claim (08 R166). -/
def tailBound (x : Nat) : Option Fp :=
  if blkTE x = 255 then none
  else if blkTE x = 0 then some (.zero false)
  else some (.fin false (256 + blkTM x) ((blkTE x : Int) - 135) false)

/-- A finite magnitude times n · 2^g. -/
def Fp.scale (x : Fp) (n : Nat) (g : Int) : Fp :=
  match x with
  | .fin _ m e _ => .fin false (m * n) (e + g) false
  | v => v
/-- A finite value. -/
def Fp.isFin : Fp → Bool
  | .fin .. => true
  | _ => false
/-- Exact sum of two finite values. -/
def exactSum (a b : Fp) : Fp := (fpSum false [a, b]).getD (.zero false)

/-- The margin M, rounded up to binary32 (12 R247): `q` is Q, `r` the blocks that remain. -/
def margin (q acc : Fp) (r : Nat) : Nat :=
  let ts := [q, q.scale 1 (-20), acc.scale r (-21), q.scale (2 * r) (-21), .fin false r (-147) false]
  (fpRound 5 3 0 ((fpSum false ts).getD (.zero false))).1

/-- The verdict after a block with header `h`, `r` blocks remaining; none when the segment goes on (12 R247). `topk` tells that
the predicate is TOPK, `a` is AMAX. -/
def monitor (topk : Bool) (t a acc : Fp) (h r : Nat) : Option Nat :=
  if t.isNan || !acc.isFin || !a.isFin || (a.sign && !a.isZero) then none else
  match tailBound h with
  | none => none
  | some b =>
    let q := ((fpMul a b).getD (.zero false)).scale 1 0
    let mb := margin q acc r
    if mb = fpMax 5 + 1 then none else
    let m := fpDecode 5 mb
    if !topk && fpLess t (exactSum acc m.neg) then some 1
    else if !fpLess t (exactSum acc m) then some 0
    else none

/-! ### VD.DOTV (12 R244-R248) -/

/-- What the instruction is configured for. -/
structure Dotv where
  topk : Bool
  t    : Fp
  a    : Fp
  mode : Nat

/-- The blocks of a segment in order: the token of the block after which it is abandoned, with the flags so far; none when it
is finished (12 R246, R247). `hdr` gives the header of a block of vb. -/
def dotvBlocks (k : Dotv) (t : Terms) (hdr : Nat → Nat) (lo nb : Nat) : List Nat → RunSum × Nat → Option (Nat × Nat)
  | [], _ => none
  | j :: js, p =>
    let is := List.range' (lo + 32 * j) 32
    let ts := is.map fun i => fpMul (t.xa i) (t.xb i)
    if is.any (fun i => (t.xa i).isNan || (t.xb i).isNan) || ts.any (·.isNone) || js.isEmpty then none
    else
      let q := sumBlock 5 k.mode p ts
      match q.1 with
      | .bits acc =>
        match monitor k.topk k.t k.a (fpDecode 5 acc) (hdr (lo / 32 + j)) (nb - 1 - j) with
        | some v => some (0x7F8A0000 + 2 * j + v, q.2)
        | none => dotvBlocks k t hdr lo nb js q
      | _ => none

/-- The result of a segment and its flags (12 R246). -/
def dotvSegment (k : Dotv) (t : Terms) (hdr : Nat → Nat) (seg : Nat × Nat) : Nat × Nat :=
  let nb := (seg.2 - seg.1) / 32
  (dotvBlocks k t hdr seg.1 nb (List.range nb) (.start, 0)).getD
    (foldDot 5 k.mode seg.1 t (List.range' seg.1 (seg.2 - seg.1)))

/-- The activation format (12 R244). -/
def dotvAf (cfg : Word) : Nat := (cfg.extractLsb' 32 5).toNat
/-- Registers of the activation group (12 R244). -/
def dotvGroup (r : Regs) (cfg : Word) : Nat := if dotvAf cfg = 5 then 2 * r.grp else r.grp
/-- The checks of 12 R244. -/
def dotvOk (r : Regs) (cfg : Word) (a b : BitVec 5) (s : BitVec 4) : Bool :=
  let af := dotvAf cfg
  let ga := dotvGroup r cfg
  isBfp r.fmt && (af == 5 || af == 7 || isBfp af) && cfg.extractLsb' 37 27 == 0 && r.vstart == 0 && r.vl.toNat % 32 == 0 &&
  flagsPlaced r s && decide (ga ≤ 8) && groupOk ga a && r.groupOk b
/-- The threshold (12 R245). -/
def threshold (r : Regs) (p : BitVec 2) (xt : Word) : Nat :=
  if p = 0 then 0 else if p = 1 then xt.toNat % 2 ^ 32 else r.tk.toNat % 2 ^ 32

/-- VD.DOTV (12 R244-R248): `xt` and `cfg` are x[xt] and x[xt+1]. An open vd traps though VL = 0 leaves no segment to write (log 11).
DEDUCED -/
def dotvBody (w : Word) (d a b : BitVec 5) (s : BitVec 4) (p : BitVec 2) (xt cfg : Word) : M Unit := do
  let r ← regs
  ensure (dotvOk r cfg a b s) .illegal w
  guardMask s
  guardRegs 0 d.toNat 1
  let af := dotvAf cfg
  let all := List.range r.vl.toNat
  needElems a (fmtPlace af) all
  needElems b 16 all
  let t := termsOf r af r.fmt a b
  let tv := threshold r p xt
  match foldToken af r.fmt false t all with
  | some x => raise .verdictOperand (BitVec.ofNat 64 x)
  | none =>
    ensure (!isToken tv) .verdictOperand (BitVec.ofNat 64 tv)
    let k : Dotv := ⟨p == 2, fpDecode 5 tv, fpDecode 5 (cfg.toNat % 2 ^ 32), r.rm⟩
    let rs := (segments r (maskField s)).map (dotvSegment k t fun j => r.block b j % 2 ^ 32)
    if r.traps (flagUnion rs) then raise .fp (BitVec.ofNat 64 (flagUnion rs)) else putResults d 32 rs

/-- VD_DOTV (12 R244-R248). -/
def execVdDotv (d a b : BitVec 5) (s : BitVec 4) (p : BitVec 2) (x : BitVec 5) (st : State) : Out :=
  let w := tvalWord (encode (.vdDotv d a b s p x))
  vecRun (vdEntry w (s != 0)) (dotvBody w d a b s p (st.x x) (st.x (x + 1))) st

/-! ### VD.TAIL (12 R253) -/

/-- The magnitudes of a block, as one exact sum. -/
def blockMagnitude (m x : Nat) : Fp :=
  if blkE x = 0 then .zero false
  else .fin false ((List.range 32).foldl (fun s j => s + (blkMant m x j).natAbs) 0) ((blkE x : Int) - 127) false

/-- The least bound not below a positive sum, as (TE, TM); none when there is no such bound (12 R253). -/
def tailFields (s : Fp) : Nat × Nat :=
  match s with
  | .fin _ n e _ =>
    if n = 0 then (0, 0) else
    match (List.range' 1 254).find? fun (te : Nat) => !fpLess (.fin false 511 ((te : Int) - 135) false) s with
    | none => (255, 0)
    | some te =>
      let q : Int := (te : Int) - 135
      let u := if q ≤ e then n <<< (e - q).toNat else (n + 2 ^ (q - e).toNat - 1) >>> (q - e).toNat
      (te, u - 256)
  | _ => (255, 0)

/-- The tail fields of the blocks of a segment, last block first: what the later blocks claim (12 R253). -/
def tailWalk (r : Regs) (d : BitVec 5) (m : Nat) : List Nat → Option Fp → List (Nat × Nat × Nat)
  | [], _ => []
  | j :: js, later =>
    let x := r.block d j
    let next := match later with
      | some s => if blkValid m x then some (exactSum s (blockMagnitude m x)) else none
      | none => none
    (j, (later.map tailFields).getD (255, 0)) :: tailWalk r d m js next

/-- VD.TAIL (12 R253). An open vd traps though VL = 0 leaves no block to write (log 11). DEDUCED -/
def tailBody (w : Word) (d : BitVec 5) (s : BitVec 4) : M Unit := do
  let r ← regs
  ensure (isBfp r.fmt && r.vl.toNat % 32 == 0 && flagsPlaced r s && r.vstart == 0 && r.groupOk d) .illegal w
  guardMask s
  guardRegs 0 d.toNat (r.writes 16)
  let ts := (segments r (maskField s)).flatMap fun seg =>
    tailWalk r d (bfpBits r.fmt) (List.range' (seg.1 / 32) ((seg.2 - seg.1) / 32)).reverse (some (.zero false))
  modRegs fun r => ((ts.foldl (fun q t =>
    q.setBlock d t.1 (mixBits (0xFFFF * 2 ^ 12) (q.block d t.1) (2 ^ 12 * t.2.1 + 2 ^ 20 * t.2.2))) r).rezero d 16 0 r.vl.toNat).vecDone
      false false

/-- VD_TAIL (12 R253). -/
def execVdTail (d : BitVec 5) (s : BitVec 4) (st : State) : Out :=
  let w := tvalWord (encode (.vdTail d s))
  vecRun (vdEntry w (s != 0)) (tailBody w d s) st

/-! ### Tokens and the threshold register (12 R254-R258) -/

/-- VD.TEST (12 R258). An open md or mb traps though no element is active (log 11). DEDUCED -/
def testBody (w : Word) (d : BitVec 4) (a : BitVec 5) (b m : BitVec 4) : M Unit := do
  let r ← regs
  ensure (r.fmt == 5 && d != b && r.groupOk a) .illegal w
  guardMask m
  guardRegs 1 d.toNat 1
  guardRegs 1 b.toNat 1
  let act := r.actives m
  needElems a 32 act
  modRegs fun q => (act.foldl (fun q i =>
    let v := r.elem a 32 i
    (q.setMaskBit d i (isToken v)).setMaskBit b i (isToken v && v.testBit 0)) q).vecDone true false

/-- VD_TEST (12 R258). -/
def execVdTest (d : BitVec 4) (a : BitVec 5) (b m : BitVec 4) (st : State) : Out :=
  let w := tvalWord (encode (.vdTest d a b m))
  vecRun (vdEntry w true) (testBody w d a b m) st

/-- VD_TKSET (12 R256). -/
def execVdTkset (a : BitVec 5) (st : State) : Out :=
  let w := tvalWord (encode (.vdTkset a))
  vecRun (vdEntry w false) (do
    setTk (st.x a)
    modRegs (·.vecDone false false)) st

/-- A value in a list of patterns in falling numeric order. -/
def insertFalling (v : Nat) : List Nat → List Nat
  | [] => [v]
  | u :: us => if fpLess (fpDecode 5 u) (fpDecode 5 v) then v :: u :: us else u :: insertFalling v us

/-- The k-th largest survivor, zeros as +0 (12 R257). -/
def kthLargest (k : Nat) (vs : List Nat) : Option Nat :=
  if k = 0 then none
  else (((vs.filter fun v => !(fpDecode 5 v).isNan).foldl (fun l v => insertFalling v l) [])[k - 1]?).map fun v =>
    if v % 2 ^ 31 = 0 then 0 else v

/-- TK.THRESH raised to `v` (12 R257). -/
def raiseTk (r : Regs) (v : Nat) : Regs :=
  let t := fpDecode 5 (r.tk.toNat % 2 ^ 32)
  if t.isNan || fpLess t (fpDecode 5 v) then { r with tk := BitVec.ofNat 64 v } else r

/-- VD.TKUPD (12 R257). -/
def tkupdBody (w : Word) (a : BitVec 5) (k : Nat) (m : BitVec 4) : M Unit := do
  let r ← regs
  ensure (r.fmt == 5 && r.groupOk a) .illegal w
  guardMask m
  let act := r.actives m
  needElems a 32 act
  modRegs fun q =>
    (match kthLargest k (act.map (r.elem a 32)) with
      | some v => raiseTk q v
      | none => q).vecDone false false

/-- VD_TKUPD (12 R257). -/
def execVdTkupd (a b : BitVec 5) (m : BitVec 4) (st : State) : Out :=
  let w := tvalWord (encode (.vdTkupd a b m))
  vecRun (vdEntry w (m != 0)) (tkupdBody w a (st.x b).toNat m) st

end Sys2Proof.Machine
end

