-- ==== Sys2Proof/Machine/Windows.lean ====
section
/-! DEFINITION. Accumulation windows: major AW (13 R273-R278). -/
namespace Sys2Proof.Machine

/-- Window descriptor `w`. -/
def Regs.window (r : Regs) (w : BitVec 2) : Window := r.win.get ⟨w.toNat, w.isLt⟩

/-- An operation on a copy and a value of format `c`: result and flags (13 R273, R275). -/
def awOp (c mode : Nat) (op : BitVec 3) (x v : Nat) : Nat × Nat :=
  let k := fmtWidth c
  if 4 ≤ c then
    match op.toNat with
    | 0 => fpAdd c mode x v
    | 1 => fpMinMax c false x v
    | _ => fpMinMax c true x v
  else
    (match op.toNat with
      | 0 => (x + v) % 2 ^ k
      | 1 => if sintW k x ≤ sintW k v then x else v
      | 2 => if sintW k x ≤ sintW k v then v else x
      | 3 => min x v
      | 4 => max x v
      | 5 => x &&& v
      | 6 => x ||| v
      | _ => x ^^^ v, 0)

/-- The identity of an operation (13 R274). -/
def awIdentity (c : Nat) (op : BitVec 3) : Nat :=
  let k := fmtWidth c
  if 4 ≤ c then
    match op.toNat with
    | 0 => 2 ^ (k - 1)
    | 1 => fpMax c + 1
    | _ => fpMax c + 1 + 2 ^ (k - 1)
  else
    match op.toNat with
    | 1 => 2 ^ (k - 1) - 1
    | 2 => 2 ^ (k - 1)
    | 3 | 5 => 2 ^ k - 1
    | _ => 0

/-- The offset of copy `l` of element `j` (13 R274). -/
def Window.copyOff (d : Window) (l j : Nat) : Nat := d.off.toNat + (l * d.nel.toNat + j) * d.width

/-- The bytes of every copy of a window at its identity. -/
def Window.fresh (d : Window) : List Byte :=
  (List.replicate (32 * d.nel.toNat) (leBytes d.width (awIdentity d.fmt.toNat d.op))).flatten

/-- A store of the owning core to its scratchpad by offset: it counts its lines, and `split` ends a chunk that has no room for them
(04 R74, 14 R281). -/
def scratchWrite (split : M Unit) (o : Nat) (bs : List Byte) : M Unit := do
  if overLimit (← get).core.chunkOr [⟨0, 2 * 2 ^ 48 + o, bs.length, ⟨0, 0, 0, 0, 0, 0⟩⟩] then split
  modify (scratchStore o bs)
  beginElem [] id

/-- The chunk ends inside the instruction, which begins again from its start if the next one is squashed (14 R281; log 43). -/
def splitWhole : M Unit := do
  modCore fun c => { c with held := c.held.map fun h => { h with part := true } }
  newChunkM 4

/-- Bytes stored to the scratchpad a line at a time, from line `l` on; `begun` tells that the instruction has stored a line. -/
def scratchLines (begun : Bool) (l : Nat) (bs : List Byte) : Nat → M Unit
  | 0 => return
  | k + 1 => do
    scratchWrite (if begun then splitWhole else newChunkM 4) (64 * l) (bs.take 64)
    scratchLines true (l + 1) (bs.drop 64) k

/-- A chunk that the reset of a window's copies ends inside it is one that may commit now; else the instruction waits before it writes
anything (13 R274, R277; 14 R281, R288). -/
def resetReady (d : Window) : M Unit := do
  let s ← get
  let all : Piece := ⟨0, 2 * 2 ^ 48 + d.off.toNat, 32 * d.nel.toNat * d.width, ⟨0, 0, 0, 0, 0, 0⟩⟩
  if overLimit s.core.chunkOr [all] && (endChunk 4 s).isNone then await .reservation

/-- Every copy of a window set to the identity (13 R274, R277). -/
def resetCopies (d : Window) : M Unit := scratchLines false (d.off.toNat / 64) d.fresh ((32 * d.nel.toNat * d.width + 63) / 64)

/-- A VQ entry of AW (02 R26 steps 7 and 8). -/
def awEntry (w : Word) (m : BitVec 4) : Entry := ⟨w, true, m != 0, false, true, false⟩

/-- AW.WIN accepts the format and the operation (13 R274). -/
def awFmt (c : Nat) (p : BitVec 3) : Bool := decide (2 ≤ c) && decide (c ≤ 5) && (decide (c ≤ 3) || decide (p.toNat ≤ 2))

/-- AW.WIN (13 R274). -/
def winBody (w base cfg : Word) (i : BitVec 2) (p : BitVec 3) : M Unit := do
  let r ← regs
  let c := r.fmt
  let k := fmtWidth c / 8
  ensure (awFmt c p) .illegal w
  ensure (base.toNat % k == 0) .align base
  let nel := cfg.extractLsb' 0 24
  let off := cfg.extractLsb' 24 22
  ensure (cfg.extractLsb' 46 18 == 0 && off.toNat % 64 == 0 && decide (nel.toNat * k ≤ 98304) &&
    decide (off.toNat + 32 * (nel.toNat * k) ≤ 0x300000)) .range cfg
  let d : Window := ⟨nel != 0, base, nel, off, p, BitVec.ofNat 5 c⟩
  resetReady d
  modRegs fun r => { r with win := r.win.set i.toNat d i.isLt }
  resetCopies d
  modRegs (·.vecDone false false)

/-- AW_WIN (13 R273, R274). -/
def execAwWin (a b : BitVec 5) (w : BitVec 2) (p : BitVec 3) (st : State) : Out :=
  let i : Word := (wordAwWin a b w p).setWidth 64
  vecRun (awEntry i 0) (winBody i (st.x a) (st.x b) w p) st

/-- One element's update, or the trap it takes (13 R275). -/
def updElem (d : Window) (s b : BitVec 5) (i : Nat) : M Unit := do
  let r ← regs
  let c := r.fmt
  let k := fmtWidth c
  let j := r.elem b k i
  if d.nel.toNat ≤ j then stopAt i .range (BitVec.ofNat 64 j)
  let v := r.elem s k i
  if c == 5 && isToken v then stopAt i .verdictOperand (BitVec.ofNat 64 v)
  let o := d.copyOff (i * (k / 8) / 64 % 32) j
  let p := awOp c r.rm d.op (leNat (memRead (← get).core.scratch o (k / 8))) v
  if r.traps p.2 then stopAt i .fp (BitVec.ofNat 64 p.2)
  scratchWrite (splitAt (fun _ r => r) i 4) o (leBytes (k / 8) p.1)
  modRegs (·.accrue p.2)

/-- AW.UPD (13 R275). -/
def updBody (w : Word) (s b : BitVec 5) (m : BitVec 4) (i : BitVec 2) : M Unit := do
  let r ← regs
  let d := r.window i
  ensure (d.valid && d.fmt.toNat == r.fmt) .illegal w
  storeGuard w (fun _ => true) m [b, s]
  (r.actives m).forM (updElem d s b)
  modRegs (·.vecDone false false)

/-- AW_UPD (13 R273, R275). -/
def execAwUpd (s b : BitVec 5) (m : BitVec 4) (w : BitVec 2) (st : State) : Out :=
  let i : Word := (wordAwUpd s b m w).setWidth 64
  vecRun (awEntry i m) (updBody i s b m w) st

/-- The pages of the target's elements, checked as a store element by element, each before the next; a target that is not idempotent
memory of regions 0x0 and 0x1 traps (13 R276; log 59). DEDUCED -/
def mergePages (d : Window) : List Nat → M (List (List Piece))
  | [] => return []
  | j :: js => do
    let va := d.base + BitVec.ofNat 64 (d.width * j)
    match ← xlAccess (← get).core.xl .store va d.width with
    | .error (c, t) => raise c t
    | .ok ps =>
      ensure (ps.all fun p => p.place == .mem && !p.device) .deviceAccess va
      return ps :: (← mergePages d js)

/-- The copies of element `j`, copy 0 first. -/
def copiesOf (d : Window) (sp : Mem) (j : Nat) : List Nat :=
  (List.range 32).map fun l => leNat (memRead sp (d.copyOff l j) d.width)

/-- The fold of the copies into the target's value: result, and the flags of every step; a NaN by 08 R171 over the whole list
(13 R276, 08 R174). -/
def mergeValue (c mode : Nat) (op : BitVec 3) (v : Nat) (cs : List Nat) : Nat × Nat :=
  let xs := (v :: cs).map (fpDecode c)
  let fold := cs.foldl (fun p x => let q := awOp c mode op p.1 x; (q.1, p.2 ||| q.2)) (v, 0)
  if 4 ≤ c && xs.any (·.isNan) then
    let q := (pickNan c xs (op == 0 && opposite xs)).getD fold
    (q.1, q.2 ||| fold.2)
  else fold

/-- The folds of the elements in order, each with its target's pieces and its copies, on memory as the folds below have left it: the state
with every result written, and the flags of all (13 R276, 14 R283). -/
def mergeFold (d : Window) (mode : Nat) (es : List (List Piece × List Nat)) (s : State) : State × Nat :=
  es.foldl (fun a e =>
    let q := mergeValue d.fmt.toNat mode d.op (leNat (e.1.flatMap (directRead a.1))) e.2
    ((splitBytes e.1 (leBytes d.width q.1)).foldl (fun s q => s.homeWrite q.1.pa q.2) a.1, a.2 ||| q.2)) (s, 0)

/-- The first token among what a merge of binary32 reads: of each element in order its target's value and then its copies (12 R250,
13 R276; log 59). DEDUCED -/
def mergeToken (c : Nat) (es : List (List Piece × List Nat)) (s : State) : Option Nat :=
  if c = 5 then (es.flatMap fun e => leNat (e.1.flatMap (directRead s)) :: e.2).find? isToken else none

/-- AW.MERGE (13 R276): a chunk of its own, never stopped part-way. A token is looked for once the targets have passed their checks, before
any flag's trap (log 59). DEDUCED -/
def mergeBody (w : Word) (i : BitVec 2) : M Unit := do
  let r ← regs
  let d := r.window i
  ensure d.valid .illegal w
  endChunkM 1
  let pages ← mergePages d (List.range d.nel.toNat)
  needHbm pages.flatten
  needClean pages.flatten
  let s ← get
  let es := pages.zip ((List.range d.nel.toNat).map (copiesOf d s.core.scratch))
  match mergeToken d.fmt.toNat es s with
  | some t => raise .verdictOperand (BitVec.ofNat 64 t)
  | none => pure ()
  let (merged, fl) := mergeFold d r.rm es s
  if r.traps fl then raise .fp (BitVec.ofNat 64 fl)
  let wl := addLines [] (memLines pages.flatten)
  let sl := (linesOf d.area.1 d.area.2).length
  if s.blocked wl [] then await .reservation
  modify (takeCsn 1 (wl.length + sl) wl [])
  modify fun s => { s with mem := merged.mem }
  modCore fun k => { k with scratch := memWrite k.scratch d.off.toNat d.fresh }
  modRegs fun r => (r.accrue fl).vecDone false false

/-- AW_MERGE (13 R273, R276). -/
def execAwMerge (w : BitVec 2) (st : State) : Out :=
  let i : Word := (wordAwMerge w).setWidth 64
  vecRun (awEntry i 0) (mergeBody i w) st

/-- AW.CLR (13 R277). -/
def clrBody (w : Word) (i : BitVec 2) : M Unit := do
  let d := (← regs).window i
  ensure d.valid .illegal w
  resetReady d
  resetCopies d
  modRegs (·.vecDone false false)

/-- AW_CLR (13 R273, R277). -/
def execAwClr (w : BitVec 2) (st : State) : Out :=
  let i : Word := (wordAwClr w).setWidth 64
  vecRun (awEntry i 0) (clrBody i w) st

end Sys2Proof.Machine
end

