-- ==== Sys2Proof/Machine/Dispatch.lean ====
section
/-! DEFINITION. One arm per instruction and event: the meaning it has. -/
namespace Sys2Proof.Machine

/-- The effect of one instruction of the focused core or of one event (02 R26; INVENTORY.md, Instructions). -/
def exec (i : Instr) (s : State) : Host.Outcome State Fault Refusal :=
  match i with
  | .saAdd d a b => Sys2Proof.Machine.execSaAdd d a b s
  | .saSub d a b => Sys2Proof.Machine.execSaSub d a b s
  | .saAnd d a b => Sys2Proof.Machine.execSaAnd d a b s
  | .saOr d a b => Sys2Proof.Machine.execSaOr d a b s
  | .saXor d a b => Sys2Proof.Machine.execSaXor d a b s
  | .saAndn d a b => Sys2Proof.Machine.execSaAndn d a b s
  | .saSll d a b => Sys2Proof.Machine.execSaSll d a b s
  | .saSrl d a b => Sys2Proof.Machine.execSaSrl d a b s
  | .saSra d a b => Sys2Proof.Machine.execSaSra d a b s
  | .saRotr d a b => Sys2Proof.Machine.execSaRotr d a b s
  | .saSlt d a b => Sys2Proof.Machine.execSaSlt d a b s
  | .saSltu d a b => Sys2Proof.Machine.execSaSltu d a b s
  | .saMin d a b => Sys2Proof.Machine.execSaMin d a b s
  | .saMax d a b => Sys2Proof.Machine.execSaMax d a b s
  | .saMinu d a b => Sys2Proof.Machine.execSaMinu d a b s
  | .saMaxu d a b => Sys2Proof.Machine.execSaMaxu d a b s
  | .saAddw d a b => Sys2Proof.Machine.execSaAddw d a b s
  | .saSubw d a b => Sys2Proof.Machine.execSaSubw d a b s
  | .saClz d a => Sys2Proof.Machine.execSaClz d a s
  | .saCtz d a => Sys2Proof.Machine.execSaCtz d a s
  | .saPopc d a => Sys2Proof.Machine.execSaPopc d a s
  | .saAdds d a b => Sys2Proof.Machine.execSaAdds d a b s
  | .saSubs d a b => Sys2Proof.Machine.execSaSubs d a b s
  | .siAddi d a imm => Sys2Proof.Machine.execSiAddi d a imm s
  | .siAndi d a imm => Sys2Proof.Machine.execSiAndi d a imm s
  | .siOri d a imm => Sys2Proof.Machine.execSiOri d a imm s
  | .siXori d a imm => Sys2Proof.Machine.execSiXori d a imm s
  | .siSlti d a imm => Sys2Proof.Machine.execSiSlti d a imm s
  | .siSltiu d a imm => Sys2Proof.Machine.execSiSltiu d a imm s
  | .siSlli d a imm => Sys2Proof.Machine.execSiSlli d a imm s
  | .siSrli d a imm => Sys2Proof.Machine.execSiSrli d a imm s
  | .siSrai d a imm => Sys2Proof.Machine.execSiSrai d a imm s
  | .siRotri d a imm => Sys2Proof.Machine.execSiRotri d a imm s
  | .siAddiw d a imm => Sys2Proof.Machine.execSiAddiw d a imm s
  | .suAhi d imm => Sys2Proof.Machine.execSuAhi d imm s
  | .suApc d imm => Sys2Proof.Machine.execSuApc d imm s
  | .slLb d a imm => Sys2Proof.Machine.execSlLb d a imm s
  | .slLh d a imm => Sys2Proof.Machine.execSlLh d a imm s
  | .slLw d a imm => Sys2Proof.Machine.execSlLw d a imm s
  | .slLd d a imm => Sys2Proof.Machine.execSlLd d a imm s
  | .slLbu d a imm => Sys2Proof.Machine.execSlLbu d a imm s
  | .slLhu d a imm => Sys2Proof.Machine.execSlLhu d a imm s
  | .slLwu d a imm => Sys2Proof.Machine.execSlLwu d a imm s
  | .slLq d a imm => Sys2Proof.Machine.execSlLq d a imm s
  | .slLdf d a c imm => Sys2Proof.Machine.execSlLdf d a c imm s
  | .slLqf d a c imm => Sys2Proof.Machine.execSlLqf d a c imm s
  | .ssSb imm a b => Sys2Proof.Machine.execSsSb imm a b s
  | .ssSh imm a b => Sys2Proof.Machine.execSsSh imm a b s
  | .ssSw imm a b => Sys2Proof.Machine.execSsSw imm a b s
  | .ssSd imm a b => Sys2Proof.Machine.execSsSd imm a b s
  | .ssSq imm a b => Sys2Proof.Machine.execSsSq imm a b s
  | .brEq a b o => Sys2Proof.Machine.execBrEq a b o s
  | .brNe a b o => Sys2Proof.Machine.execBrNe a b o s
  | .brLt a b o => Sys2Proof.Machine.execBrLt a b o s
  | .brGe a b o => Sys2Proof.Machine.execBrGe a b o s
  | .brLtu a b o => Sys2Proof.Machine.execBrLtu a b o s
  | .brGeu a b o => Sys2Proof.Machine.execBrGeu a b o s
  | .jlJal d o => Sys2Proof.Machine.execJlJal d o s
  | .jrJalr d a => Sys2Proof.Machine.execJrJalr d a s
  | .jrJtab d a b => Sys2Proof.Machine.execJrJtab d a b s
  | .lpLoop adv o => Sys2Proof.Machine.execLpLoop adv o s
  | .smMul d a b => Sys2Proof.Machine.execSmMul d a b s
  | .smMulh d a b sb sa => Sys2Proof.Machine.execSmMulh d a b sb sa s
  | .smMadd d a b => Sys2Proof.Machine.execSmMadd d a b s
  | .smDiv d a b sc => Sys2Proof.Machine.execSmDiv d a b sc s
  | .smRem d a b sc => Sys2Proof.Machine.execSmRem d a b sc s
  | .sfAdd d a b f r => Sys2Proof.Machine.execSfAdd d a b f r s
  | .sfSub d a b f r => Sys2Proof.Machine.execSfSub d a b f r s
  | .sfMul d a b f r => Sys2Proof.Machine.execSfMul d a b f r s
  | .sfDiv d a b f r => Sys2Proof.Machine.execSfDiv d a b f r s
  | .sfSqrt d a f r => Sys2Proof.Machine.execSfSqrt d a f r s
  | .sfFma d a b f r => Sys2Proof.Machine.execSfFma d a b f r s
  | .sfMin d a b f => Sys2Proof.Machine.execSfMin d a b f s
  | .sfMax d a b f => Sys2Proof.Machine.execSfMax d a b f s
  | .sfSgnj d a b f => Sys2Proof.Machine.execSfSgnj d a b f s
  | .sfSgnjn d a b f => Sys2Proof.Machine.execSfSgnjn d a b f s
  | .sfFeq d a b f => Sys2Proof.Machine.execSfFeq d a b f s
  | .sfFlt d a b f => Sys2Proof.Machine.execSfFlt d a b f s
  | .sfFle d a b f => Sys2Proof.Machine.execSfFle d a b f s
  | .sfClass d a f => Sys2Proof.Machine.execSfClass d a f s
  | .sfCvti d a f r => Sys2Proof.Machine.execSfCvti d a f r s
  | .sfCvtu d a f r => Sys2Proof.Machine.execSfCvtu d a f r s
  | .sfIcvt d a f r => Sys2Proof.Machine.execSfIcvt d a f r s
  | .sfUcvt d a f r => Sys2Proof.Machine.execSfUcvt d a f r s
  | .sfWiden d a f => Sys2Proof.Machine.execSfWiden d a f s
  | .sfNarrow d a f r => Sys2Proof.Machine.execSfNarrow d a f r s
  | .amAdd d a b w n => Sys2Proof.Machine.execAmAdd d a b w n s
  | .amMin d a b w n => Sys2Proof.Machine.execAmMin d a b w n s
  | .amMax d a b w n => Sys2Proof.Machine.execAmMax d a b w n s
  | .amMinu d a b w n => Sys2Proof.Machine.execAmMinu d a b w n s
  | .amMaxu d a b w n => Sys2Proof.Machine.execAmMaxu d a b w n s
  | .amAnd d a b w n => Sys2Proof.Machine.execAmAnd d a b w n s
  | .amOr d a b w n => Sys2Proof.Machine.execAmOr d a b w n s
  | .amXor d a b w n => Sys2Proof.Machine.execAmXor d a b w n s
  | .amSwap d a b w => Sys2Proof.Machine.execAmSwap d a b w s
  | .amCas d a b w => Sys2Proof.Machine.execAmCas d a b w s
  | .sySrd d sc => Sys2Proof.Machine.execSySrd d sc s
  | .sySwr a sc => Sys2Proof.Machine.execSySwr a sc s
  | .syCend => Sys2Proof.Machine.execSyCend s
  | .syFence c => Sys2Proof.Machine.execSyFence c s
  | .syIcinv c => Sys2Proof.Machine.execSyIcinv c s
  | .syLaunch d a => Sys2Proof.Machine.execSyLaunch d a s
  | .syTrap n => Sys2Proof.Machine.execSyTrap n s
  | .syRet => Sys2Proof.Machine.execSyRet s
  | .syEnd => Sys2Proof.Machine.execSyEnd s
  | .syPark => Sys2Proof.Machine.execSyPark s
  | .sqCfg b a => Sys2Proof.Machine.execSqCfg b a s
  | .sqArv b => Sys2Proof.Machine.execSqArv b s
  | .sqWt b => Sys2Proof.Machine.execSqWt b s
  | .sqRd d b => Sys2Proof.Machine.execSqRd d b s
  | .sqWr b a => Sys2Proof.Machine.execSqWr b a s
  | .sqVqd => Sys2Proof.Machine.execSqVqd s
  | .vcSetl d a b => Sys2Proof.Machine.execVcSetl d a b s
  | .vcSett d a => Sys2Proof.Machine.execVcSett d a s
  | .vcSetti d g f => Sys2Proof.Machine.execVcSetti d g f s
  | .vcVlmax d => Sys2Proof.Machine.execVcVlmax d s
  | .vlLd d a m o p => Sys2Proof.Machine.execVlLd d a m o p s
  | .vlLds d a b m o p => Sys2Proof.Machine.execVlLds d a b m o p s
  | .vlLdr d a o p => Sys2Proof.Machine.execVlLdr d a o p s
  | .vlLdff d a m o p => Sys2Proof.Machine.execVlLdff d a m o p s
  | .vlLdsp d a m => Sys2Proof.Machine.execVlLdsp d a m s
  | .vlLdf d a m c => Sys2Proof.Machine.execVlLdf d a m c s
  | .vsSt sc a m o p => Sys2Proof.Machine.execVsSt sc a m o p s
  | .vsSts sc a b m o p => Sys2Proof.Machine.execVsSts sc a b m o p s
  | .vsStr sc a o p => Sys2Proof.Machine.execVsStr sc a o p s
  | .vgGath d a v m o p => Sys2Proof.Machine.execVgGath d a v m o p s
  | .vgGathb d a v m o p => Sys2Proof.Machine.execVgGathb d a v m o p s
  | .vgScat sc a v m o p => Sys2Proof.Machine.execVgScat sc a v m o p s
  | .vgScatb sc a v m o p => Sys2Proof.Machine.execVgScatb sc a v m o p s
  | .vaAdd d a b m x => Sys2Proof.Machine.execVaAdd d a b m x s
  | .vaSub d a b m x => Sys2Proof.Machine.execVaSub d a b m x s
  | .vaMul d a b m x => Sys2Proof.Machine.execVaMul d a b m x s
  | .vaMulh d a b m x => Sys2Proof.Machine.execVaMulh d a b m x s
  | .vaMulhu d a b m x => Sys2Proof.Machine.execVaMulhu d a b m x s
  | .vaAnd d a b m x => Sys2Proof.Machine.execVaAnd d a b m x s
  | .vaOr d a b m x => Sys2Proof.Machine.execVaOr d a b m x s
  | .vaXor d a b m x => Sys2Proof.Machine.execVaXor d a b m x s
  | .vaSll d a b m x => Sys2Proof.Machine.execVaSll d a b m x s
  | .vaSrl d a b m x => Sys2Proof.Machine.execVaSrl d a b m x s
  | .vaSra d a b m x => Sys2Proof.Machine.execVaSra d a b m x s
  | .vaMin d a b m x => Sys2Proof.Machine.execVaMin d a b m x s
  | .vaMax d a b m x => Sys2Proof.Machine.execVaMax d a b m x s
  | .vaMinu d a b m x => Sys2Proof.Machine.execVaMinu d a b m x s
  | .vaMaxu d a b m x => Sys2Proof.Machine.execVaMaxu d a b m x s
  | .vaAdds d a b m x => Sys2Proof.Machine.execVaAdds d a b m x s
  | .vaAddsu d a b m x => Sys2Proof.Machine.execVaAddsu d a b m x s
  | .vaSubs d a b m x => Sys2Proof.Machine.execVaSubs d a b m x s
  | .vaSubsu d a b m x => Sys2Proof.Machine.execVaSubsu d a b m x s
  | .vaMacc d a b m x => Sys2Proof.Machine.execVaMacc d a b m x s
  | .vaWmacc d a b m x => Sys2Proof.Machine.execVaWmacc d a b m x s
  | .vaWmaccu d a b m x => Sys2Proof.Machine.execVaWmaccu d a b m x s
  | .vaCeq d a b m x => Sys2Proof.Machine.execVaCeq d a b m x s
  | .vaCne d a b m x => Sys2Proof.Machine.execVaCne d a b m x s
  | .vaClt d a b m x => Sys2Proof.Machine.execVaClt d a b m x s
  | .vaCle d a b m x => Sys2Proof.Machine.execVaCle d a b m x s
  | .vaCltu d a b m x => Sys2Proof.Machine.execVaCltu d a b m x s
  | .vaCleu d a b m x => Sys2Proof.Machine.execVaCleu d a b m x s
  | .vfAdd d a b m x => Sys2Proof.Machine.execVfAdd d a b m x s
  | .vfSub d a b m x => Sys2Proof.Machine.execVfSub d a b m x s
  | .vfMul d a b m x => Sys2Proof.Machine.execVfMul d a b m x s
  | .vfDiv d a b m x => Sys2Proof.Machine.execVfDiv d a b m x s
  | .vfSqrt d a m => Sys2Proof.Machine.execVfSqrt d a m s
  | .vfFma d a b m x => Sys2Proof.Machine.execVfFma d a b m x s
  | .vfFms d a b m x => Sys2Proof.Machine.execVfFms d a b m x s
  | .vfFnma d a b m x => Sys2Proof.Machine.execVfFnma d a b m x s
  | .vfMin d a b m x => Sys2Proof.Machine.execVfMin d a b m x s
  | .vfMax d a b m x => Sys2Proof.Machine.execVfMax d a b m x s
  | .vfSgnj d a b m x => Sys2Proof.Machine.execVfSgnj d a b m x s
  | .vfSgnjn d a b m x => Sys2Proof.Machine.execVfSgnjn d a b m x s
  | .vfSgnjx d a b m x => Sys2Proof.Machine.execVfSgnjx d a b m x s
  | .vfWmacc d a b m x => Sys2Proof.Machine.execVfWmacc d a b m x s
  | .vfCeq d a b m x => Sys2Proof.Machine.execVfCeq d a b m x s
  | .vfClt d a b m x => Sys2Proof.Machine.execVfClt d a b m x s
  | .vfCle d a b m x => Sys2Proof.Machine.execVfCle d a b m x s
  | .vfCun d a b m x => Sys2Proof.Machine.execVfCun d a b m x s
  | .vxMov d a m => Sys2Proof.Machine.execVxMov d a m s
  | .vxBcst d a m => Sys2Proof.Machine.execVxBcst d a m s
  | .vxXtr d a b => Sys2Proof.Machine.execVxXtr d a b s
  | .vxIns d a b => Sys2Proof.Machine.execVxIns d a b s
  | .vxIdx d m => Sys2Proof.Machine.execVxIdx d m s
  | .vxPerm d a b m => Sys2Proof.Machine.execVxPerm d a b m s
  | .vxSlup d a b m => Sys2Proof.Machine.execVxSlup d a b m s
  | .vxSldn d a b m => Sys2Proof.Machine.execVxSldn d a b m s
  | .vxSl1up d a b m => Sys2Proof.Machine.execVxSl1up d a b m s
  | .vxCompress d a m => Sys2Proof.Machine.execVxCompress d a m s
  | .vxExpand d a m => Sys2Proof.Machine.execVxExpand d a m s
  | .vxShlw d a b => Sys2Proof.Machine.execVxShlw d a b s
  | .vxShrw d a b => Sys2Proof.Machine.execVxShrw d a b s
  | .vxFshw d a b => Sys2Proof.Machine.execVxFshw d a b s
  | .vrSum d a m sc => Sys2Proof.Machine.execVrSum d a m sc s
  | .vrMax d a m sc => Sys2Proof.Machine.execVrMax d a m sc s
  | .vrMin d a m sc => Sys2Proof.Machine.execVrMin d a m sc s
  | .vrMaxu d a m sc => Sys2Proof.Machine.execVrMaxu d a m sc s
  | .vrMinu d a m sc => Sys2Proof.Machine.execVrMinu d a m sc s
  | .vrAnd d a m sc => Sys2Proof.Machine.execVrAnd d a m sc s
  | .vrOr d a m sc => Sys2Proof.Machine.execVrOr d a m sc s
  | .vrXor d a m sc => Sys2Proof.Machine.execVrXor d a m sc s
  | .vrDot d a b m sc => Sys2Proof.Machine.execVrDot d a b m sc s
  | .vrDotu d a b m sc => Sys2Proof.Machine.execVrDotu d a b m sc s
  | .vrMaxabs d a m sc => Sys2Proof.Machine.execVrMaxabs d a m sc s
  | .vrLasta d a m => Sys2Proof.Machine.execVrLasta d a m s
  | .vrScan d a m sc => Sys2Proof.Machine.execVrScan d a m sc s
  | .vrScanmax d a m sc => Sys2Proof.Machine.execVrScanmax d a m sc s
  | .vrDotb d a b m sc k => Sys2Proof.Machine.execVrDotb d a b m sc k s
  | .vpAnd d a b m => Sys2Proof.Machine.execVpAnd d a b m s
  | .vpOr d a b m => Sys2Proof.Machine.execVpOr d a b m s
  | .vpXor d a b m => Sys2Proof.Machine.execVpXor d a b m s
  | .vpAndn d a b m => Sys2Proof.Machine.execVpAndn d a b m s
  | .vpSet d m => Sys2Proof.Machine.execVpSet d m s
  | .vpClr d m => Sys2Proof.Machine.execVpClr d m s
  | .vpCnt d a m => Sys2Proof.Machine.execVpCnt d a m s
  | .vpFfs d a m => Sys2Proof.Machine.execVpFfs d a m s
  | .vpMrd d a b => Sys2Proof.Machine.execVpMrd d a b s
  | .vpMwr d a b => Sys2Proof.Machine.execVpMwr d a b s
  | .vpZmap d a => Sys2Proof.Machine.execVpZmap d a s
  | .vpUpto d a m imm => Sys2Proof.Machine.execVpUpto d a m imm s
  | .vpConf d a b m => Sys2Proof.Machine.execVpConf d a b m s
  | .vpPart d a b m t => Sys2Proof.Machine.execVpPart d a b m t s
  | .vvCvt d a f m r => Sys2Proof.Machine.execVvCvt d a f m r s
  | .vvF32f4 d a f m r => Sys2Proof.Machine.execVvF32f4 d a f m r s
  | .vvTobfp d a f m r => Sys2Proof.Machine.execVvTobfp d a f m r s
  | .vvFrombfp d a f m => Sys2Proof.Machine.execVvFrombfp d a f m s
  | .vvFtoi d a f m r => Sys2Proof.Machine.execVvFtoi d a f m r s
  | .vvFtou d a f m r => Sys2Proof.Machine.execVvFtou d a f m r s
  | .vvItof d a f m r => Sys2Proof.Machine.execVvItof d a f m r s
  | .vvUtof d a f m r => Sys2Proof.Machine.execVvUtof d a f m r s
  | .vvSext d a f m => Sys2Proof.Machine.execVvSext d a f m s
  | .vvZext d a f m => Sys2Proof.Machine.execVvZext d a f m s
  | .vvNrw d a f m => Sys2Proof.Machine.execVvNrw d a f m s
  | .vvNrws d a f m => Sys2Proof.Machine.execVvNrws d a f m s
  | .vvNrwu d a f m => Sys2Proof.Machine.execVvNrwu d a f m s
  | .mxOpa t a b m f => Sys2Proof.Machine.execMxOpa t a b m f s
  | .mxSlide t a b m f => Sys2Proof.Machine.execMxSlide t a b m f s
  | .mtZero t m f64 => Sys2Proof.Machine.execMtZero t m f64 s
  | .mtLd t a b m f64 => Sys2Proof.Machine.execMtLd t a b m f64 s
  | .mtSt t a b m f64 z => Sys2Proof.Machine.execMtSt t a b m f64 z s
  | .mtRdrow t d b f64 => Sys2Proof.Machine.execMtRdrow t d b f64 s
  | .mtWrrow t a b f64 => Sys2Proof.Machine.execMtWrrow t a b f64 s
  | .vdDotv d a b sc p x => Sys2Proof.Machine.execVdDotv d a b sc p x s
  | .vdTail d sc => Sys2Proof.Machine.execVdTail d sc s
  | .vdTest d a b m => Sys2Proof.Machine.execVdTest d a b m s
  | .vdTkset a => Sys2Proof.Machine.execVdTkset a s
  | .vdTkupd a b m => Sys2Proof.Machine.execVdTkupd a b m s
  | .ceFork d a b e => Sys2Proof.Machine.execCeFork d a b e s
  | .ceRend d a => Sys2Proof.Machine.execCeRend d a s
  | .ceTest d a => Sys2Proof.Machine.execCeTest d a s
  | .ceOpen n e k => Sys2Proof.Machine.execCeOpen n e k s
  | .ceClose n e k => Sys2Proof.Machine.execCeClose n e k s
  | .ceErd d a sc => Sys2Proof.Machine.execCeErd d a sc s
  | .ceFencex a b c => Sys2Proof.Machine.execCeFencex a b c s
  | .ceColl d a o => Sys2Proof.Machine.execCeColl d a o s
  | .awWin a b w p => Sys2Proof.Machine.execAwWin a b w p s
  | .awUpd sc b m w => Sys2Proof.Machine.execAwUpd sc b m w s
  | .awMerge w => Sys2Proof.Machine.execAwMerge w s
  | .awClr w => Sys2Proof.Machine.execAwClr w s
  | .rpRep c sc stag => Sys2Proof.Machine.execRpRep c sc stag s
  | .tlLd d a sc m o p => Sys2Proof.Machine.execTlLd d a sc m o p s
  | .tlSt v a sc m o p => Sys2Proof.Machine.execTlSt v a sc m o p s
  | .emCopy d a b dl sl => Sys2Proof.Machine.execEmCopy d a b dl sl s
  | .emCopy2 d a b c dl sl => Sys2Proof.Machine.execEmCopy2 d a b c dl sl s
  | .emFill d a b dl => Sys2Proof.Machine.execEmFill d a b dl s
  | .emLd d a sl => Sys2Proof.Machine.execEmLd d a sl s
  | .emSt a b dl => Sys2Proof.Machine.execEmSt a b dl s
  | .eaAdd d a b => Sys2Proof.Machine.execEaAdd d a b s
  | .eaSub d a b => Sys2Proof.Machine.execEaSub d a b s
  | .eaAnd d a b => Sys2Proof.Machine.execEaAnd d a b s
  | .eaOr d a b => Sys2Proof.Machine.execEaOr d a b s
  | .eaXor d a b => Sys2Proof.Machine.execEaXor d a b s
  | .eaSll d a b => Sys2Proof.Machine.execEaSll d a b s
  | .eaSrl d a b => Sys2Proof.Machine.execEaSrl d a b s
  | .eaSra d a b => Sys2Proof.Machine.execEaSra d a b s
  | .eaMul d a b => Sys2Proof.Machine.execEaMul d a b s
  | .eaMinu d a b => Sys2Proof.Machine.execEaMinu d a b s
  | .eaMaxu d a b => Sys2Proof.Machine.execEaMaxu d a b s
  | .eaSltu d a b => Sys2Proof.Machine.execEaSltu d a b s
  | .esAddi d a imm => Sys2Proof.Machine.execEsAddi d a imm s
  | .esOri d a imm => Sys2Proof.Machine.execEsOri d a imm s
  | .esSlli d a imm => Sys2Proof.Machine.execEsSlli d a imm s
  | .esDrain => Sys2Proof.Machine.execEsDrain s
  | .esEnd => Sys2Proof.Machine.execEsEnd s
  | .esErr imm => Sys2Proof.Machine.execEsErr imm s
  | .ebEq a b o => Sys2Proof.Machine.execEbEq a b o s
  | .ebNe a b o => Sys2Proof.Machine.execEbNe a b o s
  | .ebLt a b o => Sys2Proof.Machine.execEbLt a b o s
  | .ebGe a b o => Sys2Proof.Machine.execEbGe a b o s
  | .ebLtu a b o => Sys2Proof.Machine.execEbLtu a b o s
  | .ebGeu a b o => Sys2Proof.Machine.execEbGeu a b o s
  | .ebAl o => Sys2Proof.Machine.execEbAl o s
  | .gwLb d a l inc => Sys2Proof.Machine.execGwLb d a l inc s
  | .gwLh d a l inc => Sys2Proof.Machine.execGwLh d a l inc s
  | .gwLw d a l inc => Sys2Proof.Machine.execGwLw d a l inc s
  | .gwLd d a l inc => Sys2Proof.Machine.execGwLd d a l inc s
  | .gwSb a b l inc => Sys2Proof.Machine.execGwSb a b l inc s
  | .gwSh a b l inc => Sys2Proof.Machine.execGwSh a b l inc s
  | .gwSw a b l inc => Sys2Proof.Machine.execGwSw a b l inc s
  | .gwSd a b l inc => Sys2Proof.Machine.execGwSd a b l inc s
  | .gwSq a b l inc => Sys2Proof.Machine.execGwSq a b l inc s
  | .gwSprb d a b c l inc => Sys2Proof.Machine.execGwSprb d a b c l inc s
  | .gwSprh d a b c l inc => Sys2Proof.Machine.execGwSprh d a b c l inc s
  | .gwSprw d a b c l inc => Sys2Proof.Machine.execGwSprw d a b c l inc s
  | .gwSprd d a b c l inc => Sys2Proof.Machine.execGwSprd d a b c l inc s
  | .gaAdd d a b => Sys2Proof.Machine.execGaAdd d a b s
  | .gaSub d a b => Sys2Proof.Machine.execGaSub d a b s
  | .gaAnd d a b => Sys2Proof.Machine.execGaAnd d a b s
  | .gaOr d a b => Sys2Proof.Machine.execGaOr d a b s
  | .gaXor d a b => Sys2Proof.Machine.execGaXor d a b s
  | .gaSll d a b => Sys2Proof.Machine.execGaSll d a b s
  | .gaSrl d a b => Sys2Proof.Machine.execGaSrl d a b s
  | .gaMul d a b => Sys2Proof.Machine.execGaMul d a b s
  | .gaMinu d a b => Sys2Proof.Machine.execGaMinu d a b s
  | .gaMaxu d a b => Sys2Proof.Machine.execGaMaxu d a b s
  | .gaSltu d a b => Sys2Proof.Machine.execGaSltu d a b s
  | .gaCtz d a => Sys2Proof.Machine.execGaCtz d a s
  | .gaPopc d a => Sys2Proof.Machine.execGaPopc d a s
  | .gaBclr d a => Sys2Proof.Machine.execGaBclr d a s
  | .geAddi d a imm => Sys2Proof.Machine.execGeAddi d a imm s
  | .geOri d a imm => Sys2Proof.Machine.execGeOri d a imm s
  | .geSlli d a imm => Sys2Proof.Machine.execGeSlli d a imm s
  | .geDrain => Sys2Proof.Machine.execGeDrain s
  | .geEnd => Sys2Proof.Machine.execGeEnd s
  | .geErr imm => Sys2Proof.Machine.execGeErr imm s
  | .geSrli d a imm => Sys2Proof.Machine.execGeSrli d a imm s
  | .gbEq a b o => Sys2Proof.Machine.execGbEq a b o s
  | .gbNe a b o => Sys2Proof.Machine.execGbNe a b o s
  | .gbLt a b o => Sys2Proof.Machine.execGbLt a b o s
  | .gbGe a b o => Sys2Proof.Machine.execGbGe a b o s
  | .gbLtu a b o => Sys2Proof.Machine.execGbLtu a b o s
  | .gbGeu a b o => Sys2Proof.Machine.execGbGeu a b o s
  | .gbAl o => Sys2Proof.Machine.execGbAl o s
  | .migrate => Sys2Proof.Machine.execMigrate s
  | .retire => Sys2Proof.Machine.execRetire s
  | .switched => Sys2Proof.Machine.execSwitched s
  | .release => Sys2Proof.Machine.execRelease s
  | .migrationCopyComplete => Sys2Proof.Machine.execMigrationCopyComplete s
  | .feop v => Sys2Proof.Machine.execFeop v s
  | .bind => Sys2Proof.Machine.execBind s
  | .unbind => Sys2Proof.Machine.execUnbind s
  | .bindLoadComplete => Sys2Proof.Machine.execBindLoadComplete s
  | .yield v => Sys2Proof.Machine.execYield v s
  | .intr v => Sys2Proof.Machine.execIntr v s
  | .pageServiceRelease ctxid => Sys2Proof.Machine.execPageServiceRelease ctxid s
  | .tinvTenant ten scope => Sys2Proof.Machine.execTinvTenant ten scope s
  | .tinvAsid ten asid scope => Sys2Proof.Machine.execTinvAsid ten asid scope s
  | .tinvVa ten asid scope => Sys2Proof.Machine.execTinvVa ten asid scope s
  | .tinvAll scope => Sys2Proof.Machine.execTinvAll scope s
  | .tinvAcknowledged => Sys2Proof.Machine.execTinvAcknowledged s
  | .icinvAcknowledged => Sys2Proof.Machine.execIcinvAcknowledged s
  | .tenWrite v => Sys2Proof.Machine.execTenWrite v s
  | .asidWrite v => Sys2Proof.Machine.execAsidWrite v s
  | .ptbWrite v => Sys2Proof.Machine.execPtbWrite v s
  | .vtypeWrite v => Sys2Proof.Machine.execVtypeWrite v s
  | .vlWrite v => Sys2Proof.Machine.execVlWrite v s
  | .vremWrite v => Sys2Proof.Machine.execVremWrite v s
  | .tkWrite v => Sys2Proof.Machine.execTkWrite v s
  | .chbWrite v => Sys2Proof.Machine.execChbWrite v s
  | .fstWrite v => Sys2Proof.Machine.execFstWrite v s
  | .statWrite v => Sys2Proof.Machine.execStatWrite v s
  | .csnRead d => Sys2Proof.Machine.execCsnRead d s
  | .registerWrite loc v => Sys2Proof.Machine.execRegisterWrite loc v s
  | .interrupt => Sys2Proof.Machine.execInterrupt s
  | .preempt => Sys2Proof.Machine.execPreempt s
  | .machineCheck => Sys2Proof.Machine.execMachineCheck s
  | .breakpoint => Sys2Proof.Machine.execBreakpoint s
  | .chunkCommit reason => Sys2Proof.Machine.execChunkCommit reason s
  | .chunkBudgetExhausted => Sys2Proof.Machine.execChunkBudgetExhausted s
  | .writeSetLimit => Sys2Proof.Machine.execWriteSetLimit s
  | .reservationGrant => Sys2Proof.Machine.execReservationGrant s
  | .fullEmptyRelease => Sys2Proof.Machine.execFullEmptyRelease s
  | .barrierRelease => Sys2Proof.Machine.execBarrierRelease s
  | .rendRelease => Sys2Proof.Machine.execRendRelease s
  | .engineDrainComplete e => Sys2Proof.Machine.execEngineDrainComplete e s
  | .rqResult => Sys2Proof.Machine.execRqResult s
  | .quantumBoundary => Sys2Proof.Machine.execQuantumBoundary s
  | .powerWindowEnd pwr => Sys2Proof.Machine.execPowerWindowEnd pwr s
  | .thermalThrottle temp => Sys2Proof.Machine.execThermalThrottle temp s
  | .thermalTrip temp => Sys2Proof.Machine.execThermalTrip temp s
  | .coldReset => Sys2Proof.Machine.execColdReset s
  | .warmReset => Sys2Proof.Machine.execWarmReset s
  | .fabricCommandedReset => Sys2Proof.Machine.execFabricCommandedReset s
  | .powerLoss => Sys2Proof.Machine.execPowerLoss s
  | .mcBootComplete => Sys2Proof.Machine.execMcBootComplete s
  | .hbmTrainingComplete stack ok => Sys2Proof.Machine.execHbmTrainingComplete stack ok s
  | .quadStart die => Sys2Proof.Machine.execQuadStart die s
  | .dbgfrz => Sys2Proof.Machine.execDbgfrz s
  | .freezeComplete => Sys2Proof.Machine.execFreezeComplete s
  | .sealingComplete => Sys2Proof.Machine.execSealingComplete s
  | .read m => Sys2Proof.Machine.execRead m s
  | .write m => Sys2Proof.Machine.execWrite m s
  | .atomic m => Sys2Proof.Machine.execAtomic m s
  | .readData m => Sys2Proof.Machine.execReadData m s
  | .writeAck m => Sys2Proof.Machine.execWriteAck m s
  | .atomicAck m => Sys2Proof.Machine.execAtomicAck m s
  | .launch m => Sys2Proof.Machine.execLaunch m s
  | .coll m => Sys2Proof.Machine.execColl m s
  | .collectiveComplete => Sys2Proof.Machine.execCollectiveComplete s
  | .load m => Sys2Proof.Machine.execLoad m s
  | .unload m => Sys2Proof.Machine.execUnload m s
  | .klist m => Sys2Proof.Machine.execKlist m s
  | .queueSet m => Sys2Proof.Machine.execQueueSet m s
  | .agingSet m => Sys2Proof.Machine.execAgingSet m s
  | .capsuleList m => Sys2Proof.Machine.execCapsuleList m s
  | .capsuleGet m => Sys2Proof.Machine.execCapsuleGet m s
  | .capsuleAck m => Sys2Proof.Machine.execCapsuleAck m s
  | .idkey m => Sys2Proof.Machine.execIdkey m s
  | .debugFreeze m => Sys2Proof.Machine.execDebugFreeze m s
  | .groupSet m => Sys2Proof.Machine.execGroupSet m s
  | .memberFail m => Sys2Proof.Machine.execMemberFail m s
  | .redirectClear m => Sys2Proof.Machine.execRedirectClear m s
  | .notAnInstruction w => Sys2Proof.Machine.execNotAnInstruction w s
  | .fetchPage => Sys2Proof.Machine.execFetchPage s
  | .illegalWord e => Sys2Proof.Machine.execIllegalWord e s
  | .fetchError e => Sys2Proof.Machine.execFetchError e s
  | .unknownMessageType ty m => Sys2Proof.Machine.execUnknownMessageType ty m s

end Sys2Proof.Machine
end

