-- ==== Sys2Proof/Machine/Front.lean ====
section
/-! DEFINITION. The front end around one instruction: when a core may run, the events of a boundary, the fetch, what an end of
an instruction leaves (02 R26, 14 R279, R288, 15 R318, 17 R339, R353), and one word of an engine (05 R101). -/
namespace Sys2Proof.Machine

/-- The package runs this core: its die is on, its clock is not stopped by a debug freeze, and a context is bound
(16 R331, 27 R423, 26 R421). -/
def State.canRun (s : State) : Bool :=
  s.core.isBound && s.power.dieOn.getLsbD (dieOf s.cur) && !s.power.frozen

/-- The chunk must have a reservation and has none (14 R288). -/
def Core.needsGrant (c : Core) : Bool := decide (3 ≤ c.squashes) && c.chunk.isNone && !c.reserved

/-- What a core does at a boundary: an event is taken, or it goes on with its instruction. -/
inductive Bound where
  | taken (s : State)
  | going (s : State)
  deriving DecidableEq, Repr

/-- The event of a boundary taken, if there is one (17 R339). -/
def takeLater (s : State) : Bound :=
  match s.core.laterEvent with
  | some .interrupt => .taken (takeInterrupt s)
  | some _ => .taken (takeBreak s)
  | none => .going s

/-- The boundary before the next instruction (17 R339). A PREEMPT whose UNBIND has reached the core since the last boundary may have
reached it inside the next instruction instead, if the oracle says so (16 R333; log 61). DESIGN CHOICE -/
def atBoundary (s : State) : Bound :=
  match s.core.event with
  | none => .going s
  | some .machineCheck => .taken (takeCheck s)
  | some .preempt =>
    if s.core.inside then .taken (takePreempt s) else
    let (k, s1) := s.choice
    if k = 0 then .taken (takePreempt s1) else takeLater (s1.mapCore fun c => { c with inside := true })
  | some _ => takeLater s

/-- A fetch that gives no word: the handler entry has failed, or the trap is taken (17 R341, R356, 02 R26). A poisoned word, or a poisoned
entry of its walk, at the handler's first fetch makes the entry fail (log 18). DEDUCED -/
def fetchFails (c : Cause) (tval : Word) (s : State) : Out :=
  if s.core.entering then .next (handlerFailed s)
  else if c == .fetchPage then execFetchPage s
  else .next (takeTrap c false tval none s)

/-- The fetch at the program counter: the word, with the chunk begun; or what happens in its place. An instruction in progress goes on with
the word that it was fetched as (14 R282; log 96). DEDUCED -/
def fetchInstr (s : State) : Except Out (BitVec 32 × State) :=
  match s.core.inProgress with
  | some w => .ok (w, s.mapChunk id)
  | none =>
  match fetchText 3 s.core.xl s.core.regs.pc s with
  | .ok (.ok (w, p)) s1 => .ok (w, (s1.mapChunk (useTlb [p])).mapCore fun c => { c with entering := false, held := some (c.hold w) })
  | .ok (.error c) s1 => .error (fetchFails c s1.core.regs.pc s1)
  | .error (.wait w) s1 => .error (.next (s1.waiting w))
  | .error (.trap c v) s1 => .error (fetchFails c v s1)
  | .error .cut s1 => .error (.next s1)

/-- The instruction of a fetched word, outside a frame (02 R26 steps 2 to 5). -/
noncomputable def coreInstr (w : BitVec 32) : Option Instr :=
  if engineMajor w then none
  else match decode w with
    | .ok i => some i
    | .error _ => none

/-- What a retired instruction adds: INSTRET, SKIP cleared after a user instruction, the frame's advance, one instruction of
its chunk (14 R279, 15 R318, 17 R344, R353). -/
def retired (before : Regs) (s : State) : State :=
  let s1 := s.mapCore fun c =>
    { c with
      instret := c.instret + 1
      chunk := c.chunk.map fun ch => { ch with count := ch.count + 1 } }
  s1.mapRegs fun r =>
    let r1 := if before.user then { r with stat := setField r.stat 5 1 0 } else r
    if before.inFrame then r1.advanceFrame before.pc else r1

/-- BUDGET of CHB (14 R280). -/
def Regs.budget (r : Regs) : Nat := (r.chb.extractLsb' 0 17).toNat

/-- The chunk that ends after the instruction: as the instruction has said, or because its budget is spent (14 R279). A commit
that a reserved chunk holds up is owed at the next step. -/
def closeChunk (s : State) : State :=
  let reason := match s.core.endAfter with
    | some r => some r
    | none => match s.core.chunk with
      | some ch => if s.core.regs.budget ≤ ch.count then some 5 else none
      | none => none
  match reason with
  | none => s
  | some r => match endChunk r s with
    | some s1 => s1.mapCore fun c => { c with endAfter := none }
    | none => s.mapCore fun c => { c with endAfter := some r }

/-- The cycles that a step takes: one and as many more as the oracle gives (17 R344, 27 R426; log 10). -/
def passTime (s : State) : State :=
  let (k, s1) := s.choice
  s1.mapCore fun c => { c with cycle := c.cycle + 1 + BitVec.ofNat 64 k }

/-- A boundary that the core has reached with its slot UNBINDING: its PREEMPT waits no longer than the next one in user mode
(17 R339). -/
def markInside (s : State) : State :=
  if s.core.slot.state == .unbinding && s.core.boundary then s.mapCore fun c => { c with inside := true } else s

/-- An instruction that has ended is held no more. -/
def dropHeld (s : State) : State := if s.core.prog == .waiting then s else s.mapCore fun c => { c with held := none }

/-- What follows an instruction's own effect: its chunk may end, its transfer is recorded, a throttle level that has been chosen takes
effect at the boundary, and a slot that it has freed is filled (14 R279, 26 R412, 27 R426, 16 R335). -/
def afterExec (before : Regs) (o : Out) : Out :=
  match o with
  | .next t =>
    let t1 := if t.core.prog == .retired then recordXfer (closeChunk (retired before t)) else t
    .next (fillFreed (markInside (passTime (dropHeld t1))).settleClock)
  | .fault f => .fault f
  | .refused r => .refused r

/-- One instruction of the focused core, fetched and decoded. A frame word is held to 15 R316 whenever it is executed, so that one changed
after the RP.REP's check traps as one that a resume finds changed (15 R318, R320; log 108). DESIGN CHOICE. A frame instruction that traps
with its word gives the staggered word, which is what is executed (15 R318; log 95). DEDUCED -/
noncomputable def runWord (w : BitVec 32) (s : State) : Out :=
  if s.core.regs.inFrame then
    match frameWord s.core.regs w with
    | some i => afterExec s.core.regs (exec i s)
    | none => afterExec s.core.regs (.next (takeTrap .repeatFrame false s.core.regs.pc none s))
  else
    match coreInstr w with
    | some i => afterExec s.core.regs (exec i s)
    | none => afterExec s.core.regs (execNotAnInstruction w s)

/-- A core that asks for its reservation waits for it in the order of requests (14 R288). -/
def askGrant (s : State) : State :=
  { s with grants := if s.grants.elem s.cur then s.grants else s.grants ++ [s.cur] }.waiting .reservation

/-- One step of the focused core. -/
noncomputable def runCore (s : State) : Out :=
  if !s.canRun then .next s
  else if s.core.endAfter.isSome then .next (passTime (closeChunk s))
  else if s.core.entering && s.core.wait == some .engines then afterExec s.core.regs (.next (handlerFailed s))
  else
    match atBoundary (s.mapRegs (·.resumed)) with
    | .taken s1 => afterExec s.core.regs (.next s1)
    | .going s1 =>
      if s1.core.needsGrant then .next (passTime (askGrant s1))
      else
        match fetchInstr s1 with
        | .error o => afterExec s.core.regs o
        | .ok (w, s2) => runWord w s2

/-- The majors an engine executes (02 R30). -/
def engineTakes (e : BitVec 2) (w : BitVec 32) : Bool :=
  bits w 28 4 == (if e == 2 then 0xD#4 else 0xC#4)

/-- Engine `e` of the focused core may execute a word: after a PREEMPT, only one inside a row of EM.COPY2, or one that the end
of the context waits for (05 R93, R112, R113). -/
def State.engineRuns (s : State) (e : BitVec 2) : Bool :=
  s.core.isBound && s.power.dieOn.getLsbD (dieOf s.cur) && !s.power.frozen && e != 3 &&
  (s.engine e).run == .running && (!s.core.stopped || s.core.wait == some .engines || (s.engine e).part != 0)

/-- One word of engine `e` (05 R101, R104, R110; 06 R124). A fence that waits and names the engine in its clsB holds up the fetch, which
is an access of its path (14 R292 step 5). A program counter that is no multiple of 4, which only a save area gives, is a FETCH error (log
81). DESIGN CHOICE -/
noncomputable def runEngine (e : BitVec 2) (s : State) : Out :=
  if !s.engineRuns e then .next s
  else
    let g := s.engine e
    if g.pc.extractLsb' 0 2 != 0 then execFetchError e s
    else if s.fenced (pathOf e) s.cur s.core.slot.ctxid then .next s
    else
    match fetchText ⟨e.toNat, e.isLt⟩ g.xl g.pc s with
    | .ok (.ok (w, _)) s1 =>
      if !engineTakes e w then execIllegalWord e s1
      else match decode w with
        | .ok i => exec i { s1 with eng := e }
        | .error _ => execIllegalWord e s1
    | .ok (.error _) s1 => execFetchError e s1
    | .error (.trap ..) s1 => .next (engineFail e 0x0A g.pc s1)
    | .error _ _ => .next s

/-- Events that happen though every clock stands still (26 R421, 27 R422, R423). -/
def wakes : Instr → Bool
  | .coldReset | .warmReset | .fabricCommandedReset | .powerLoss => true
  | _ => false

/-- What the agenda names happens on its core (log 1). -/
noncomputable def act (a : Act) (s : State) : Out :=
  match a with
  | .run => runCore s
  | .engine e => runEngine e s
  | .event i => if (encode i).isNone && (wakes i || !s.stopped) then exec i s else .next s

end Sys2Proof.Machine
end

