-- ==== Sys2Proof/Machine/Step.lean ====
section
/-! DEFINITION. One step of the package, and the state in which the next step runs a given instruction. -/
namespace Sys2Proof.Machine

/-- One step: the first entry of the agenda, or one instruction of the focused core when the agenda is empty (log 1). -/
noncomputable def step (s : State) : Host.Outcome State Fault Refusal :=
  match s.agenda with
  | [] => runCore s
  | mv :: rest => act mv.act ({ s with agenda := rest }.focus (mv.core % 144))

/-- Table of level 2 that `withFetchWord` writes, in LPDDR. -/
def demoRoot : Nat := 0x1000000010000
/-- Table of level 1 that `withFetchWord` writes. -/
def demoTable : Nat := 0x1000000014000
/-- Table of level 0 that `withFetchWord` writes. -/
def demoLeaves : Nat := 0x1000000018000
/-- Page of 64 KiB that holds the word. -/
def demoPage : Nat := 0x1000000020000

/-- The tables and the word at the address `va`: a text page for the mode given (03 R48-R50). -/
def placeWord (user : Bool) (va : Word) (w : Nat) (s : State) : State :=
  let s1 := s.homeWrite (demoRoot + 8 * (va.extractLsb' 38 11).toNat) (leBytes 8 (demoTable + 1))
  let s2 := s1.homeWrite (demoTable + 8 * (va.extractLsb' 27 11).toNat) (leBytes 8 (demoLeaves + 1))
  let s3 := s2.homeWrite (demoLeaves + 8 * (va.extractLsb' 16 11).toNat) (leBytes 8 (demoPage + 0x123 + 64 * user.toNat))
  s3.homeWrite (demoPage + va.toNat % 0x10000) (leBytes 4 w)

/-- The engine that a word's major belongs to: 0 for copy-engine majors, 2 for forager majors (02 R25). -/
def wordEngine (w : BitVec 32) : Option (BitVec 2) :=
  if bits w 28 4 == 0xC#4 then some 0 else if bits w 28 4 == 0xD#4 then some 2 else none

/-- `s` with the instruction `w` stored where the next step fetches, and what that fetch needs: service FULL with the die
on, a bound slot, the table root, and no event, wait or frame before the instruction. A word of an engine is stored at the program
counter of that engine, RUNNING, and the agenda names the engine (log 4). -/
def State.withFetchWord (s : State) (_nbits w : Nat) : State :=
  let v := BitVec.ofNat 32 w
  let c := s.core
  let r := c.regs
  let s0 : State := { s with
    power := { s.power with svc := 4, dieOn := s.power.dieOn ||| (1#3 <<< dieOf s.cur), frozen := false }
    poison := []
    dieTlb := Vector.replicate 3 []
    core := { c with
      slot := { c.slot with state := .bound }
      chunk := none, squashes := 0, reserved := false, endAfter := none, wait := none, held := none, mcheck := false, intr := 0
      tlb := [], text := Vector.replicate 4 [], stopped := false, inside := false, entering := false, xfer := none, fence := none, tinv := none, icinv := none
      regs := { r with ptb := BitVec.ofNat 64 demoRoot, rps := 0, bpctx := 0 } } }
  match wordEngine v with
  | none => placeWord r.user r.pc w { s0 with agenda := [] }
  | some e =>
    let s1 := s0.mapEngine e fun g => { g with
      run := .running, pc := r.pc, ten := r.ten, asid := r.asid, ptb := BitVec.ofNat 64 demoRoot, sup := !r.user }
    placeWord r.user r.pc w { s1 with agenda := [⟨s.cur, .engine e⟩] }

end Sys2Proof.Machine
end

