-- ==== Sys2Proof/Safety.lean ====
section
/-! DEFINITION. The terms in which claims are stated: what every step keeps, how an instruction ends, and when an access of a core or
an engine goes through without a trap or a wait. -/
namespace Sys2Proof.Machine

/-! ### What every step keeps -/

/-- VL does not exceed VLMAX (07 R136). -/
def Regs.lenOk (r : Regs) : Bool := decide (r.vl.toNat ≤ r.vlmax)

/-- The bytes that a chunk has written stand by rising address, each on a line of its write set (14 R279, R283). -/
def Chunk.ordered (ch : Chunk) : Bool :=
  decide ((ch.wr.map (·.1)).Pairwise (· < ·)) && ch.wr.all fun c => ch.wlines.elem (c.1 / 64)

/-- The registers of a core, and those that a squash would restore, have a VL within VLMAX; its scratchpad is in canonical form, and
what its chunk has written is in order. -/
def Core.sound (c : Core) : Bool :=
  c.regs.lenOk && c.scratch.wf && c.chunk.all fun ch => ch.start.lenOk && ch.ordered

/-- What every step keeps: the focused core is one of the 144 (01 R15), HBM, LPDDR and the scratchpads are in canonical form, the other
cores stand once each by rising number, and no core has a VL above VLMAX (07 R136). -/
def State.Inv (s : State) : Prop :=
  s.cur < 144 ∧ s.mem.wf = true ∧ s.core.sound = true ∧ (s.others.map (·.1)).Pairwise (· < ·) ∧
  ∀ p ∈ s.others, p.1 ≠ s.cur ∧ p.2.sound = true

/-! ### How an instruction ends -/

/-- The outcome is a next state that has the property. -/
def Answers (o : Out) (P : State → Prop) : Prop := ∃ t, o = .next t ∧ P t

/-- The next state of a core instruction that has retired with the registers `r` and has changed nothing else. -/
def State.retiredWith (s : State) (r : Regs) : State :=
  { s with core := { s.core with regs := r, prog := .retired, wait := none } }

/-- The next state of a VQ instruction that has retired with the registers `r` and has changed nothing else, but that no later scalar
store overtakes the loads of older entries any more, and that no load stands inside (07 R142, R150; logs 60, 68). -/
def State.vecRetiredWith (s : State) (r : Regs) : State := s.dropLends.noHalt.retiredWith r

/-- The registers after a VQ instruction but for its results: the next word, the next sequence number, VSTART 0, and vector
state dirty, and mask and tile state where they are written (02 R27, 15 R303, 17 R348, 00 R10). -/
def Regs.vecEnd (r : Regs) (m t : Bool) : Regs :=
  { r with pc := r.pc + 4, seq := r.seq + 1, vstart := 0, stat := (r.dirty true m t).stat }

/-- The instruction has retired and the next word follows. -/
def State.next (s t : State) : Prop :=
  t.core.prog = .retired ∧ t.core.wait = none ∧ t.core.regs.pc = s.core.regs.pc + 4

/-- No other core holds a reservation, so no commit of this core waits (14 R288); the focused core is not listed among the others,
as in every state that `State.Inv` describes. -/
def State.unreserved (s : State) : Bool := s.others.all fun p => p.1 != s.cur && !p.2.reserved

/-! ### Vector state -/

/-- No register is open for an engine, and the check lane meets no mismatch (05 R99, 17 R355). -/
def State.calm (s : State) : Bool :=
  s.core.openV == 0 && s.core.openM == 0 && s.core.openT == 0 && s.core.lanes.isEmpty

/-- Vector state is on, and mask and tile state where they are named; VTYPE is not VILL (02 R26 steps 7 and 8). -/
def Regs.ready (r : Regs) (m t : Bool) : Bool := !r.off 10 && !(m && r.off 12) && !(t && r.off 14) && !r.vill

/-- No floating-point flag is enabled to trap (08 R174). -/
def Regs.untrapped (r : Regs) : Bool := r.fst.extractLsb' 11 5 == 0

/-! ### Accesses that go through -/

/-- The leaf that a walk finds for a kind of access which it permits (03 R51-R53). -/
def State.leafAt (s : State) (x : Xl) (k : Acc) (va : Word) : Option Tlb :=
  if !canonical va then none else
  match walk s x va with
  | .leaf base size pte => if (permit k x.user pte).isNone then some (tlbOf x va base size pte) else none
  | _ => none

/-- The physical address that a translation gives. -/
def Tlb.sends (t : Tlb) (va : Word) : Nat := t.base + (vaBits va - t.va)

/-- The physical address of an access, by a walk. -/
def State.paOf (s : State) (x : Xl) (k : Acc) (va : Word) : Nat := ((s.leafAt x k va).map (·.sends va)).getD 0

/-- No translation that the core or its die holds, nor one that an access of the list leaves, differs from the walk of another access
of the list (03 R57). -/
def State.agrees (s : State) (x : Xl) (as : List (Acc × Word)) : Bool :=
  let held := s.core.tlb ++ s.dieHeld ++ as.filterMap fun a => s.leafAt x a.1 a.2
  as.all fun a => match s.leafAt x a.1 a.2 with
    | none => false
    | some t => held.all fun h => !h.covers x.ten x.asid (vaBits a.2) || (h.sends a.2 == t.sends a.2 && h.pte == t.pte)

/-- An access of `n` bytes lies in one page, in idempotent memory of this package that is served and holds no
poisoned line (03 R52-R56, 17 R356, 27 R425). -/
def State.plainAt (s : State) (x : Xl) (k : Acc) (n : Nat) (va : Word) : Bool :=
  match s.leafAt x k va with
  | none => false
  | some t =>
    decide (vaBits va + n ≤ t.va + t.size) && placeOf (t.sends va) == .mem && t.pte.extractLsb' 54 2 != 1 && (t.sends va / 2 ^ 48 != 0 || s.hbmServed) &&
    (linesOf (t.sends va) n).all fun l => !s.poisoned (64 * l)

/-- No commutative update is pending in the chunk (13 R272). -/
def State.noUpdates (s : State) : Bool := s.core.chunkOr.com.isEmpty

/-- A core access that a load or store at each of the addresses makes without a trap or a wait. -/
def State.reaches (s : State) (k : Acc) (n : Nat) (vas : List Word) : Bool :=
  s.agrees s.core.xl (vas.map fun v => (k, v)) && vas.all (s.plainAt s.core.xl k n) && s.noUpdates

/-- The write set has room for `k` more lines (14 R279). -/
def State.room (s : State) (k : Nat) : Bool := decide (s.core.chunkOr.lines + k ≤ 4096)

/-- The byte at a physical address of memory as the core's chunk sees it (14 R283). -/
def State.sees (s : State) (pa : Nat) : Byte := (cellFind s.core.chunkOr.wr pa).getD (s.home pa)

/-- `n` bytes from a physical address as the core's chunk sees them, as a number. -/
def State.seesNat (s : State) (pa n : Nat) : Nat := leNat ((List.range n).map fun i => s.sees (pa + i))

/-- The instruction has changed, beside the registers `r`, only what a read of memory leaves: the translations held by the core and
its die, and the chunk's read set (03 R57, 14 R279); an access without an element leaves the chunk as it is, begun or not. -/
def State.readWith (s : State) (r : Regs) (t : State) : Prop :=
  ∃ tlb die co halt, t = { s with
      dieTlb := die, core := { s.core with regs := r, prog := .retired, wait := none, tlb := tlb, chunk := co, halt := halt } } ∧
    (halt = s.core.halt ∨ halt = none) ∧ (co = s.core.chunk ∨ ∃ ch, co = some ch ∧
      (ch.wr, ch.wlines, ch.com, ch.undo, ch.ulines, ch.count, ch.start, ch.late) =
        (s.core.chunkOr.wr, s.core.chunkOr.wlines, s.core.chunkOr.com, s.core.chunkOr.undo, s.core.chunkOr.ulines,
          s.core.chunkOr.count, s.core.chunkOr.start, s.core.chunkOr.late))

/-- The instruction has changed, beside the registers `r`, only what a write of memory inside the chunk leaves: the translations
held by the core and its die, and the chunk (03 R57, 14 R283); an access without an element leaves the chunk as it is, begun or
not. -/
def State.wroteWith (s : State) (r : Regs) (t : State) : Prop :=
  ∃ tlb die co halt, t = { s with
      dieTlb := die, core := { s.core with regs := r, prog := .retired, wait := none, tlb := tlb, chunk := co, halt := halt } } ∧
    (halt = s.core.halt ∨ halt = none) ∧ (co = s.core.chunk ∨ ∃ ch, co = some ch ∧ (ch.com, ch.undo, ch.ulines, ch.count, ch.start) =
      (s.core.chunkOr.com, s.core.chunkOr.undo, s.core.chunkOr.ulines, s.core.chunkOr.count, s.core.chunkOr.start))

end Sys2Proof.Machine
end

