-- ==== Sys2Proof/Certificates/Slice0/Obligations.lean ====
section
/-! DEFINITION. The statements for the provers. -/
open Sys2Proof Sys2Proof.Machine

/-! ### Encodings -/

/-- Decoding what the encoder gives for a well-formed instruction gives that instruction: every operand at every value (02 R24). -/
def Obligations.DecodeOfEncodeIsTheInstruction : Prop :=
  ∀ (i : Instr) (w : BitVec 32), i.wellFormed = true → encode i = some w → decode w = .ok i

/-- A word that decodes is the encoding of what it decodes to, so that no bit of it is ignored, and that is well-formed (02 R26). -/
def Obligations.EncodeOfDecodeIsTheWord : Prop :=
  ∀ (i : Instr) (w : BitVec 32), decode w = .ok i → encode i = some w ∧ i.wellFormed = true

/-- Words that the spec writes out decode to the instructions it names (09 R182, 15 R310, R311, R313, 11 R239). -/
def Obligations.WrittenWordsDecode : Prop :=
  decode 0x04A63800 = .ok (.saAdd 5 6 7) ∧ decode 0x18A03FFD = .ok (.brNe 5 0 0x1FFD) ∧
  decode 0x1C200040 = .ok (.jlJal 1 64) ∧ decode 0x20010000 = .ok (.jrJalr 0 1) ∧
  decode 0x68D4000A = .ok (.mtSt 3 10 0 0 false true)

/-! ### Steps -/

/-- The state in which the instruction that a step has fetched is executed: the translation of the fetch is held, by the core and its
die, and belongs to the chunk, which has begun; the handler, if one was being entered, has been; the core holds the instruction, and its
fetch unit a line or two more (03 R57, R61, 17 R341, R351; logs 96, 110). -/
def Claims.fetched (u : State) (tlb : List Tlb) (die : Vector (List Tlb) 3) (used : List Tlb) (h : Held) (text : Vector (List Line) 4)
    (ora : List Nat) : State :=
  { u with oracle := ora, dieTlb := die, core := { u.core with
    tlb := tlb, chunk := some { u.core.chunkOr with used := used }, entering := false, held := some h, text := text } }

/-- The core stands inside the instruction that it holds: chunks with a part of it have committed (14 R281, R282; log 96). -/
def Claims.inside (c : Core) (k : Held) : Prop := c.held = some k ∧ (k.part = true ∨ k.start ≠ c.regs.vstart)

/-- What the core holds of an instruction that it has fetched: the word, and the vector registers and VSTART of its start, which is now
unless the core stands inside it (07 R157, 14 R281; log 96). -/
def Claims.holds (c : Core) (w : BitVec 32) (h : Held) : Prop :=
  ((∀ k, ¬ Claims.inside c k) → h = ⟨w, c.regs.v, c.regs.vstart, false⟩) ∧ ∀ k, Claims.inside c k → h = { k with word := w }

/-- The word that fetch unit `e` finds at a physical address, and the choices that are left: the word at its home, or, where the unit holds
another from before, the one of the two that the oracle picks (02 R26, 17 R351; log 110). -/
def Claims.reads (u : State) (e : Fin 4) (pa : Nat) (w : BitVec 32) (ora : List Nat) : Prop :=
  let home := BitVec.ofNat 32 (u.homeNat pa 4)
  let held := ((u.core.text.get e).find? (·.num == pa / 64)).map fun l => l.words.getD (pa % 64 / 4) 0
  if held = none ∨ held = some home then w = home ∧ ora = u.oracle
  else ora = u.oracle.tail ∧ (u.oracle.headD 0 = 0 → w = home) ∧ (u.oracle.headD 0 ≠ 0 → held = some w)

/-- The core fetches: it stands where an event may be taken, or a squash has put it back inside its instruction (17 R339, 14 R287). -/
abbrev Claims.fetching (c : Core) : Prop := c.boundary = true ∨ c.wait = some .midway

/-- The word that the core goes on with: the one at the program counter, which it may fetch; or, of an instruction that waits where no
event is taken, the word that it was fetched as (02 R26, 14 R282; log 96). -/
def Claims.fetches (u : State) (w : BitVec 32) (ora : List Nat) : Prop :=
  if Claims.fetching u.core then u.agrees u.core.xl [(.fetch, u.pc)] = true ∧ u.plainAt u.core.xl .fetch 4 u.pc = true ∧
    Claims.reads u 3 (u.paOf u.core.xl .fetch u.pc) w ora
  else ora = u.oracle ∧ ∃ h, u.core.held = some h ∧ h.word = w

/-- The state `f` in which the instruction of that word is executed: one that waits finds the state as it is, its chunk begun. -/
def Claims.executes (u : State) (w : BitVec 32) (ora : List Nat) (f : State) : Prop :=
  if Claims.fetching u.core then ∃ tlb die used h text, Claims.holds u.core w h ∧
    (∀ e, e ≠ 3 → text.get e = u.core.text.get e) ∧ f = Claims.fetched u tlb die used h text ora
  else f = { u with core := { u.core with chunk := some u.core.chunkOr } }

/-- What a core waits for once its wait has ended: nothing, or its turn to go on inside its instruction (14 R281; log 96). -/
def Claims.onward (c : Core) : Option Wait :=
  c.held.bind fun k => if k.part = true ∨ k.start ≠ c.regs.vstart then some .midway else none

/-- A step of the focused core that takes no event at its boundary, and is in no frame, runs the instruction that the word at the
program counter decodes to, with what the step adds around it: the time, the chunk's count and its end. At its boundary the core
goes on when no event applies; under a PREEMPT it may go on too, which then reaches it inside the instruction. An instruction that waits
where no event is taken goes on as the word it was fetched as, wherever its text now lies. A word that the fetch unit holds from before
its text changed may be the one that runs (02 R26, 14 R279, R282, 17 R339, R351; log 61 for the PREEMPT, log 96 for the instruction that
waits, log 110 for the words that are held). -/
def Obligations.StepRunsTheDecodedInstruction : Prop :=
  ∀ (s u : State) (i : Instr) (w : BitVec 32) (ora : List Nat),
    (s.core.event = none → atBoundary s = .going s) ∧
    (s.agenda = [] → s.canRun = true → s.core.endAfter = none → s.core.entering = false ∨ s.core.wait ≠ some .engines →
      atBoundary s = .going u → u.core.needsGrant = false → s.core.regs.inFrame = false →
      Claims.fetches u w ora → engineMajor w = false → decode w = .ok i →
      ∃ f, Claims.executes u w ora f ∧ step s = afterExec s.core.regs (exec i f))

/-- A step that the agenda gives to an engine that no waiting fence holds up runs the word at that engine's program counter, or the one
that the engine's fetches hold from before, and one whose agenda names an event of a core makes that event happen there (05 R101, R103,
06 R122, 14 R292, 17 R351; log 1, log 110 for the words that are held). -/
def Obligations.StepRunsWhatTheAgendaNames : Prop :=
  ∀ (s f : State) (n : Nat) (e : BitVec 2) (i : Instr) (rest : List Move) (w : BitVec 32) (ora : List Nat),
    let k : Fin 4 := ⟨e.toNat, e.isLt⟩
    f = ({ s with agenda := rest } : State).focus (n % 144) →
    (s.agenda = ⟨n, .engine e⟩ :: rest → f.engineRuns e = true → (f.engine e).pc.extractLsb' 0 2 = 0 →
      f.fenced (pathOf e) f.cur f.core.slot.ctxid = false →
      f.agrees (f.engine e).xl [(.fetch, (f.engine e).pc)] = true → f.plainAt (f.engine e).xl .fetch 4 (f.engine e).pc = true →
      Claims.reads f k (f.paOf (f.engine e).xl .fetch (f.engine e).pc) w ora → engineTakes e w = true → decode w = .ok i →
      ∃ tlb die text, (∀ j, j ≠ k → text.get j = f.core.text.get j) ∧
        step s = exec i { f with eng := e, oracle := ora, dieTlb := die, core := { f.core with tlb := tlb, text := text } }) ∧
    (s.agenda = ⟨n, .event i⟩ :: rest → encode i = none → s.stopped = false → step s = exec i f)

/-- No step refuses, and a step faults only for a register write to an address outside every device block: no die of region 0x3 has
its doubleword within its 4 MiB (03 R44, R45, R430). -/
def Obligations.StepsGoOn : Prop :=
  ∀ s : State, (∀ r, step s ≠ .refused r) ∧
    ∀ f, step s = .fault f → ∃ n pa v rest, s.agenda = ⟨n, .event (.registerWrite (.dev pa) v)⟩ :: rest ∧ f = .unbacked pa.toNat ∧
      ∀ d, d < 3 → pa.toNat < 3 * 2 ^ 48 + d * 2 ^ 32 ∨ 3 * 2 ^ 48 + d * 2 ^ 32 + 0x400000 < pa.toNat + 8

/-- Every step keeps the invariant: a focused core among the 144, memory in canonical form, VL within VLMAX (01 R15, 07 R136). -/
def Obligations.EveryStepKeepsTheInvariant : Prop := ∀ s t : State, s.Inv → step s = .next t → t.Inv

/-! ### Resets and memory -/

/-- The package after a cold reset has the invariant and is as the spec states; nothing runs before a context is bound (27 R422, R423;
14 R280, R286; 16 R323, R328, R330; 17 R341, R343; 08 R168; 12 R254; 26 R417). INTR, for which the spec gives no reset value, is 0 by
the model's choice (log 2), and that a step then leaves everything as it is follows from log 1. -/
def Obligations.ResetIsAsStated : Prop :=
  State.reset.Inv ∧ State.reset.mem = [] ∧ State.reset.core.scratch = [] ∧ State.reset.core.fe = 0 ∧ State.reset.csn = 0 ∧
  State.reset.nextCtx = 1 ∧ State.reset.queues = [] ∧ State.reset.core.slot.state = .empty ∧ State.reset.power.svc = 1 ∧
  State.reset.core.regs.stat = 1 ∧ State.reset.core.regs.tk = 0xFF800000 ∧ State.reset.core.regs.chb = 4096 ∧
  State.reset.core.regs.fst = 0 ∧ State.reset.core.supvec = 0 ∧ State.reset.core.intr = 0 ∧ State.reset.recd.state = .armed ∧
  State.reset.recd.capid = 1 ∧ step State.reset = .next State.reset

/-- Every reset discards contexts, engine runs, queues and the contents of memory and scratchpads, and leaves every slot EMPTY; a warm
reset of a package that is not held keeps the CSN and each core's, the CTXID counter, the rings, the capsules, the failed-lane marks
and CYCLE, and a cold reset keeps nothing. The launch messages that wait are among what is lost (27 R422, R423, 14 R286, 17 R344; log
46 for those messages and for the package that is held). -/
def Obligations.ResetsKeepWhatTheyMust : Prop :=
  ∀ (s : State) (i : Instr), i ∈ [Instr.coldReset, .warmReset, .fabricCommandedReset] → s.Inv →
    (i = .coldReset ∨ (s.power.svc ≠ 0 ∧ s.power.svc ≠ 5)) →
    ∃ t, exec i s = .next t ∧ t.ctxs = [] ∧ t.jobs = [] ∧ t.runs = [] ∧ t.queues = [] ∧ t.inbox = [] ∧ t.mem = [] ∧
      (∀ n, (t.coreAt n).scratch = [] ∧ (t.coreAt n).slot.state = .empty ∧
        (∀ e : Fin 4, ((t.coreAt n).eng.get e).run = .idle)) ∧
      (i = .coldReset → t.csn = 0 ∧ t.nextCtx = 1 ∧ t.recd = Recorder.reset ∧ ∀ n, t.coreAt n = Core.reset) ∧
      (i ≠ .coldReset → t.csn = s.csn ∧ t.nextCtx = s.nextCtx ∧ t.recd = s.recd ∧
        ∀ n, (t.coreAt n).lane = (s.coreAt n).lane ∧ (t.coreAt n).lost = (s.coreAt n).lost ∧
          (t.coreAt n).cycle = (s.coreAt n).cycle ∧ (t.coreAt n).csn = (s.coreAt n).csn)

/-! ### Numbers -/

/-- The real number of an operand; 0 for a NaN or an infinity. -/
noncomputable def Claims.real : Fp → ℝ
  | .fin s m e _ => (if s then -1 else 1) * m * (2 : ℝ) ^ e
  | _ => 0

/-- The operand is a number, known exactly. -/
def Claims.exact : Fp → Bool
  | .fin _ _ _ more => !more
  | _ => false

/-- A pattern of the format is a number: no NaN and no infinity (08 R162). -/
def Claims.finite (c b : Nat) : Bool :=
  if c = 9 then b % 2 ^ 7 != 0x7F
  else c == 10 || b / 2 ^ fpFrac c % 2 ^ (fpWidth c - 1 - fpFrac c) != 2 ^ (fpWidth c - 1 - fpFrac c) - 1

/-- The number of a pattern of sign, biased exponent and fraction (08 R162). -/
noncomputable def Claims.value (c b : Nat) : ℝ :=
  let f : ℝ := (b % 2 ^ fpFrac c : Nat)
  let e : Nat := b / 2 ^ fpFrac c % 2 ^ (fpWidth c - 1 - fpFrac c)
  (if b.testBit (fpWidth c - 1) then -1 else 1) *
    if e = 0 then f * (2 : ℝ) ^ (1 - fpBias c - fpFrac c : ℤ) else (2 ^ fpFrac c + f) * (2 : ℝ) ^ (e - fpBias c - fpFrac c : ℤ)

/-- The bits and flags are those of the number rounded once to the format. A number within the range does not overflow; one that does
not is a multiple of the spacing at that number, less than one spacing from it and on the side that the mode asks for, under RNE with
an even last bit on a tie, and NX and UF tell what was lost (08 R168, R169). -/
def Claims.rounded (c mode : Nat) (x : ℝ) (r : Nat × Nat) : Prop :=
  let u : ℝ := 2 ^ max (Int.log 2 |x| - fpFrac c) (1 - fpBias c - fpFrac c : ℤ)
  let v := Claims.value c r.1
  (x = 0 → v = 0 ∧ r.2 = 0) ∧ (|x| ≤ Claims.value c (fpMax c) → r.2 / 4 % 2 = 0) ∧
  (x ≠ 0 → r.1.testBit (fpWidth c - 1) = decide (x < 0)) ∧
  (x ≠ 0 → r.2 / 4 % 2 = 0 → Claims.finite c r.1 = true ∧ |v - x| < u ∧ (r.2 % 2 = 1 ↔ v ≠ x) ∧
    (r.2 / 2 % 2 = 1 ↔ v ≠ x ∧ v ≠ 0 ∧ |v| < 2 ^ (1 - fpBias c : ℤ)) ∧
    (∃ n : ℕ, |v| = n * u ∧ (mode = 0 → 2 * |v - x| = u → n % 2 = 0)) ∧ (mode = 0 ∨ mode = 4 → 2 * |v - x| ≤ u) ∧
    (mode = 4 → 2 * |v - x| = u → |x| ≤ |v|) ∧ (mode = 1 → |v| ≤ |x|) ∧ (mode = 2 → v ≤ x) ∧ (mode = 3 → x ≤ v))

/-! ### Scalar arithmetic -/

/-- The register that a scalar integer instruction writes, and its value: the tables of 09 R182, R183 and R184, and 04 R89. -/
def Claims.integerResult (s : State) : Instr → Option (BitVec 5 × Word)
  | .saAdd d a b => some (d, s.x a + s.x b)
  | .saSub d a b => some (d, s.x a - s.x b)
  | .saAnd d a b => some (d, s.x a &&& s.x b)
  | .saOr d a b => some (d, s.x a ||| s.x b)
  | .saXor d a b => some (d, s.x a ^^^ s.x b)
  | .saAndn d a b => some (d, s.x a &&& ~~~s.x b)
  | .saSll d a b => some (d, s.x a <<< ((s.x b).toNat % 64))
  | .saSrl d a b => some (d, s.x a >>> ((s.x b).toNat % 64))
  | .saSra d a b => some (d, BitVec.ofInt 64 ((s.x a).toInt / 2 ^ ((s.x b).toNat % 64)))
  | .saRotr d a b => some (d, s.x a >>> ((s.x b).toNat % 64) ||| s.x a <<< (64 - (s.x b).toNat % 64))
  | .saSlt d a b => some (d, if (s.x a).toInt < (s.x b).toInt then 1 else 0)
  | .saSltu d a b => some (d, if (s.x a).toNat < (s.x b).toNat then 1 else 0)
  | .saMin d a b => some (d, BitVec.ofInt 64 (min (s.x a).toInt (s.x b).toInt))
  | .saMax d a b => some (d, BitVec.ofInt 64 (max (s.x a).toInt (s.x b).toInt))
  | .saMinu d a b => some (d, BitVec.ofNat 64 (min (s.x a).toNat (s.x b).toNat))
  | .saMaxu d a b => some (d, BitVec.ofNat 64 (max (s.x a).toNat (s.x b).toNat))
  | .saAddw d a b => some (d, ((s.x a + s.x b).setWidth 32).signExtend 64)
  | .saSubw d a b => some (d, ((s.x a - s.x b).setWidth 32).signExtend 64)
  | .saClz d a => some (d, BitVec.ofNat 64 (((List.range 64).find? fun k => (s.x a).getLsbD (63 - k)).getD 64))
  | .saCtz d a => some (d, BitVec.ofNat 64 (((List.range 64).find? fun k => (s.x a).getLsbD k).getD 64))
  | .saPopc d a => some (d, BitVec.ofNat 64 (((List.range 64).filter fun k => (s.x a).getLsbD k).length))
  | .saAdds d a b => some (d, BitVec.ofInt 64 (max (-2 ^ 63) (min (2 ^ 63 - 1) ((s.x a).toInt + (s.x b).toInt))))
  | .saSubs d a b => some (d, BitVec.ofInt 64 (max (-2 ^ 63) (min (2 ^ 63 - 1) ((s.x a).toInt - (s.x b).toInt))))
  | .siAddi d a i => some (d, s.x a + i.signExtend 64)
  | .siAndi d a i => some (d, s.x a &&& i.signExtend 64)
  | .siOri d a i => some (d, s.x a ||| i.signExtend 64)
  | .siXori d a i => some (d, s.x a ^^^ i.signExtend 64)
  | .siSlti d a i => some (d, if (s.x a).toInt < i.toInt then 1 else 0)
  | .siSltiu d a i => some (d, if (s.x a).toNat < (i.signExtend 64).toNat then 1 else 0)
  | .siSlli d a i => some (d, s.x a <<< i.toNat)
  | .siSrli d a i => some (d, s.x a >>> i.toNat)
  | .siSrai d a i => some (d, BitVec.ofInt 64 ((s.x a).toInt / 2 ^ i.toNat))
  | .siRotri d a i => some (d, s.x a >>> i.toNat ||| s.x a <<< (64 - i.toNat))
  | .siAddiw d a i => some (d, ((s.x a + i.signExtend 64).setWidth 32).signExtend 64)
  | .suAhi d i => some (d, (i ++ 0#12).signExtend 64)
  | .suApc d i => some (d, s.pc + (i ++ 0#12).signExtend 64)
  | .smMul d a b => some (d, BitVec.ofNat 64 ((s.x a).toNat * (s.x b).toNat))
  | .smMulh d a b sb sa => some (d, BitVec.ofInt 64
      ((if sa then (s.x a).toInt else (s.x a).toNat) * (if sb then (s.x b).toInt else (s.x b).toNat) / 2 ^ 64))
  | .smMadd d a b => some (d, s.x d + s.x a * s.x b)
  | .smDiv d a b sg => if s.x b = 0 then none else
      some (d, if sg then BitVec.ofInt 64 ((s.x a).toInt.tdiv (s.x b).toInt) else BitVec.ofNat 64 ((s.x a).toNat / (s.x b).toNat))
  | .smRem d a b sg => if s.x b = 0 then none else
      some (d, if sg then BitVec.ofInt 64 ((s.x a).toInt.tmod (s.x b).toInt) else BitVec.ofNat 64 ((s.x a).toNat % (s.x b).toNat))
  | .sqRd d b => some (d, s.core.regs.b.get ⟨b.toNat, b.isLt⟩)
  | _ => none

/-- A scalar integer instruction completes: it writes its result to x[d], nothing to x0, the next word follows, and nothing else
changes, no memory and no system register; a division or remainder by zero alone traps, with RANGE (09 R182-R185, 04 R89, 02 R38).
SQ.RD likewise writes the barrier register (14 R301). -/
def Obligations.ScalarIntegerResults : Prop :=
  (∀ (s : State) (i : Instr) (d : BitVec 5) (v : Word), Claims.integerResult s i = some (d, v) →
    exec i s = .next (s.retiredWith { s.core.regs with
      pc := s.core.regs.pc + 4, x := if d = 0 then s.core.regs.x else s.core.regs.x.set d.toNat v d.isLt })) ∧
  ∀ (s : State) (d a b : BitVec 5) (sg : Bool), s.x b = 0 → ∀ i ∈ [Instr.smDiv d a b sg, .smRem d a b sg],
    Claims.integerResult s i = none ∧ exec i s = .next (takeTrap .range false (s.x a) none s)

/-- What a scalar floating-point instruction reads, gives and raises, and its rm field: the table of 09 R187. -/
def Claims.scalarFp (s : State) : Instr → Option (BitVec 5 × BitVec 2 × List Nat × (Nat × Nat) × BitVec 3)
  | .sfAdd d a b f r => let x := sfReg s f a; let y := sfReg s f b; some (d, f, [x, y], fpAdd (sfFmt f) (sfMode s r) x y, 0)
  | .sfSub d a b f r => let x := sfReg s f a; let y := sfReg s f b; some (d, f, [x, y], fpSub (sfFmt f) (sfMode s r) x y, 0)
  | .sfMul d a b f r => let x := sfReg s f a; let y := sfReg s f b; some (d, f, [x, y], fpMulOp (sfFmt f) (sfMode s r) x y, 0)
  | .sfDiv d a b f r => let x := sfReg s f a; let y := sfReg s f b; some (d, f, [x, y], fpDivOp (sfFmt f) (sfMode s r) x y, 0)
  | .sfSqrt d a f r => let x := sfReg s f a; some (d, f, [x], fpSqrtOp (sfFmt f) (sfMode s r) x, 0)
  | .sfFma d a b f r =>
    let x := sfReg s f a; let y := sfReg s f b; let z := sfReg s f d
    some (d, f, [x, y, z], fpFused (sfFmt f) (sfFmt f) (sfMode s r) false false x y z, 0)
  | .sfMin d a b f => let x := sfReg s f a; let y := sfReg s f b; some (d, f, [x, y], fpMinMax (sfFmt f) false x y, 0)
  | .sfMax d a b f => let x := sfReg s f a; let y := sfReg s f b; some (d, f, [x, y], fpMinMax (sfFmt f) true x y, 0)
  | .sfSgnj d a b f =>
    let x := sfReg s f a; let y := sfReg s f b
    some (d, f, [x, y], (withSign (sfFmt f) x (signOf (sfFmt f) y), 0), 0)
  | .sfSgnjn d a b f =>
    let x := sfReg s f a; let y := sfReg s f b
    some (d, f, [x, y], (withSign (sfFmt f) x (!signOf (sfFmt f) y), 0), 0)
  | .sfFeq d a b f => let x := sfReg s f a; let y := sfReg s f b; some (d, f, [x, y], boolResult (fpEq (sfFmt f) x y), 0)
  | .sfFlt d a b f => let x := sfReg s f a; let y := sfReg s f b; some (d, f, [x, y], boolResult (fpLt (sfFmt f) x y), 0)
  | .sfFle d a b f => let x := sfReg s f a; let y := sfReg s f b; some (d, f, [x, y], boolResult (fpLe (sfFmt f) x y), 0)
  | .sfClass d a f => let x := sfReg s f a; some (d, f, [x], (fpClass (sfFmt f) x, 0), 0)
  | .sfCvti d a f r =>
    let x := sfReg s f a
    some (d, f, [x], toInteger 64 true (sfMode s r) (s.core.regs.draw 0) (fpDecode (sfFmt f) x), r)
  | .sfCvtu d a f r =>
    let x := sfReg s f a
    some (d, f, [x], toInteger 64 false (sfMode s r) (s.core.regs.draw 0) (fpDecode (sfFmt f) x), r)
  | .sfIcvt d a f r => some (d, f, [], fpRound (sfFmt f) (sfMode s r) (s.core.regs.draw 0) (Fp.ofInt (s.x a).toInt), r)
  | .sfUcvt d a f r => some (d, f, [], fpRound (sfFmt f) (sfMode s r) (s.core.regs.draw 0) (Fp.ofInt (s.x a).toNat), r)
  | .sfWiden d a f => let x := sfReg s f a; some (d, f, [x], fpConvert (sfFmt f) 4 0 0 x, 0)
  | .sfNarrow d a f r => some (d, f, [], fpConvert 4 (sfFmt f) (sfMode s r) (s.core.regs.draw 0) (s.x a).toNat, r)
  | _ => none

/-- A scalar floating-point instruction that reads no verdict token as binary32 and raises no enabled flag completes: x[d] is its
result, its flags accrue, a stochastic rounding advances SRCNT, and nothing else changes (09 R186-R188, 08 R168, R180). What an
operation gives on numbers, in this and every other family, is the exact result rounded once; comparisons and the lesser and greater
are those of the numbers (08 R162, R169, R173, 09 R187). -/
def Obligations.ScalarFloatResults : Prop :=
  (∀ (s : State) (i : Instr) (d : BitVec 5) (f : BitVec 2) (ops : List Nat) (v : Nat × Nat) (rm : BitVec 3),
    Claims.scalarFp s i = some (d, f, ops, v, rm) → (f = 1 → ∀ x ∈ ops, isToken x = false) →
    (s.core.regs.fst.toNat / 2 ^ 11) &&& (v.2 % 32) = 0 →
    exec i s = .next (s.retiredWith { s.core.regs with
      pc := s.core.regs.pc + 4
      x := if d = 0 then s.core.regs.x else s.core.regs.x.set d.toNat (BitVec.ofNat 64 v.1) d.isLt
      fst := s.core.regs.fst ||| BitVec.ofNat 64 (v.2 % 32)
      srcnt := if rm = 6 then s.core.regs.srcnt + 1 else s.core.regs.srcnt })) ∧
  (∀ (c mode a b : Nat), 4 ≤ c → c ≤ 7 → Claims.finite c a = true → Claims.finite c b = true →
    let x := Claims.value c a
    let y := Claims.value c b
    Claims.rounded c mode (x + y) (fpAdd c mode a b) ∧ Claims.rounded c mode (x - y) (fpSub c mode a b) ∧
    Claims.rounded c mode (x * y) (fpMulOp c mode a b) ∧ (y ≠ 0 → Claims.rounded c mode (x / y) (fpDivOp c mode a b)) ∧
    (0 ≤ x → Claims.rounded c mode (Real.sqrt x) (fpSqrtOp c mode a)) ∧
    ((fpEq c a b).1 = true ↔ x = y) ∧ ((fpLt c a b).1 = true ↔ x < y) ∧ ((fpLe c a b).1 = true ↔ x ≤ y) ∧
    Claims.value c (fpMinMax c false a b).1 = min x y ∧ Claims.value c (fpMinMax c true a b).1 = max x y) ∧
  ∀ (c cz mode a b z : Nat) (p n : Bool), 4 ≤ c → c ≤ 10 → 4 ≤ cz → cz ≤ 7 → Claims.finite c a = true → Claims.finite c b = true →
    Claims.finite cz z = true → Claims.rounded cz mode ((if p then -1 else 1) * (Claims.value c a * Claims.value c b) +
      (if n then -1 else 1) * Claims.value cz z) (fpFused c cz mode p n a b z)

/-- A scalar floating-point instruction that reads a verdict token as binary32 traps with the token, and one that raises an enabled
flag traps with its flags; neither writes anything first. A division or remainder by zero traps RANGE with the dividend
(09 R184, R188, 08 R172, R174). -/
def Obligations.ScalarTraps : Prop :=
  ∀ (s : State) (i : Instr) (d a b : BitVec 5) (sg : Bool) (f : BitVec 2) (ops : List Nat) (v : Nat × Nat) (rm : BitVec 3),
    (s.x b = 0 → ∀ i ∈ [Instr.smDiv d a b sg, .smRem d a b sg], exec i s = .next (takeTrap .range false (s.x a) none s)) ∧
    (Claims.scalarFp s i = some (d, f, ops, v, rm) →
    (∀ x, f = 1 → ops.find? isToken = some x →
      exec i s = .next (takeTrap .verdictOperand false (BitVec.ofNat 64 x) none s)) ∧
    ((f = 1 → ops.find? isToken = none) → (s.core.regs.fst.toNat / 2 ^ 11) &&& (v.2 % 32) ≠ 0 →
      exec i s = .next (takeTrap .fp false (BitVec.ofNat 64 v.2) none s)))

/-! ### Control flow -/

/-- The condition and displacement of a branch (15 R309). -/
def Claims.branch (s : State) : Instr → Option (Bool × BitVec 13)
  | .brEq a b o => some (decide (s.x a = s.x b), o)
  | .brNe a b o => some (decide (s.x a ≠ s.x b), o)
  | .brLt a b o => some (decide ((s.x a).toInt < (s.x b).toInt), o)
  | .brGe a b o => some (decide ((s.x b).toInt ≤ (s.x a).toInt), o)
  | .brLtu a b o => some (decide ((s.x a).toNat < (s.x b).toNat), o)
  | .brGeu a b o => some (decide ((s.x b).toNat ≤ (s.x a).toNat), o)
  | _ => none

/-- The next state of an instruction that has transferred control with the registers `q`: its record is owed to the recorder unless
the target is the next word (26 R412). -/
def Claims.moved (s : State) (q : Regs) : State :=
  { s with core := { s.core with regs := q, prog := .retired, wait := none
                                 xfer := if q.pc = s.core.regs.pc + 4 then s.core.xfer else some q.pc } }

/-- A branch sets the program counter to its target when its condition holds and to the next word when not; it writes no register
and never traps. Beside that it only owes the recorder its transfer (15 R310, 26 R412). -/
def Obligations.BranchesSetTheProgramCounter : Prop :=
  ∀ (s : State) (i : Instr) (c : Bool) (o : BitVec 13), Claims.branch s i = some (c, o) →
    exec i s = .next (Claims.moved s { s.core.regs with
      pc := if c then s.core.regs.pc + BitVec.ofInt 64 (o.toInt * 4) else s.core.regs.pc + 4 })

/-- What a scalar load of `n` bytes at a physical address takes: each byte as the chunk sees it, or an old value that a P = 1 store of
the chunk has left there; without such a store what the chunk sees, and no choice of the oracle is used (13 R264). -/
def Claims.loaded (s : State) (pa n v : Nat) (ora : List Nat) : Prop :=
  v < 2 ^ (8 * n) ∧ (s.core.chunkOr.late = [] → v = s.seesNat pa n ∧ ora = s.oracle) ∧
  ∀ k, k < n → BitVec.ofNat 8 (v / 2 ^ (8 * k)) = s.sees (pa + k) ∨ (pa + k, BitVec.ofNat 8 (v / 2 ^ (8 * k))) ∈ s.core.chunkOr.late

/-- JL.JAL and JR.JALR link and jump; JR.JALR reads x[a] first, and traps ALIGN on a target that is no multiple of 4, with x[d]
unwritten. JR.JTAB goes on at the next word when its index is out of the table, and else jumps by the entry of the table, read as a
scalar load reads it; an address of the entry, or a target, that is no multiple of 4 traps ALIGN. A transfer is owed to the recorder
(15 R311, R313, R314, 26 R412, 13 R264; logs 1 and 5 for the old values). -/
def Obligations.JumpsLink : Prop :=
  (∀ (s : State) (d a : BitVec 5) (o : BitVec 21),
    let link (t : Word) : Regs := { s.core.regs with
      pc := t, x := if d = 0 then s.core.regs.x else s.core.regs.x.set d.toNat (s.core.regs.pc + 4) d.isLt }
    exec (.jlJal d o) s = .next (Claims.moved s (link (s.core.regs.pc + BitVec.ofInt 64 (o.toInt * 4)))) ∧
    ((s.x a).toNat % 4 = 0 → exec (.jrJalr d a) s = .next (Claims.moved s (link (s.x a)))) ∧
    ((s.x a).toNat % 4 ≠ 0 → exec (.jrJalr d a) s = .next (takeTrap .align false (s.x a) none s))) ∧
  (∀ (s : State) (d a b : BitVec 5),
    let ea := s.x a + 4 * s.x d
    ((s.x b).toNat ≤ (s.x d).toNat →
      exec (.jrJtab d a b) s = .next (s.retiredWith { s.core.regs with pc := s.core.regs.pc + 4 })) ∧
    ((s.x d).toNat < (s.x b).toNat → ea.toNat % 4 ≠ 0 → exec (.jrJtab d a b) s = .next (takeTrap .align false ea none s)) ∧
    ((s.x d).toNat < (s.x b).toNat → s.core.wait = none → ea.toNat % 4 = 0 → s.reaches .load 4 [ea] = true →
      ∃ v ora, Claims.loaded s (s.paOf s.core.xl .load ea) 4 v ora ∧
        let t := s.core.regs.pc + (BitVec.ofNat 32 v).signExtend 64
        (t.toNat % 4 ≠ 0 → s.unreserved = true → ∃ u, exec (.jrJtab d a b) s = .next u ∧ u.core.prog = .trapped ∧
          u.core.regs.cause = BitVec.ofNat 64 (causeCode .align).toNat ∧ u.core.regs.tval = t ∧ u.core.regs.epc = s.core.regs.pc) ∧
        (t.toNat % 4 = 0 → ∃ u, s.readWith { s.core.regs with pc := t } u ∧
          exec (.jrJtab d a b) s = .next { u with
            oracle := ora, core := { u.core with xfer := if t = s.core.regs.pc + 4 then s.core.xfer else some t } })))

/-- LP.LOOP takes VL elements off COUNT, advances the pointers that ADV names by what VL elements occupy, grants the next VL, and
goes back while elements are left (10 R212, R213). -/
def Obligations.LoopTakesAStrip : Prop :=
  ∀ (s : State) (adv : BitVec 4) (o : BitVec 22),
    let r := s.core.regs
    let left := r.count - min r.vl.toNat r.count
    let u := fmtUnit r.fmt
    r.off 10 = false → r.vill = false → (r.vl.toNat = 0 → r.count = 0) →
    (adv = 0 ∨ r.vl.toNat % u.1 = 0 ∨ left = 0) →
    ∃ t, exec (.lpLoop adv o) s = .next t ∧ t.core.prog = .retired ∧ t.core.wait = none ∧ t.mem = s.mem ∧
      t.core.regs.pc = (if left = 0 then r.pc + 4 else r.pc + BitVec.ofInt 64 (o.toInt * 4)) ∧
      t.core.regs.count = left ∧ t.core.regs.cap = r.cap ∧ t.core.regs.vtype = r.vtype ∧
      t.core.regs.vl.toNat = min left (if r.cap = 0 then r.vlmax else min r.vlmax r.cap) ∧ t.core.regs.vstart = 0 ∧
      (∀ k : Fin 4, t.x (BitVec.ofNat 5 (12 + k.val)) = s.x (BitVec.ofNat 5 (12 + k.val)) +
        if adv.getLsbD k.val then BitVec.ofNat 64 ((r.vl.toNat + u.1 - 1) / u.1 * u.2) else 0) ∧
      (∀ q : BitVec 5, q.toNat < 12 ∨ 15 < q.toNat → t.x q = s.x q) ∧ t.core.regs.v = r.v ∧ t.core.regs.m = r.m ∧ t.core.regs.t = r.t

/-- The VC instructions that grant set VTYPE or VREM and VL, write VL to x[d], and leave vector state dirty; VC.VLMAX writes VLMAX to x[d],
and no state of the vector unit with it (07 R136-R139, 17 R348). -/
def Obligations.VectorLengthIsGranted : Prop :=
  ∀ (s : State) (d a b : BitVec 5) (g : BitVec 2) (f : BitVec 5), s.core.regs.off 10 = false →
    let r := s.core.regs
    let done (q : Regs) (st v : Word) : Out := .next (s.retiredWith { q with
      pc := r.pc + 4, stat := st, x := if d = 0 then r.x else r.x.set d.toNat v d.isLt })
    let dirty := (r.dirty true false false).stat
    let cap := if b = 0 then 0 else min (s.x b).toNat 0xFFFF
    let setl : Regs := { r with vrem := BitVec.ofNat 64 (cap * 2 ^ 48 + (s.x a).toNat) }.grant
    let sett : Regs := (r.setType (s.x a)).grant
    let setti : Regs := (r.setType (BitVec.ofNat 64 (g.toNat * 32 + f.toNat))).grant
    ((s.x a).toNat < 2 ^ 48 → exec (.vcSetl d a b) s = done setl dirty setl.vl) ∧
    exec (.vcSett d a) s = done sett dirty sett.vl ∧
    exec (.vcSetti d g f) s = done setti dirty setti.vl ∧
    exec (.vcVlmax d) s = done r r.stat (BitVec.ofNat 64 r.vlmax)

/-! ### Traps and system instructions -/

/-- The chunk has ended before the instruction, as the commit `t.csn`: what it has written is at the homes. A chunk that holds no
instruction, or none, commits nothing (14 R279, R284, R286). Commutative updates, and a frame that is being switched by a
migration, are left out of the clause on the bytes. -/
def Claims.committed (s t : State) : Prop :=
  (s.core.chunk.all (·.empty) = true → t.csn = s.csn ∧ t.core.csn = s.core.csn) ∧
  ∀ ch, s.core.chunk = some ch → ch.empty = false → t.csn = s.csn + 1 ∧ t.core.csn = s.csn + 1 ∧
    (s.Inv → s.noUpdates = true → (∀ g ∈ s.mig.toList, g.state ≠ .switch) → ∀ q, t.home q = s.sees q)

/-- When the chunk ends, its bytes go to the homes that their addresses name: it has performed an instruction or written nothing, no
commutative update is pending, and no frame is being switched by a migration (14 R284, R286, 13 R272, 03 R64). -/
def Claims.settled (s : State) : Prop :=
  s.core.chunk.all (fun ch => !ch.empty || ch.wr.isEmpty) = true ∧ s.noUpdates = true ∧ ∀ g ∈ s.mig.toList, g.state ≠ .switch

/-- The instruction is the first of a new chunk, which begins with the registers before it (14 R279, R287). -/
def Claims.begins (s t : State) : Prop :=
  Claims.committed s t ∧ ∃ ch, t.core.chunk = some ch ∧ ch.start = s.core.regs ∧ ch.count = 0 ∧ ch.wr = [] ∧ ch.com = []

/-- Every trap ends the current chunk, which commits, and enters the handler: EPC, CAUSE, TVAL, VQPOS and the saved bits of STAT are
written, the mode is supervisor with interrupts off, and the program counter is at TVEC.BASE; no other register of the context changes,
but for SKIP, which a trap of a user instruction itself clears, and the frame, which stands suspended (17 R338, R353, 15 R320). -/
def Obligations.TrapEntersTheHandler : Prop :=
  ∀ (s : State) (c : Cause) (async : Bool) (tval : Word) (seq : Option (BitVec 32)), s.unreserved = true →
    let t := takeTrap c async tval seq s
    let r := s.core.regs
    Claims.committed s t ∧ t.core.chunk = none ∧ t.core.prog = .trapped ∧
    t.core.regs = { r with
      epc := r.pc
      cause := BitVec.ofNat 64 (async.toNat * 2 ^ 63 + (causeCode c).toNat)
      tval := tval
      vqpos := (seq.map fun q => BitVec.ofNat 64 (2 ^ 63 + q.toNat)).getD 0
      stat := t.core.regs.stat
      pc := r.tvec &&& ~~~3#64
      susp := true } ∧
    t.core.regs.stat.getLsbD 3 = r.stat.getLsbD 0 ∧ t.core.regs.stat.getLsbD 4 = r.stat.getLsbD 1 ∧
    t.core.regs.stat.getLsbD 0 = true ∧ t.core.regs.stat.getLsbD 1 = false ∧
    t.core.regs.stat.getLsbD 5 = (r.stat.getLsbD 5 && (r.stat.getLsbD 0 || async)) ∧
    ∀ k : Nat, k ∉ [0, 1, 3, 4, 5] → t.core.regs.stat.getLsbD k = r.stat.getLsbD k

/-- SY.TRAP takes the trap TRAP with its number as TVAL. SY.RET in supervisor mode ends the chunk, which commits, and goes back to EPC
with MODE and IE from PMODE and PIE; in user mode it traps PRIV with its word (17 R345, 14 R279; log 33 for the chunk that begins with
the SY.RET itself). -/
def Obligations.SystemCallsAndReturns : Prop :=
  ∀ (s : State) (n : BitVec 12), exec (.syTrap n) s = .next (takeTrap .trap false (BitVec.ofNat 64 n.toNat) none s) ∧
    (s.unreserved = true →
    let r := s.core.regs
    (r.stat.getLsbD 0 = true → ∃ t, exec .syRet s = .next t ∧ t.core.prog = .retired ∧
      Claims.begins s t ∧
      t.core.regs = { r with pc := r.epc &&& ~~~3#64, stat := t.core.regs.stat, susp := false } ∧
      t.core.regs.stat.getLsbD 0 = r.stat.getLsbD 3 ∧ t.core.regs.stat.getLsbD 1 = r.stat.getLsbD 4 ∧
      ∀ k : Nat, k ∉ [0, 1] → t.core.regs.stat.getLsbD k = r.stat.getLsbD k) ∧
    (r.stat.getLsbD 0 = false → exec .syRet s = .next (takeTrap .priv false 0x34007000 none s)))

/-- The numbers of the system registers, first and last of a row, and whether a user-mode read and write trap PRIV
(17 R342). -/
def Claims.sysColumns : List (Nat × Nat × Bool × Bool) :=
  [(0x000, 0x000, false, true), (0x001, 0x006, true, true), (0x007, 0x007, true, true), (0x010, 0x013, false, true),
    (0x014, 0x014, false, true), (0x015, 0x015, false, false), (0x016, 0x017, false, false), (0x020, 0x020, false, false),
    (0x030, 0x037, true, true), (0x038, 0x038, true, true), (0x040, 0x040, false, false), (0x041, 0x041, false, false),
    (0x050, 0x053, false, false), (0x060, 0x061, false, false), (0x070, 0x072, false, true), (0x073, 0x073, true, true),
    (0x074, 0x074, true, true), (0x080, 0x082, false, false)]

/-- What a read of each system register gives (17 R342-R344, 07 R136, 15 R319, 12 R254, 08 R168, R178, 14 R280, R286, 03 R59). -/
def Claims.sysValues (c : Core) : List (Nat × Word) :=
  let r := c.regs
  [(0x000, r.stat), (0x001, r.epc), (0x002, r.cause), (0x003, r.tval), (0x004, r.tvec), (0x005, r.scratch), (0x006, r.vqpos),
    (0x007, r.saveva), (0x010, r.vl), (0x011, r.vtype), (0x012, r.vstart), (0x013, r.vrem), (0x014, r.rps), (0x015, r.tk),
    (0x016, r.srseed), (0x017, r.srcnt), (0x020, r.fst), (0x038, r.bpctx), (0x040, r.chb), (0x041, c.csn), (0x050, 1), (0x051, 0),
    (0x052, 0), (0x053, 3), (0x060, c.cycle), (0x061, c.instret), (0x070, r.ten), (0x071, r.asid), (0x072, r.ptb), (0x073, 0),
    (0x074, r.tiva), (0x080, r.ctxid), (0x081, r.ctxrank), (0x082, r.groupsz)] ++
  (List.finRange 8).map fun k => (0x030 + k.val, r.bpa.get k)

/-- What a write of each system register but STAT leaves: the bits that its map names, of the value; vector state is marked dirty by
the vector controls and TK; a register that is read-only stays; a write of RPS begins no frame before the handler returns (15 R320; log
102; 17 R342-R344, 00 R6, 07 R136, R137, 15 R319, 12 R254, 08 R168, R178, 14 R280, 03 R59). -/
def Claims.sysWrites (r : Regs) (v : Word) : List (Nat × Regs) :=
  let n := v.toNat
  let bits (lo k : Nat) : Nat := n / 2 ^ lo % 2 ^ k
  let rm := if bits 8 3 < 5 then bits 8 3 else r.fst.toNat / 2 ^ 8 % 8
  let dirty (q : Regs) : Regs := { q with stat := (r.dirty true false false).stat }
  let kind : Regs := { r with vtype := if n / 2 ^ 7 = 0 ∧ (n % 32 ≤ 10 ∨ (16 ≤ n % 32 ∧ n % 32 ≤ 22)) then v else 1#64 <<< 63 }
  [(0x001, { r with epc := BitVec.ofNat 64 (4 * bits 2 62) }), (0x002, { r with cause := BitVec.ofNat 64 (2 ^ 63 * bits 63 1 + bits 0 8) }),
    (0x003, { r with tval := v }), (0x004, { r with tvec := BitVec.ofNat 64 (4 * bits 2 62) }), (0x005, { r with scratch := v }),
    (0x006, { r with vqpos := BitVec.ofNat 64 (2 ^ 63 * bits 63 1 + bits 0 32) }), (0x007, { r with saveva := v }),
    (0x010, dirty { r with vl := BitVec.ofNat 64 (min n r.vlmax) }),
    (0x011, dirty { kind with vl := BitVec.ofNat 64 (min r.vl.toNat kind.vlmax) }),
    (0x012, dirty { r with vstart := BitVec.ofNat 64 (bits 0 12) }), (0x013, dirty { r with vrem := v }),
    (0x014, { r with rps := BitVec.ofNat 64 (2 ^ 49 * bits 49 15 + bits 0 48), susp := !(r.rps.getLsbD 63 && !r.susp) }),
    (0x015, dirty { r with tk := BitVec.ofNat 64 (bits 0 32) }), (0x016, { r with srseed := v }), (0x017, { r with srcnt := v }),
    (0x020, { r with fst := BitVec.ofNat 64 (2 ^ 11 * bits 11 5 + 2 ^ 8 * rm + bits 0 5) }),
    (0x038, { r with bpctx := v }), (0x040, { r with chb := BitVec.ofNat 64 (max 64 (min 65536 (bits 0 17))) }),
    (0x070, { r with ten := BitVec.ofNat 64 (bits 0 16) }), (0x071, { r with asid := BitVec.ofNat 64 (bits 0 16) }),
    (0x072, { r with ptb := BitVec.ofNat 64 (2 ^ 14 * bits 14 38) }), (0x074, { r with tiva := v })] ++
  ([0x041, 0x050, 0x051, 0x052, 0x053, 0x060, 0x061, 0x080, 0x081, 0x082].map fun k => (k, r)) ++
  (List.finRange 8).map fun k => (0x030 + k.val, { r with bpa := r.bpa.set k.val (BitVec.ofNat 64 (4 * bits 2 62 + bits 0 1)) k.isLt })

/-- The system registers whose write has a rule beside their map: it ends the chunk first, waits, or refuses a token
(03 R60, R61, 12 R256). -/
def Claims.plainSys (n : BitVec 12) : Bool := !([0x15, 0x70, 0x71, 0x72, 0x73].elem n.toNat)

/-- Each number of the table of system registers reads its own register and writes it under its map, and traps PRIV in user mode where
the table says so; a write of STAT leaves a state field that would be 3. SY.SRD writes the register to x[d]; SY.SWR writes it from x[a]
and nothing else, TK unless the value is a
token, which traps VERDICT-OPERAND, and TEN, ASID and PTB as the first act of a new chunk, as SY.SRD of CSN reads it there. A write
of TINV completes, with its chunk ended, once every die has acknowledged it, which is a later step (log 47). The older VQ entries have
retired before the write, so no later store overtakes their loads (log 60); CHB takes 17 bits of the value before it clamps them (log
36), and TK tells a token by the low 32 bits, which TVAL names (log 41). In user mode a privileged
register, SY.ICINV, SY.PARK and SQ.WR trap PRIV, and nothing is read or written first (17 R342-R345, R352, R361, 03 R60, R61,
12 R256, 14 R279, R286, R301). -/
def Obligations.SystemRegistersAreReadAndWritten : Prop :=
  (∀ p ∈ Claims.sysColumns, ∀ n, p.1 ≤ n → n ≤ p.2.1 → privRead n = p.2.2.1 ∧ privWrite n = p.2.2.2) ∧
  (∀ (c : Core), ∀ p ∈ Claims.sysValues c, sysRead p.1 c = p.2) ∧
  (∀ (r : Regs) (v : Word), (∀ p ∈ Claims.sysWrites r v, r.sysWrite p.1 v = p.2) ∧
    ∃ st, r.sysWrite 0 v = { r with stat := st } ∧ (∀ k ∈ [0, 1, 3, 4, 5], st.getLsbD k = v.getLsbD k) ∧
      (∀ k ∈ [10, 12, 14], st.extractLsb' k 2 = if v.extractLsb' k 2 = 3 then r.stat.extractLsb' k 2 else v.extractLsb' k 2) ∧
      ∀ k, k ∈ [2, 6, 7, 8, 9] ∨ 16 ≤ k → st.getLsbD k = r.stat.getLsbD k) ∧
  (∀ (s : State) (d a : BitVec 5) (n : BitVec 12),
    let r := s.core.regs
    (!(r.user && privRead n.toNat) && !(r.off 10 && vecReg n.toNat) → n ≠ 0x41 →
      exec (.sySrd d n) s = .next (s.retiredWith { r.wr d (sysRead n.toNat s.core) with pc := r.pc + 4 })) ∧
    (s.unreserved = true → ∃ t, exec (.sySrd d 0x41) s = .next t ∧ s.next t ∧ Claims.begins s t ∧
      t.core.regs = { r.wr d t.core.csn with pc := r.pc + 4 }) ∧
    (!(r.user && privWrite n.toNat) && !(r.off 10 && vecReg n.toNat) →
      (Claims.plainSys n = true → exec (.sySwr a n) s = .next (s.dropLends.retiredWith { r.sysWrite n.toNat (s.x a) with pc := r.pc + 4 })) ∧
      (n = 0x15 → (isToken (s.x a).toNat = false → exec (.sySwr a n) s =
          .next (s.dropLends.retiredWith { r.dirty true false false with tk := s.x a &&& 0xFFFFFFFF, pc := r.pc + 4 })) ∧
        (isToken (s.x a).toNat = true →
          exec (.sySwr a n) s = .next (takeTrap .verdictOperand false (s.x a &&& 0xFFFFFFFF) none s.dropLends))) ∧
      (n.toNat ∈ [0x70, 0x71, 0x72] → s.unreserved = true → ∃ t, exec (.sySwr a n) s = .next t ∧ s.next t ∧ Claims.begins s t ∧
        t.core.regs = { r.sysWrite n.toNat (s.x a) with pc := r.pc + 4 }) ∧
      (n = 0x73 → s.unreserved = true → s.core.wait = some .tinv → s.core.tinv = none →
        ∃ t, exec (.sySwr a n) s = .next t ∧ s.next t ∧ Claims.committed s t ∧ t.core.chunk = none ∧
          t.core.regs = { r with pc := r.pc + 4 }))) ∧
  (∀ (s : State) (d a : BitVec 5) (n : BitVec 12) (c b : BitVec 3), s.core.regs.user = true →
    (privRead n.toNat = true → exec (.sySrd d n) s = .next (takeTrap .priv false (tvalWord (encode (.sySrd d n))) none s)) ∧
    (privWrite n.toNat = true → exec (.sySwr a n) s = .next (takeTrap .priv false (tvalWord (encode (.sySwr a n))) none s)) ∧
    exec (.syIcinv c) s = .next (takeTrap .priv false (tvalWord (encode (.syIcinv c))) none s) ∧
    exec .syPark s = .next (takeTrap .priv false 0x34009000 none s) ∧
    exec (.sqWr b a) s = .next (takeTrap .priv false (tvalWord (encode (.sqWr b a))) none s))

/-- SY.CEND ends the chunk after itself; SY.FENCE ends it and executes as a singleton chunk, which takes a CSN, under POD once no remote
access of the core is out, from where on the package's messages carry ORD; SY.ICINV does so once it is acknowledged (14 R294, R282,
17 R352, 25 R399; log 35 for the accesses that POD waits for, log 47 for the acknowledgement, which is a later step). -/
def Obligations.FencesCommit : Prop :=
  ∀ (s : State) (c : BitVec 3),
    let r := { s.core.regs with pc := s.core.regs.pc + 4 }
    exec .syCend s =
      .next { (s.retiredWith r) with core := { s.core with regs := r, prog := .retired, wait := none, endAfter := some 0 } } ∧
    (s.unreserved = true → (c = 5 → s.core.out = []) → ∃ t, exec (.syFence c) s = .next t ∧ s.next t ∧ t.core.regs = r ∧
      t.core.chunk = none ∧ t.core.csn = t.csn ∧ t.csn ≠ s.csn ∧ (c = 5 → t.ord = true)) ∧
    (s.unreserved = true → s.core.regs.user = false → s.core.wait = some .icinv → s.core.icinv = none →
      ∃ t, exec (.syIcinv c) s = .next t ∧ s.next t ∧ t.core.regs = r ∧ t.core.chunk = none ∧ t.core.csn = t.csn)

/-- Every queue with a context that may take a slot is mapped or on the firmware's list of those that wait (16 R335). -/
def Claims.queuesWait (t : State) : Prop :=
  ∀ k ∈ t.ctxs, k.state = .pending ∨ k.state = .runnable →
    (∃ p ∈ t.cores, p.2.slot.state ≠ .empty ∧ p.2.slot.queue.toNat = k.queue) ∨ ∃ n, (k.queue, n) ∈ t.policy.waiting

/-- SY.LAUNCH ends its chunk and writes the primary MC's answer to x[d]: the CTXID of rank 0, whose queue then waits unless it is
mapped, or a refusal with its code, which creates no context. The record is what the chunk has left in the memory that the translation
after its commit names; it lies in idempotent memory, no commutative update is pending, no frame is being switched, and no fence holds
up the MC (16 R323-R325, R335, 14 R282, R292). -/
def Obligations.LaunchAnswers : Prop :=
  ∀ (s : State) (d a : BitVec 5),
    let u := (endChunk 2 s).getD s
    let pa := u.paOf u.core.xl .load (s.x a)
    let bs := (List.range 112).map fun k => s.sees (pa + k)
    s.Inv → Claims.settled s → s.unreserved = true → s.fenced 4 0 0 = false →
    (s.x a).toNat % 16 = 0 → u.agrees u.core.xl [(.load, s.x a)] = true → u.plainAt u.core.xl .load 112 (s.x a) = true →
    ∃ t, exec (.syLaunch d a) s = .next t ∧ s.next t ∧ t.core.chunk = none ∧ t.core.csn = t.csn ∧
      (launchRefused bs (s.core.regs.ten.setWidth 16) s = none →
        t.core.regs = { s.core.regs.wr d s.nextCtx with pc := s.core.regs.pc + 4 } ∧
        t.nextCtx = s.nextCtx + BitVec.ofNat 64 (bs.getD 8 0).toNat ∧ t.ctxs.length = s.ctxs.length + (bs.getD 8 0).toNat ∧
        Claims.queuesWait t) ∧
      (∀ k, launchRefused bs (s.core.regs.ten.setWidth 16) s = some k →
        t.core.regs = { s.core.regs.wr d (0xFFFFFFFFFFFFFF00 + BitVec.ofNat 64 k) with pc := s.core.regs.pc + 4 } ∧
        t.ctxs = s.ctxs ∧ t.nextCtx = s.nextCtx)

/-- The core record that SY.PARK writes: offsets and doublewords, with the resume address and STAT given (17 R359). -/
def Claims.record (c : Core) (csn st : Word) : List (Nat × Nat) :=
  let r := c.regs
  (List.finRange 31).map (fun j => (8 * (j.val + 1), (r.x.get ⟨j.val + 1, by omega⟩).toNat)) ++
  [(0, 0), (0x100, r.epc.toNat / 4 * 4), (0x108, st.toNat), (0x110, r.fst.toNat), (0x118, r.srseed.toNat),
    (0x120, r.srcnt.toNat), (0x128, r.rps.toNat), (0x130, r.chb.toNat), (0x138, r.ten.toNat), (0x140, r.asid.toNat),
    (0x148, r.ptb.toNat), (0x150, r.ctxid.toNat), (0x158, r.ctxrank.toNat), (0x160, r.groupsz.toNat), (0x168, r.saveva.toNat),
    (0x170, csn.toNat)] ++
  (List.finRange 8).map (fun j => (0x200 + 8 * j.val, (r.b.get j).toNat)) ++
  (List.finRange 4).flatMap (fun j =>
    let w := r.win.get j
    [(0x240 + 32 * j.val, w.base.toNat), (0x248 + 32 * j.val, w.nel.toNat + 2 ^ 24 * w.off.toNat),
      (0x250 + 32 * j.val, 2 ^ 63 * w.valid.toNat + 2 ^ 8 * w.fmt.toNat + w.op.toNat)]) ++
  (List.finRange 4).map (fun j =>
    let g := c.eng.get j
    (0x300 + 0xC0 * j.val, 2 ^ 8 * g.serial.toNat + match g.run with
      | .idle => 0 | .running => 1 | .ended => 2 | .failed => 3 | .joined => 4 | .joinedFailed => 5)) ++
  (List.finRange 3).flatMap (fun j =>
    let g := c.eng.get ⟨j.val, by omega⟩
    let o := 0x300 + 0xC0 * j.val
    [(o + 0x08, g.pc.toNat), (o + 0x10, g.err.toNat),
      (o + 0x18, g.openV.toNat + 2 ^ 32 * g.openM.toNat + 2 ^ 48 * g.openT.toNat),
      (o + 0xA0, g.ten.toNat % 2 ^ 16 + 2 ^ 16 * (g.asid.toNat % 2 ^ 16) + 2 ^ 32 * g.sup.toNat), (o + 0xA8, g.ptb.toNat)] ++
    (List.finRange 16).map fun k => (o + 0x20 + 8 * k.val, (g.r.get k).toNat)) ++
  (List.finRange 16).map fun k =>
    (0x600 + 8 * k.val, (c.pres.get ⟨2 * k.val, by omega⟩).toNat + 2 ^ 32 * (c.pres.get ⟨2 * k.val + 1, by omega⟩).toNat)

/-- SY.END with no engine RUNNING ends the context, and SY.PARK of a context that is being unbound saves it: its save area holds the
core record, with PC from EPC and MODE and IE from PMODE and PIE, and the copy areas of the valid windows. Either leaves the slot
EMPTY and tells the MC. The park is held up by remote writes that are out and by a row of EM.COPY2 alone (17 R345, R359, R361,
16 R331, R334, 05 R113; log 20 for what holds the park up, log 39 for the MC's states). -/
def Obligations.ContextsLeaveTheirSlot : Prop :=
  ∀ s : State, s.unreserved = true →
    ((∀ g ∈ s.core.eng.toList, g.run ≠ .running) → ∃ t, exec .syEnd s = .next t ∧ t.core.prog = .retired ∧
      t.core.slot.state = .empty ∧ t.core.chunk = none ∧
      (∀ k ∈ t.ctxs, k.ctxid = s.core.slot.ctxid → k.state = .ended) ∧ ∀ r ∈ t.runs, r.ctxid ≠ s.core.slot.ctxid) ∧
    (s.core.regs.user = false → s.core.slot.state = .unbinding → s.core.parkHeld = false →
      ∃ t st, exec .syPark s = .next t ∧ t.core.prog = .retired ∧ t.core.slot.state = .empty ∧ t.core.chunk = none ∧
        (∀ k ∈ t.ctxs, k.ctxid = s.core.slot.ctxid → k.state = .runnable ∨ k.state = .waiting) ∧
        (∀ j, st.getLsbD j = s.core.regs.stat.getLsbD (if j = 0 then 3 else if j = 1 then 4 else j)) ∧
        (s.Inv → (∀ g ∈ s.mig.toList, g.state ≠ .switch) →
          (∀ p ∈ Claims.record s.core t.core.csn st, t.homeNat (s.core.slot.area + p.1) 8 = p.2) ∧
          ∀ w ∈ s.core.regs.win.toList, w.valid = true → ∀ k,
            w.off.toNat ≤ k → k < w.off.toNat + 32 * w.nel.toNat * (if w.fmt = 2 ∨ w.fmt = 5 then 4 else 8) →
            t.home (s.core.slot.area + 0x60000 + k) = memGet s.core.scratch k))

/-! ### Barriers -/

/-- The barriers of an instance of a scope and the most participants of one, for the scopes that have barriers (14 R297). -/
def Claims.barLimits (scope : Nat) : Option (Nat × Nat) := match scope with
  | 1 => some (8, 1)
  | 2 => some (16, 4)
  | 3 => some (64, 48)
  | 4 => some (256, 144)
  | 5 => some (1024, 294912)
  | _ => none

/-- The instance of a scope that a core is in: the core, its quad, its die, or the one there is (14 R295, 01 R18). -/
def Claims.barInstance (scope core : Nat) : Nat :=
  if scope = 1 then core else if scope = 2 then core / 4 else if scope = 3 then core / 48 else 0

/-- The owner entry of a barrier: block and offset; barriers of scope CORE have none (14 R298). -/
def Claims.barOwner (scope inst bid : Nat) : Option (Nat × Nat) := match scope with
  | 2 => some (inst / 12, 0x102000 + 8 * (16 * (inst % 12) + bid))
  | 3 => some (inst, 0x102800 + 8 * bid)
  | 4 => some (0, 0x103000 + 8 * bid)
  | 5 => some (0, 0x104000 + 8 * bid)
  | _ => none

/-- The owner entry of a barrier does not admit the context: VAL is 1, and TENANT another (14 R298). -/
def Claims.barForeign (s : State) (scope inst bid : Nat) : Bool :=
  (Claims.barOwner scope inst bid).any fun p =>
    let e := (keyGet s.owners (devKey p.1 p.2) 0).toNat
    e / 2 ^ 63 == 1 && e % 2 ^ 16 != s.core.regs.ten.toNat % 2 ^ 16

/-- A barrier after one more arrival: the first of a generation fixes its COUNT, and the arrival that makes the count COUNT completes it;
none completes a generation whose COUNT is 0 (14 R295; log 45). -/
def Claims.arrived (h q : HwBar) (count : Nat) : Prop :=
  let cnt := if h.arr = 0 then count else h.cnt
  (h.arr + 1 = cnt → q.arr = 0 ∧ q.gen = h.gen + 1) ∧ (h.arr + 1 ≠ cnt → q.arr = h.arr + 1 ∧ q.cnt = cnt ∧ q.gen = h.gen)

/-- The barrier instructions. SQ.CFG traps ILLEGAL or RANGE on an operand that its table refuses, or of a foreign barrier, and else
writes the fields of its register; SQ.ARV counts one arrival at its barrier and no other, after its chunk has ended, and leaves PEND 1
and GEN the generation it counted in, or traps; SQ.WT, once the generation has advanced or when nothing is pending, clears PEND and
ends the chunk, and else waits; SQ.WR restores the register; SQ.VQD goes on, and no later store overtakes an older vector load (14
R295-R301, 01 R18; log 45 for a register with COUNT 0, whose barrier never completes, log 35 for the remote accesses that an arrival
under POD waits for, log 60 for the overtaking, log 75 for a register whose SCOPE no barrier has or whose HOME is no core's). -/
def Obligations.BarriersArriveAndRelease : Prop :=
  ∀ (s : State) (a : BitVec 5) (b : BitVec 3),
    let r := s.core.regs
    let v := r.bar b
    let f (w : Word) (lo k : Nat) : Nat := w.toNat / 2 ^ lo % 2 ^ k
    let c := s.x a
    let scope := f c 0 3
    let here := Claims.barInstance scope s.cur
    let refused : Prop := f c 46 18 ≠ 0 ∨ f c 3 7 ≠ 0 ∨ Claims.barLimits scope = none ∨ v.getLsbD 62 = true
    let beyond : Prop := (Claims.barLimits scope).any (fun p => p.1 ≤ f c 10 16 || f c 26 20 = 0 || p.2 < f c 26 20) = true
    let sc := f v 0 3
    let inst := Claims.barInstance sc (f v 46 8)
    let h := s.hwbar (BitVec.ofNat 3 sc) inst (f v 10 16)
    let foreign : Prop := Claims.barForeign s sc inst (f v 10 16) = true
    let sqTrap (k : Cause) (base : Nat) : Out := .next (takeTrap k false (BitVec.ofNat 64 (base + 2 ^ 21 * b.toNat)) none s)
    (refused → exec (.sqCfg b a) s = .next (takeTrap .illegal false c none s)) ∧
    (¬refused → beyond → exec (.sqCfg b a) s = .next (takeTrap .range false c none s)) ∧
    (¬refused → ¬beyond → Claims.barForeign s scope here (f c 10 16) = true →
      exec (.sqCfg b a) s = .next (takeTrap .range false c none s)) ∧
    (¬refused → ¬beyond → Claims.barForeign s scope here (f c 10 16) = false → s.cur < 144 →
      ∃ q, exec (.sqCfg b a) s = .next (s.retiredWith { r.setBar b q with pc := r.pc + 4 }) ∧
        q.getLsbD 63 = true ∧ q.getLsbD 62 = false ∧ q.extractLsb' 54 8 = (s.hwbar (BitVec.ofNat 3 scope) here (f c 10 16)).gen ∧
        f q 46 8 = s.cur ∧ f q 26 20 = f c 26 20 ∧ f q 10 16 = f c 10 16 ∧ f q 3 7 = 0 ∧ f q 0 3 = scope) ∧
    (v.getLsbD 63 = false ∨ v.getLsbD 62 = true ∨ Claims.barLimits sc = none → exec (.sqArv b) s = sqTrap .illegal 0x38001000) ∧
    (v.getLsbD 63 = true → v.getLsbD 62 = false → Claims.barLimits sc ≠ none →
      (foreign → exec (.sqArv b) s = .next (takeTrap .range false v none s)) ∧
      (¬foreign → s.unreserved = true → (sc = 5 → s.core.out = []) →
        ∃ t q, exec (.sqArv b) s = .next t ∧ s.next t ∧ t.core.chunk = none ∧ t.core.csn = t.csn ∧
          Claims.arrived h (t.hwbar (BitVec.ofNat 3 sc) inst (f v 10 16)) (f v 26 20) ∧
          (∀ i j k, (i, j, k) ≠ (BitVec.ofNat 3 sc, inst, f v 10 16) → t.hwbar i j k = s.hwbar i j k) ∧
          t.core.regs = { r.setBar b q with pc := r.pc + 4 } ∧ q.getLsbD 62 = true ∧ q.extractLsb' 54 8 = h.gen ∧
          ∀ k, (k < 54 ∨ k = 63) → q.getLsbD k = v.getLsbD k)) ∧
    (v.getLsbD 62 = true → Claims.barLimits sc = none → exec (.sqWt b) s = sqTrap .illegal 0x38002000) ∧
    (v.getLsbD 62 = true → Claims.barLimits sc ≠ none → h.gen = v.extractLsb' 54 8 →
      exec (.sqWt b) s = .next (s.waiting (.barrier b))) ∧
    ((v.getLsbD 62 = true → Claims.barLimits sc ≠ none ∧ h.gen ≠ v.extractLsb' 54 8) → ∃ q, exec (.sqWt b) s = .next { (s.retiredWith q) with
        core := { s.core with regs := q, prog := .retired, wait := none, endAfter := some 8 } } ∧
        q = { r.setBar b (q.bar b) with pc := r.pc + 4 } ∧ ∀ k, (q.bar b).getLsbD k = (v.getLsbD k && k != 62)) ∧
    (r.user = false → exec (.sqWr b a) s =
      .next (s.retiredWith { r.setBar b (s.x a &&& ~~~0x3F8#64) with pc := r.pc + 4 })) ∧
    exec .sqVqd s = .next (s.dropLends.retiredWith { r with pc := r.pc + 4 })

/-! ### Scalar memory -/

/-- A scalar load: its destination, base, displacement, bytes, and whether the value is sign-extended (04 R84, R85). -/
def Claims.load : Instr → Option (BitVec 5 × BitVec 5 × BitVec 12 × Nat × Bool)
  | .slLb d a i => some (d, a, i, 1, true)
  | .slLh d a i => some (d, a, i, 2, true)
  | .slLw d a i => some (d, a, i, 4, true)
  | .slLd d a i => some (d, a, i, 8, true)
  | .slLbu d a i => some (d, a, i, 1, false)
  | .slLhu d a i => some (d, a, i, 2, false)
  | .slLwu d a i => some (d, a, i, 4, false)
  | _ => none

/-- The value of `n` bytes as a register holds it. -/
def Claims.extended (n : Nat) (signed : Bool) (v : Nat) : Word :=
  if signed then BitVec.ofInt 64 (if 2 * v < 2 ^ (8 * n) then v else (v : Int) - 2 ^ (8 * n)) else BitVec.ofNat 64 v

/-- A scalar load from idempotent memory writes x[d] from the bytes that the chunk sees, low byte first, and changes nothing else but
the translations held and the read set; after a P = 1 store of the chunk a byte may be the old one; SL.LQ writes a register pair. A
consuming load of a full granule reads the scratchpad and, with C, makes the granule empty; no other granule and no byte changes, and
the chunk before it has ended (04 R83-R88, 14 R283, 13 R264; logs 1 and 5 for the choice of an old byte). -/
def Obligations.ScalarLoadsRead : Prop :=
  (∀ (s : State) (i : Instr) (d a : BitVec 5) (im : BitVec 12) (n : Nat) (sg : Bool), s.core.wait = none →
    let ea := s.x a + im.signExtend 64
    let pa := s.paOf s.core.xl .load ea
    (Claims.load i = some (d, a, im, n, sg) → s.reaches .load n [ea] = true →
      ∃ t v ora, exec i s = .next { t with oracle := ora } ∧ Claims.loaded s pa n v ora ∧
        s.readWith { s.core.regs.wr d (Claims.extended n sg v) with pc := s.core.regs.pc + 4 } t) ∧
    (s.reaches .load 16 [ea] = true → ∃ t v ora, exec (.slLq d a im) s = .next { t with oracle := ora } ∧
      Claims.loaded s pa 16 v ora ∧
      s.readWith { (s.core.regs.wr d (BitVec.ofNat 64 v)).wr (d + 1) (BitVec.ofNat 64 (v / 2 ^ 64)) with
        pc := s.core.regs.pc + 4 } t)) ∧
  (∀ (s : State) (d a : BitVec 5) (c : Bool) (im : BitVec 12), s.unreserved = true →
    let o := (s.x a + im.signExtend 64).toNat
    let at' (k : Nat) : Nat := leNat (memRead s.core.scratch (o + 8 * k) 8)
    let after (t : State) : Prop := s.next t ∧ t.core.scratch = s.core.scratch ∧ t.core.chunk = none ∧
      ∀ g, t.core.fe.getLsbD g = (s.core.fe.getLsbD g && !(c && g == o / 16))
    s.core.fe.getLsbD (o / 16) = true →
    (o + 8 ≤ 0x300000 → o % 8 = 0 → ∃ t, exec (.slLdf d a c im) s = .next t ∧ after t ∧
      t.core.regs = { s.core.regs.wr d (BitVec.ofNat 64 (at' 0)) with pc := s.core.regs.pc + 4 }) ∧
    (o + 16 ≤ 0x300000 → o % 16 = 0 → ∃ t, exec (.slLqf d a c im) s = .next t ∧ after t ∧
      t.core.regs = { (s.core.regs.wr d (BitVec.ofNat 64 (at' 0))).wr (d + 1) (BitVec.ofNat 64 (at' 1)) with
        pc := s.core.regs.pc + 4 }))

/-- A scalar store: its base, displacement, bytes, and the value stored (04 R87). -/
def Claims.store (s : State) : Instr → Option (BitVec 5 × BitVec 12 × Nat × Nat)
  | .ssSb i a b => some (a, i, 1, (s.x b).toNat % 2 ^ 8)
  | .ssSh i a b => some (a, i, 2, (s.x b).toNat % 2 ^ 16)
  | .ssSw i a b => some (a, i, 4, (s.x b).toNat % 2 ^ 32)
  | .ssSd i a b => some (a, i, 8, (s.x b).toNat)
  | .ssSq i a b => some (a, i, 16, (s.x b).toNat + 2 ^ 64 * (s.x (b + 1)).toNat)
  | _ => none

/-- A scalar store to idempotent memory, at any alignment, writes its bytes, low byte first, inside the chunk: the chunk sees them at
the address, every other byte as before, and no home and nothing else changes. A register changes only where the store overtakes a
P = 1 load of one of its bytes (04 R87, R88, 14 R283, 07 R150; logs 1 and 5 for the choice). -/
def Obligations.ScalarStoresWrite : Prop :=
  ∀ (s : State) (i : Instr) (a : BitVec 5) (im : BitVec 12) (n v : Nat),
    let ea := s.x a + im.signExtend 64
    let pa := s.paOf s.core.xl .store ea
    s.Inv → Claims.store s i = some (a, im, n, v) → s.reaches .store n [ea] = true → s.room 2 = true →
      ∃ t vs zs ora, exec i s = .next { t with oracle := ora } ∧
        s.wroteWith { s.core.regs with v := vs, z := zs, pc := s.core.regs.pc + 4 } t ∧ t.seesNat pa n = v ∧
        (∀ q, (q < pa ∨ pa + n ≤ q) → t.sees q = s.sees q) ∧ (s.core.chunkOr.lends = [] → ora = s.oracle) ∧
        ∀ k : Fin 32, (∀ l ∈ s.core.chunkOr.lends, pa ≤ l.pa → l.pa < pa + n → l.reg ≠ k.val) →
          vs.get k = s.core.regs.v.get k ∧ zs.get k = s.core.regs.z.get k

/-- An atomic: its number in the table of 13 R269, its operands, .W and .N. -/
def Claims.atomic : Instr → Option (Nat × BitVec 5 × BitVec 5 × BitVec 5 × Bool × Bool)
  | .amAdd d a b w n => some (0, d, a, b, w, n)
  | .amMin d a b w n => some (1, d, a, b, w, n)
  | .amMax d a b w n => some (2, d, a, b, w, n)
  | .amMinu d a b w n => some (3, d, a, b, w, n)
  | .amMaxu d a b w n => some (4, d, a, b, w, n)
  | .amAnd d a b w n => some (5, d, a, b, w, n)
  | .amOr d a b w n => some (6, d, a, b, w, n)
  | .amXor d a b w n => some (7, d, a, b, w, n)
  | .amSwap d a b w => some (8, d, a, b, w, false)
  | .amCas d a b w => some (9, d, a, b, w, false)
  | _ => none

/-- What an atomic makes of an old value of `k` bits, with x[b] and x[d] (13 R270). -/
def Claims.atomicValue (op k old b d : Nat) : Nat :=
  let si (v : Nat) : Int := if 2 * v < 2 ^ k then v else (v : Int) - 2 ^ k
  let b := b % 2 ^ k
  match op with
  | 0 => (old + b) % 2 ^ k
  | 1 => if si old ≤ si b then old else b
  | 2 => if si old < si b then b else old
  | 3 => min old b
  | 4 => max old b
  | 5 => old &&& b
  | 6 => old ||| b
  | 7 => old ^^^ b
  | 8 => b
  | _ => if old = d % 2 ^ k then b else old

/-- An aligned atomic on idempotent memory of this package: the fetch form writes the new value and returns the old one, sign-extended
under .W, and the no-return form leaves its update pending in the chunk, to be applied at the commit, and writes no register
(13 R269-R272). -/
def Obligations.AtomicsUpdate : Prop :=
  ∀ (s : State) (i : Instr) (op : Nat) (d a b : BitVec 5) (w nr : Bool),
    let n := if w then 4 else 8
    let ea := s.x a
    let pa := s.paOf s.core.xl .store ea
    let old := s.seesNat pa n
    s.Inv → Claims.atomic i = some (op, d, a, b, w, nr) → s.core.wait = none → ea.toNat % n = 0 →
    s.agrees s.core.xl [(.store, ea)] = true → s.plainAt s.core.xl .store n ea = true → s.room 2 = true →
    (nr = false → s.noUpdates = true → ∃ t, exec i s = .next t ∧
      s.wroteWith { s.core.regs.wr d (Claims.extended n true old) with pc := s.core.regs.pc + 4 } t ∧
      t.seesNat pa n = Claims.atomicValue op (8 * n) old (s.x b).toNat (s.x d).toNat ∧
      ∀ q, (q < pa ∨ pa + n ≤ q) → t.sees q = s.sees q) ∧
    (nr = true → ∃ t tlb die used, exec i s = .next t ∧ t = { s with dieTlb := die, core := { s.core with
      regs := { s.core.regs with pc := s.core.regs.pc + 4 }, prog := .retired, wait := none, tlb := tlb
      chunk := some { s.core.chunkOr with
        used := used
        com := s.core.chunkOr.com ++ [⟨pa, n, BitVec.ofNat 4 op, BitVec.ofNat 64 ((s.x b).toNat % 2 ^ (8 * n))⟩] } } })

/-! ### Vector arithmetic -/

/-- Elements `i` of width `w` of the group at v[d] after a VQ instruction: the result `f i` for the elements of the list, the others
as before, and no register beyond the group changed (07 R133, 00 R10). -/
def Claims.elements (r q : Regs) (d : BitVec 5) (g w : Nat) (is : List Nat) (f : Nat → Nat) : Prop :=
  (∀ i, i * w < 16384 * g → q.elem d w i = if i ∈ is then f i % 2 ^ w else r.elem d w i) ∧
  ∀ n, n < 32 → n < d.toNat ∨ d.toNat + g ≤ n → q.vreg n = r.vreg n

/-- The registers `q` are `r` after a VQ instruction that writes vector registers alone: their zero maps follow for the groups of
elements `lo` to `hi` − 1 of width `w` from v[d] (09 R192). -/
def Claims.vectorOnly (r q : Regs) (d : BitVec 5) (w lo hi : Nat) : Prop :=
  q = { r.vecEnd false false with v := q.v, z := ({ r with v := q.v }.rezero d w lo hi).z }

/-- What an element-wise integer instruction makes of an element width, an element of a, one of b and the old one of d, and its
fields: the table of 09 R194. -/
def Claims.vectorInteger : Instr →
    Option (BitVec 5 × BitVec 5 × BitVec 5 × BitVec 4 × Bool × (Nat → Nat → Nat → Nat → Int))
  | .vaAdd d a b m x => some (d, a, b, m, x, fun _ a b _ => (a : Int) + b)
  | .vaSub d a b m x => some (d, a, b, m, x, fun _ a b _ => (a : Int) - b)
  | .vaMul d a b m x => some (d, a, b, m, x, fun _ a b _ => (a : Int) * b)
  | .vaMulh d a b m x => some (d, a, b, m, x, fun w a b _ => sintW w a * sintW w b / 2 ^ w)
  | .vaMulhu d a b m x => some (d, a, b, m, x, fun w a b _ => (a : Int) * b / 2 ^ w)
  | .vaAnd d a b m x => some (d, a, b, m, x, fun _ a b _ => ((a &&& b : Nat) : Int))
  | .vaOr d a b m x => some (d, a, b, m, x, fun _ a b _ => ((a ||| b : Nat) : Int))
  | .vaXor d a b m x => some (d, a, b, m, x, fun _ a b _ => ((a ^^^ b : Nat) : Int))
  | .vaSll d a b m x => some (d, a, b, m, x, fun w a b _ => (a : Int) * 2 ^ (b % w))
  | .vaSrl d a b m x => some (d, a, b, m, x, fun w a b _ => (a : Int) / 2 ^ (b % w))
  | .vaSra d a b m x => some (d, a, b, m, x, fun w a b _ => sintW w a / 2 ^ (b % w))
  | .vaMin d a b m x => some (d, a, b, m, x, fun w a b _ => min (sintW w a) (sintW w b))
  | .vaMax d a b m x => some (d, a, b, m, x, fun w a b _ => max (sintW w a) (sintW w b))
  | .vaMinu d a b m x => some (d, a, b, m, x, fun _ a b _ => ((min a b : Nat) : Int))
  | .vaMaxu d a b m x => some (d, a, b, m, x, fun _ a b _ => ((max a b : Nat) : Int))
  | .vaAdds d a b m x => some (d, a, b, m, x, fun w a b _ =>
      max (-2 ^ (w - 1)) (min (2 ^ (w - 1) - 1) (sintW w a + sintW w b)))
  | .vaAddsu d a b m x => some (d, a, b, m, x, fun w a b _ => min ((a : Int) + b) (2 ^ w - 1))
  | .vaSubs d a b m x => some (d, a, b, m, x, fun w a b _ =>
      max (-2 ^ (w - 1)) (min (2 ^ (w - 1) - 1) (sintW w a - sintW w b)))
  | .vaSubsu d a b m x => some (d, a, b, m, x, fun _ a b _ => max 0 ((a : Int) - b))
  | .vaMacc d a b m x => some (d, a, b, m, x, fun _ a b old => (old : Int) + a * b)
  | _ => none

/-- An element-wise integer instruction under an integer format, on well-placed groups that no engine holds, completes: the active
elements of vd are the results modulo 2^w, b scalar under .X, and nothing else changes (09 R189-R194; log 31 for the zero maps). -/
def Obligations.VectorIntegerResults : Prop :=
  ∀ (s : State) (i : Instr) (d a b : BitVec 5) (m : BitVec 4) (x : Bool) (f : Nat → Nat → Nat → Nat → Int),
    let r := s.core.regs
    let w := fmtWidth r.fmt
    Claims.vectorInteger i = some (d, a, b, m, x, f) → s.calm = true → r.ready (m != 0) false = true → r.lenOk = true →
    r.fmt ≤ 3 → r.groupOk d = true → r.groupOk a = true → (x = false → r.groupOk b = true) →
    ∃ q, exec i s = .next (s.vecRetiredWith q) ∧ Claims.vectorOnly r q d w r.vstart.toNat r.vl.toNat ∧
      Claims.elements r q d r.grp w (r.actives m) fun k =>
        (f w (r.elem a w k) (if x then (s.x b).toNat % 2 ^ w else r.elem b w k) (r.elem d w k) % 2 ^ w).toNat

/-- A compare of integers or of floating-point numbers: its fields, and its truth value and flags for a format and two elements
(09 R191, R194, R196). -/
def Claims.compare : Instr →
    Option (BitVec 4 × BitVec 5 × BitVec 5 × BitVec 4 × Bool × Bool × (Nat → Nat → Nat → Bool × Nat))
  | .vaCeq d a b m x => some (d, a, b, m, x, false, fun _ a b => (decide (a = b), 0))
  | .vaCne d a b m x => some (d, a, b, m, x, false, fun _ a b => (decide (a ≠ b), 0))
  | .vaClt d a b m x => some (d, a, b, m, x, false, fun c a b => (decide (sintW (fmtWidth c) a < sintW (fmtWidth c) b), 0))
  | .vaCle d a b m x => some (d, a, b, m, x, false, fun c a b => (decide (sintW (fmtWidth c) a ≤ sintW (fmtWidth c) b), 0))
  | .vaCltu d a b m x => some (d, a, b, m, x, false, fun _ a b => (decide (a < b), 0))
  | .vaCleu d a b m x => some (d, a, b, m, x, false, fun _ a b => (decide (a ≤ b), 0))
  | .vfCeq d a b m x => some (d, a, b, m, x, true, fpEq)
  | .vfClt d a b m x => some (d, a, b, m, x, true, fpLt)
  | .vfCle d a b m x => some (d, a, b, m, x, true, fpLe)
  | .vfCun d a b m x => some (d, a, b, m, x, true, fpUn)
  | _ => none

/-- A vector compare on well-placed groups completes: the active bits of m[d] are the truth values, its other bits and every other
mask register are kept, the flags accrue, and nothing else changes. No floating-point flag is enabled, and no operand read as
binary32 is a token (09 R189-R191, R194, R196; that VS turns dirty, and MS with no active element, is log 7). -/
def Obligations.VectorComparesWriteAMask : Prop :=
  ∀ (s : State) (i : Instr) (d m : BitVec 4) (a b : BitVec 5) (x fp : Bool) (f : Nat → Nat → Nat → Bool × Nat),
    let r := s.core.regs
    let w := fmtWidth r.fmt
    let va := r.elem a w
    let vb (k : Nat) : Nat := if x then (s.x b).toNat % 2 ^ w else r.elem b w k
    Claims.compare i = some (d, a, b, m, x, fp, f) → s.calm = true → r.ready true false = true → r.untrapped = true →
    (if fp then 4 ≤ r.fmt ∧ r.fmt ≤ 7 else r.fmt ≤ 3) → r.groupOk a = true → (x = false → r.groupOk b = true) →
    (r.fmt = 5 → ∀ k ∈ r.actives m, isToken (va k) = false ∧ isToken (vb k) = false) → r.lenOk = true →
    ∃ q, exec i s = .next (s.vecRetiredWith q) ∧
      q = { r.vecEnd true false with
        m := q.m
        fst := ((r.actives m).foldl (fun u k => u.accrue (f r.fmt (va k) (vb k)).2) r).fst } ∧
      ∀ n k, k < 4096 → q.maskBit n k = if n = d ∧ k ∈ r.actives m then (f r.fmt (va k) (vb k)).1 else r.maskBit n k

/-- A widening accumulation: its fields, and whether its operands are signed integers, unsigned integers or floating-point numbers
(09 R195). -/
def Claims.widening : Instr → Option (BitVec 5 × BitVec 5 × BitVec 5 × BitVec 4 × Bool × Option Bool)
  | .vaWmacc d a b m x => some (d, a, b, m, x, some true)
  | .vaWmaccu d a b m x => some (d, a, b, m, x, some false)
  | .vfWmacc d a b m x => some (d, a, b, m, x, none)
  | _ => none

/-- A widening accumulation on well-placed groups that do not overlap completes: each active element of the wide group at v[d] takes
the product, wrapped to the wide width or rounded once, and nothing else changes but the flags (09 R195, R192; log 31 for the zero
maps). -/
def Obligations.WideningAccumulationsAdd : Prop :=
  ∀ (s : State) (i : Instr) (d a b : BitVec 5) (m : BitVec 4) (x : Bool) (sg : Option Bool),
    let r := s.core.regs
    let k := fmtWidth r.fmt
    let cw := if sg.isSome then (if r.fmt = 0 then 2 else 3) else wideFp r.fmt
    let kw := fmtWidth cw
    let gd := r.grp * (kw / k)
    let va := r.elem a k
    let vb (j : Nat) : Nat := if x then (s.x b).toNat % 2 ^ k else r.elem b k j
    let old := r.elem d kw
    let fp (j : Nat) : Nat × Nat := fpFused r.fmt cw r.rm false false (va j) (vb j) (old j)
    let int (sg : Bool) (v : Nat) : Int := if sg then sintW k v else v
    Claims.widening i = some (d, a, b, m, x, sg) → s.calm = true → r.ready (m != 0) false = true → r.untrapped = true →
    r.lenOk = true → (if sg.isSome then r.fmt ≤ 2 else 5 ≤ r.fmt ∧ r.fmt ≤ 10) → gd ≤ 8 → groupOk gd d = true →
    (r.groupOk a = true ∧ overlap d gd a r.grp = false) → (x = false → r.groupOk b = true ∧ overlap d gd b r.grp = false) →
    (sg = none → ∀ j ∈ r.actives m,
      if r.fmt = 5 then isToken (va j) = false ∧ isToken (vb j) = false else isToken (old j) = false) →
    ∃ q, exec i s = .next (s.vecRetiredWith q) ∧
      q = { r.vecEnd false false with
        v := q.v, z := ({ r with v := q.v }.rezero d kw r.vstart.toNat r.vl.toNat).z
        fst := if sg.isSome then r.fst else ((r.actives m).foldl (fun u j => u.accrue (fp j).2) r).fst } ∧
      Claims.elements r q d gd kw (r.actives m) fun j => match sg with
        | some sg => ((old j + int sg (va j) * int sg (vb j)) % 2 ^ kw).toNat
        | none => (fp j).1

/-- An element-wise floating-point instruction: its fields, the operands it reads, and its result and flags for a format, a rounding
mode, elements of a and b and the old one of d (09 R196). -/
def Claims.vectorFloat : Instr → Option (BitVec 5 × BitVec 5 × Option (BitVec 5) × BitVec 4 × Bool ×
    (Nat → Nat → Nat → List Nat) × (Nat → Nat → Nat → Nat → Nat → Nat × Nat))
  | .vfAdd d a b m x => some (d, a, some b, m, x, fun a b _ => [a, b], fun c r a b _ => fpAdd c r a b)
  | .vfSub d a b m x => some (d, a, some b, m, x, fun a b _ => [a, b], fun c r a b _ => fpSub c r a b)
  | .vfMul d a b m x => some (d, a, some b, m, x, fun a b _ => [a, b], fun c r a b _ => fpMulOp c r a b)
  | .vfDiv d a b m x => some (d, a, some b, m, x, fun a b _ => [a, b], fun c r a b _ => fpDivOp c r a b)
  | .vfSqrt d a m => some (d, a, none, m, true, fun a _ _ => [a], fun c r a _ _ => fpSqrtOp c r a)
  | .vfFma d a b m x => some (d, a, some b, m, x, fun a b z => [a, b, z], fun c r a b z => fpFused c c r false false a b z)
  | .vfFms d a b m x => some (d, a, some b, m, x, fun a b z => [a, b, z], fun c r a b z => fpFused c c r false true a b z)
  | .vfFnma d a b m x => some (d, a, some b, m, x, fun a b z => [a, b, z], fun c r a b z => fpFused c c r true false a b z)
  | .vfMin d a b m x => some (d, a, some b, m, x, fun a b _ => [a, b], fun c _ a b _ => fpMinMax c false a b)
  | .vfMax d a b m x => some (d, a, some b, m, x, fun a b _ => [a, b], fun c _ a b _ => fpMinMax c true a b)
  | .vfSgnj d a b m x => some (d, a, some b, m, x, fun a b _ => [a, b], fun c _ a b _ => (withSign c a (signOf c b), 0))
  | .vfSgnjn d a b m x => some (d, a, some b, m, x, fun a b _ => [a, b], fun c _ a b _ => (withSign c a (!signOf c b), 0))
  | .vfSgnjx d a b m x => some (d, a, some b, m, x, fun a b _ => [a, b],
      fun c _ a b _ => (withSign c a (signOf c a != signOf c b), 0))
  | _ => none

/-- An instruction of major VF that writes vd in the element format (all but the compares and VF.WMACC), under a floating-point format
and on well-placed groups. With no flag enabled and no token read it completes: the active elements of vd are the results, the flags
accrue, and nothing else changes. An element that would be refused, for a token among the operands that it reads as binary32 or for
a flag that is enabled, stops it before that element: the trap gives the token, or the element's flags, VSTART is that element, the
elements below it are complete, and no later one changes (09 R189-R192, R196, 08 R172, R174, 17 R338, R346, 15 R303; log 31 for the
zero maps). -/
def Obligations.VectorFloatResults : Prop :=
  (∀ (s : State) (i : Instr) (d a : BitVec 5) (b : Option (BitVec 5)) (m : BitVec 4) (x : Bool) (ops : Nat → Nat → Nat → List Nat)
    (f : Nat → Nat → Nat → Nat → Nat → Nat × Nat),
    let r := s.core.regs
    let w := fmtWidth r.fmt
    let va := r.elem a w
    let vb (k : Nat) : Nat := if x then (s.x (b.getD 0)).toNat % 2 ^ w else r.elem (b.getD 0) w k
    let old := r.elem d w
    let res (k : Nat) : Nat × Nat := f r.fmt r.rm (va k) (vb k) (old k)
    Claims.vectorFloat i = some (d, a, b, m, x, ops, f) → s.calm = true → r.ready (m != 0) false = true → r.untrapped = true →
    r.lenOk = true → 4 ≤ r.fmt → r.fmt ≤ 7 → r.groupOk d = true → r.groupOk a = true →
    (x = false → r.groupOk (b.getD 0) = true) →
    (r.fmt = 5 → ∀ k ∈ r.actives m, ∀ v ∈ ops (va k) (vb k) (old k), isToken v = false) →
    ∃ q, exec i s = .next (s.vecRetiredWith q) ∧
      q = { r.vecEnd false false with
        v := q.v, z := ({ r with v := q.v }.rezero d w r.vstart.toNat r.vl.toNat).z
        fst := ((r.actives m).foldl (fun u k => u.accrue (res k).2) r).fst } ∧
      Claims.elements r q d r.grp w (r.actives m) fun k => (res k).1) ∧
  (∀ (s : State) (i : Instr) (d a : BitVec 5) (b : Option (BitVec 5)) (m : BitVec 4) (x : Bool) (ops : Nat → Nat → Nat → List Nat)
    (f : Nat → Nat → Nat → Nat → Nat → Nat × Nat) (k : Nat) (before after : List Nat) (c : Cause) (tval : Nat),
    let r := s.core.regs
    let w := fmtWidth r.fmt
    let va := r.elem a w
    let vb (j : Nat) : Nat := if x then (s.x (b.getD 0)).toNat % 2 ^ w else r.elem (b.getD 0) w j
    let old := r.elem d w
    let res (j : Nat) : Nat × Nat := f r.fmt r.rm (va j) (vb j) (old j)
    let token (j : Nat) : Option Nat := if r.fmt = 5 then (ops (va j) (vb j) (old j)).find? isToken else none
    let q0 := s.dropLends
    Claims.vectorFloat i = some (d, a, b, m, x, ops, f) → s.calm = true → s.unreserved = true → r.ready (m != 0) false = true →
    r.lenOk = true → 4 ≤ r.fmt → r.fmt ≤ 7 → r.groupOk d = true → r.groupOk a = true →
    (x = false → r.groupOk (b.getD 0) = true) → r.actives m = before ++ k :: after →
    (∀ j ∈ before, token j = none ∧ (r.fst.toNat / 2 ^ 11) &&& ((res j).2 % 32) = 0) →
    (token k = some tval ∧ c = .verdictOperand ∨
      token k = none ∧ (r.fst.toNat / 2 ^ 11) &&& ((res k).2 % 32) ≠ 0 ∧ c = .fp ∧ tval = (res k).2) →
    ∃ q, exec i s = .next (takeTrap c false (BitVec.ofNat 64 tval) (some r.seq) { q0 with
        core := { q0.core with regs := { q with seq := r.seq + 1 }, halt := none } }) ∧
      q = { r.dirty true false false with
        v := q.v, z := ({ r with v := q.v }.rezero d w r.vstart.toNat k).z, vstart := BitVec.ofNat 64 k
        fst := (before.foldl (fun u j => u.accrue (res j).2) r).fst } ∧
      Claims.elements r q d r.grp w before fun j => (res j).1)

/-! ### Moves, reductions, masks and conversions -/

/-- What a move gives element `i` of vd: nothing, or a value; with its fields, whether every element format is allowed or integers
alone, and its vector sources (09 R198). -/
def Claims.move (s : State) : Instr → Option (BitVec 5 × BitVec 4 × Bool × List (BitVec 5) × (Nat → Option Nat))
  | .vxMov d a m => some (d, m, false, [a], fun i => some (s.core.regs.elem a (fmtWidth s.core.regs.fmt) i))
  | .vxBcst d a m => some (d, m, false, [], fun _ => some (s.x a).toNat)
  | .vxIdx d m => some (d, m, true, [], fun i => some i)
  | .vxPerm d a b m =>
    let r := s.core.regs; let w := fmtWidth r.fmt
    some (d, m, false, [a, b], fun i => some (if r.elem b w i < r.vl.toNat then r.elem a w (r.elem b w i) else 0))
  | .vxSlup d a b m =>
    let r := s.core.regs; let w := fmtWidth r.fmt; let n := (s.x b).toNat
    some (d, m, false, [a], fun i => if n ≤ i then some (r.elem a w (i - n)) else none)
  | .vxSldn d a b m =>
    let r := s.core.regs; let w := fmtWidth r.fmt; let n := (s.x b).toNat
    some (d, m, false, [a], fun i => some (if i + n < r.vl.toNat then r.elem a w (i + n) else 0))
  | .vxSl1up d a b m =>
    let r := s.core.regs; let w := fmtWidth r.fmt
    some (d, m, false, [a], fun i => some (if i = 0 then (s.x b).toNat else r.elem a w (i - 1)))
  | _ => none

/-- A move under an element format reads every source before it writes, and completes: the active elements of vd are what the table
gives them, and nothing else changes. VX.INS writes one element, and VX.XTR reads one into x[d]; under BFP, VX.MOV moves the planes
of the active elements and the header of each block that holds one, and no other bit (09 R197, R198, R200; log 7 for VX.XTR, which
marks VS dirty, log 31 for the zero maps, log 37 for the bits of a block above its planes). -/
def Obligations.VectorMovesPlaceElements : Prop :=
  ∀ (s : State) (i : Instr) (d a b : BitVec 5) (m : BitVec 4) (int : Bool) (vs : List (BitVec 5)) (f : Nat → Option Nat),
    let r := s.core.regs
    let w := fmtWidth r.fmt
    let j := (s.x b).toNat
    let blk (k : Nat) : List Nat := (r.actives m).filter fun j => j / 32 == k
    s.calm = true → r.ready (m != 0) false = true → r.lenOk = true →
    (Claims.move s i = some (d, m, int, vs, f) → r.groupOk d = true → r.fmt ≤ (if int then 3 else 10) → vs.all r.groupOk = true →
      ∃ q, exec i s = .next (s.vecRetiredWith q) ∧ Claims.vectorOnly r q d w r.vstart.toNat r.vl.toNat ∧
        Claims.elements r q d r.grp w ((r.actives m).filter fun k => (f k).isSome) fun k => (f k).getD 0) ∧
    (r.groupOk d = true → r.fmt ≤ 10 → ∃ q, exec (.vxIns d a b) s = .next (s.vecRetiredWith q) ∧ Claims.elements r q d r.grp w
      ([j].filter fun k => decide (r.vstart.toNat ≤ k ∧ k < r.vl.toNat)) (fun _ => (s.x a).toNat) ∧
      (r.vstart.toNat ≤ j ∧ j < r.vl.toNat → Claims.vectorOnly r q d w r.vstart.toNat r.vl.toNat) ∧
      (¬ (r.vstart.toNat ≤ j ∧ j < r.vl.toNat) → q = r.vecEnd false false)) ∧
    (r.groupOk a = true → r.fmt ≤ 10 → exec (.vxXtr d a b) s = .next (s.vecRetiredWith { (r.wr d (BitVec.ofNat 64
      (if j < r.vl.toNat then r.elem a w j else 0))).vecEnd false false with pc := r.pc + 4 })) ∧
    (isBfp r.fmt = true → r.groupOk d = true → r.groupOk a = true → ∃ q, exec (.vxMov d a m) s = .next (s.vecRetiredWith q) ∧
      Claims.vectorOnly r q d 16 r.vstart.toNat r.vl.toNat ∧
      (∀ k, k < 32 * r.grp → ∀ p, p < 512 → (q.block d k).testBit p =
        if blk k ≠ [] ∧ (p < 32 ∨ (p < 8 * elemBytes r.fmt ∧ 32 * k + p % 32 ∈ r.actives m)) then (r.block a k).testBit p
        else (r.block d k).testBit p) ∧
      ∀ n, n < 32 → n < d.toNat ∨ d.toNat + r.grp ≤ n → q.vreg n = r.vreg n)

/-- VX.COMPRESS, VX.EXPAND and the whole-register shifts complete with VSTART 0 on well-placed groups: the selected elements move to
the front, or the front to the selected places; a shift moves the whole string of VL elements by x[b] bits, VX.FSHW that of va with that
of vd above it, and keeps every bit beyond the string (09 R198, R199). -/
def Obligations.VectorSelectionsAndShifts : Prop :=
  ∀ (s : State) (d a b : BitVec 5) (m : BitVec 4),
    let r := s.core.regs
    let w := fmtWidth r.fmt
    let sel := r.selected m
    let l := r.vl.toNat * w
    let sh := (s.x b).toNat
    s.calm = true → r.ready (m != 0) false = true → r.lenOk = true → r.fmt ≤ 10 → r.vstart = 0 → r.groupOk d = true →
    r.groupOk a = true →
    (overlap d r.grp a r.grp = false → ∃ q, exec (.vxCompress d a m) s = .next (s.vecRetiredWith q) ∧
      Claims.vectorOnly r q d w 0 r.vl.toNat ∧
      Claims.elements r q d r.grp w (List.range sel.length) fun k => r.elem a w (sel.getD k 0)) ∧
    (∃ q, exec (.vxExpand d a m) s = .next (s.vecRetiredWith q) ∧ Claims.vectorOnly r q d w 0 r.vl.toNat ∧
      Claims.elements r q d r.grp w sel fun k => r.elem a w (sel.idxOf k)) ∧
    ∀ i ∈ [Instr.vxShlw d a b, .vxShrw d a b, .vxFshw d a b],
      ∃ q, exec i s = .next (s.vecRetiredWith q) ∧ Claims.vectorOnly r q d w 0 r.vl.toNat ∧
        (∀ n, n < 32 → n < d.toNat ∨ d.toNat + r.grp ≤ n → q.vreg n = r.vreg n) ∧
        (i = .vxShlw d a b → q.bitString d l = r.bitString a l * 2 ^ sh % 2 ^ l) ∧
        (i = .vxShrw d a b → q.bitString d l = r.bitString a l / 2 ^ sh) ∧
        (i = .vxFshw d a b → q.bitString d l = (r.bitString d l * 2 ^ l + r.bitString a l) / 2 ^ sh % 2 ^ l) ∧
        q.bitString d (16384 * r.grp) / 2 ^ l = r.bitString d (16384 * r.grp) / 2 ^ l

/-- A reduction: its kind and fields, b being 0 where it has none, and the format of vb (09 R201, R204). -/
def Claims.fold (c : Nat) : Instr → Option (Fold × BitVec 5 × BitVec 5 × BitVec 5 × BitVec 4 × Bool × Nat)
  | .vrSum d a m s => some (.sum, d, a, 0, m, s, c)
  | .vrMax d a m s => some (.max, d, a, 0, m, s, c)
  | .vrMin d a m s => some (.min, d, a, 0, m, s, c)
  | .vrMaxu d a m s => some (.maxu, d, a, 0, m, s, c)
  | .vrMinu d a m s => some (.minu, d, a, 0, m, s, c)
  | .vrAnd d a m s => some (.and, d, a, 0, m, s, c)
  | .vrOr d a m s => some (.or, d, a, 0, m, s, c)
  | .vrXor d a m s => some (.xor, d, a, 0, m, s, c)
  | .vrMaxabs d a m s => some (.maxabs, d, a, 0, m, s, c)
  | .vrDot d a b m s => some (.dot, d, a, b, m, s, c)
  | .vrDotu d a b m s => some (.dotu, d, a, b, m, s, c)
  | .vrDotb d a b m s k => some (.dotb, d, a, b, m, s, 16 + k.toNat)
  | _ => none

/-- A fold of integers of `w` bits: exact, wrapped once where it is a sum, and of no element the value of its rule (09 R203). -/
def Claims.intFold (f : Fold) (w : Nat) (x y : Nat → Nat) (is : List Nat) (v : Nat) : Prop :=
  let best (none : Nat) (le : Nat → Nat → Prop) : Prop := if is = [] then v = none else (∃ i ∈ is, v = x i) ∧ ∀ i ∈ is, le (x i) v
  v < 2 ^ w ∧ match f with
    | .max => best (2 ^ (w - 1)) fun a b => sintW w a ≤ sintW w b
    | .min => best (2 ^ (w - 1) - 1) fun a b => sintW w b ≤ sintW w a
    | .maxu => best 0 (· ≤ ·)
    | .minu => best (2 ^ w - 1) (· ≥ ·)
    | .and => ∀ j, j < w → v.testBit j = is.all fun i => (x i).testBit j
    | .or => ∀ j, j < w → v.testBit j = is.any fun i => (x i).testBit j
    | .xor => ∀ j, j < w → v.testBit j = ((is.filter fun i => (x i).testBit j).length % 2 == 1)
    | .dot => (v : Int) = (is.map fun i => sintW w (x i) * sintW w (y i)).sum % 2 ^ w
    | .dotu => v = (is.map fun i => x i * y i).sum % 2 ^ w
    | _ => v = (is.map x).sum % 2 ^ w

/-- The segment of element `i`: how many elements above VSTART, up to `i`, mask m flags under `.S` (08 R175, 09 R201). -/
def Claims.segment (r : Regs) (m : BitVec 4) (sg : Bool) (i : Nat) : Nat :=
  if sg = true ∧ m ≠ 0 then ((List.range' (r.vstart.toNat + 1) (i - r.vstart.toNat)).filter (r.maskBit m)).length else 0

/-- A reduction under a format that it accepts, on well-placed groups, with no flag enabled and no token read, completes: it writes the
result of segment k at position k of the destination group, every segment taken in the fixed order, and nothing else but the flags.
A scan writes each active element of vd with the fold of its segment up to it, and VR.LASTA writes x[d] with the last active
element, or leaves it when there is none (08 R175, 09 R201-R205, 10 R223; log 7 for VR.LASTA, which marks VS dirty, log 31 for the
zero maps, log 32 for the sign of a zero sum, log 40 for the flags of a sum). Segments begin at VSTART and at each flagged element. A fold
of integers is exact; a sum or a dot product of numbers takes each block of 32 positions exactly, rounds it once, and adds the block
results in order (08 R175 steps 2 to 4); the greatest and the least of numbers is one of them, the largest magnitude is rounded once to
binary32, and a fold of no element gives the value of 09 R203. -/
def Obligations.ReductionsAndScans : Prop :=
  (∀ (s : State) (i : Instr) (f : Fold) (d a b : BitVec 5) (m : BitVec 4) (sg : Bool) (cb : Nat),
    let r := s.core.regs
    let rw := fmtWidth (f.result r.fmt)
    let gd := foldGroup r rw
    let rs := foldSegments f r cb a b m sg
    Claims.fold r.fmt i = some (f, d, a, b, m, sg, cb) → s.calm = true → r.ready (m != 0) false = true → r.untrapped = true →
    r.lenOk = true → f.accepts r.fmt = true → r.groupOk a = true → groupOk gd d = true →
    (f.two = true → (if f = .dotb then groupOk (max 1 (r.vlmax / 1024)) b else r.groupOk b) = true) →
    foldToken r.fmt cb f.two (termsOf r r.fmt cb a b) (r.actives (governing m sg)) = none →
    let act := r.actives (governing m sg)
    let of (k : Nat) : List Nat := act.filter fun j => Claims.segment r m sg j == k
    rs.length = (if r.vstart.toNat < r.vl.toNat then Claims.segment r m sg (r.vl.toNat - 1) + 1 else 0) ∧
    (∀ k, k < rs.length → (r.fmt ≤ 3 →
        Claims.intFold f rw (r.elem a rw) (r.elem b rw) (of k) (rs.getD k (0, 0)).1 ∧ (rs.getD k (0, 0)).2 = 0) ∧
      (3 < r.fmt → rs.getD k (0, 0) = foldFp f (f.result r.fmt) r.rm ((r.span.find? fun j => Claims.segment r m sg j == k).getD 0)
        (termsOf r r.fmt cb a b) (of k))) ∧
    ∃ q, exec i s = .next (s.vecRetiredWith q) ∧
      q = { r.vecEnd false false with
        v := q.v, z := ({ r with v := q.v }.rezero d rw 0 rs.length).z, fst := (r.accrue (flagUnion rs)).fst } ∧
      (∀ k, k * rw < 16384 * gd → q.elem d rw k = if k < rs.length then (rs.getD k (0, 0)).1 % 2 ^ rw else r.elem d rw k) ∧
      ∀ n, n < 32 → n < d.toNat ∨ d.toNat + gd ≤ n → q.vreg n = r.vreg n) ∧
  (∀ (s : State) (d a : BitVec 5) (m : BitVec 4) (sg mx : Bool),
    let r := s.core.regs
    let w := fmtWidth r.fmt
    let rs := scanResults r mx a m sg
    s.calm = true → r.ready (m != 0) false = true → r.untrapped = true → r.lenOk = true → r.groupOk a = true →
    (r.groupOk d = true → r.fmt ≤ 7 →
      foldToken r.fmt r.fmt false (termsOf r r.fmt r.fmt a a) (r.actives (governing m sg)) = none →
      (∀ k ∈ r.actives (governing m sg), ∃ v, rs.find? (·.1 == k) = some (k, v) ∧
        let seg := Claims.segment r m sg k
        let is := (r.actives (governing m sg)).filter fun j => Claims.segment r m sg j == seg && decide (j ≤ k)
        (r.fmt ≤ 3 → Claims.intFold (if mx then .max else .sum) w (r.elem a w) (r.elem a w) is v.1 ∧ v.2 = 0) ∧
        (3 < r.fmt → v = foldFp (if mx then .max else .sum) r.fmt r.rm ((r.span.find? fun j => Claims.segment r m sg j == seg).getD 0)
          (termsOf r r.fmt r.fmt a a) is)) ∧
      ∃ q, exec (if mx then .vrScanmax d a m sg else .vrScan d a m sg) s = .next (s.vecRetiredWith q) ∧
        q = { r.vecEnd false false with
          v := q.v, z := ({ r with v := q.v }.rezero d w r.vstart.toNat r.vl.toNat).z
          fst := (r.accrue (flagUnion (rs.map (·.2)))).fst } ∧
        Claims.elements r q d r.grp w (r.actives (governing m sg)) fun k =>
          ((rs.find? fun p => p.1 == k).map (·.2.1)).getD 0) ∧
    (r.fmt ≤ 10 → exec (.vrLasta d a m) s = .next (s.vecRetiredWith { (match (r.actives m).getLast? with
      | some k => r.wr d (BitVec.ofNat 64 (r.elem a w k))
      | none => r).vecEnd false false with pc := r.pc + 4 }))) ∧
  (∀ (c mode lo : Nat) (t : Terms) (is : List Nat) (greater : Bool),
    let v := foldFp (if greater then .max else .min) c mode lo t is
    (is = [] → v = (fpMax c + 1 + if greater then 2 ^ (fpWidth c - 1) else 0, 0)) ∧
    (is ≠ [] → 4 ≤ c → c ≤ 7 → (∀ i ∈ is, Claims.finite c (t.a i) = true ∧ t.xa i = fpDecode c (t.a i)) → v.2 = 0 ∧ (∃ i ∈ is, v.1 = t.a i) ∧
      ∀ i ∈ is, if greater then Claims.value c (t.a i) ≤ Claims.value c v.1 else Claims.value c v.1 ≤ Claims.value c (t.a i)) ∧
    (is = [] → foldFp .maxabs c mode lo t is = (0, 0)) ∧
    (is ≠ [] → (∀ i ∈ is, Claims.exact (t.xa i) = true) → ∃ i ∈ is, (∀ j ∈ is, |Claims.real (t.xa j)| ≤ |Claims.real (t.xa i)|) ∧
      Claims.rounded 5 mode |Claims.real (t.xa i)| (foldFp .maxabs c mode lo t is))) ∧
  ∀ (f : Fold) (c mode lo : Nat) (t : Terms) (is : List Nat), f ∈ [Fold.sum, .dot, .dotb] → c = 4 ∨ c = 5 → is.Pairwise (· < ·) →
    (∀ i ∈ is, lo ≤ i ∧ Claims.exact (t.xa i) = true ∧ (f.two = true → Claims.exact (t.xb i) = true)) →
    let term (i : Nat) : ℝ := Claims.real (t.xa i) * if f.two then Claims.real (t.xb i) else 1
    ∃ p : Nat → Nat × Nat,
      (∀ k, (∃ i ∈ is, (i - lo) / 32 = k) →
        Claims.rounded c mode ((is.filter fun i => (i - lo) / 32 == k).map term).sum (p k)) ∧
      foldFp f c mode lo t is = match (is.map fun i => (i - lo) / 32).eraseDups with
        | [] => (0, 0)
        | k :: ks => ks.foldl (fun acc k => let q := fpAdd c mode acc.1 (p k).1; (q.1, acc.2 ||| (p k).2 ||| q.2)) (p k)

/-- A VQ instruction that its own rule makes illegal traps with its word and its sequence number, which it has consumed, and has
changed nothing (02 R26, R27, 15 R303). -/
def Claims.illegal (s : State) (i : Instr) : State :=
  takeTrap .illegal false (tvalWord (encode i)) (some s.core.regs.seq)
    (s.dropLends.mapRegs fun r => { r with seq := r.seq + 1 })

/-- Mask logic: its fields, the masks it reads, and each active bit (10 R216). -/
def Claims.maskLogic (r : Regs) : Instr → Option (BitVec 4 × BitVec 4 × (Nat → Bool))
  | .vpAnd d a b m => some (d, m, fun k => r.maskBit a k && r.maskBit b k)
  | .vpOr d a b m => some (d, m, fun k => r.maskBit a k || r.maskBit b k)
  | .vpXor d a b m => some (d, m, fun k => r.maskBit a k != r.maskBit b k)
  | .vpAndn d a b m => some (d, m, fun k => r.maskBit a k && !r.maskBit b k)
  | .vpSet d m => some (d, m, fun _ => true)
  | .vpClr d m => some (d, m, fun _ => false)
  | _ => none

/-- The mask instructions complete when vector and mask state are on and no register is open: logic writes the active bits; VP.CNT,
VP.FFS and VP.MRD write x[d]; VP.MWR and VP.ZMAP write their words of m[d], VP.MWR none when x[b] is 64 or more, and VP.ZMAP traps
ILLEGAL unless va is a multiple of G; every other bit of every mask is kept (10 R216, R218, and R217 but for the read queue; log 7
for the dirty marks: VS after each, MS after each that names a mask to write but VP.MWR from 64 on). -/
def Obligations.MasksAreReadAndWritten : Prop :=
  ∀ (s : State) (i : Instr) (d : BitVec 5) (a b : BitVec 5) (ma md m : BitVec 4) (f : Nat → Bool),
    let r := s.core.regs
    let hits := (r.actives m).filter (r.maskBit ma)
    let word (v : Word) : Out := .next (s.vecRetiredWith { (r.wr d v).vecEnd false false with pc := r.pc + 4 })
    let mask (i : Instr) (is : List Nat) (f : Nat → Bool) : Prop := ∃ q, exec i s = .next (s.vecRetiredWith q) ∧
      q = { r.vecEnd true false with m := q.m } ∧
      ∀ n k, k < 4096 → q.maskBit n k = if n = md ∧ k ∈ is then f k else r.maskBit n k
    s.calm = true → r.ready true false = true → r.lenOk = true →
    (Claims.maskLogic r i = some (md, m, f) → mask i (r.actives m) f) ∧
    exec (.vpCnt d ma m) s = word (BitVec.ofNat 64 hits.length) ∧
    exec (.vpFfs d ma m) s = word ((hits.head?.map (BitVec.ofNat 64)).getD (BitVec.allOnes 64)) ∧
    exec (.vpMrd d ma b) s =
      word (if (s.x b).toNat < 64 then (r.m.get ⟨ma.toNat, ma.isLt⟩).extractLsb' (64 * (s.x b).toNat) 64 else 0) ∧
    ((s.x b).toNat < 64 →
      mask (.vpMwr md a b) ((List.range 4096).filter fun k => k / 64 == (s.x b).toNat) (fun k => (s.x a).getLsbD (k % 64))) ∧
    (64 ≤ (s.x b).toNat → exec (.vpMwr md a b) s = .next (s.vecRetiredWith { r.vecEnd false false with pc := r.pc + 4 })) ∧
    (r.groupOk a = true → mask (.vpZmap md a) (List.range (32 * r.grp))
      fun k => (r.z.toList.getD (a.toNat + k / 32) 0).getLsbD (k % 32)) ∧
    (r.groupOk a = false → s.unreserved = true → exec (.vpZmap md a) s = .next (Claims.illegal s (.vpZmap md a)))

/-- VP.UPTO, VP.CONF and VP.PART complete on well-placed groups: the bits before, or up to, the first hit; for each active element the
last earlier active element with its key whose condition holds, or all ones; and the run that begins at x[b], which sets VL to its
end under .SETVL. VP.CONF and VP.PART trap ILLEGAL under a format other than .w and .d. The words are those of the rules (10 R219-R221;
log 7 for the dirty marks, log 31 for the zero maps). -/
def Obligations.PartitionsAndConflicts : Prop :=
  decode 0x5CA40050 = .ok (.vpUpto 5 4 0 true) ∧ decode 0x5CE30009 = .ok (.vpFfs 7 3 0) ∧
  decode 0x5CA41098 = .ok (.vpConf 5 4 2 1) ∧
  ∀ (s : State) (d a b : BitVec 5) (ma md mc m : BitVec 4) (z : Bool),
    let r := s.core.regs
    let w := fmtWidth r.fmt
    let first := ((List.range r.vl.toNat).find? fun k => r.governs m k && r.maskBit ma k).getD r.vl.toNat
    let stop := ((List.range r.vl.toNat).find? fun k => decide ((s.x b).toNat < k) && r.governs m k &&
      decide (((s.x b).toNat : Int) ≤ sintW w (r.elem a w k))).getD r.vl.toNat
    s.calm = true → r.ready true false = true → r.lenOk = true →
    (r.fmt ≠ 2 → r.fmt ≠ 3 → s.unreserved = true → ∀ i ∈ [Instr.vpConf d a mc m, .vpPart md a b m z],
      exec i s = .next (Claims.illegal s i)) ∧
    (r.vstart = 0 → ∃ q, exec (.vpUpto md ma m z) s = .next (s.vecRetiredWith q) ∧ q = { r.vecEnd true false with m := q.m } ∧
      ∀ n k, k < 4096 → q.maskBit n k = if n = md ∧ k < r.vl.toNat then r.governs m k && decide (k < first ∨ (z ∧ k = first))
        else r.maskBit n k) ∧
    (r.fmt = 2 ∨ r.fmt = 3 → r.groupOk a = true →
      (r.groupOk d = true → ∃ q, exec (.vpConf d a mc m) s = .next (s.vecRetiredWith q) ∧
        Claims.vectorOnly r q d w r.vstart.toNat r.vl.toNat ∧
        Claims.elements r q d r.grp w (r.actives m) fun k => (((r.actives m).filter fun j =>
          decide (j < k) && r.elem a w j == r.elem a w k && r.governs mc j).getLast?).getD (2 ^ w - 1)) ∧
      (r.vstart = 0 → ∃ q, exec (.vpPart md a b m z) s = .next (s.vecRetiredWith q) ∧
        q = { r.vecEnd true false with m := q.m, vl := if z then BitVec.ofNat 64 stop else r.vl } ∧
        ∀ n k, k < 4096 → q.maskBit n k = if n = md ∧ k < r.vl.toNat then
          r.governs m k && decide ((s.x b).toNat ≤ k ∧ k < stop) else r.maskBit n k))

/-- A conversion element by element: its fields, whether it accepts a source and a destination format, its rm field, and its result
and flags for a source format, a rounding mode, a draw and an element (09 R206, R207). -/
def Claims.convert : Instr → Option (BitVec 5 × BitVec 5 × BitVec 5 × BitVec 4 × BitVec 3 × (Nat → Nat → Bool) ×
    (Nat → Nat → Nat → Nat → Nat × Nat))
  | .vvCvt d a c m r => some (d, a, c, m, r, cvtOk, fun k md dr v => fpConvert k c.toNat md dr v)
  | .vvF32f4 d a c m r => some (d, a, c, m, r, fun k e => k == 5 && e == 10, fun _ md dr v => fpConvert 5 10 md dr v)
  | .vvFtoi d a c m r => some (d, a, c, m, r, sameWidth, fun k md dr v => toInteger (fmtWidth k) true md dr (fpDecode k v))
  | .vvFtou d a c m r => some (d, a, c, m, r, sameWidth, fun k md dr v => toInteger (fmtWidth k) false md dr (fpDecode k v))
  | .vvItof d a c m r => some (d, a, c, m, r, fun k e => sameWidth e k,
      fun k md dr v => fpRound c.toNat md dr (Fp.ofInt (sintW (fmtWidth k) v)))
  | .vvUtof d a c m r => some (d, a, c, m, r, fun k e => sameWidth e k, fun _ md dr v => fpRound c.toNat md dr (Fp.ofInt v))
  | .vvSext d a c m => some (d, a, c, m, 1, fun k e => decide (e ≤ 3 ∧ e = k + 1),
      fun k _ _ v => ((sintW (fmtWidth k) v % 2 ^ (2 * fmtWidth k)).toNat, 0))
  | .vvZext d a c m => some (d, a, c, m, 1, fun k e => decide (e ≤ 3 ∧ e = k + 1), fun _ _ _ v => (v, 0))
  | .vvNrw d a c m => some (d, a, c, m, 1, fun k e => decide (k ≤ 3 ∧ k = e + 1), fun k _ _ v => (v % 2 ^ (fmtWidth k / 2), 0))
  | .vvNrws d a c m => some (d, a, c, m, 1, fun k e => decide (k ≤ 3 ∧ k = e + 1), fun k _ _ v =>
      ((max (-2 ^ (fmtWidth k / 2 - 1)) (min (2 ^ (fmtWidth k / 2 - 1) - 1) (sintW (fmtWidth k) v)) % 2 ^ (fmtWidth k / 2)).toNat, 0))
  | .vvNrwu d a c m => some (d, a, c, m, 1, fun k e => decide (k ≤ 3 ∧ k = e + 1),
      fun k _ _ v => (min v (2 ^ (fmtWidth k / 2) - 1), 0))
  | _ => none

/-- A conversion between formats that it accepts, on well-placed groups, with no flag enabled and no token read as binary32, completes:
the active elements of vd are the results, the flags accrue, a stochastic rounding advances SRCNT, and nothing else changes.
VV.FROMBFP gives each active element the value of its block element; VV.TOBFP forms each block that holds active elements anew. A
number of a floating-point format, and an integer, are rounded once to the destination; a number converted to an integer is less than 1
from it; a block that does not overflow holds each active number to less than its spacing, with no larger exponent than they need
(09 R206-R209, R192, 08 R167, R180; log 31 for the zero maps, log 37 for the bits of a block above its planes). -/
def Obligations.ConversionsConvert : Prop :=
  (∀ (s : State) (i : Instr) (d a c : BitVec 5) (m : BitVec 4) (rm : BitVec 3) (ok : Nat → Nat → Bool)
    (f : Nat → Nat → Nat → Nat → Nat × Nat),
    let r := s.core.regs
    let k := fmtWidth r.fmt
    let w := fmtWidth c.toNat
    let res (j : Nat) : Nat × Nat := f r.fmt (if rm = 0 then r.rm else rm.toNat - 1) (r.draw j) (r.elem a k j)
    Claims.convert i = some (d, a, c, m, rm, ok, f) → s.calm = true → r.ready (m != 0) false = true → r.untrapped = true →
    r.lenOk = true → ok r.fmt c.toNat = true → convPlaced r d a c.toNat = true →
    (r.fmt = 5 → ∀ j ∈ r.actives m, isToken (r.elem a k j) = false) →
    ∃ q, exec i s = .next (s.vecRetiredWith q) ∧
      q = { r.vecEnd false false with
        v := q.v, z := ({ r with v := q.v }.rezero d w r.vstart.toNat r.vl.toNat).z
        fst := ((r.actives m).foldl (fun u j => u.accrue (res j).2) r).fst
        srcnt := if rm = 6 then r.srcnt + 1 else r.srcnt } ∧
      Claims.elements r q d (convGroup r c.toNat) w (r.actives m) fun j => (res j).1) ∧
  (∀ (s : State) (d a c : BitVec 5) (m : BitVec 4) (rm : BitVec 3),
    let r := s.core.regs
    let k := bfpBits c.toNat
    let el (j : Nat) : Nat × Nat := fpTo 5 r.rm 0 (r.bfpElem a (bfpBits r.fmt) j)
    let blk (b : Nat) : Nat × Nat := formBlock k (if rm = 0 then r.rm else rm.toNat - 1) (r.block d b)
      (((r.actives m).filter fun j => j / 32 == b).map fun j => (j % 32, r.draw j, fpDecode 5 (r.elem a 32 j)))
    let bs := ((r.actives m).map (· / 32)).eraseDups
    s.calm = true → r.ready (m != 0) false = true → r.untrapped = true → r.lenOk = true → convPlaced r d a c.toNat = true →
    (isBfp r.fmt = true → c = 5 → ∃ q, exec (.vvFrombfp d a c m) s = .next (s.vecRetiredWith q) ∧
      q = { r.vecEnd false false with
        v := q.v, z := q.z, fst := ((r.actives m).foldl (fun u j => u.accrue (el j).2) r).fst } ∧
      Claims.elements r q d (convGroup r 5) 32 (r.actives m) fun j => (el j).1) ∧
    (r.fmt = 5 → isBfp c.toNat = true → (∀ j ∈ r.actives m, isToken (r.elem a 32 j) = false) →
      ∃ q, exec (.vvTobfp d a c m rm) s = .next (s.vecRetiredWith q) ∧
        q = { r.vecEnd false false with
          v := q.v, z := q.z, fst := (bs.foldl (fun u b => u.accrue (blk b).2) r).fst
          srcnt := if rm = 6 then r.srcnt + 1 else r.srcnt } ∧
        (∀ b, b < 32 * convGroup r c.toNat → q.block d b = if b ∈ bs then (blk b).1 % 2 ^ 512 else r.block d b) ∧
        ∀ n, n < 32 → n < d.toNat ∨ d.toNat + convGroup r c.toNat ≤ n → q.vreg n = r.vreg n)) ∧
  (∀ (k c mode dr v : Nat) (i : Int), 4 ≤ k → k ≤ 10 → 4 ≤ c → c ≤ 10 → Claims.finite k v = true →
    Claims.rounded c mode (Claims.value k v) (fpConvert k c mode dr v) ∧ Claims.rounded c mode i (fpRound c mode dr (Fp.ofInt i)) ∧
    ∀ (w : Nat) (sg : Bool), 0 < w → ∃ y : ℤ, |y - Claims.value k v| < 1 ∧ (mode = 1 → |(y : ℝ)| ≤ |Claims.value k v|) ∧
      (mode = 0 ∨ mode = 4 → 2 * |y - Claims.value k v| ≤ 1) ∧
      ((if sg then -2 ^ (w - 1) ≤ y ∧ y < 2 ^ (w - 1) else 0 ≤ y ∧ y < 2 ^ w) →
        (toInteger w sg mode dr (fpDecode k v)).1 = (y % 2 ^ w).toNat ∧
        ((toInteger w sg mode dr (fpDecode k v)).2 = 0 ↔ y = Claims.value k v))) ∧
  ∀ (m mode old : Nat) (xs : List (Nat × Nat × Fp)), 2 ≤ m → m ≤ 8 → (xs.map (·.1)).Nodup →
    (∀ t ∈ xs, t.1 < 32 ∧ Claims.exact t.2.2 = true) → (formBlock m mode old xs).2 / 4 % 2 = 0 →
    let bk := (formBlock m mode old xs).1
    let e : ℕ := bk % 2 ^ 8
    (∀ t ∈ xs, |blkMant m bk t.1 * (2 : ℝ) ^ (e - 127 : ℤ) - Claims.real t.2.2| < 2 ^ (e - 127 : ℤ) ∧
      (mode = 0 ∨ mode = 4 → 2 * |blkMant m bk t.1 * (2 : ℝ) ^ (e - 127 : ℤ) - Claims.real t.2.2| ≤ 2 ^ (e - 127 : ℤ))) ∧
    (1 < e → ∃ t ∈ xs, (2 ^ (m - 2) - 1) * (2 : ℝ) ^ (e - 127 : ℤ) < |Claims.real t.2.2|)


/-! ### Vector memory -/

/-- The addresses of the elements of a tensor access whose record is sound and whose indices are all in range; a record that no active
element reads may be anything (07 R159, R160). -/
def Claims.tensor (s : State) (a v : BitVec 5) (m : BitVec 4) : Option (Nat → Word) :=
  let act := s.core.regs.actives m
  match shapeOf s.core.regs v with
  | some h =>
    if act.all fun k => decide ((s.x a + BitVec.ofNat 64 k).toNat < h.size) then
      some fun k => shapeAddr h.extents h.strides (s.x a + BitVec.ofNat 64 k).toNat h.base
    else none
  | none => if act.isEmpty then some fun _ => 0 else none

/-- A vector load by element: its fields, whether it admits the format, its index group, and the address of each element
(07 R144-R149, R156, R160). -/
def Claims.vectorLoad (s : State) : Instr → Option (BitVec 5 × BitVec 4 × Bool × List (BitVec 5) × (Nat → Word))
  | .vlLd d a m _ _ => some (d, m, wideFmts s.core.regs.fmt, [], unitAddr (s.x a) s.core.regs.fmt)
  | .vlLdff d a m _ _ => some (d, m, wideFmts s.core.regs.fmt, [], unitAddr (s.x a) s.core.regs.fmt)
  | .vlLds d a b m _ _ => some (d, m, byteFmts s.core.regs.fmt, [], fun k => s.x a + s.x b * BitVec.ofNat 64 k)
  | .vgGath d a v m _ _ => some (d, m, byteFmts s.core.regs.fmt, [v], fun k =>
      let r := s.core.regs; s.x a + BitVec.ofNat 64 (r.elem v (fmtWidth r.fmt) k * (fmtWidth r.fmt / 8)))
  | .vgGathb d a v m _ _ => some (d, m, byteFmts s.core.regs.fmt, [v], fun k =>
      let r := s.core.regs; s.x a + BitVec.ofNat 64 (r.elem v (fmtWidth r.fmt) k))
  | .tlLd d a v m _ _ => (Claims.tensor s a v m).map fun f => (d, m, byteFmts s.core.regs.fmt, [], f)
  | _ => none

/-- A vector load whose active elements lie in plain memory completes: each active element of vd is the bytes at its address, low byte
first, a half byte for e2m1; under BFP the header and the planes of the active elements come from the block in memory and the bits
above the planes are zero. Nothing else changes but what a read leaves. No UNBIND reaches the core inside the load (07 R144-R150, R156,
R160, 14 R283; log 7 for the dirty mark, log 19 for a tensor access without an active element, log 31 for the zero maps, log 60 for
the end of the overtaking, log 61 for the stop that an UNBIND brings). -/
def Obligations.VectorLoadsReadElements : Prop :=
  ∀ (s : State) (i : Instr) (d : BitVec 5) (m : BitVec 4) (ok : Bool) (vs : List (BitVec 5)) (f : Nat → Word),
    let r := s.core.regs
    let c := r.fmt
    let n := elemBytes c
    let mem (k : Nat) : Nat := s.seesNat (s.paOf s.core.xl .load (f k)) n
    let blk (b : Nat) : List Nat := (r.actives m).filter fun k => k / 32 == b
    Claims.vectorLoad s i = some (d, m, ok, vs, f) → ok = true → s.core.wait = none → s.core.cuts = false → s.calm = true →
    r.ready (m != 0) false = true → r.lenOk = true → r.groupOk d = true → vs.all r.groupOk = true →
    s.reaches .load n ((r.actives m).map f) = true →
    ∃ q t, exec i s = .next t ∧ s.dropLends.readWith q t ∧
        q = { r.vecEnd false false with
          v := q.v, z := ({ r with v := q.v }.rezeroLoad d (r.actives m) r.vstart.toNat r.vl.toNat).z } ∧
      (c ≤ 10 → Claims.elements r q d r.grp (fmtWidth c) (r.actives m) fun k =>
        if c = 10 then mem k / 2 ^ (4 * (k % 2)) % 16 else mem k) ∧
      (isBfp c = true → (∀ b, b < 32 * r.grp → ∀ p, p < 512 → (q.block d b).testBit p =
        match (blk b).head? with
        | none => (r.block d b).testBit p
        | some k => if p < 32 ∨ (p < 8 * n ∧ 32 * b + p % 32 ∈ r.actives m) then (mem k).testBit p
          else decide (p < 8 * n) && (r.block d b).testBit p) ∧
        ∀ k, k < 32 → k < d.toNat ∨ d.toNat + r.grp ≤ k → q.vreg k = r.vreg k)

/-- VL.LDR reads the groups of one register from VSTART on; VL.LDSP reads the scratchpad by element; VL.LDF reads it when every granule
is full, and empties those it has read under C, as a chunk of its own. No UNBIND reaches the core inside the load (07 R151, R152,
04 R83; log 7 for the dirty mark, log 31 for the zero maps, logs 60 and 61 as for the other loads). -/
def Obligations.RegisterAndScratchpadLoads : Prop :=
  ∀ (s : State) (d a : BitVec 5) (m : BitVec 4) (o p cl : Bool),
    let r := s.core.regs
    let c := r.fmt
    let n := elemBytes c
    let at' (k : Nat) : Nat := leNat (memRead s.core.scratch (scratchOff s a k).toNat n)
    let loaded (q : Regs) : Prop := Claims.vectorOnly r q d (fmtPlace c) r.vstart.toNat r.vl.toNat ∧
      Claims.elements r q d r.grp (fmtWidth c) (r.actives m) fun k =>
        if c = 10 then at' k / 2 ^ (4 * (k % 2)) % 16 else at' k
    let row (g : Nat) : Word := s.x a + BitVec.ofNat 64 (64 * g)
    s.calm = true → s.core.cuts = false →
    (s.core.wait = none → r.ready false false = true → s.reaches .load 64 (r.groupsFrom.map row) = true →
      ∃ q t, exec (.vlLdr d a o p) s = .next t ∧ s.dropLends.readWith q t ∧ Claims.vectorOnly r q d 512 r.vstart.toNat 32 ∧
        Claims.elements r q d 1 512 r.groupsFrom fun g => s.seesNat (s.paOf s.core.xl .load (row g)) 64) ∧
    (r.ready (m != 0) false = true → r.lenOk = true → r.groupOk d = true → c ≤ 10 →
      (r.actives m).all (fun k => (scratchFault s a k).isNone) = true →
      (∃ q, exec (.vlLdsp d a m) s = .next (s.vecRetiredWith q) ∧ loaded q) ∧
      (s.unreserved = true → (r.actives m).all (fun k => s.core.fe.getLsbD (granuleOf s a k)) = true →
        ∃ t, exec (.vlLdf d a m cl) s = .next t ∧ s.next t ∧ loaded t.core.regs ∧ t.core.chunk = none ∧
          t.core.scratch = s.core.scratch ∧ ∀ g, t.core.fe.getLsbD g =
            (s.core.fe.getLsbD g && !(cl && (r.actives m).any fun k => granuleOf s a k == g))))

/-- What memory shows after `n` bytes of a value are stored at an address. -/
def Claims.put (f : Nat → Byte) (pa n v : Nat) (q : Nat) : Byte :=
  if pa ≤ q ∧ q < pa + n then BitVec.ofNat 8 (v / 2 ^ (8 * (q - pa))) else f q

/-- A vector store: whether its form is sound, O, the elements it stores in order, the bytes of each, its address, and what it stores
over the old bytes (13 R260-R268). -/
def Claims.vectorStore (s : State) : Instr → Option (Bool × Bool × List Nat × Nat × (Nat → Word) × (Nat → Nat → Nat))
  | .vsSt g a m o _ =>
    let r := s.core.regs
    some (r.ready (m != 0) false && wideFmts r.fmt && r.groupOk g, o, r.actives m, elemBytes r.fmt, unitAddr (s.x a) r.fmt,
      fun k old => if isBfp r.fmt then
          mixBits (planeBits (bfpBits r.fmt) (k % 32) + (2 ^ 32 - 1)) old (r.block g (k / 32))
        else if r.fmt = 10 then (if k % 2 = 0 then old / 16 * 16 + r.elem g 4 k else old % 16 + 16 * r.elem g 4 k)
        else r.elem g (fmtWidth r.fmt) k)
  | .vsSts g a b m o _ =>
    let r := s.core.regs
    some (r.ready (m != 0) false && byteFmts r.fmt && r.groupOk g, o, r.actives m, elemBytes r.fmt,
      fun k => s.x a + s.x b * BitVec.ofNat 64 k, fun k _ => r.elem g (fmtWidth r.fmt) k)
  | .vsStr g a o _ =>
    let r := s.core.regs
    some (r.ready false false, o, r.groupsFrom, 64, fun k => s.x a + BitVec.ofNat 64 (64 * k), fun k _ => r.elem g 512 k)
  | .vgScat g a v m o _ =>
    let r := s.core.regs
    some (r.ready (m != 0) false && byteFmts r.fmt && r.groupOk g && r.groupOk v, o, r.actives m, elemBytes r.fmt,
      fun k => s.x a + BitVec.ofNat 64 (r.elem v (fmtWidth r.fmt) k * (fmtWidth r.fmt / 8)),
      fun k _ => r.elem g (fmtWidth r.fmt) k)
  | .vgScatb g a v m o _ =>
    let r := s.core.regs
    some (r.ready (m != 0) false && byteFmts r.fmt && r.groupOk g && r.groupOk v, o, r.actives m, elemBytes r.fmt,
      fun k => s.x a + BitVec.ofNat 64 (r.elem v (fmtWidth r.fmt) k), fun k _ => r.elem g (fmtWidth r.fmt) k)
  | .tlSt g a v m o _ =>
    let r := s.core.regs
    (Claims.tensor s a v m).map fun f => (r.ready (m != 0) false && byteFmts r.fmt && r.groupOk g, o, r.actives m,
      elemBytes r.fmt, f, fun k _ => r.elem g (fmtWidth r.fmt) k)
  | _ => none

/-- A vector store whose elements lie in plain memory completes inside the chunk. With O, and where it stores parts of bytes, the
elements land in order. Without O each byte is that of one of the elements that store it, whichever the oracle names. Every other
byte, every register and everything else is as before. No UNBIND reaches the core inside the store (13 R260-R268, 14 R283; log 1 for
the choice, log 7 for the dirty mark, log 19 for a tensor access without an active element, logs 42 and 44 for stores of parts of
bytes, logs 60 and 61 as for loads). -/
def Obligations.VectorStoresWriteElements : Prop :=
  ∀ (s : State) (i : Instr) (ok o : Bool) (ks : List Nat) (n : Nat) (f : Nat → Word) (v : Nat → Nat → Nat),
    let r := s.core.regs
    let pa (k : Nat) : Nat := s.paOf s.core.xl .store (f k)
    let part : Bool := n != 64 && !byteFmts r.fmt
    s.Inv → Claims.vectorStore s i = some (ok, o, ks, n, f, v) → ok = true → s.core.wait = none → s.core.cuts = false → s.calm = true →
    r.lenOk = true → s.reaches .store n (ks.map f) = true → s.room (2 * ks.length) = true →
    ∃ u ora, exec i s = .next { u with oracle := ora } ∧ s.dropLends.wroteWith (r.vecEnd false false) u ∧
      ((o || part) = true → ora = s.oracle ∧ ∀ q, u.sees q =
        ks.foldl (fun g k => Claims.put g (pa k) n (v k (leNat ((List.range n).map fun j => g (pa k + j))))) s.sees q) ∧
      ((o || part) = false → ∀ q,
        (u.sees q = s.sees q ∧ ∀ k ∈ ks, q < pa k ∨ pa k + n ≤ q) ∨
        ∃ k ∈ ks, pa k ≤ q ∧ q < pa k + n ∧ u.sees q = BitVec.ofNat 8 (v k 0 / 2 ^ (8 * (q - pa k))))

/-! ### The comb -/

/-- The state that a tile move needs is on (11 R233, 17 R348). -/
def Claims.comb (r : Regs) (v : Bool) (m : BitVec 4) : Bool := !(v && r.off 10) && !(m != 0 && r.off 12) && !r.off 14

/-- The tiles of `q` are those of `r`, but that the active rows of tile t, or of the pair, hold the values given. -/
def Claims.tileRows (r q : Regs) (t : BitVec 4) (f64 : Bool) (ns : List Nat) (f : Nat → List Nat) : Prop :=
  (∀ n, n < 64 → q.row t.toNat n f64 = if n ∈ ns then f n else r.row t.toNat n f64) ∧
  ∀ k, k < 16 → k ≠ t.toNat → (f64 = false ∨ k ≠ t.toNat + 1) → q.tile k = r.tile k

/-- An outer product under its format completes: VL 0 does nothing; else each cell of an active row is the cell plus its depth
products, taken exactly and rounded once when all are numbers, or modulo 2^32 for integers; MX.SLIDE moves vb by the frame's iteration;
the flags accrue; one of binary64 waits while service is REDUCED (11 R228-R231, 08 R171, R176, 27 R425; log 7 for the dirty mark of VL
0, log 40 for the flags of a cell that meets a NaN or an invalid operation). -/
def Obligations.OuterProductsAccumulate : Prop :=
  ∀ (s : State) (i : Instr) (t : BitVec 4) (a b : BitVec 5) (m f : BitVec 4) (slide : Bool),
    let r := s.core.regs
    let f64 := f == 1
    let q0 := if slide then r.iteration else 0
    let depth := r.vl.toNat / 64
    let ns := r.rows m (List.range 64)
    let rd := mxReads f q0 depth ns
    let cell (n c : Nat) : Nat × Nat :=
      let old := (r.row t.toNat n f64).getD c 0
      if f = 4 ∨ f = 5 then
        let v (g : BitVec 5) (k : Nat) : Int := if f = 4 then sintW 8 (r.elem g 8 k) else (r.elem g 8 k : Int)
        (((((List.range depth).map fun k => v a (n * depth + k) *
          (if (c + q0) * depth + k < 2048 then v b ((c + q0) * depth + k) else 0)).sum + old) % 2 ^ 32).toNat, 0)
      else mxCell r f a b q0 depth n c old
    i = (if slide then .mxSlide t a b m f else .mxOpa t a b m f) → i.wellFormed = true → s.calm = true →
    r.ready (m != 0) true = true → r.untrapped = true → r.fmt = mxFmt f → r.grp = 1 → r.vl.toNat % 64 = 0 → r.vstart = 0 →
    (f = 0 → ∀ x ∈ rd.1.map (r.elem a 32) ++ rd.2.map (r.elem b 32), isToken x = false) →
    (f64 = true → s.hbmServed = false → exec i s = .next (s.dropLends.waiting .reduced)) ∧
    ((f64 = true → s.hbmServed = true) → r.vl = 0 → exec i s = .next (s.vecRetiredWith (r.vecEnd false false))) ∧
    ((f64 = true → s.hbmServed = true) → r.vl ≠ 0 → ∃ q, exec i s = .next (s.vecRetiredWith q) ∧
      q = { r.vecEnd false true with
        t := q.t
        fst := (r.accrue ((ns.flatMap fun n => (List.range 64).map fun c => (cell n c).2).foldl (· ||| ·) 0)).fst } ∧
      Claims.tileRows r q t f64 ns fun n => (List.range 64).map fun c => (cell n c).1 % 2 ^ (if f64 then 64 else 32)) ∧
    ∀ n c, f ≠ 4 → f ≠ 5 →
      let acc := mxAcc f
      let old := (r.row t.toNat n f64).getD c 0
      let va (k : Nat) : Fp := mxValue r f a (n * depth + k)
      let vb (k : Nat) : Fp := if (c + q0) * depth + k < mxElems f then mxValue r f b ((c + q0) * depth + k) else .zero false
      Claims.finite acc old = true → (∀ k, k < depth → Claims.exact (va k) = true ∧ Claims.exact (vb k) = true) →
      Claims.rounded acc r.rm (Claims.value acc old + ((List.range depth).map fun k => Claims.real (va k) * Claims.real (vb k)).sum)
        (cell n c)

/-- The tile moves complete on plain memory: MT.ZERO clears the active rows and leaves VSTART; MT.LD loads the active rows from VSTART
on; MT.ST stores them, and under Z the bitmap of all-zero rows behind row 63; MT.RDROW and MT.WRROW move one row between a tile and a
vector register. A pair of tiles holds binary64. No UNBIND reaches the core inside a load or store (11 R233-R239; log 7 for the dirty
marks, logs 60 and 61 as for loads). -/
def Obligations.TilesMove : Prop :=
  ∀ (s : State) (t : BitVec 4) (a b d : BitVec 5) (m : BitVec 4) (f64 z : Bool),
    let r := s.core.regs
    let n := if f64 then 8 else 4
    let row (k : Nat) : Word := s.x a + BitVec.ofNat 64 k * (if b = 0 then BitVec.ofNat 64 (64 * n) else s.x b)
    let ns := r.rows m r.rowsFrom
    let vals (k : Nat) : List Nat := (List.range 64).map fun c =>
      s.seesNat (s.paOf s.core.xl .load (row k) + n * c) n
    let map : List Word := if z && !(r.rows m (List.range 64)).isEmpty then [row 64] else []
    let ks := s.paOf s.core.xl .store
    s.Inv → s.calm = true → s.core.cuts = false → (f64 = true → t.toNat % 2 = 0) → Claims.comb r false m = true →
    (∃ q, exec (.mtZero t m f64) s = .next (s.vecRetiredWith q) ∧
      q = { r.dirty false false true with t := q.t, pc := r.pc + 4, seq := r.seq + 1 } ∧
      Claims.tileRows r q t f64 (r.rows m (List.range 64)) fun _ => List.replicate 64 0) ∧
    (r.off 10 = false →
      (s.core.wait = none → s.reaches .load (64 * n) (ns.map row) = true → ∃ q u, exec (.mtLd t a b m f64) s = .next u ∧
        s.dropLends.readWith q u ∧ q = { r.vecEnd false (!ns.isEmpty) with t := q.t } ∧ Claims.tileRows r q t f64 ns vals) ∧
      (s.agrees s.core.xl ((ns.map row ++ map).map fun v => (.store, v)) = true → s.noUpdates = true →
        (ns.map row).all (s.plainAt s.core.xl .store (64 * n)) = true → map.all (s.plainAt s.core.xl .store 8) = true →
        s.room (9 * ns.length + 2) = true → ∃ u, exec (.mtSt t a b m f64 z) s = .next u ∧
          s.dropLends.wroteWith (r.vecEnd false false) u ∧ ∀ q, u.sees q = (map.foldl (fun g v => Claims.put g (ks v) 8 (rowMap r t.toNat f64))
            (ns.foldl (fun g k => Claims.put g (ks (row k)) (64 * n) (leNat ((r.row t.toNat k f64).flatMap (leBytes n))))
              s.sees)) q) ∧
      ((s.x b).toNat < 64 →
        (∃ q, exec (.mtRdrow t d b f64) s = .next (s.vecRetiredWith q) ∧ Claims.vectorOnly r q d (8 * n) 0 64 ∧
          Claims.elements r q d 1 (8 * n) (List.range 64) fun c => (r.row t.toNat (s.x b).toNat f64).getD c 0) ∧
        ∃ q, exec (.mtWrrow t a b f64) s = .next (s.vecRetiredWith q) ∧ q = { r.vecEnd false true with t := q.t } ∧
          Claims.tileRows r q t f64 [(s.x b).toNat] fun _ => (List.range 64).map (r.elem a (8 * n))))

/-! ### Verdicts -/

/-- TE and TM tell of a sum: nothing of 0, no claim of one beyond the greatest bound, else the least bound that is not below it
(12 R253, 08 R166). -/
def Claims.tails (sum : ℝ) (te tm : Nat) : Prop :=
  let bound (te tm : Nat) : ℝ := (256 + (tm : ℝ)) * (2 : ℝ) ^ ((te : ℤ) - 135)
  (sum = 0 → te = 0 ∧ tm = 0) ∧ (511 * (2 : ℝ) ^ (119 : ℤ) < sum → te = 255 ∧ tm = 0) ∧
  (0 < sum → sum ≤ 511 * (2 : ℝ) ^ (119 : ℤ) → 1 ≤ te ∧ te ≤ 254 ∧ tm ≤ 255 ∧ sum ≤ bound te tm ∧
    ∀ e m, 1 ≤ e → e ≤ 254 → m ≤ 255 → sum ≤ bound e m → bound te tm ≤ bound e m)

/-- The verdict of the bound monitor after a block with header `h`, `n` blocks remaining: none where an operand is unfit or the header
makes no claim; else the sum so far is compared with T, a margin M off it, which is rounded up once to binary32 (12 R247). -/
def Claims.verdict (topk : Bool) (t a acc : Fp) (h n : Nat) (v : Option Nat) : Prop :=
  let te : Nat := h / 2 ^ 12 % 256
  let bound : ℝ := if te = 0 then 0 else (256 + ((h / 2 ^ 20 % 256 : Nat) : ℝ)) * (2 : ℝ) ^ ((te : ℤ) - 135)
  let q := Claims.real a * bound
  let unfit : Prop := t.isNan = true ∨ Claims.exact acc = false ∨ Claims.exact a = false ∨ Claims.real a < 0 ∨ te = 255
  (unfit → v = none) ∧
  (¬ unfit → ∃ m fl, Claims.rounded 5 3 (q * (1 + 2 ^ (-20 : ℤ)) + n * 2 ^ (-21 : ℤ) * (|Claims.real acc| + 2 * q) + n * 2 ^ (-147 : ℤ)) (m, fl) ∧
    (m = 0x7F800000 → v = none) ∧ (m ≠ 0x7F800000 →
      let above : Prop := t = .inf true ∨ (Claims.exact t = true ∧ Claims.real t < Claims.real acc - Claims.value 5 m)
      let below : Prop := t = .inf false ∨ (Claims.exact t = true ∧ Claims.real acc + Claims.value 5 m ≤ Claims.real t)
      (topk = false → above → v = some 1) ∧ (¬ (topk = false ∧ above) → below → v = some 0) ∧
      (¬ (topk = false ∧ above) → ¬ below → v = none)))

/-- The verdict instructions complete. VD.DOTV writes one result for each segment, a token where the bound monitor decides it early, by
the sum so far, AMAX, the tail fields and T; VD.TAIL writes the tail fields of its blocks, the least bound of what is behind each, and
no other bit; VD.TEST tells tokens from scores; VD.TKSET writes the threshold, and VD.TKUPD raises it to the k-th largest survivor, a
zero as +0, or replaces a NaN by it. A segment is summed whole, in the fixed order, or abandoned after one of its blocks but the last.
VD.DOTV traps FP when a flag it would raise is enabled, VD.DOTV and VD.TAIL trap ILLEGAL where their checks fail, VD.TKSET on a token,
VD.TKUPD and VD.TEST on a format other than binary32, and VD.TEST on one mask for both, and then nothing is written (12 R243-R258, 08
R174; log 7 for the dirty marks, log 41 for what a token is). -/
def Obligations.VerdictsAreReached : Prop :=
  ∀ (s : State) (d a b : BitVec 5) (m md mb : BitVec 4) (p : BitVec 2) (x : BitVec 5),
    let r := s.core.regs
    let cfg := s.x (x + 1)
    let tv := threshold r p (s.x x)
    let terms := termsOf r (dotvAf cfg) r.fmt a b
    let rs := (segments r (maskField m)).map (dotvSegment ⟨p == 2, fpDecode 5 tv, fpDecode 5 (cfg.toNat % 2 ^ 32), r.rm⟩ terms
      fun j => r.block b j % 2 ^ 32)
    let enabled := (r.fst.toNat / 2 ^ 11) &&& (flagUnion rs % 32)
    let nan (v : Nat) : Prop := (fpDecode 5 v).isNan = true
    let less (u v : Nat) : Bool := fpLess (fpDecode 5 u) (fpDecode 5 v)
    let tk := r.tk.toNat % 2 ^ 32
    let alive := ((r.actives m).map (r.elem a 32)).filter fun v => !(fpDecode 5 v).isNan
    let isTok (k : Nat) : Bool := decide (r.elem a 32 k / 2 ^ 8 = 0x7F8A00)
    let trapped (i : Instr) (code tval : Nat) : Prop := ∃ t, exec i s = .next t ∧ t.core.prog = .trapped ∧
      t.core.regs.cause.toNat = code ∧ t.core.regs.tval.toNat = tval ∧ t.core.regs.epc = r.pc ∧ t.core.regs.tk = r.tk ∧
      t.core.regs.m = r.m ∧ t.core.regs.fst = r.fst ∧ t.core.regs.v = r.v ∧ t.core.regs.z = r.z ∧ t.core.regs.t = r.t
    s.calm = true → r.ready (m != 0) false = true → r.lenOk = true →
    (dotvOk r cfg a b m = true → foldToken (dotvAf cfg) r.fmt false terms (List.range r.vl.toNat) = none → isToken tv = false →
      (enabled = 0 → ∃ q, exec (.vdDotv d a b m p x) s = .next (s.vecRetiredWith q) ∧
        q = { r.vecEnd false false with
          v := q.v, z := ({ r with v := q.v }.rezero d 32 0 rs.length).z, fst := (r.accrue (flagUnion rs)).fst } ∧
        Claims.elements r q d 1 32 (List.range rs.length) fun k => (rs.getD k (0, 0)).1) ∧
      (enabled ≠ 0 → s.unreserved = true → trapped (.vdDotv d a b m p x) 0x0C (flagUnion rs))) ∧
    (∀ k t hdr lo nb, let sum (n : Nat) : Nat × Nat := foldFp .dot 5 k.mode lo t (List.range' lo (32 * n))
      let watch (j : Nat) : Option Nat := monitor k.topk k.t k.a (fpDecode 5 (sum (j + 1)).1) (hdr (lo / 32 + j)) (nb - 1 - j)
      let got := dotvSegment k t hdr (lo, lo + 32 * nb)
      ((∀ j, j + 1 < nb → watch j = none) → got = sum nb) ∧
      (∀ j v, j + 1 < nb → (∀ i, i < j → watch i = none) → watch j = some v →
        (∀ i ∈ List.range' lo (32 * (j + 1)), (t.xa i).isNan = false ∧ (t.xb i).isNan = false ∧ (fpMul (t.xa i) (t.xb i)).isSome = true) →
        got = (0x7F8A0000 + 2 * j + v, (sum (j + 1)).2)) ∧
      (got = sum nb ∨ ∃ j v fl, got = (0x7F8A0000 + 2 * j + v, fl) ∧ j + 1 < nb ∧ v ≤ 1 ∧ (k.topk = true → v = 0) ∧ fl = (sum (j + 1)).2)) ∧
    (∀ topk t a acc h n, (∀ f ∈ [t, a, acc], f.isFin = true → Claims.exact f = true) →
      Claims.verdict topk t a acc h n (monitor topk t a acc h n)) ∧
    (isBfp r.fmt = true → r.vl.toNat % 32 = 0 → flagsPlaced r m = true → r.vstart = 0 → r.groupOk d = true →
      ∃ q, exec (.vdTail d m) s = .next (s.vecRetiredWith q) ∧ Claims.vectorOnly r q d 16 0 r.vl.toNat ∧
        (∀ seg ∈ segments r (maskField m), ∀ j, seg.1 ≤ 32 * j → 32 * j < seg.2 →
          let later := List.range' (j + 1) (seg.2 / 32 - (j + 1))
          let te : Nat := q.block d j / 2 ^ 12 % 256
          let tm : Nat := q.block d j / 2 ^ 20 % 256
          let size (k : Nat) : ℝ := if blkE (r.block d k) = 0 then 0 else
            ((((List.range 32).map fun e => (blkMant (bfpBits r.fmt) (r.block d k) e).natAbs).sum : Nat) : ℝ) *
              (2 : ℝ) ^ ((blkE (r.block d k) : ℤ) - 127)
          (later.any (fun k => !blkValid (bfpBits r.fmt) (r.block d k)) = true → te = 255 ∧ tm = 0) ∧
          (later.all (fun k => blkValid (bfpBits r.fmt) (r.block d k)) = true → Claims.tails (later.map size).sum te tm)) ∧
        (∀ k j, k < 32 * r.grp → j < 512 → (j < 12 ∨ 28 ≤ j ∨ r.vl.toNat ≤ 32 * k) →
          (q.block d k).testBit j = (r.block d k).testBit j) ∧
        ∀ k, k < 32 → k < d.toNat ∨ d.toNat + r.grp ≤ k → q.vreg k = r.vreg k) ∧
    (r.fmt = 5 → r.groupOk a = true →
      (r.off 12 = false → md ≠ mb → ∃ q, exec (.vdTest md a mb m) s = .next (s.vecRetiredWith q) ∧
        q = { r.vecEnd true false with m := q.m } ∧ ∀ n k, k < 4096 → q.maskBit n k =
          if k ∈ r.actives m ∧ n = md then isTok k
          else if k ∈ r.actives m ∧ n = mb then isTok k && (r.elem a 32 k).testBit 0
          else r.maskBit n k) ∧
      ∃ q, exec (.vdTkupd a b m) s = .next (s.vecRetiredWith q) ∧ q = { r.vecEnd false false with tk := q.tk } ∧
        ((s.x b).toNat = 0 ∨ alive.length < (s.x b).toNat → q.tk = r.tk) ∧
        (1 ≤ (s.x b).toNat → (s.x b).toNat ≤ alive.length → ∃ u ∈ alive,
          (alive.filter fun v => less u v).length < (s.x b).toNat ∧
          (s.x b).toNat ≤ (alive.filter fun v => !less v u).length ∧
          q.tk = if nan tk ∨ less tk (if u % 2 ^ 31 = 0 then 0 else u) = true then
            BitVec.ofNat 64 (if u % 2 ^ 31 = 0 then 0 else u) else r.tk)) ∧
    (isToken ((s.x a).toNat % 2 ^ 32) = false →
      exec (.vdTkset a) s = .next (s.vecRetiredWith { r.vecEnd false false with tk := (s.x a).setWidth 32 |>.setWidth 64 })) ∧
    (s.unreserved = true →
      (isToken ((s.x a).toNat % 2 ^ 32) = true → trapped (.vdTkset a) 0x0B ((s.x a).toNat % 2 ^ 32)) ∧
      (dotvOk r cfg a b m = false → ∀ w, encode (.vdDotv d a b m p x) = some w → trapped (.vdDotv d a b m p x) 0x01 w.toNat) ∧
      (¬ (isBfp r.fmt = true ∧ r.vl.toNat % 32 = 0 ∧ flagsPlaced r m = true ∧ r.vstart = 0 ∧ r.groupOk d = true) →
        ∀ w, encode (.vdTail d m) = some w → trapped (.vdTail d m) 0x01 w.toNat) ∧
      (r.fmt ≠ 5 → ∀ w, encode (.vdTkupd a b m) = some w → trapped (.vdTkupd a b m) 0x01 w.toNat) ∧
      (r.off 12 = false → r.fmt ≠ 5 ∨ md = mb → ∀ w, encode (.vdTest md a mb m) = some w →
        trapped (.vdTest md a mb m) 0x01 w.toNat))

/-! ### The core's commands to its engines -/

/-- A handle that names the current run of engine `e` (05 R92). -/
def Claims.handleOf (s : State) (e : BitVec 2) (h : Word) : Bool :=
  h == BitVec.ofNat 64 (2 ^ 8 * (s.engine e).serial.toNat + e.toNat) && (s.engine e).serial != 0

/-- CE.FORK starts a run of an engine that is IDLE or joined; CE.REND of a run that has stopped closes its registers and gives e[0], or
traps ENGINE with the error word of one that failed; CE.TEST tells how a run stands; CE.ERD reads a register of one that has stopped. A
handle that is not current traps BAD-HANDLE. CE.FORK traps ALIGN at an entry that is no multiple of 4, with the entry, and then BAD-HANDLE,
with the engine's number, while the engine has a run that is not joined (05 R92, R93, R96-R98; log 72 for the gets of the old run, which
are dropped, log 97 for the core's own accesses, which the run's come behind). -/
def Obligations.EnginesAreForkedAndJoined : Prop :=
  ∀ (s : State) (d a b sel : BitVec 5) (e3 : BitVec 3) (e : BitVec 2), s.unreserved = true → e = e3.setWidth 2 →
    let r := s.core.regs
    let g := s.engine e
    let serial := if g.serial = 0xFFFFFF then 1 else g.serial + 1
    let ended (t : State) : Prop := t.core.chunk = none ∧ (∀ k : BitVec 2, k ≠ e → t.engine k = s.engine k)
    ((s.x a).toNat % 4 = 0 → g.run ∈ [.idle, .joined, .joinedFailed] → ∃ t, exec (.ceFork d a b e3) s = .next t ∧ s.next t ∧
      ended t ∧ t.core.regs = { r.wr d (BitVec.ofNat 64 (2 ^ 8 * serial.toNat + e.toNat)) with pc := r.pc + 4 } ∧
      t.engine e = { g with
        serial := serial, run := .running, pc := s.x a, err := 0, part := 0, out := g.out.filter (·.put)
        r := Vector.ofFn fun k => if k.val < 4 then s.x (b + BitVec.ofNat 5 k.val) else 0
        ten := r.ten, asid := r.asid, ptb := r.ptb, sup := !r.user, since := s.nextTag }) ∧
    ((s.x a).toNat % 4 ≠ 0 → exec (.ceFork d a b e3) s = .next (takeTrap .align false (s.x a) none s)) ∧
    ((s.x a).toNat % 4 = 0 → g.run ∉ [.idle, .joined, .joinedFailed] →
      exec (.ceFork d a b e3) s = .next (takeTrap .badHandle false (BitVec.ofNat 64 e.toNat) none s)) ∧
    (Claims.handleOf s e (s.x a) = true →
      (∃ t, exec (.ceTest d a) s = .next t ∧ s.next t ∧ ended t ∧ t.engine e = g ∧
        t.core.regs = { r.wr d (match g.run with
          | .running => 0
          | .failed | .joinedFailed => 2
          | _ => 1) with pc := r.pc + 4 }) ∧
      (g.run ≠ .running → g.out.all (fun o => !o.put) = true →
        (∃ t, exec (.ceErd d a sel) s = .next t ∧ s.next t ∧ ended t ∧ t.engine e = g ∧
          t.core.regs = { r.wr d (if sel.toNat < 16 then g.reg (sel.setWidth 4) else if sel = 16 then g.pc
            else if sel = 17 then g.err else g.reg (sel.setWidth 4)) with pc := r.pc + 4 }) ∧
        ∃ t, exec (.ceRend d a) s = .next t ∧ ended t ∧
          t.engine e = { g with
            openV := 0, openM := 0, openT := 0
            run := if g.run = .failed ∨ g.run = .joinedFailed then .joinedFailed else .joined } ∧
          (∀ n : Fin 32, t.core.pres.get n = if g.openV.getLsbD n then BitVec.allOnes 32 else s.core.pres.get n) ∧
          (g.run ≠ .failed → g.run ≠ .joinedFailed → s.next t ∧
            t.core.regs = { r.wr d (g.reg 0) with pc := r.pc + 4 }) ∧
          ((g.run = .failed ∨ g.run = .joinedFailed) → t.core.prog = .trapped ∧
            t.core.regs.cause = 0x13 ∧ t.core.regs.tval = g.err ∧ t.core.regs.epc = r.pc))) ∧
    ((s.x a).toNat % 4 = e.toNat → Claims.handleOf s e (s.x a) = false →
      ∀ i ∈ [Instr.ceTest d a, .ceErd d a sel, .ceRend d a], exec i s = .next (takeTrap .badHandle false (s.x a) none s))

/-- CE.OPEN opens a register that is not open and whose state is on: nothing is present and its zero map is 0; CE.CLOSE closes it for its
engine. CE.FENCEX waits for the accesses of the covered sources of its first class that are out when it begins, and for no later one; with
those performed it commits as a singleton chunk, and squashes every chunk of the package that has read a
line which a covered source of its first class has written outside the chunks (05 R96, R99, 07 R143, 14 R291, R292, 25 R399; log 35
for the accesses that POD waits for, log 65 for the lines compared). -/
def Obligations.RegistersAreOpenedAndFenced : Prop :=
  ∀ (s : State) (n a b : BitVec 5) (e3 c : BitVec 3) (k : BitVec 4) (e : BitVec 2), s.unreserved = true → e = e3.setWidth 2 →
    let r := s.core.regs
    let kind (j : Nat) : Bool := k.toNat == j
    let on : Bool := !(kind 0 && r.off 10) && !(kind 1 && r.off 12) && !(kind 2 && r.off 14)
    (on = true → (Instr.ceOpen n e3 k).wellFormed = true →
      (s.core.isOpen k.toNat n.toNat = false → ∃ t, exec (.ceOpen n e3 k) s = .next t ∧ s.next t ∧ t.core.chunk = none ∧
        (t.engine e).holds k.toNat n.toNat = true ∧
        (∀ j m, (j, m) ≠ (k.toNat, n.toNat) → j ≤ 2 → m < 32 → t.core.isOpen j m = s.core.isOpen j m) ∧
        t.core.regs = { r.dirty (kind 0) (kind 1) (kind 2) with
          pc := r.pc + 4, z := if k = 0 then r.z.set n.toNat 0 n.isLt else r.z } ∧
        ∀ m : Fin 32, t.core.pres.get m = if k = 0 ∧ m.val = n.toNat then 0 else s.core.pres.get m) ∧
      ∃ t, exec (.ceClose n e3 k) s = .next t ∧ s.next t ∧ t.core.chunk = none ∧ t.core.regs = { r with pc := r.pc + 4 } ∧
        (t.engine e).holds k.toNat n.toNat = false ∧
        ∀ m : Fin 32, t.core.pres.get m =
          if k = 0 ∧ m.val = n.toNat ∧ (s.engine e).holds 0 n.toNat then BitVec.allOnes 32 else s.core.pres.get m) ∧
    (¬(a = 0 ∧ b = 0) → fenceWaits a.toNat (s.fenceOf a.toNat b.toNat c) s = true →
      ∃ t f, exec (.ceFencex a b c) s = .next t ∧ t.core.prog = .waiting ∧ t.core.wait = some .fence ∧ t.core.regs = r ∧
        t.core.chunk = none ∧ t.core.fence = some f ∧ (s.core.wait = some .fence → ∀ k, s.core.fence = some k → f = k) ∧
        (s.core.wait ≠ some .fence → f.scope = c ∧ f.cls = b.toNat ∧ ∀ q, q ∈ f.since ↔ ∃ p ∈ s.cores,
          fenceCovers c s.cur s.core.slot.ctxid a.toNat a.toNat p.1 p.2.slot.ctxid = true ∧
          ∃ g ∈ p.2.enginesOf a.toNat, ∃ o ∈ g.out, o.tag = q)) ∧
    (∀ f : Fence, fenceWaits a.toNat f s = true ↔ (f.scope = 5 ∧ s.core.out ≠ []) ∨ ∃ p ∈ s.cores,
      fenceCovers f.scope s.cur s.core.slot.ctxid a.toNat a.toNat p.1 p.2.slot.ctxid = true ∧
      ∃ g ∈ p.2.enginesOf a.toNat, ∃ o ∈ g.out, o.tag ∈ f.since ∧ (if o.put then f.scope = 5 else o.reply = none)) ∧
    (s.Inv → (if a = 0 ∧ b = 0 then c = 5 → s.core.out = [] else fenceWaits a.toNat (s.fenceOf a.toNat b.toNat c) s = false) →
      ∃ t, exec (.ceFencex a b c) s = .next t ∧ s.next t ∧ t.core.chunk = none ∧ t.core.regs = { r with pc := r.pc + 4 } ∧
        t.core.csn = t.csn ∧ (c = 5 → t.ord = true) ∧ t.core.fence = (if a = 0 ∧ b = 0 then s.core.fence else none) ∧
        (a ≠ 0 → ∀ j ch, j ≠ s.cur → (t.coreAt j).chunk = some ch → ∀ w ∈ t.outside,
          fenceCovers c s.cur s.core.slot.ctxid a.toNat w.cls w.unit w.ctxid = true →
          ∀ l ∈ ch.rlines, l < w.line ∨ w.line + w.lines ≤ l))

/-- Where the entries stand that a walk of an address reads, from a table `l` levels above the last (03 R51). -/
def Claims.entries (s : State) (va : Word) : Nat → Nat → List Nat
  | 0, tab => [tab + 8 * (va.toNat / 2 ^ 16 % 2 ^ 11)]
  | l + 1, tab =>
    let a := tab + 8 * (va.toNat / 2 ^ (16 + 11 * (l + 1)) % 2 ^ 11)
    a :: Claims.entries s va l (s.homeNat a 8 / 2 ^ 14 % 2 ^ 38 * 2 ^ 14)

/-- None of the bytes written, each of an address and a length, is in an entry that the translation of one of the addresses reads. -/
def Claims.apart (s : State) (x : Xl) (as : List Word) (ws : List (Word × Nat)) : Bool :=
  as.all fun a => (Claims.entries s a 2 (x.ptb.toNat / 2 ^ 14 % 2 ^ 38 * 2 ^ 14)).all fun e => ws.all fun w =>
    decide (e + 8 ≤ s.paOf x .store w.1) || decide (s.paOf x .store w.1 + w.2 ≤ e)

/-- What a member of rank `r` writes: element `k` of its destination is made of these elements of the members' sources (25 R405). -/
def Claims.collects (op n r count k : Nat) (src : List (Nat × Nat)) : Prop :=
  let b := (count + n - 1) / n
  let all (i : Nat) : List (Nat × Nat) := (List.range n).map fun m => (m, i)
  (op = 0 ∧ k < count ∧ src = all k) ∨ (op = 1 ∧ k < b ∧ r * b + k < count ∧ src = all (r * b + k)) ∨
    (2 ≤ op ∧ ∃ m i, m < n ∧ i < count ∧ k = m * count + i ∧ src = [(m, i)])

/-- A reduction of elements of the members: integers exactly, wrapped once, a mean toward zero; numbers rounded once from the exact sum
or mean; the least and the greatest are one of them (25 R405). -/
def Claims.reduced (fmt rop : Nat) (vs : List Nat) (v : Nat) : Prop :=
  let w := if fmt = 2 then 32 else 64
  let xs := vs.map (sintW w)
  let ys := vs.map (Claims.value fmt)
  (fmt = 2 ∨ fmt = 3 → v < 2 ^ w ∧ (rop = 0 → (v : Int) = xs.sum % 2 ^ w) ∧
    (rop = 1 → v ∈ vs ∧ ∀ x ∈ vs, sintW w v ≤ sintW w x) ∧ (rop = 2 → v ∈ vs ∧ ∀ x ∈ vs, sintW w x ≤ sintW w v) ∧
    (rop = 3 → (v : Int) = xs.sum.tdiv vs.length % 2 ^ w)) ∧
  (fmt ∈ [4, 5, 7] → (∀ x ∈ vs, Claims.finite fmt x = true) →
    (rop = 0 → ∃ fl, Claims.rounded fmt 0 ys.sum (v, fl)) ∧ (rop = 3 → ∃ fl, Claims.rounded fmt 0 (ys.sum / vs.length) (v, fl)) ∧
    (rop = 1 → Claims.value fmt v ∈ ys ∧ ∀ y ∈ ys, Claims.value fmt v ≤ y) ∧
    (rop = 2 → Claims.value fmt v ∈ ys ∧ ∀ y ∈ ys, y ≤ Claims.value fmt v))

/-- CE.COLL of a sound record in plain memory, with engine 3 not running, starts a run with the next serial, as a chunk of its own that
reads the record, and writes its handle to x[d]; the run fails at once when the package is no member of the group. The bytes of another
member that arrive are kept with the run they are for; parameters that differ fail it with MISMATCH. A run that has every member's
source reads its own, writes its result, and ends with its status word; of two such the oracle names one; without one nothing happens.
In plain memory, read from nowhere before, every element of the result is the reduction of the members' elements, or the element gathered,
at its place from DST, and no other byte changes (25 R398, R401-R409, 14 R282; log 1 for the choice, log 30 for the layout, and for a
run that the oracle has read and write no byte before it ends). -/
def Obligations.CollectivesRun : Prop :=
  (∀ (s : State) (d a : BitVec 5) (op : BitVec 3),
    let u := (endChunk 2 s).getD s
    let bs := (List.range 64).map fun k => s.sees (u.paOf u.core.xl .load (s.x a) + k)
    let w (k : Nat) : Word := BitVec.ofNat 64 (leNat ((bs.drop (8 * k)).take 8))
    let g := s.engine 3
    let serial := if g.serial = 0xFFFFFF then 1 else g.serial + 1
    s.Inv → Claims.settled s → s.unreserved = true → s.core.wait = none → s.core.isBound = true → (s.x a).toNat % 64 = 0 →
    u.agrees u.core.xl [(.load, s.x a)] = true → u.plainAt u.core.xl .load 64 (s.x a) = true → g.run ∈ [.idle, .joined, .joinedFailed] →
    collOk bs = true → (s.oracle.take 2).all (· == 0) = true →
    ∃ t run, exec (.ceColl d a op) s = .next t ∧ s.next t ∧ t.core.chunk = none ∧
      t.core.regs = { s.core.regs.wr d (BitVec.ofNat 64 (2 ^ 8 * serial.toNat + 3)) with pc := s.core.regs.pc + 4 } ∧
      (t.engine 3).serial = serial ∧ run ∈ t.runs ∧ run.ctxid = s.core.slot.ctxid ∧ run.serial = serial ∧ run.op = op ∧
      run.src = w 0 ∧ run.dst = w 1 ∧ run.count = (w 2).toNat ∧ run.fmt.toNat = (w 3).toNat % 2 ^ 8 ∧
      run.rop.toNat = (w 3).toNat / 2 ^ 8 % 8 ∧ run.group = (w 3).toNat / 2 ^ 16 % 2 ^ 8 ∧
      run.run = (if (s.groupOf ((w 3).toNat / 2 ^ 16 % 2 ^ 8)).isSome then .running else .failed)) ∧
  (∀ (s : State) (m : Msg) (r : CollRun) (g : Group),
    let own := rankOf g s.pkg
    let n := g.members.length
    let fits : Bool := msgAt m 1 1 == r.op.toNat && msgAt m 2 1 == r.fmt.toNat && msgAt m 16 8 == r.count
    (s.groupOf (msgAt m 0 1) = some g → msgClean m = true → m.src.toNat < 2048 → g.members.elem (m.src.setWidth 11) = true →
      m.src.setWidth 11 ≠ s.pkg → (fits = true → (s.oracle.take 2).all (· == 0) = true) →
      (s.runs.find? fun r => r.core == s.cur && r.run == .running && r.group == g.num && r.index == msgAt m 8 8 &&
        r.epoch.toNat == msgAt m 4 4) = some r →
      ∃ t q, exec (.coll m) s = .next t ∧ q ∈ t.runs ∧ q.ctxid = r.ctxid ∧ t.mem = s.mem ∧ t.core.regs = s.core.regs ∧
        (fits = false → q.run = .failed ∧ q.result.extractLsb' 56 8 = 0x0F) ∧
        (fits = true → ∃ seg ∈ q.segs, seg.rank = rankOf g (m.src.setWidth 11) ∧
          q = { r with segs := seg :: r.segs.filter (·.rank != seg.rank) } ∧
          let off := msgAt m 24 8
          let bs := (m.payload.drop 32).take (r.count * collBytes r.fmt.toNat - off)
          let was := (r.segs.find? (·.rank == seg.rank)).getD ⟨seg.rank, [], []⟩
          (∀ o, memGet seg.bytes o = if off ≤ o ∧ o < off + bs.length then bs.getD (o - off) 0 else memGet was.bytes o) ∧
          ∀ f, f ∈ seg.spans ↔ f = (off, bs.length) ∨ f ∈ was.spans)) ∧
    let done := s.runs.filter fun r => r.core == s.cur && r.run == .running &&
      (s.groupOf r.group).any fun g => r.complete g.members.length (rankOf g s.pkg)
    (done = [] → exec .collectiveComplete s = .next s) ∧
    (s.groupOf r.group = some g → (done = [r] ∨ (2 ≤ done.length ∧ done.getD s.choice.1 (done.headD r) = r)) →
      ∀ k u, collMove g (fun _ => true) (fun _ => true) r (if done.length = 1 then s else s.choice.2) = .ok k u →
      ∃ t q, exec .collectiveComplete s = .next t ∧ q ∈ t.runs ∧
        q = { k with
          run := .ended
          result := BitVec.ofNat 64 (r.shrunk.toNat * 2 ^ 56 + r.epoch.toNat % 2 ^ 16 * 2 ^ 32 + n % 2 ^ 16 * 2 ^ 16 + own % 2 ^ 16) } ∧
        t.mem = u.mem) ∧
    let w := if r.fmt = 3 ∨ r.fmt = 4 then 8 else if r.fmt = 7 then 2 else 4
    let out := collSources r.op.toNat n own r.count
    let dstAt (k : Nat) : Word := r.dst + BitVec.ofNat 64 (k * w)
    let reads := (List.range (r.count * w)).map fun o => r.src + BitVec.ofNat 64 o
    let writes := out.map fun p => dstAt p.1
    let part (p : Nat × Nat) : Nat := if p.1 = own
      then leNat ((List.range w).map fun j => s.home (s.paOf r.xl .load (r.src + BitVec.ofNat 64 (p.2 * w + j))))
      else leNat (memRead (((r.segs.find? (·.rank == p.1)).getD ⟨p.1, [], []⟩).bytes) (p.2 * w) w)
    (s.groupOf r.group = some g → done = [r] → r.core = s.cur → s.Inv → (∀ f ∈ r.segs, f.rank ≠ own) → (∀ m ∈ s.mig.toList, m.state ≠ .switch) →
      s.fenced 3 s.cur r.ctxid = false → s.agrees r.xl (reads.map (fun a => (.load, a)) ++ writes.map fun a => (.store, a)) = true →
      reads.all (s.plainAt r.xl .load 1) = true → writes.all (s.plainAt r.xl .store w) = true →
      Claims.apart s r.xl writes (writes.map fun a => (a, w)) = true →
      ∃ t, exec .collectiveComplete s = .next t ∧ ∀ q, t.home q = out.foldl (fun f p => Claims.put f (s.paOf r.xl .store (dstAt p.1)) w
        (if r.op.toNat ≤ 1 then red r.fmt.toNat r.rop.toNat (p.2.map part) else part (p.2.headD (0, 0)))) s.home q)) ∧
  (∀ op n r count k src, 0 < n → ((k, src) ∈ collSources op n r count ↔ Claims.collects op n r count k src)) ∧
  ∀ fmt rop vs, vs ≠ [] → vs.length ≤ 2048 → fmt ∈ [2, 3, 4, 5, 7] → rop ≤ 3 → (rop = 1 ∨ rop = 2 → fmt ≠ 7) → (∀ x ∈ vs, x < 2 ^ fmtWidth fmt) →
    Claims.reduced fmt rop vs (red fmt rop vs)

/-! ### Accumulation windows -/

/-- The identity of each operation of a window, by format (13 R274). -/
def Claims.windowUnits : List (Nat × BitVec 3 × Nat) :=
  [(2, 32), (3, 64)].flatMap (fun p => [(p.1, 0, 0), (p.1, 1, 2 ^ (p.2 - 1) - 1), (p.1, 2, 2 ^ (p.2 - 1)), (p.1, 3, 2 ^ p.2 - 1),
    (p.1, 4, 0), (p.1, 5, 2 ^ p.2 - 1), (p.1, 6, 0), (p.1, 7, 0)]) ++
  [(4, 0, 0x8000000000000000), (4, 1, 0x7FF0000000000000), (4, 2, 0xFFF0000000000000), (5, 0, 0x80000000), (5, 1, 0x7F800000),
    (5, 2, 0xFF800000)]

/-- An operation of a window on a copy and a value: integers wrap, their order is signed for MIN and MAX; numbers as in major SF
(13 R273, R275). -/
def Claims.windowOp (c mode : Nat) (op : BitVec 3) (x v : Nat) (r : Nat × Nat) : Prop :=
  let k := fmtWidth c
  (4 ≤ c → r = match op.toNat with
    | 0 => fpAdd c mode x v
    | 1 => fpMinMax c false x v
    | _ => fpMinMax c true x v) ∧
  (c ≤ 3 → r.2 = 0 ∧ match op.toNat with
    | 0 => r.1 = (x + v) % 2 ^ k
    | 1 => r.1 ∈ [x, v] ∧ sintW k r.1 = min (sintW k x) (sintW k v)
    | 2 => r.1 ∈ [x, v] ∧ sintW k r.1 = max (sintW k x) (sintW k v)
    | 3 => r.1 = min x v
    | 4 => r.1 = max x v
    | 5 => ∀ j, r.1.testBit j = (x.testBit j && v.testBit j)
    | 6 => ∀ j, r.1.testBit j = (x.testBit j || v.testBit j)
    | _ => ∀ j, r.1.testBit j = (x.testBit j ^^ v.testBit j))

/-- The value of a merge: the copies folded into the target's in order, with the flags of every step; where a NaN is among them, the first
signalling one, else the first, quieted (13 R276, 08 R171). -/
def Claims.merges (c mode : Nat) (op : BitVec 3) (v : Nat) (cs : List Nat) (r : Nat × Nat) : Prop :=
  let fold := cs.foldl (fun p x => let q := awOp c mode op p.1 x; (q.1, p.2 ||| q.2)) (v, 0)
  let nans := (v :: cs).filter fun x => 4 ≤ c && !Claims.finite c x && x % 2 ^ fpFrac c != 0
  let one := (nans.find? fun x => !x.testBit (fpFrac c - 1)).getD (nans.headD 0)
  (nans = [] → r = fold) ∧ (nans ≠ [] → r.1 = one ||| 2 ^ (fpFrac c - 1))

/-- AW.WIN and AW.CLR set every copy of a window to the identity; AW.UPD folds each active element into its copy, in order; AW.MERGE
folds the copies into the target in plain memory, element by element, each read as the folds below it have left memory, as a chunk of
its own, and sets the copies to the identity. Copy L of element j stands at OFF + (L·NEL + j)·w. No flag is enabled and no token is read
from a register, a copy or the target; a merge that meets a token there traps with it (13 R273-R277, 12 R250; log 7 for the dirty marks,
log 40 for the flags of a merge that meets a NaN, log 43 for a merge as one commit and for the line limit of the others, log 59 for the
token of a target). -/
def Obligations.WindowsAccumulate : Prop :=
  (∀ p ∈ Claims.windowUnits, awIdentity p.1 p.2.1 = p.2.2) ∧
  (∀ (c mode : Nat) (op : BitVec 3) (v : Nat) (cs : List Nat), awFmt c op = true → (∀ x ∈ v :: cs, x < 2 ^ fmtWidth c) →
    (∀ x ∈ cs, Claims.windowOp c mode op v x (awOp c mode op v x)) ∧ Claims.merges c mode op v cs (mergeValue c mode op v cs)) ∧
  ∀ (s : State) (a b v : BitVec 5) (m : BitVec 4) (i : BitVec 2) (p : BitVec 3),
    let r := s.core.regs
    let d := r.window i
    let cfg := s.x b
    let nel := cfg.extractLsb' 0 24
    let off := cfg.extractLsb' 24 22
    let k := fmtWidth r.fmt / 8
    let n : Window := ⟨nel != 0, s.x a, nel, off, p, BitVec.ofNat 5 r.fmt⟩
    let wide (w : Window) : Nat := if w.fmt = 2 ∨ w.fmt = 5 then 4 else 8
    let at' (w : Window) (l j : Nat) : Nat := w.off.toNat + (l * w.nel.toNat + j) * wide w
    let filled (w : Window) (t : State) : Prop :=
      (∀ l j, l < 32 → j < w.nel.toNat → memRead t.core.scratch (at' w l j) (wide w) = leBytes (wide w) (awIdentity w.fmt.toNat w.op)) ∧
      ∀ o, o < at' w 0 0 ∨ at' w 32 0 ≤ o → memGet t.core.scratch o = memGet s.core.scratch o
    let copy (e : Nat) : Nat := at' d (e * k / 64 % 32) (r.elem b (fmtWidth r.fmt) e)
    let upd (sp : Mem) (e : Nat) : Nat × Nat := awOp r.fmt r.rm d.op (leNat (memRead sp (copy e) k)) (r.elem v (fmtWidth r.fmt) e)
    let fold := (r.actives m).foldl (fun (u : Mem × Regs) e =>
      (memWrite u.1 (copy e) (leBytes k (upd u.1 e).1), u.2.accrue (upd u.1 e).2)) (s.core.scratch, r)
    let va (j : Nat) : Word := d.base + BitVec.ofNat 64 (wide d * j)
    let u := (endChunk 1 s.dropLends).getD s
    let pa (j : Nat) : Nat := u.paOf u.core.xl .store (va j)
    let cs (j : Nat) : List Nat := (List.range 32).map fun l => leNat (memRead s.core.scratch (at' d l j) (wide d))
    let js := List.range d.nel.toNat
    let merged := js.foldl (fun (u : (Nat → Byte) × Nat) j =>
      let val := mergeValue d.fmt.toNat r.rm d.op (leNat ((List.range (wide d)).map fun k => u.1 (pa j + k))) (cs j)
      (Claims.put u.1 (pa j) (wide d) val.1, u.2 ||| val.2)) (s.sees, 0)
    let tokens := (js.flatMap fun j => s.seesNat (pa j) (wide d) :: cs j).filter isToken
    s.Inv → s.unreserved = true → s.calm = true → r.ready (m != 0) false = true →
    (awFmt r.fmt p = true → (s.x a).toNat % k = 0 → cfg.toNat < 2 ^ 46 → off.toNat % 64 = 0 → nel.toNat * k ≤ 98304 →
      off.toNat + 32 * (nel.toNat * k) ≤ 0x300000 → ∃ t, exec (.awWin a b i p) s = .next t ∧ s.next t ∧ filled n t ∧
        t.core.regs = { r.vecEnd false false with win := r.win.set i.toNat n i.isLt }) ∧
    (d.valid = true → d.off.toNat % 64 = 0 →
      (∃ t, exec (.awClr i) s = .next t ∧ s.next t ∧ filled d t ∧ t.core.regs = r.vecEnd false false) ∧
      (r.untrapped = true → Claims.settled s → u.agrees u.core.xl (js.map fun j => (.store, va j)) = true →
        js.all (fun j => u.plainAt u.core.xl .store (wide d) (va j)) = true →
        (d.fmt = 5 → tokens ≠ [] → ∃ t, exec (.awMerge i) s = .next t ∧ t.core.prog = .trapped ∧ t.core.regs.epc = r.pc ∧
          t.core.regs.cause = BitVec.ofNat 64 (causeCode .verdictOperand).toNat ∧ t.core.regs.tval = BitVec.ofNat 64 (tokens.headD 0) ∧
          t.core.scratch = s.core.scratch ∧ ∀ q, t.home q = s.sees q) ∧
        ((d.fmt = 5 → tokens = []) → ∃ t, exec (.awMerge i) s = .next t ∧ s.next t ∧ filled d t ∧ t.core.chunk = none ∧
          (∀ q, t.home q = merged.1 q) ∧
          t.core.regs = { r.vecEnd false false with fst := (r.accrue merged.2).fst }))) ∧
    (d.valid = true → d.fmt.toNat = r.fmt → r.groupOk b = true → r.groupOk v = true → r.untrapped = true →
      (∀ e ∈ r.actives m, r.elem b (fmtWidth r.fmt) e < d.nel.toNat ∧
        (r.fmt = 5 → isToken (r.elem v 32 e) = false)) →
      ∃ t, exec (.awUpd v b m i) s = .next t ∧ s.next t ∧ t.core.scratch = fold.1 ∧
        t.core.regs = { r.vecEnd false false with fst := fold.2.fst })

/-! ### Repeat frames -/

/-- The registers with which a frame that RPS holds is resumed: at a word of the frame, as they are; past its last word, with POS not below
L or ITER not below COUNT, at the first word of the next iteration, or, when none is left, behind the frame, which has ended (15 R318,
R320). -/
def Claims.resumes (r q : Regs) : Prop :=
  let len := frameLen (r.rps.extractLsb' 53 4)
  let pos := (r.rps.extractLsb' 49 4).toNat
  let iter := (r.rps.extractLsb' 24 24).toNat
  let count := (r.rps.extractLsb' 0 24).toNat
  let base := r.pc - BitVec.ofNat 64 (4 * pos)
  (pos < len → iter < count → q = r) ∧
  (len ≤ pos → iter + 1 < count → q = { r with rps := q.rps, pc := base } ∧ q.rps.extractLsb' 49 4 = 0 ∧
    (q.rps.extractLsb' 24 24).toNat = iter + 1 ∧
    ∀ k, (k < 24 ∨ 48 ≤ k) → (k < 49 ∨ 53 ≤ k) → q.rps.getLsbD k = r.rps.getLsbD k) ∧
  (count ≤ iter ∨ (len ≤ pos ∧ count ≤ iter + 1) → q = { r with rps := 0, pc := base + BitVec.ofNat 64 (4 * len) })

/-- RP.REP traps REPEAT-FRAME on an operand with bits above 27; with no iterations it skips its frame; else, when every word of the
frame is eligible under its stagger in every iteration and the state that the words use is on, RPS begins the frame at its first word.
In the frame a step runs the staggered word at the program counter, or traps REPEAT-FRAME there when it is not eligible under the VTYPE
of the moment; where a return has set RPS past the last word, it goes on at the next iteration or behind the frame. A vector word with
vector state off, when VTYPE is not the context's own, is held to its decoding and kind alone, runs and so meets step 7 of 02 R26. A word
that has retired leaves POS and ITER at the next of the frame, and the last ends it (15 R315-R320, 02 R26, 17 R348, R349; log 66 for the
vector fields of a word, log 74 for the word while VS is off, log 94 for a format that the word does not accept, log 95 for the
staggered word, log 96 for a word that waits, log 108 for a word that has changed since the check, log 110 for one that the fetch unit
holds from before, which the RP.REP's own clause leaves out). -/
def Obligations.FramesBegin : Prop :=
  (∀ (s : State) (c : BitVec 5) (stride stag : BitVec 3),
    let r := s.core.regs
    let v := s.x c
    let n := v.toNat % 2 ^ 24
    let len := if v.toNat / 2 ^ 24 % 16 = 0 then 16 else v.toNat / 2 ^ 24 % 16
    let at' (p : Nat) : Word := r.pc + 4 + BitVec.ofNat 64 (4 * p)
    let word (p : Nat) : BitVec 32 := BitVec.ofNat 32 (s.homeNat (s.paOf s.core.xl .fetch (at' p)) 4)
    (2 ^ 28 ≤ v.toNat → exec (.rpRep c stride stag) s = .next (takeTrap .repeatFrame false v none s)) ∧
    (v.toNat < 2 ^ 28 → n = 0 → exec (.rpRep c stride stag) s = .next (s.retiredWith { r with pc := at' len })) ∧
    (v.toNat < 2 ^ 28 → n ≠ 0 → s.agrees s.core.xl ((List.range len).map fun p => (.fetch, at' p)) = true →
      (List.range len).all (fun p => s.plainAt s.core.xl .fetch 4 (at' p)) = true →
      (∀ p x, p < len → s.core.heldWord 3 (s.paOf s.core.xl .fetch (at' p)) = some x → x = word p) →
      (∀ p q, p < len → q < n → ∃ u, stagger stride stag q (word p) = some u ∧ (eligible r u).isSome = true ∧
        ((frameState u).1 = true → r.off 10 = false ∧ r.vill = false) ∧ ((frameState u).2.1 = true → r.off 12 = false) ∧
        ((frameState u).2.2 = true → r.off 14 = false)) →
      ∃ q t text, exec (.rpRep c stride stag) s = .next t ∧ (∀ e, e ≠ 3 → text.get e = s.core.text.get e) ∧
        ({ s with core := { s.core with text := text } } : State).readWith q t ∧
        q = { r with rps := q.rps, susp := false, pc := r.pc + 4 } ∧ q.rps.getLsbD 63 = true ∧
        q.rps.extractLsb' 60 3 = stride ∧ q.rps.extractLsb' 57 3 = stag ∧ q.rps.extractLsb' 53 4 = v.extractLsb' 24 4 ∧
        q.rps.extractLsb' 24 25 = 0 ∧ q.rps.extractLsb' 49 4 = 0 ∧ (q.rps.extractLsb' 0 24).toNat = n)) ∧
  (∀ (s u : State) (r : Regs) (w : BitVec 32) (ora : List Nat),
    let v := stagger (r.rps.extractLsb' 60 3) (r.rps.extractLsb' 57 3) (r.rps.extractLsb' 24 24).toNat w
    let off (x : BitVec 32) : Bool := r.off 10 && (frameState x).1
    s.agenda = [] → s.canRun = true → s.core.endAfter = none → s.core.entering = false ∨ s.core.wait ≠ some .engines →
    s.core.regs.inFrame = true → Claims.resumes s.core.regs r →
    atBoundary (s.mapRegs fun _ => r) = .going u → u.core.needsGrant = false → Claims.fetches u w ora →
    ∃ f, Claims.executes u w ora f ∧
      (r.inFrame = false → ∀ i, engineMajor w = false → decode w = .ok i → step s = afterExec r (exec i f)) ∧
      (r.inFrame = true → (∀ x i, v = some x → off x = false → eligible r x = some i → step s = afterExec r (exec i f)) ∧
      (∀ x i, v = some x → off x = true → frameDecode x = some i → (framePlaces i).isSome = true →
        step s = afterExec r (exec i f)) ∧
      ((∀ x, v = some x → (off x = false ∧ eligible r x = none) ∨
          (off x = true ∧ ∀ i, frameDecode x = some i → framePlaces i = none)) →
        step s = afterExec r (.next (takeTrap .repeatFrame false r.pc none f))))) ∧
  ∀ (r : Regs) (t : State),
    let len := frameLen (r.rps.extractLsb' 53 4)
    let pos := (r.rps.extractLsb' 49 4).toNat
    let iter := (r.rps.extractLsb' 24 24).toNat
    let count := (r.rps.extractLsb' 0 24).toNat
    let base := r.pc - BitVec.ofNat 64 (4 * pos)
    r.inFrame = true → iter < count → t.core.prog = .retired → t.policy.freed = false → t.core.regs.rps = r.rps →
    ∃ z, afterExec r (.next t) = .next z ∧
      (∀ p q, (pos + 1 < len ∧ p = pos + 1 ∧ q = iter) ∨ (len ≤ pos + 1 ∧ iter + 1 < count ∧ p = 0 ∧ q = iter + 1) →
        z.core.regs.pc = base + BitVec.ofNat 64 (4 * p) ∧ (z.core.regs.rps.extractLsb' 49 4).toNat = p ∧
        (z.core.regs.rps.extractLsb' 24 24).toNat = q ∧
        ∀ k, (k < 24 ∨ 48 ≤ k) → (k < 49 ∨ 53 ≤ k) → z.core.regs.rps.getLsbD k = r.rps.getLsbD k) ∧
      (len ≤ pos + 1 → iter + 1 = count → z.core.regs.pc = base + BitVec.ofNat 64 (4 * len) ∧ z.core.regs.rps = 0)

/-! ### Engine programs -/

/-- The arithmetic words of copy engines and foragers: destination, sources, and what they compute (05 R106, 06 R126, R127). -/
def Claims.engineOp : Instr → Option (BitVec 4 × BitVec 4 × BitVec 4 × (Word → Word → Word))
  | .eaAdd d a b | .gaAdd d a b => some (d, a, b, fun x y => BitVec.ofNat 64 (x.toNat + y.toNat))
  | .eaSub d a b | .gaSub d a b => some (d, a, b, fun x y => BitVec.ofInt 64 (x.toNat - y.toNat))
  | .eaAnd d a b | .gaAnd d a b => some (d, a, b, fun x y => x &&& y)
  | .eaOr d a b | .gaOr d a b => some (d, a, b, fun x y => x ||| y)
  | .eaXor d a b | .gaXor d a b => some (d, a, b, fun x y => x ^^^ y)
  | .eaSll d a b | .gaSll d a b => some (d, a, b, fun x y => BitVec.ofNat 64 (x.toNat * 2 ^ (y.toNat % 64)))
  | .eaSrl d a b | .gaSrl d a b => some (d, a, b, fun x y => BitVec.ofNat 64 (x.toNat / 2 ^ (y.toNat % 64)))
  | .eaSra d a b => some (d, a, b, fun x y => BitVec.ofInt 64 (x.toInt / 2 ^ (y.toNat % 64)))
  | .eaMul d a b | .gaMul d a b => some (d, a, b, fun x y => BitVec.ofNat 64 (x.toNat * y.toNat))
  | .eaMinu d a b | .gaMinu d a b => some (d, a, b, fun x y => BitVec.ofNat 64 (min x.toNat y.toNat))
  | .eaMaxu d a b | .gaMaxu d a b => some (d, a, b, fun x y => BitVec.ofNat 64 (max x.toNat y.toNat))
  | .eaSltu d a b | .gaSltu d a b => some (d, a, b, fun x y => if x.toNat < y.toNat then 1 else 0)
  | .gaCtz d a => some (d, a, a, fun x _ => BitVec.ofNat 64 (((List.range 64).find? x.getLsbD).getD 64))
  | .gaPopc d a => some (d, a, a, fun x _ => BitVec.ofNat 64 ((List.range 64).countP x.getLsbD))
  | .gaBclr d a => some (d, a, a, fun x _ => if x = 0 then 0 else x &&& (x - 1))
  | .esAddi d a i | .geAddi d a i => some (d, a, a, fun x _ => BitVec.ofInt 64 (x.toNat + i.toInt))
  | .esOri d a i | .geOri d a i => some (d, a, a, fun x _ => x ||| BitVec.ofNat 64 i.toNat)
  | .esSlli d a i | .geSlli d a i => some (d, a, a, fun x _ => BitVec.ofNat 64 (x.toNat * 2 ^ i.toNat))
  | .geSrli d a i => some (d, a, a, fun x _ => BitVec.ofNat 64 (x.toNat / 2 ^ i.toNat))
  | _ => none

/-- The branches of copy engines and foragers: sources, the condition, and the displacement in words (05 R106, 06 R128). -/
def Claims.engineBranch : Instr → Option (BitVec 4 × BitVec 4 × (Word → Word → Prop) × BitVec 15)
  | .ebEq a b o | .gbEq a b o => some (a, b, fun x y => x = y, o)
  | .ebNe a b o | .gbNe a b o => some (a, b, fun x y => x ≠ y, o)
  | .ebLt a b o | .gbLt a b o => some (a, b, fun x y => x.toInt < y.toInt, o)
  | .ebGe a b o | .gbGe a b o => some (a, b, fun x y => y.toInt ≤ x.toInt, o)
  | .ebLtu a b o | .gbLtu a b o => some (a, b, fun x y => x.toNat < y.toNat, o)
  | .ebGeu a b o | .gbGeu a b o => some (a, b, fun x y => y.toNat ≤ x.toNat, o)
  | .ebAl o | .gbAl o => some (0, 0, fun _ _ => True, o)
  | _ => none

/-- A word of an engine that touches no memory completes and changes its engine alone: arithmetic writes e[d]; a branch goes by words from
itself; the drain of an engine with no put out goes on; the end stops the run with its program counter, and the error word stops
it with code USER and its number (05 R103, R106, R110, 06 R126-R128; log 72 for the gets that ES.ERR and GE.ERR drop). -/
def Obligations.EngineWordsCompute : Prop :=
  ∀ (s : State) (i : Instr),
    let g := s.engine s.eng
    (∀ d a b f, Claims.engineOp i = some (d, a, b, f) →
      exec i s = .next (s.mapEngine s.eng fun g => { g.setReg d (f (g.reg a) (g.reg b)) with pc := g.pc + 4 })) ∧
    (∀ a b f o, Claims.engineBranch i = some (a, b, f, o) →
      (f (g.reg a) (g.reg b) → exec i s = .next (s.mapEngine s.eng fun g => { g with pc := g.pc + BitVec.ofInt 64 (4 * o.toInt) })) ∧
      (¬ f (g.reg a) (g.reg b) → exec i s = .next (s.mapEngine s.eng fun g => { g with pc := g.pc + 4 }))) ∧
    (i = .esDrain ∨ i = .geDrain → g.out.all (fun r => !r.put) = true →
      exec i s = .next (s.mapEngine s.eng fun g => { g with pc := g.pc + 4 })) ∧
    (i = .esEnd ∨ i = .geEnd → ∃ rec, exec i s =
      .next { (s.mapEngine s.eng fun g => { g with run := .ended }) with recd := rec }) ∧
    ∀ n : BitVec 14, i = .esErr n ∨ i = .geErr n → ∃ rec, exec i s =
      .next { (s.mapEngine s.eng fun g => { g with
        run := .failed, out := g.out.filter (·.put), err := BitVec.ofNat 64 (0x0B * 2 ^ 56 + s.eng.toNat * 2 ^ 54 + n.toNat) }) with recd := rec }

/-- The bytes of the local space of a core: its scratchpad and its register windows (05 R101). -/
def Claims.localByte (s : State) (o : Nat) : Byte :=
  if o < 0x300000 then memGet s.core.scratch o
  else if (0x400000 ≤ o ∧ o < 0x412000) ∨ (0x420000 ≤ o ∧ o < 0x460000) then winByte s.core.regs o else 0

/-- An access of `n` bytes in local space that the engine reaches, or in plain memory under the engine's translation, whose homes are
not being switched by a migration; no fence that waits holds the engine back (05 R101, R102, 14 R292). -/
def Claims.engineReaches (s : State) (l : Bool) (k : Acc) (n : Nat) (as : List Word) : Bool :=
  let g := s.engine s.eng
  !s.fenced (pathOf s.eng) s.cur s.core.slot.ctxid && if l then as.all fun a => (g.beyond a.toNat n).isNone
  else s.agrees g.xl (as.map fun a => (k, a)) && as.all (s.plainAt g.xl k n) && s.mig.toList.all (·.state != .switch)

/-- The bytes that an engine reads (05 R101). -/
def Claims.engineBytes (s : State) (l : Bool) (a : Word) (n : Nat) : List Byte :=
  (List.range n).map fun k => if l then Claims.localByte s (a.toNat + k) else s.home (s.paOf (s.engine s.eng).xl .load a + k)

/-- The writes of an engine reach registers of a kind (0 v, 1 m, 2 t), whose state turns dirty, also from off (05 R108, 17 R348; log 57). -/
def Claims.dirties (ws : List (Word × List Byte)) (kind : Nat) : Bool :=
  ws.any fun w => decide (0x400000 ≤ w.1.toNat) && (winRegs w.1.toNat w.2.length).any (·.1 == kind)

/-- What the writes of an engine leave, in order: each address with its bytes. The space written shows them and no other change; a
granule of the scratchpad that is touched is full, and the state of a register that is touched is dirty; the registers of the program
and the other space are as before (05 R101, R108, 04 R80, 17 R348). -/
def Claims.landed (s t : State) (l : Bool) (ws : List (Word × List Byte)) : Prop :=
  let pa (a : Word) : Nat := if l then a.toNat else s.paOf (s.engine s.eng).xl .store a
  let new := ws.foldl (fun f w => Claims.put f (pa w.1) w.2.length (leNat w.2)) (if l then Claims.localByte s else s.home)
  (∀ q, (if l then Claims.localByte t else t.home) q = new q) ∧
  (∀ e : BitVec 2, e ≠ s.eng → t.engine e = s.engine e) ∧
  (l = true → t.mem = s.mem ∧ t.core.regs = { s.core.regs with
      v := t.core.regs.v, m := t.core.regs.m, t := t.core.regs.t, z := t.core.regs.z, stat := t.core.regs.stat } ∧
    t.core.regs.stat = (s.core.regs.dirty (Claims.dirties ws 0) (Claims.dirties ws 1) (Claims.dirties ws 2)).stat ∧
    ∀ g, g < 196608 → t.core.fe.getLsbD g = (s.core.fe.getLsbD g ||
      ws.any fun w => w.1.toNat < 0x300000 && !w.2.isEmpty && decide (w.1.toNat / 16 ≤ g) &&
        decide (g ≤ (w.1.toNat + w.2.length - 1) / 16))) ∧
  (l = false → t.core.regs = s.core.regs ∧ t.core.scratch = s.core.scratch ∧ t.core.fe = s.core.fe)

/-- A word of a copy engine on local space or plain memory completes a step: a copy or a fill moves at most to the next 64-byte boundary
of its destination, and its registers and program counter follow; EM.COPY2 moves one step of a row, and at the end of a row goes on
by the pitches; EM.LD and EM.ST move one aligned doubleword (05 R104, R105, R108; log 38 for the step, with its progress in `part`,
log 56 for the full bits of each step, log 57 for the state fields). -/
def Obligations.CopyEnginesMoveBytes : Prop :=
  ∀ (s : State) (d a b c : BitVec 4) (dl sl : Bool),
    let g := s.engine s.eng
    let len := (g.reg b).toNat
    let n := min len (64 - (g.reg d).toNat % 64)
    let fits (x y : Word) (n : Nat) : Prop := Claims.engineReaches s sl .load n [x] = true ∧
      Claims.engineReaches s dl .store n [y] = true ∧ (sl = false → dl = false →
        s.agrees g.xl [(.load, x), (.store, y)] = true)
    let one := BitVec.ofNat 64 n
    let o := BitVec.ofNat 64 g.part
    let k := min (len - g.part) (64 - (g.reg d + o).toNat % 64)
    let pitch := g.reg (c + 1)
    s.Inv → (len = 0 → ∀ i ∈ [Instr.emCopy d a b dl sl, .emFill d a b dl],
      exec i s = .next (s.mapEngine s.eng fun g => { g with pc := g.pc + 4 })) ∧
    (0 < len → fits (g.reg a) (g.reg d) n → ∃ t, exec (.emCopy d a b dl sl) s = .next t ∧
      Claims.landed s t dl [(g.reg d, Claims.engineBytes s sl (g.reg a) n)] ∧
      t.engine s.eng = { ((g.setReg d (g.reg d + one)).setReg a (g.reg a + one)).setReg b (g.reg b - one) with
        pc := if len = n then g.pc + 4 else g.pc }) ∧
    (0 < len → Claims.engineReaches s dl .store n [g.reg d] = true → ∃ t, exec (.emFill d a b dl) s = .next t ∧
      Claims.landed s t dl [(g.reg d, (List.range n).map fun j =>
        BitVec.ofNat 8 ((g.reg a).toNat / 2 ^ (8 * (((g.reg d).toNat + j) % 8))))] ∧
      t.engine s.eng = { (g.setReg d (g.reg d + one)).setReg b (g.reg b - one) with
        pc := if len = n then g.pc + 4 else g.pc }) ∧
    (len ≤ 65536 →
      (g.reg c = 0 → exec (.emCopy2 d a b c dl sl) s = .next (s.mapEngine s.eng fun g => { g with pc := g.pc + 4 })) ∧
      (g.reg c ≠ 0 → (g.part < len → fits (g.reg a + o) (g.reg d + o) k) → ∃ t, exec (.emCopy2 d a b c dl sl) s = .next t ∧
        (g.part < len → Claims.landed s t dl [(g.reg d + o, Claims.engineBytes s sl (g.reg a + o) k)]) ∧
        t.engine s.eng = if g.part + k < len then { g with part := g.part + k }
          else { ((g.setReg d (g.reg d + (pitch.extractLsb' 32 32).signExtend 64)).setReg a
              (g.reg a + (pitch.extractLsb' 0 32).signExtend 64)).setReg c (g.reg c - 1) with
            part := 0, pc := if g.reg c = 1 then g.pc + 4 else g.pc })) ∧
    ((g.reg a).toNat % 8 = 0 →
      (Claims.engineReaches s sl .load 8 [g.reg a] = true → ∃ t, exec (.emLd d a sl) s = .next t ∧
        Claims.landed s t true [] ∧ t.engine s.eng =
          { g.setReg d (BitVec.ofNat 64 (leNat (Claims.engineBytes s sl (g.reg a) 8))) with pc := g.pc + 4 }) ∧
      (Claims.engineReaches s dl .store 8 [g.reg a] = true → ∃ t, exec (.emSt a b dl) s = .next t ∧
        Claims.landed s t dl [(g.reg a, leBytes 8 (g.reg b).toNat)] ∧ t.engine s.eng = { g with pc := g.pc + 4 }))

/-- A forager's load: destination, address register, bytes, space, post-increment (06 R124). -/
def Claims.gwLoad : Instr → Option (BitVec 4 × BitVec 4 × Nat × Bool × Bool)
  | .gwLb d a l i => some (d, a, 1, l, i)
  | .gwLh d a l i => some (d, a, 2, l, i)
  | .gwLw d a l i => some (d, a, 4, l, i)
  | .gwLd d a l i => some (d, a, 8, l, i)
  | _ => none
/-- A forager's store (06 R124). -/
def Claims.gwStore : Instr → Option (BitVec 4 × BitVec 4 × Nat × Bool × Bool)
  | .gwSb a b l i => some (a, b, 1, l, i)
  | .gwSh a b l i => some (a, b, 2, l, i)
  | .gwSw a b l i => some (a, b, 4, l, i)
  | .gwSd a b l i => some (a, b, 8, l, i)
  | .gwSq a b l i => some (a, b, 16, l, i)
  | _ => none
/-- A forager's spread (06 R125). -/
def Claims.gwSpread : Instr → Option (BitVec 4 × BitVec 4 × BitVec 4 × BitVec 4 × Nat × Bool × Bool)
  | .gwSprb d a b c l i => some (d, a, b, c, 1, l, i)
  | .gwSprh d a b c l i => some (d, a, b, c, 2, l, i)
  | .gwSprw d a b c l i => some (d, a, b, c, 4, l, i)
  | .gwSprd d a b c l i => some (d, a, b, c, 8, l, i)
  | _ => none

/-- The steps of `bs` bytes written from an address: each to the next 64-byte boundary (06 R125). -/
def Claims.steps (dst : Word) (bs : List Byte) : List (Word × List Byte) :=
  let o := dst.toNat % 64
  (List.range 9).filterMap fun j =>
    let lo := 64 * j - o
    let hi := min bs.length (64 * (j + 1) - o)
    if lo < hi then some (dst + BitVec.ofNat 64 lo, (bs.drop lo).take (hi - lo)) else none

/-- An aligned load or store of a forager on local space or plain memory completes, with its post-increment; a spread of at most 64
elements reads its column ids and elements from plain memory and writes the dense row, which is not where its translations are read
from, the later of two elements that have one id (06 R124, R125; log 38 for the one step, logs 56 and 57 for the full bits and the
state fields). -/
def Obligations.ForagersMoveBytes : Prop :=
  ∀ (s : State) (i : Instr) (d a b c : BitVec 4) (n : Nat) (l inc : Bool),
    let g := s.engine s.eng
    let ea := g.reg a
    let step (r : BitVec 4) (k : Nat) (g : Engine) : Engine := if inc then g.setReg r (g.reg r + BitVec.ofNat 64 k) else g
    let cnt := (g.reg c).toNat
    let idAt (k : Nat) : Word := g.reg a + BitVec.ofNat 64 k
    let valAt (k : Nat) : Word := g.reg b + BitVec.ofNat 64 (n * k)
    let id (k : Nat) : Nat := leNat (Claims.engineBytes s false (idAt k) 1)
    let row : List Byte := (List.range 64).flatMap fun j =>
      match (List.range cnt).reverse.find? fun k => id k == j with
      | some k => Claims.engineBytes s false (valAt k) n
      | none => List.replicate n 0
    let ws := Claims.steps (g.reg d) row
    s.Inv → (Claims.gwLoad i = some (d, a, n, l, inc) → ea.toNat % n = 0 → Claims.engineReaches s l .load n [ea] = true →
      ∃ t, exec i s = .next t ∧ Claims.landed s t true [] ∧ t.engine s.eng =
        { (step a n g).setReg d (BitVec.ofNat 64 (leNat (Claims.engineBytes s l ea n))) with pc := g.pc + 4 }) ∧
    (Claims.gwStore i = some (a, b, n, l, inc) → ea.toNat % n = 0 → Claims.engineReaches s l .store n [ea] = true →
      ∃ t, exec i s = .next t ∧ Claims.landed s t l
          [(ea, leBytes n ((g.reg b).toNat + if n = 16 then 2 ^ 64 * (g.reg (b + 1)).toNat else 0))] ∧
        t.engine s.eng = { step a n g with pc := g.pc + 4 }) ∧
    (Claims.gwSpread i = some (d, a, b, c, n, l, inc) → i.wellFormed = true → cnt ≤ 64 → (g.reg d).toNat % 16 = 0 →
      (g.reg b).toNat % n = 0 → Claims.engineReaches s false .load 1 ((List.range cnt).map idAt) = true →
      Claims.engineReaches s false .load n ((List.range cnt).map valAt) = true → (∀ k, k < cnt → id k < 64) →
      (ws.all fun w => Claims.engineReaches s l .store w.2.length [w.1]) = true →
      s.agrees g.xl ((List.range cnt).map (fun k => (.load, idAt k)) ++ (List.range cnt).map (fun k => (.load, valAt k)) ++
        if l then [] else ws.map fun w => (.store, w.1)) = true →
      (l = false → Claims.apart s g.xl (ws.map (·.1)) (ws.map fun w => (w.1, w.2.length)) = true) →
      ∃ t, exec i s = .next t ∧ Claims.landed s t l ws ∧
        t.engine s.eng = { step b (n * cnt) (step a cnt (step d (64 * n) g)) with pc := g.pc + 4 })

/-! ### Events: registers and traps -/

/-- The event of a register write applies the register's rule at the focused core and moves no program counter: VL is clamped to VLMAX,
VTYPE is set or becomes VILL, TK refuses a token, CHB is clamped, FST keeps RM for a reserved code, STAT keeps a state field for code
3, TEN, ASID and PTB are the first write of a new chunk, as a read of CSN is its first read. A register write does the same by the
number of each system register, and by address writes INTR, which ORs, SUPVEC and the owner of a barrier; eight bytes that lie in no
device block stop with a fault. In user mode a write that only the supervisor may make traps PRIV instead, with the word of an SY.SWR
of the register (00 R6, 17 R342, 03 R45, R60, R430, 07 R136, R137, 08 R168, 12 R256, 14 R280, R286, R298; log 47 for an event's write
at once, its trap and that word's source register, log 36 for CHB's reserved bits, log 41 for TK's trap, log 7 for the vector
registers' dirty marks). -/
def Obligations.RegisterWritesApply : Prop :=
  ∀ (s : State) (v : Word) (d : BitVec 5) (n : BitVec 12) (pa : BitVec 52) (j k : Nat), s.Inv →
    let r := s.core.regs
    let on (i : Instr) (q : Regs) : Prop := exec i s = .next (s.mapRegs fun _ => q)
    let begun (i : Instr) (q : Regs) : Prop := s.unreserved = true →
      ∃ t, exec i s = .next t ∧ t.core.regs = q ∧ Claims.begins s t
    let vt : Word := if v.toNat < 128 ∧ (v.toNat % 32 ≤ 10 ∨ (16 ≤ v.toNat % 32 ∧ v.toNat % 32 ≤ 22)) then v else 1#64 <<< 63
    let field (k : Nat) : Nat := v.toNat / 2 ^ (k / 2 * 2) % 4
    let priv (i : Instr) (n : BitVec 12) : Prop := ∃ a, exec i s = .next (takeTrap .priv false (tvalWord (encode (.sySwr a n))) none s)
    (r.user = true → priv (.tenWrite v) 0x70 ∧ priv (.asidWrite v) 0x71 ∧ priv (.ptbWrite v) 0x72 ∧ priv (.vlWrite v) 0x10 ∧
      priv (.vtypeWrite v) 0x11 ∧ priv (.vremWrite v) 0x13 ∧ priv (.statWrite v) 0) ∧
    ((r.user && privWrite n.toNat) = true → priv (.registerWrite (.sys n) v) n) ∧
    (r.user = false → begun (.tenWrite v) { r with ten := v &&& 0xFFFF } ∧ begun (.asidWrite v) { r with asid := v &&& 0xFFFF } ∧
      begun (.ptbWrite v) { r with ptb := v &&& 0x000FFFFFFFFFC000 } ∧
      on (.vlWrite v) { r.dirty true false false with vl := BitVec.ofNat 64 (min v.toNat r.vlmax) } ∧
      on (.vtypeWrite v) { r.dirty true false false with
        vtype := vt, vl := BitVec.ofNat 64 (min r.vl.toNat ({ r with vtype := vt } : Regs).vlmax) } ∧
      on (.vremWrite v) { r.dirty true false false with vrem := v }) ∧
    (isToken v.toNat = false → on (.tkWrite v) { r.dirty true false false with tk := v &&& 0xFFFFFFFF }) ∧
    (isToken v.toNat = true →
      exec (.tkWrite v) s = .next (takeTrap .verdictOperand false (v &&& 0xFFFFFFFF) none s)) ∧
    on (.chbWrite v) { r with chb := BitVec.ofNat 64 (max 64 (min 65536 (v.toNat % 2 ^ 17))) } ∧
    on (.fstWrite v) { r with fst := (v &&& 0xF81F) ||| (if 5 ≤ v.toNat / 2 ^ 8 % 8 then r.fst &&& 0x700 else v &&& 0x700) } ∧
    (r.user = false → ∃ st, on (.statWrite v) { r with stat := st } ∧ ∀ k, k < 64 → st.getLsbD k =
      if k ∈ [0, 1, 3, 4, 5] ∨ (10 ≤ k ∧ k < 16 ∧ field k ≠ 3) then v.getLsbD k else r.stat.getLsbD k) ∧
    (s.unreserved = true → ∃ t, exec (.csnRead d) s = .next t ∧ t.core.regs = r.wr d t.core.csn ∧ Claims.begins s t) ∧
    (Claims.plainSys n = true → (r.user && privWrite n.toNat) = false → exec (.registerWrite (.sys n) v) s = .next (s.mapRegs (·.sysWrite n.toNat v)) ∧
      ∀ p ∈ Claims.sysWrites r v, p.1 = n.toNat → exec (.registerWrite (.sys n) v) s = .next (s.mapRegs fun _ => p.2)) ∧
    exec (.registerWrite (.sys 0) v) s = exec (.statWrite v) s ∧
    (exec (.registerWrite (.ctl 0x18) v) s = .next (s.mapCore fun c => { c with badop := c.badop && !v.getLsbD 0 })) ∧
    (j < 3 → k < 48 → pa.toNat = 3 * 2 ^ 48 + j * 2 ^ 32 + (0x100800 + 8 * k) → ∃ t, exec (.registerWrite (.dev pa) v) s = .next t ∧ t.cur = s.cur ∧
      ∀ c, t.coreAt c = if c = 48 * j + k then { s.coreAt c with intr := (s.coreAt c).intr ||| v } else s.coreAt c) ∧
    (j < 3 → k < 48 → pa.toNat = 3 * 2 ^ 48 + j * 2 ^ 32 + (0x100C00 + 8 * k) → ∃ t, exec (.registerWrite (.dev pa) v) s = .next t ∧ t.cur = s.cur ∧
      ∀ c, t.coreAt c = if c = 48 * j + k then { s.coreAt c with supvec := v &&& ~~~3#64 } else s.coreAt c) ∧
    (j < 3 → k < 192 → pa.toNat = 3 * 2 ^ 48 + j * 2 ^ 32 + (0x102000 + 8 * k) → ∃ o, exec (.registerWrite (.dev pa) v) s = .next { s with owners := o } ∧
      ((s.owners.map (·.1)).Pairwise (· < ·) → keyGet o (j * 2 ^ 32 + 0x102000 + 8 * k) 0 = v &&& 0x800000000000FFFF)) ∧
    ((∀ d, d < 3 → pa.toNat < 3 * 2 ^ 48 + d * 2 ^ 32 ∨ 3 * 2 ^ 48 + d * 2 ^ 32 + 0x400000 < pa.toNat + 8) →
      exec (.registerWrite (.dev pa) v) s = .fault (.unbacked pa.toNat))

/-- The events that trap, in their order at a boundary: a machine check of the hardware freezes the recorder, and waits for a
boundary; a preemption stops the engines; an interrupt takes the lowest pending bit; a breakpoint and a fetch fault give the program
counter as TVAL, a word that is no instruction gives itself. An event behind another that applies, or at no boundary, is not taken. An
engine that runs fails with its code and program counter, and one that does not is left alone (17 R338-R340, R353, R357, 02 R26, 05
R93, R110; log 17 for the boundary and a core without a context, log 47 for an event at once, log 72 for the gets that a failed engine
drops, log 78 for VQPOS, which is 0 also at a breakpoint on a VQ instruction). -/
def Obligations.EventsTrap : Prop :=
  ∀ (s : State) (w : BitVec 32) (e : BitVec 2), s.unreserved = true →
    let r := s.core.regs
    let pc := r.pc
    let entered (t : State) (code tval : Nat) : Prop := t.core.prog = .trapped ∧ t.core.chunk = none ∧ t.core.regs.epc = pc ∧
      t.core.regs.cause = BitVec.ofNat 64 (2 ^ 63 + code) ∧ t.core.regs.tval = BitVec.ofNat 64 tval ∧
      t.core.regs.pc = r.tvec &&& ~~~3#64 ∧ t.core.regs.x = r.x ∧ t.core.regs.v = r.v
    let major := w.toNat / 2 ^ 26
    let failed (code : Nat) : Prop := ∃ rec, ∀ i, i = (if code = 1 then Instr.illegalWord e else .fetchError e) →
      exec i s = .next { (s.mapEngine e fun g => { g with
        run := .failed, out := g.out.filter (·.put), err := BitVec.ofNat 64 (code * 2 ^ 56 + e.toNat * 2 ^ 54 + g.pc.toNat % 2 ^ 49) }) with recd := rec }
    let at' : Prop := s.core.isBound = true ∧ s.core.boundary = true ∧ s.core.mcheck = false
    let runs : Prop := e ≠ 3 ∧ (s.engine e).run = .running
    (at' → s.core.preemptible = false → s.core.interruptible = true → ∃ t n, exec .interrupt s = .next t ∧ entered t 0x15 n ∧ s.core.intr.getLsbD n = true ∧
      (∀ j, j < n → s.core.intr.getLsbD j = false) ∧ ∀ j, t.core.intr.getLsbD j = (s.core.intr.getLsbD j && j != n)) ∧
    (¬ at' ∨ s.core.preemptible = true ∨ s.core.interruptible = false → exec .interrupt s = .next s) ∧
    (at' → s.core.preemptible = true → ∃ t, exec .preempt s = .next t ∧ entered t 0x16 0 ∧ t.core.stopped = true) ∧
    (¬ at' ∨ s.core.preemptible = false → exec .preempt s = .next s) ∧
    (s.core.isBound = true → s.core.boundary = true → ∃ t, exec .machineCheck s = .next t ∧ entered t 0x14 (2 ^ 62) ∧
      t.core.mcheck = false ∧ (s.recd.state = .armed → t.recd.state = .freezing ∧ t.recd.fkind = 4)) ∧
    (s.core.isBound = true → s.core.boundary = false →
      exec .machineCheck s = .next (s.mapCore fun c => { c with mcheck := true })) ∧
    (s.core.isBound = false → ∃ t, exec .machineCheck s = .next t ∧ t.core.regs = s.core.regs ∧ t.core.mcheck = s.core.mcheck ∧
      (s.recd.state = .armed → t.recd.state = .freezing ∧ t.recd.fkind = 4)) ∧
    (at' → s.core.preemptible = false → s.core.interruptible = false → s.core.breaks = true →
      exec .breakpoint s = .next (takeTrap .breakpoint false pc none s)) ∧
    (¬ at' ∨ s.core.preemptible = true ∨ s.core.interruptible = true ∨ s.core.breaks = false → exec .breakpoint s = .next s) ∧
    (s.core.isBound = true → exec (.notAnInstruction w) s = .next (takeTrap (if (0x20 ≤ major ∧ major ≤ 0x2F) ∨ (0x38 ≤ major ∧ major ≤ 0x3E) then
      .reservedMajor else .illegal) false (BitVec.ofNat 64 w.toNat) none s)) ∧
    (s.core.isBound = true → exec .fetchPage s = .next (takeTrap .fetchPage false pc none s)) ∧
    (runs → failed 1 ∧ failed 2) ∧
    (¬ runs → exec (.illegalWord e) s = .next s ∧ exec (.fetchError e) s = .next s)

/-! ### Slots and migrations -/

/-- A slot command runs its course: FEOP sets its bits or BADOP; BIND of an EMPTY slot with a sound save area begins a bind, on whatever
core, one that
fails a check is refused with the REASON of the first, one of a slot in use with 0, and one whose save area stands in HBM that is not
served waits; the load completes it at the saved program counter, and an UNBIND that came first acts then; UNBIND and YIELD leave a
bound slot; INTR ORs; the page service's release lets a waiting context go on (04 R78, 16 R329-R334, 17 R340, R360, 27 R425; log 15 for
the core that accepts no binds, log 70 for a bind against PLACE, log 71 for the first bind, log 39 for YIELD at once, log 53 for FEOP). -/
def Obligations.SlotsAreBoundAndLeft : Prop :=
  ∀ (s : State) (v : Word), s.Inv →
    let t0 := s.core.slot
    let a := t0.area
    let first := v.toNat % 2 ^ 18
    let count := v.toNat / 2 ^ 18 % 2 ^ 18
    let refused (k : Nat) (t : Slot) : State := { (s.mapCore fun c => { c with slot := t }) with
      slotst := Vector.ofFn fun j => if j.val = dieOf s.cur then ⟨BitVec.ofNat 3 k, BitVec.ofNat 6 (s.cur % 48), true⟩ else s.slotst.get j }
    let hbm : Bool := a / 2 ^ 48 == 0 && !s.hbmServed
    let why : Option Nat :=
      if s.core.supvec = 0 then some 4
      else if boundElsewhere t0.ctxid s = true then some 1
      else if ¬ (backed a 0x360000 = true ∧ a / 2 ^ 48 ≤ 1) then some 2
      else if hbm = true then none
      else if t0.ctxid = 0 ∨ s.homeNat (a + 0x150) 8 ≠ t0.ctxid.toNat then some 3
      else if ((List.range 4).any fun e => 5 < s.homeNat (a + 0x300 + 0xC0 * e) 8 % 8) = true then some 5
      else if s.acceptsBinds = false then some 0
      else none
    (v.toNat / 2 ^ 36 % 2 ^ 27 = 0 → first + count ≤ 196608 → ∃ fe, exec (.feop v) s = .next (s.mapCore fun c => { c with fe := fe }) ∧
      ∀ g, g < 196608 → fe.getLsbD g = if first ≤ g ∧ g < first + count then v.getLsbD 63 else s.core.fe.getLsbD g) ∧
    ((v.toNat / 2 ^ 36 % 2 ^ 27 ≠ 0 ∨ 196608 < first + count) →
      exec (.feop v) s = .next (s.mapCore fun c => { c with badop := true })) ∧
    (t0.state ≠ .empty → exec .bind s = .next (refused 0 t0)) ∧
    (t0.state = .empty →
      (∀ k, why = some k → exec .bind s = .next (refused k { t0 with asked := false })) ∧
      (why = none → hbm = true → exec .bind s = .next (s.mapCore fun c => { c with slot := { t0 with asked := true } })) ∧
      (why = none → hbm = false → ∃ t, exec .bind s = .next t ∧
        t.core.slot = { t0 with state := .binding, held := false, asked := false } ∧ t.core.regs = s.core.regs ∧
        ∀ k ∈ t.ctxs, k.ctxid = t0.ctxid → k.state = .bound)) ∧
    (t0.state = .binding → t0.asked = false → (a / 2 ^ 48 ≠ 0 ∨ s.hbmServed = true) → ∃ t, exec .bindLoadComplete s = .next t ∧
      t.core.slot.state = (if t0.held then .unbinding else .bound) ∧ t.core.regs.tvec = s.core.supvec ∧ t.core.chunk = none ∧
      t.core.regs.pc = BitVec.ofNat 64 (s.homeNat (a + 0x100) 8) &&& ~~~3#64 ∧
      (∀ j : Fin 32, j.val ≠ 0 → t.core.regs.x.get j = BitVec.ofNat 64 (s.homeNat (a + 8 * j.val) 8)) ∧
      t.core.regs.off 10 = true ∧ t.core.regs.off 12 = true ∧ t.core.regs.off 14 = true ∧
      (s.core.lastTen ≠ some (BitVec.ofNat 16 (s.homeNat (a + 0x138) 8)) → t.core.fe = 0)) ∧
    (∃ t, exec .unbind s = .next t ∧ t.core.regs = s.core.regs ∧ t.core.slot = match t0.state with
      | .bound => { t0 with state := .unbinding }
      | .binding => { t0 with held := true }
      | _ => t0) ∧
    (t0.state = .empty → exec .unbind s = .next (refused 0 t0)) ∧
    (s.core.regs.user = false → s.core.isBound = true → t0.ctxid = v → ∃ t, exec (.yield v) s = .next t ∧
      t.core.slot = { t0 with state := .unbinding } ∧ ∀ k ∈ t.ctxs, k.ctxid = v → k.state = .waiting) ∧
    ((s.core.regs.user = true ∨ s.core.isBound = false ∨ t0.ctxid ≠ v) → exec (.yield v) s = .next s) ∧
    exec (.intr v) s = .next (s.mapCore fun c => { c with intr := c.intr ||| v }) ∧
    ∃ cs mp wq, let t : State := { s with ctxs := cs, policy := { s.policy with mapped := mp, waiting := wq } }
      exec (.pageServiceRelease v) s = .next t ∧ Claims.queuesWait t ∧ cs = s.ctxs.map fun k =>
      if k.ctxid = v ∧ k.state = .waiting then { k with state := if inSlot v s then .bound else .runnable } else k

/-- The migration engine of the focused core's die. MIGRATE and RETIRE of two sound, free frames begin a copy, and a command that cannot
act sets BAD or BUSY; when every line is copied the new frame holds the bytes of the old and the engine is in SWITCH; SWITCHED ends
the operation, with redirection for a frame of HBM, which the engine that was commanded keeps; RELEASE ends the redirection. While HBM
is not served every command is refused as busy (03 R62-R65, 27 R425; log 13 for the copy and the order of the checks, log 49 for the
retirement of a frame, log 58 for the engine that redirects, log 47 for an event at once). -/
def Obligations.MigrationsMoveFrames : Prop :=
  ∀ (s : State), s.Inv →
    let d := dieOf s.cur
    let m := s.migOf d
    let size := migSize m.old
    let old := migFrame m.old
    let new := migFrame m.new
    let sound := size ≠ 0 ∧ frameOk old size = true ∧ frameOk new size = true
    let free := m.state ≠ .copy ∧ m.state ≠ .switch ∧ s.frameHeld old size = false ∧ s.frameHeld new size = false ∧
      (old / 2 ^ 48 = 0 → m.redir.length < 64)
    let becomes (i : Instr) (n : Mig) : Prop := ∃ t, exec i s = .next t ∧ t.migOf d = n ∧ t.mem = s.mem ∧ t.core = s.core ∧
      ∀ k, k ≠ d → t.migOf k = s.migOf k
    (s.hbmServed = false → ∀ i ∈ [Instr.migrate, .retire, .switched, .release], becomes i { m with busy := true }) ∧
    (m.state = .copy → s.fenced 5 d 0 = false → ∃ t, exec .migrationCopyComplete s = .next t ∧
      t.migOf d = { m with state := .switch, evt := true } ∧
      t.core.regs = s.core.regs ∧ ∀ b, memGet t.mem b =
        if m.opNew ≤ b ∧ b < m.opNew + m.opSize then memGet s.mem (m.opOld + (b - m.opNew)) else memGet s.mem b) ∧
    (m.state ≠ .copy ∨ s.fenced 5 d 0 = true → exec .migrationCopyComplete s = .next s) ∧
    (s.hbmServed = true → (∀ i ∈ [Instr.migrate, .retire],
      (sound → free → becomes i { m with
        state := .copy, opOld := old, opNew := new, opSize := size, retire := decide (i = .retire) }) ∧
      (¬ sound → becomes i { m with bad := true }) ∧ (sound → ¬ free → becomes i { m with busy := true })) ∧
    (m.state = .switch → becomes .switched (if m.opOld / 2 ^ 48 = 0 then
        { m with state := .redirect, evt := true, redir := m.redir ++ [(m.opOld, m.opNew, m.opSize)] }
      else { m with state := .done, evt := true })) ∧
    (m.state ≠ .switch → becomes .switched { m with bad := true }) ∧
    ((m.redir.any fun p => p.1 == old) = true → becomes .release { m with
      redir := m.redir.filter fun p => p.1 != old
      state := if m.state = .redirect ∧ m.opOld = old then .done else m.state
      evt := m.evt || decide (m.state = .redirect ∧ m.opOld = old) }) ∧
    ((m.redir.any fun p => p.1 == old) = false → becomes .release { m with bad := true }))

/-! ### Invalidations, chunks and waits -/

/-- The value of TINV with an ASID, a TEN, a scope and a kind (03 R59). -/
def Claims.tinvWord (asid ten sc kind : Nat) : Word := BitVec.ofNat 64 (asid * 2 ^ 48 + ten * 2 ^ 32 + sc * 32 + kind * 8)

/-- What an invalidation names: its scope, the value of TINV that it stands for, and the translations that it removes (03 R57, R59,
R61). -/
def Claims.names (tiva : Word) : Instr → Option (BitVec 3 × Word × (Tlb → Bool))
  | .tinvTenant n c => some (c, Claims.tinvWord 0 n.toNat c.toNat 0, fun b => b.ten == BitVec.ofNat 64 n.toNat)
  | .tinvAsid n a c => some (c, Claims.tinvWord a.toNat n.toNat c.toNat 1, fun b => b.ten == BitVec.ofNat 64 n.toNat && b.asid == BitVec.ofNat 64 a.toNat && !b.pte.getLsbD 9)
  | .tinvVa n a c => some (c, Claims.tinvWord a.toNat n.toNat c.toNat 2, fun b => b.ten == BitVec.ofNat 64 n.toNat &&
      (b.asid == BitVec.ofNat 64 a.toNat || b.pte.getLsbD 9) &&
      decide (b.va ≤ tiva.toNat % 2 ^ 49 ∧ tiva.toNat % 2 ^ 49 < b.va + b.size))
  | .tinvAll c => some (c, Claims.tinvWord 0 0 c.toNat 3, fun _ => true)
  | _ => none

/-- A core in the scope of an invalidation has an engine access out that used a translation named (03 R61). -/
def Claims.engineUses (s : State) (sc : BitVec 3) (f : Tlb → Bool) : Prop :=
  ∃ n, (sc = 3 → dieOf n = dieOf s.cur) ∧ ∃ g ∈ (s.coreAt n).eng.toList, ∃ r ∈ g.out, f r.tlb = true

/-- An invalidation with SCOPE DIE or PKG, and a canonical TIVA where it names one VA, ends the chunk and takes a CSN; the translations
that it names leave every core and die in its scope, and a chunk of another core that has used one is squashed, but for a chunk that
holds nothing yet, whose core goes on as it was. It waits while an engine access that used one is out; any other scope and a TIVA that
is not canonical trap ILLEGAL, and in user mode every one traps PRIV with the word of an SY.SWR of TINV. An acknowledged TINV does the
same for the value that waits. An acknowledged SY.ICINV waits no more, and no core or engine in its scope holds a fetched word (03 R57,
R61, 17 R342, R351, R352; log 47 for the two steps, the trap
PRIV and its word's source register, log 8 for the dies' translations). -/
def Obligations.TranslationsAreInvalidated : Prop :=
  ∀ (s : State), s.Inv → s.unreserved = true →
    let reached (t : State) (sc : BitVec 3) (f : Tlb → Bool) : Prop := ∀ n, (sc = 3 → dieOf n = dieOf s.cur) →
      (t.coreAt n).tlb = (s.coreAt n).tlb.filter (fun b => !f b) ∧
      (n ≠ s.cur → (∀ ch, (t.coreAt n).chunk = some ch → ch.empty = true ∨ ch.used.all (fun b => !f b) = true) ∧
        ((∀ ch, (s.coreAt n).chunk = some ch → ch.empty = true ∧ ch.rlines = [] ∧ ch.wlines = [] ∧ ch.com = []) →
          (t.coreAt n).wait = (s.coreAt n).wait ∧ (t.coreAt n).chunk = (s.coreAt n).chunk)) ∧
      ∀ d : Fin 3, (sc = 3 → d.val = dieOf s.cur) → t.dieTlb.get d = (s.dieTlb.get d).filter fun b => !f b
    let beyond (t : State) (sc : BitVec 3) : Prop := sc = 3 →
      (∀ n, dieOf n ≠ dieOf s.cur → (t.coreAt n).tlb = (s.coreAt n).tlb) ∧
      ∀ d : Fin 3, d.val ≠ dieOf s.cur → t.dieTlb.get d = s.dieTlb.get d
    let valid (i : Instr) (sc : BitVec 3) : Prop := sc ∈ [3, 4] ∧ ∀ n a, i = .tinvVa n a sc → canonical s.core.regs.tiva = true
    (∀ i sc w f, Claims.names s.core.regs.tiva i = some (sc, w, f) →
      (s.core.regs.user = true → ∃ a, exec i s = .next (takeTrap .priv false (tvalWord (encode (.sySwr a 0x73))) none s)) ∧
      (s.core.regs.user = false → valid i sc → ¬ Claims.engineUses s sc f → ∃ t, exec i s = .next t ∧ t.core.regs = s.core.regs ∧
        t.core.chunk = none ∧ t.core.csn = t.csn ∧ reached t sc f ∧ beyond t sc) ∧
      (s.core.regs.user = false → valid i sc → Claims.engineUses s sc f → exec i s = .next s) ∧
      (s.core.regs.user = false → ¬ valid i sc → exec i s = .next (takeTrap .illegal false w none s))) ∧
    (∀ u, s.core.tinv = some u → Claims.engineUses s u.scope u.matches → exec .tinvAcknowledged s = .next s) ∧
    (∀ u, s.core.tinv = some u → ¬ Claims.engineUses s u.scope u.matches → ∃ t, exec .tinvAcknowledged s = .next t ∧ t.core.tinv = none ∧ t.core.csn = t.csn ∧
      reached t u.scope u.matches ∧ beyond t u.scope) ∧
    (s.core.tinv = none → exec .tinvAcknowledged s = .next s) ∧
    (s.core.icinv = none → exec .icinvAcknowledged s = .next s) ∧
    ∀ sc, s.core.icinv = some sc → ∃ t, exec .icinvAcknowledged s = .next t ∧ t = { s with core := t.core, others := t.others } ∧
      ∀ n, t.coreAt n = { s.coreAt n with
        icinv := if n = s.cur then none else (s.coreAt n).icinv
        text := if sc = 3 ∧ dieOf n ≠ dieOf s.cur then (s.coreAt n).text else Vector.replicate 4 [] }

/-- A chunk that ends takes the next CSN, unless it holds nothing, and passes its bytes to their homes; the budget and the write set
end it at their limits alone. A reservation goes to the next of its die when none is held there. A wait ends when what it waits for has
come, and no earlier; the read queue keeps no reader waiting (14 R279-R288, R300, 04 R81, 05 R98, R109, 15 R305; log 22 for the read
queue, log 47 for an event at once, log 50 for a wait as a step, log 96 for a core that goes on inside its instruction). -/
def Obligations.ChunksEndAndWaitsEnd : Prop :=
  ∀ (s : State) (k : BitVec 4) (e : BitVec 2),
    let ended (i : Instr) : Prop := ∃ t, exec i s = .next t ∧ t.core.chunk = none ∧ t.core.regs = s.core.regs ∧
      Claims.committed s t ∧ (Claims.settled s → ∀ q, t.home q = s.sees q)
    let waits (i : Instr) (w : Wait) (done : Bool) : Prop := s.core.wait = some w →
      exec i s = .next (if done then s.mapCore fun c => { c with wait := Claims.onward s.core } else s)
    let die := s.grants.filter fun n => dieOf n == dieOf s.cur
    let gone (e : BitVec 2) : Bool := (s.engine e).run != .running && (s.engine e).out.all fun r => !r.put
    s.Inv → (s.unreserved = true → ended (.chunkCommit k) ∧
      (s.core.regs.chb.toNat % 2 ^ 17 ≤ s.core.chunkOr.count → ended .chunkBudgetExhausted) ∧
      (4096 ≤ s.core.chunkOr.lines → ended .writeSetLimit)) ∧
    (s.core.chunkOr.count < s.core.regs.chb.toNat % 2 ^ 17 → exec .chunkBudgetExhausted s = .next s) ∧
    (s.core.chunkOr.lines < 4096 → exec .writeSetLimit s = .next s) ∧
    (die.head? = some s.cur → s.core.reserved = false → (∀ n ∈ die, (s.coreAt n).reserved = false) →
      ∃ g, exec .reservationGrant s = .next { s with
        grants := g, core := { s.core with reserved := true, wait := Claims.onward s.core, prog := .retired } }) ∧
    (∀ g, waits .fullEmptyRelease (.fullEmpty g) (s.core.fe.getLsbD g)) ∧
    (∀ b, waits .barrierRelease (.barrier b)
      (!(barPend (s.core.regs.bar b) && (s.barOf (s.core.regs.bar b)).gen == barGen (s.core.regs.bar b)))) ∧
    waits .rendRelease (.rend e) (gone e) ∧ waits (.engineDrainComplete e) (.rend e) (gone e) ∧
    exec .rqResult s = .next s

/-! ### Power, freezing and the quanta -/

/-- Service goes on as the events tell it: the boot's end completes a freeze that it finds, which may end in HOLD, and else starts die
0 in REDUCED, with the firmware's barrier owners in place; REDUCED is left when all twelve stacks are trained and none has failed;
quads start in order, and FULL follows the last of die 2; above 2,800 W the throttle level that the MC chooses rises by one and at 95
°C it is 4, and TLVL follows it when every core stands between two instructions, where a core that a squash has put back inside one
does not stand; at 105 °C the recorder freezes, which is complete once every unit has written its FREEZE, and HOLD follows the sealing;
after a loss of power nothing is kept. A quantum boundary serves the launches that wait, counts one quantum and else only binds,
unbinds and places: no register, memory byte, context or CSN changes; firmware may declare a fault there (27 R423-R429, 26 R415, R416,
R419, 14 R298, 16 R327, R329, R335; log 23 for the capsules' ids, logs 24 and 46 for the windows and the inbox, logs 91 and 96 for the
moment at which TLVL follows and for a core inside, log 47 for an event at once, log 63 for the firmware's fault, log 101 for the units
that a freeze reaches last). -/
def Obligations.ServiceRisesAndFalls : Prop :=
  (∀ (s : State) (k : BitVec 4) (ok : Bool) (die : BitVec 2) (w : BitVec 16) (c : BitVec 8),
    let p := s.power
    let one : BitVec 12 := 1#12 <<< k.toNat
    let all := (p.trained ||| one) = 0xFFF ∧ p.hbmFail = 0
    let held := p.trip = true ∧ s.recd.state ≠ .armed
    let n := p.quads.toList.getD die.toNat 0
    let powered (i : Instr) (q : Power) : Prop := exec i s = .next { s with power := q }
    let clocked (q : Power) : Power := { q with tlvl := if s.cores.all (·.2.between) = true then q.level else q.tlvl }
    (p.svc = 1 → ∃ t, exec .mcBootComplete s = .next t ∧ t.recd.state = .armed ∧
      (held → t.power.svc = 5 ∧ t.power.dieOn = 0) ∧
      (¬ held → t.power.dieOn = 1 ∧ t.power.quads = p.quads.set 0 1 ∧
        t.power.svc = (if p.trained = 0xFFF ∧ p.hbmFail = 0 then 3 else 2) ∧
        t.owners = bootOwners ∧ ∀ e ∈ t.owners, e.2.getLsbD 63 = true)) ∧
    (p.svc ≠ 1 → exec .mcBootComplete s = .next s) ∧
    (k.toNat < 12 → p.svc = 1 ∨ p.svc = 2 →
      ((ok && !p.hbmFail.getLsbD k.toNat) = true → powered (.hbmTrainingComplete k ok) { p with
        trained := p.trained ||| one, svc := if p.svc = 2 ∧ all then 3 else p.svc }) ∧
      ((ok && !p.hbmFail.getLsbD k.toNat) = false → powered (.hbmTrainingComplete k ok) { p with
        hbmFail := p.hbmFail ||| one, trained := p.trained &&& ~~~one })) ∧
    (n < 12 → (die = 0 ∧ (p.svc = 2 ∨ p.svc = 3 ∨ p.svc = 4)) ∨ (die = 1 ∧ p.svc = 3) ∨
        (die = 2 ∧ p.svc = 3 ∧ p.quads.toList.getD 1 0 = 12) → ∃ q, powered (.quadStart die) { p with
      quads := q, dieOn := p.dieOn ||| (1#3 <<< die.toNat)
      svc := if die = 2 ∧ n = 11 ∨ die ≠ 2 ∧ p.quads.toList.getD 2 0 = 12 then 4 else p.svc } ∧
      q.toList.getD die.toNat 0 = n + 1) ∧
    (p.svc = 4 → p.hot = false → p.level.toNat ≤ 4 →
      (2800 < w.toNat → powered (.powerWindowEnd w) (clocked { p with
        pwr := w, low := 0, level := BitVec.ofNat 3 (min 4 (p.level.toNat + 1)) })) ∧
      (2600 ≤ w.toNat → w.toNat ≤ 2800 → powered (.powerWindowEnd w) (clocked { p with pwr := w, low := 0 })) ∧
      (w.toNat < 2600 → powered (.powerWindowEnd w) (clocked (if p.low < 7 then { p with pwr := w, low := p.low + 1 }
        else { p with pwr := w, low := 0, level := BitVec.ofNat 3 (p.level.toNat - 1) })))) ∧
    (p.svc ≠ 4 ∨ p.hot = true → powered (.powerWindowEnd w) (clocked { p with pwr := w, low := 0 })) ∧
    (∀ (r : Regs) (z : State), afterExec r (.next s) = .next z → z.power.tlvl ≠ p.tlvl →
      z.power.tlvl = p.level ∧ z.cores.all (·.2.between) = true) ∧
    (∀ (c : Core) (ch : Chunk) (h : Held), (Claims.inside c h → c.newChunk.inside = some h) ∧
      (c.chunk = some ch → ch.inside = some h → c.squashed.between = false ∧ c.squashed.regs.vstart = ch.start.vstart)) ∧
    (∀ i ∈ [Instr.thermalThrottle c, .thermalTrip c],
      (95 ≤ c.toNat → c.toNat < 105 → powered i (clocked { p with temp := c, level := 4, hot := true, low := 0 })) ∧
      (c.toNat < 90 → powered i (clocked { p with temp := c, hot := false })) ∧
      (90 ≤ c.toNat → c.toNat < 95 → powered i (clocked { p with temp := c })) ∧
      (105 ≤ c.toNat → ∃ t, exec i s = .next t ∧ t.power.trip = true ∧ t.power.level = 4 ∧ t.power.temp = c ∧
        t.power.tlvl = (clocked { p with level := 4 }).tlvl ∧
        (s.recd.state = .armed → t.recd.state = .freezing ∧ t.recd.fkind = 8))) ∧
    (s.recd.state = .freezing → ∃ t, exec .freezeComplete s = .next t ∧
      t.recd = { s.recd with rings := t.recd.rings, state := .sealing, fcsn := s.csn } ∧ (∀ u, u < 147 → (t.ring u).frozen = true) ∧
      ((∀ u, u < 147 → (s.ring u).frozen = true) → t.recd.rings = s.recd.rings)) ∧
    (s.recd.state = .sealing → ∃ t, exec .sealingComplete s = .next t ∧ t.recd.state = .armed ∧
      (∀ g ∈ t.recd.rings, g.2.frozen = false) ∧ t.recd.capid = s.recd.capid + BitVec.ofNat 64 (capsuleTenants s).length ∧
      (p.trip = true → t.power.svc = 5 ∧ t.power.dieOn = 0)) ∧
    (∃ t, exec .powerLoss s = .next t ∧ t.power.svc = 0 ∧ t.recd = Recorder.reset ∧ t.mem = [] ∧ t.ctxs = []) ∧
    (Config.debugUnlocked = true → powered .dbgfrz { p with frozen := true }) ∧
    (Config.debugUnlocked = false → exec .dbgfrz s = .next s)) ∧
  (∀ s : State, s.Inv →
    (s.mcUp = false → exec .quantumBoundary s = .next s) ∧
    (s.mcUp = true → ∃ t, exec .quantumBoundary s = .next t ∧ t.policy.quantum = s.policy.quantum + 1 ∧
      t.csn = s.csn ∧ t.cur = s.cur ∧
      (s.inbox = [] → t.mem = s.mem ∧ t.ctxs.map (·.ctxid) = s.ctxs.map (·.ctxid)) ∧
      (s.fenced 4 0 0 = false → t.inbox = []) ∧
      (s.recd.state = .armed → 1 ≤ s.choice.1 → s.choice.1 ≤ 3 →
        t.recd.state = .freezing ∧ t.recd.fkind = 8 ∧ t.recd.origin = 143 + s.choice.1) ∧
      (∀ n, (t.coreAt n).regs = (s.coreAt n).regs ∧ (t.coreAt n).chunk = (s.coreAt n).chunk ∧
        (t.coreAt n).scratch = (s.coreAt n).scratch) ∧
      ∀ n, (s.coreAt n).slot.state = .binding ∨ (s.coreAt n).slot.state = .unbinding →
        (t.coreAt n).slot.state = (s.coreAt n).slot.state))

/-! ### Messages -/

/-- The state with one answer sent: to the sender, with its TAG (25 R397, R398; log 26 for the TYPE). -/
def Claims.answered (s : State) (ty : BitVec 8) (m : Msg) (st : BitVec 8) (bs : List Byte) : State := reply ty m st bs s

/-- An inbound access to backed HBM that is served, with a sound header, is performed at its home, or at the new frame of a frame under
redirection, and answered with STAT 0, with ORD once a fence of POD scope has gone before; it waits while HBM is not served or a fence
holds it back; one that is malformed is answered 0xFF, and one that is not backed 0x05. An answer to an access of this package reaches
the unit that waits for its TAG (25 R397-R399, 03 R65, 13 R269-R271, 14 R292, R293, 05 R109, 27 R425; logs 14 and 26 for the layouts
and for the answer to an ATOMIC that is malformed, log 35 for ORD, log 90 for an ATOMIC that is not aligned). -/
def Obligations.RemoteAccessesAreServed : Prop :=
  ∀ (s : State) (m : Msg) (ty : BitVec 8), s.Inv → (∀ g ∈ s.mig.toList, g.state ≠ .switch) →
    let n := msgAt m 0 8
    let len := m.len.toNat
    let func := msgAt m 0 8
    let an := if func / 32 % 2 = 1 then 4 else 8
    let a := redirect s m.addr.toNat
    let old := s.homeNat a an
    let new := Claims.atomicValue (func % 16) (8 * an) old (msgAt m 8 8) (msgAt m 16 8)
    let sound (n : Nat) : Prop := msgClean m = true ∧ 0 < n ∧ n ≤ 256 ∧ m.addr.toNat % 256 + n ≤ 256
    let far (n : Nat) : Prop := 0xC000000000 < m.addr.toNat + n
    let ok (n : Nat) : Prop := sound n ∧ ¬ far n
    let put (n : Nat) : Prop := sound n ∧ m.nflit.toNat = (n + 31) / 32
    let upd (n : Nat) : Prop := sound n ∧ amValid func = true ∧ m.addr.toNat % n = 0
    let sent (t : State) (ty : BitVec 8) (bs : List Byte) : Prop :=
      ∃ o, t.outbox = s.outbox ++ [o] ∧ o.1 = ty ∧ o.2.dst = m.src ∧ o.2.tag = m.tag ∧ o.2.stat = 0 ∧ o.2.ord = s.ord ∧
        o.2.payload.take bs.length = bs
    let open' : Prop := s.hbmServed = true ∧ s.fenced 4 0 0 = false
    let landed (t : State) (n v : Nat) : Prop := ∀ q, t.home q = Claims.put s.home a n v q
    (¬ open' → (ok n → exec (.read m) s = .next s) ∧
      (ok len → m.nflit.toNat = (len + 31) / 32 → exec (.write m) s = .next s) ∧
      (amValid func = true → ok an → m.addr.toNat % an = 0 → exec (.atomic m) s = .next s)) ∧
    (open' → ok n → ∃ t, exec (.read m) s = .next t ∧ t.mem = s.mem ∧ sent t 0x81 (s.homeBytes a n)) ∧
    (∀ i ty, ((i = .read m ∧ ty = 0x01 ∧ ¬ sound n) ∨ (i = .write m ∧ ty = 0x02 ∧ ¬ put len) ∨ (i = .atomic m ∧ ty = 0x03 ∧ ¬ upd an)) →
      exec i s = .next (Claims.answered s ty m 0xFF [])) ∧
    (∀ i ty, ((i = .read m ∧ ty = 0x01 ∧ sound n ∧ far n) ∨ (i = .write m ∧ ty = 0x02 ∧ put len ∧ far len) ∨
        (i = .atomic m ∧ ty = 0x03 ∧ upd an ∧ far an)) →
      exec i s = .next (Claims.answered s ty m 0x05 [])) ∧
    (open' → ok len → m.nflit.toNat = (len + 31) / 32 → ∃ t, exec (.write m) s = .next t ∧ sent t 0x82 [] ∧
      landed t len (leNat (m.payload.take len))) ∧
    (open' → amValid func = true → ok an → m.addr.toNat % an = 0 → ∃ t, exec (.atomic m) s = .next t ∧ landed t an new ∧
      sent t 0x83 (if func / 16 % 2 = 1 then [] else leBytes an old)) ∧
    (∀ i ∈ [Instr.readData m, .writeAck m, .atomicAck m], m.rsv = 0 → ∃ t, exec i s = .next t ∧ t.mem = s.mem ∧
      t.outbox = s.outbox ∧ t.core.regs = s.core.regs ∧
      (∀ r ∈ t.core.out, r.tag = m.tag.toNat → r.put = false ∧ r.reply.isSome = true) ∧
      ∀ r ∈ s.core.out, r.tag ≠ m.tag.toNat → r ∈ t.core.out) ∧
    (ty.toNat < 0x80 → ty ≠ 0x30 → exec (.unknownMessageType ty m) s = .next (Claims.answered s ty m 0xFF [])) ∧
    (0x80 ≤ ty.toNat ∨ ty = 0x30 → exec (.unknownMessageType ty m) s = .next s)

/-- The instruction is a message of the fabric management service (25 R400, 23 R385, 26 R420, R421). -/
def Claims.mgmt (m : Msg) (i : Instr) : Prop :=
  i ∈ [Instr.load m, .unload m, .klist m, .queueSet m, .agingSet m, .capsuleList m, .capsuleGet m, .capsuleAck m, .idkey m, .debugFreeze m,
    .groupSet m, .memberFail m, .redirectClear m]

/-- A launch message to the management cores that have booted is answered with its status word, one that finds 256 messages waiting
with INBOX-FULL, and one that the MC leaves for later waits. A management message does what the operation code and the subcode in its
payload name, whichever it was sent as: queues and aging, groups and members, the list, the bytes and the release of a capsule, the
identity key, redirections, the debug freeze. A member that fails leaves its group and no other, and the runs of the group start again
or, on the package that has failed, fail; the redirection of a frame that is cleared goes, and no other. Without rights it is answered
0x01, and a malformed one, or one that names no operation, 0xFF, with no effect; before the boot nothing is taken (16 R327, R328, R335,
25 R397, R400, R404, R407, 26 R420, R421; log 12 for the rights, log 26 for the TYPE, log 27 for the layouts, the parts of a GROUP-SET
and its EPOCH, log 46 for the inbox, log 93 for the id of a member that fails, log
99 for one that no entry names). -/
def Obligations.ManagementIsAnswered : Prop :=
  ∀ (s : State) (m : Msg) (i : Instr), Claims.mgmt m i →
    let f (o n : Nat) : Nat := msgAt m o n
    let did (bs : List Byte) (t : State) : Prop := exec i s = .next (Claims.answered t 0x20 m 0 bs)
    let sts (st : BitVec 8) : Prop := exec i s = .next (Claims.answered s 0x20 m st [])
    let code := f 0 8
    let sub := f 8 8
    let known : Prop := 1 ≤ code ∧ code ≤ 8 ∧ (code = 1 → sub ≤ 2) ∧ (code = 4 → sub ≤ 3)
    let mine (c : Capsule) : Bool := s.mayTenant m.src c.tenant.toNat
    let val : Bool := (BitVec.ofNat 64 (f 16 8)).getLsbD 63
    let n := f 16 8 / 2 ^ 32 % 2 ^ 12
    let first := f 24 8
    let id (k : Nat) : BitVec 11 := BitVec.ofNat 11 (f (32 + 2 * k) 2)
    let sound : Prop := f 8 8 < 256 ∧ f 16 8 / 2 ^ 44 % 2 ^ 19 = 0 ∧ (val = true → 1 ≤ n ∧ n ≤ 2048)
    let epoch : BitVec 32 := ((s.groups.find? (·.num == f 8 8)).map (·.epoch)).getD 0
    let becomes (v : Bool) (ids : List (BitVec 11)) : State :=
      { s with groups := s.groups.filter (·.num != f 8 8) ++ [⟨f 8 8, v, epoch + 1, ids, 0⟩] }
    let s1 := s.choice.2
    (s.mcUp = false → exec i s = .next s ∧ exec (.launch m) s = .next s) ∧
    (s.mcUp = true →
      (msgClean m = false ∨ m.payload.length < 112 → exec (.launch m) s = .next (Claims.answered s 0x10 m 0xFF [])) ∧
      (msgClean m = true → 112 ≤ m.payload.length →
        (256 ≤ s.inbox.length → exec (.launch m) s = .next (Claims.answered s 0x10 m 0 (leBytes 8 0xFFFFFFFFFFFFFF05))) ∧
        (s.inbox.length < 256 → s.inbox.length < s.choice.1 ∨ s.fenced 4 0 0 = true →
          exec (.launch m) s = .next { s1 with inbox := s.inbox ++ [m] }) ∧
        (s.inbox = [] → s.choice.1 = 0 → s.fenced 4 0 0 = false → ∃ t v,
          exec (.launch m) s = .next (Claims.answered t 0x10 m 0 (leBytes 8 v)) ∧
          (launchRefused (m.payload.take 112) 0 s = none → v = s.nextCtx.toNat ∧
            t.nextCtx = s.nextCtx + BitVec.ofNat 64 (m.payload.getD 8 0).toNat) ∧
          ∀ k, launchRefused (m.payload.take 112) 0 s = some k → t = s1 ∧ v = 2 ^ 64 - 256 + k)) ∧
      (msgClean m = false → sts 0xFF) ∧ (msgClean m = true → ¬ known → sts 0xFF) ∧
      (msgClean m = true → known → s.mayDo m.src code = false → sts 0x01) ∧
      (msgClean m = true → known → s.mayDo m.src code = true →
        (code = 2 → (f 8 8 < 1024 → did [] (putQueue (f 8 8) (queueOf (BitVec.ofNat 128 (f 16 16))) s)) ∧
          (1024 ≤ f 8 8 → sts 0xFF)) ∧
        (code = 3 → did [] { s with policy := { s.policy with aging := f 8 8 } }) ∧
        (code = 4 →
          (sub = 0 → did ((((s.recd.caps.filter mine).drop (f 16 8)).take 8).flatMap capsuleEntry) s) ∧
          (sub = 1 → (s.capsule (f 16 8) = none → sts 0x03) ∧ ∀ c, s.capsule (f 16 8) = some c →
            (c.dropped = true → sts 0x03) ∧ (c.dropped = false → mine c = false → sts 0x01) ∧
            (c.dropped = false → mine c = true → did ((c.bytes.drop (f 24 8)).take 256) s)) ∧
          (sub = 2 → (s.capsule (f 16 8) = none → sts 0x03) ∧ ∀ c, s.capsule (f 16 8) = some c →
            (mine c = false → sts 0x01) ∧ (mine c = true → did [] { s with recd := { s.recd with
              caps := s.recd.caps.filter fun k => k.capid != c.capid } })) ∧
          (sub = 3 → did ((List.range 97).map Config.identityKeyByte) s)) ∧
        (code = 5 → (Config.debugUnlocked = true → exec i s = .next { s with power := { s.power with frozen := true } }) ∧
          (Config.debugUnlocked = false → sts 0x04)) ∧
        (code = 6 → (∀ j ∈ s.setting, ¬ (j.src = m.src ∧ j.tag = m.tag)) →
          (¬ sound → sts 0xFF) ∧ (sound → groupRuns (f 8 8) s = true → sts 0x02) ∧
          (sound → groupRuns (f 8 8) s = false →
            (val = false → did [] (becomes false [])) ∧
            (val = true → first = 0 → 32 + 2 * n ≤ m.payload.length → did [] (becomes true ((List.range n).map id))) ∧
            (val = true → min ((m.payload.length - 32) / 2) (n - first) < n → exec i s = .next { s with
              setting := s.setting ++ [⟨m.src, m.tag, f 8 8, BitVec.ofNat 64 (f 16 8),
                (List.range (min ((m.payload.length - 32) / 2) (n - first))).map fun k => (first + k, id k)⟩] }))) ∧
        (code = 7 → ∃ t, did [] t ∧
          let gone := BitVec.ofNat 11 (f 16 8)
          let hit (g : Group) : Prop := g.num = f 8 8 ∧ g.val = true ∧ gone ∈ g.members
          ((∀ g ∈ s.groups, ¬ hit g) → t = s) ∧
          (∀ k, s.groups.find? (fun g => decide (hit g)) = some k →
            t.groups = s.groups.map (fun g => if g.num = f 8 8 then
              { g with members := g.members.filter (· != gone), epoch := g.epoch + 1 } else g) ∧
            (s.oracle = [] → (s.runs.map (·.ctxid)).Nodup → ∀ r ∈ s.runs,
              (r.group ≠ f 8 8 ∨ r.run ≠ .running → r ∈ t.runs) ∧
              (r.group = f 8 8 → r.run = .running →
                (gone ≠ s.pkg → { r with segs := [], epoch := k.epoch + 1, shrunk := true } ∈ t.runs) ∧
                (gone = s.pkg → ∃ q ∈ t.runs, q.ctxid = r.ctxid ∧ q.run = .failed ∧ q.result.extractLsb' 56 8 = 0x10))))) ∧
        (code = 8 → ∃ t, did [] t ∧ t.mem = s.mem ∧ t.core = s.core ∧
          let old := f 8 8
          let has (d : Nat) : Bool := (s.migOf d).redir.any (·.1 == old)
          ((∀ d, d < 3 → has d = false) → t = s) ∧
          (∀ d, d < 3 → has d = true → (∀ k, k < d → has k = false) → old % 2 ^ 16 = 0 → old < 2 ^ 52 →
            (∀ k, k ≠ d → t.migOf k = s.migOf k) ∧
            (t.migOf d).redir = if s.hbmServed = true then (s.migOf d).redir.filter (·.1 != old) else (s.migOf d).redir))))

/-- The checks of a load, in order: the status of the first that fails (23 R378, R381, R382). -/
def Claims.loadChecked (obj : List Byte) (ten asid : BitVec 16) (b : Word) (s : State) (got : Except Word LoadPlan) : Prop :=
  let ss := sectsOf obj
  let base := loadBase obj b
  let ps := placeAll obj ss base.toNat
  let fails (code : Nat) : Prop := got = .error (BitVec.ofNat 64 (code * 2 ^ 56))
  (headerOk obj = false → fails 1) ∧
  (headerOk obj = true → (featuresOk obj = false → fails 2) ∧
    (featuresOk obj = true → (baseOk ss base ps = false → fails 3) ∧
      (baseOk ss base ps = true → (spaceRoot s ten asid = none → fails 4) ∧
        ∀ root, spaceRoot s ten asid = some root →
          let pages := objPages obj base
          let fits : Prop := (∀ va ∈ pages, mappedFrom s va 2 root = false) ∧ framesFit s pages.length = true
          (¬ fits → fails 4) ∧ (fits →
            let adr := symAddr obj ss ps (s.imagesOf ten asid)
            let n := symCount obj ss
            (∀ i, i < n → adr i = none → (∀ j, j < i → adr j ≠ none) → got = .error (BitVec.ofNat 64 (5 * 2 ^ 56 + i % 2 ^ 32))) ∧
            ((∀ i, i < n → adr i ≠ none) →
              let rels := relsOf obj ss
              let e : RelEnv := ⟨(List.range n).map fun i => (adr i).getD 0, gotSyms rels, placedVa ps 5, rels⟩
              (∀ o j, relocateAll e n 0 ps rels = .error (o, j) →
                got = .error (BitVec.ofNat 64 ((if o then 6 else 7) * 2 ^ 56 + j % 2 ^ 32))) ∧
              ∀ qs, relocateAll e n 0 ps rels = .ok qs → ∃ p, got = .ok p ∧ p.root = root ∧ p.base = base.toNat ∧ p.gotVa = placedVa ps 5 ∧
                p.parts.map (fun q => (q.kind, q.va)) = qs.map (fun q => (q.kind, q.va)) ∧
                ∀ q ∈ p.parts, q.kind ≠ 5 → q ∈ qs)))))

/-- A page of a section at `va` loaded into the frame that is next: the frame holds the section's bytes and zero beside them, the leaf
of the page names it, with A set and D on what may be written, and no other byte below the pool changes. The frames and the pool are
free of the tables on the page's path, which are distinct (23 R378, R383; log 12 for the pool, log 28 for A and D). -/
def Claims.pageLoaded (root : Nat) (q : Placed) (s : State) (va : Nat) : Prop :=
  let f := (takeFrame s).1
  let pool := (takeFrame s).2.pool
  let path := tablesOn s va 2 root
  mappedFrom s va 2 root = false → path.Nodup → (∀ m ∈ s.mig.toList, m.state ≠ .switch) → f % 0x10000 = 0 → f + 0x10000 ≤ pool →
  (∀ t ∈ path, t % 0x4000 = 0 ∧ t + 0x4000 ≤ pool ∧ (t + 0x4000 ≤ f ∨ f + 0x10000 ≤ t)) → pool + 0xC000 ≤ 2 ^ 52 → s.mem.wf = true →
  ∃ t, (∀ ps, loadPage root q (ps, s) va = (ps ++ [(va, f)], t)) ∧
    (∀ j, j < 0x10000 → t.home (f + j) = if q.va ≤ va + j ∧ va + j < q.va + q.data.length then q.data.getD (va + j - q.va) 0 else 0) ∧
    (∃ t1 t0, t.homeNat (root + 8 * (va / 2 ^ 38 % 2048)) 8 % 4 = 1 ∧ t.homeNat (root + 8 * (va / 2 ^ 38 % 2048)) 8 / 0x4000 % 2 ^ 38 * 0x4000 = t1 ∧
      t.homeNat (t1 + 8 * (va / 2 ^ 27 % 2048)) 8 % 4 = 1 ∧ t.homeNat (t1 + 8 * (va / 2 ^ 27 % 2048)) 8 / 0x4000 % 2 ^ 38 * 0x4000 = t0 ∧
      t.homeNat (t0 + 8 * (va / 2 ^ 16 % 2048)) 8 =
        f + (if q.kind = 1 then 0x163 else if q.kind = 2 ∨ q.kind = 5 then 0x14B else 0x1DB)) ∧
    ∀ a, a < pool → (a < f ∨ f + 0x10000 ≤ a) → (∀ k ∈ path, a < k ∨ k + 0x4000 ≤ a) → t.home a = s.home a

/-- The object-load service answers a request of a sender with rights, by the subcode of its payload: a load whose bytes have all come
with the status of its first failed check, in the order of the checks, or, when there is none, with 0, base, GOT and kernels, and the
image is then there: each page of each section in a frame with its bytes, under a leaf that maps it; an unload with 0 when nothing uses
the image, which is then gone and its frames free; a kernel list with the entries from the index asked for. Either load or unload ends
with no fetched word held in the package. A load or an unload waits while it cannot reach the page tables it needs (23 R381-R385, 17
R352, 27 R425; log 26 for the TYPE, log 12 for the rights and the frames, log 87 for what counts as mapped). -/
def Obligations.ObjectsAreLoaded : Prop :=
  (∀ obj ten asid b s, Claims.loadChecked obj ten asid b s (loadCheck obj ten asid b s)) ∧
  (∀ root q s va, va ∈ pagesOf q → Claims.pageLoaded root q s va) ∧
  ∀ (s : State) (m : Msg),
    let ten := BitVec.ofNat 16 (msgAt m 16 2)
    let asid := BitVec.ofNat 16 (msgAt m 18 2)
    let base := BitVec.ofNat 64 (msgAt m 24 8)
    let total := msgAt m 32 8
    let sub := msgAt m 8 8
    let obj := (m.payload.drop 48).take total
    let sent (t : State) (bs : List Byte) : Prop := ∃ o, t.outbox.getLast? = some o ∧ o.1 = 0xA0 ∧ o.2.dst = m.src ∧
      o.2.tag = m.tag ∧ o.2.stat = 0 ∧ o.2.payload.take bs.length = bs
    let im := (s.imagesOf ten asid).find? (·.base == base)
    let noText (t : State) : Prop := ∀ n, (t.coreAt n).text = Vector.replicate 4 []
    let gone : State := { s with jobs := s.jobs.filter fun k => !(k.src == m.src && k.tag == m.tag) }
    let whole : Prop := (s.jobs.find? fun k => k.src == m.src && k.tag == m.tag) = none ∧ msgAt m 40 8 = 0 ∧ 64 ≤ total ∧
      48 + total ≤ m.payload.length
    s.mcUp = true → msgClean m = true → msgAt m 0 8 = 1 → msgAt m 20 4 = 0 → s.mayDo m.src 0x01 = true →
    s.mayTenant m.src ten.toNat = true →
    (sub = 0 → whole →
      (loadReaches obj ten asid base s = false → exec (.load m) s = .next s) ∧
      (loadReaches obj ten asid base s = true →
        (∀ w, loadCheck obj ten asid base gone = .error w → ∃ t, exec (.load m) s = .next t ∧ sent t (leBytes 8 w.toNat) ∧
          t.images = s.images) ∧
        (∀ p, loadCheck obj ten asid base gone = .ok p → ∃ t, exec (.load m) s = .next t ∧
          sent t (leBytes 8 0 ++ leBytes 8 p.base ++ leBytes 8 p.gotVa ++ leBytes 8 (p.syms.filter (·.kernel)).length) ∧
          ∃ k, t.images = s.images ++ [k] ∧ k.base = BitVec.ofNat 64 p.base ∧ k.ten = ten ∧ k.asid = asid ∧ k.syms = p.syms ∧
            let made := p.parts.foldl (fun acc q => (pagesOf q).foldl (loadPage p.root q) acc) ([], gone)
            k.root = p.root ∧ k.pages = made.1 ∧ t.mem = made.2.mem ∧ noText t))) ∧
    (sub = 1 → (∀ k, im = some k →
        (tablesServed s k.root (k.pages.map (·.1)) = false → exec (.unload m) s = .next s) ∧
        (tablesServed s k.root (k.pages.map (·.1)) = true → imageBusy k s = false → ∃ t, exec (.unload m) s = .next t ∧
          sent t (leBytes 8 0) ∧ t.images = s.images.filter (· != k) ∧ t.frames = s.frames ++ k.pages.map (·.2) ∧ noText t) ∧
        (tablesServed s k.root (k.pages.map (·.1)) = true → imageBusy k s = true → ∃ t, exec (.unload m) s = .next t ∧
          sent t (leBytes 8 (0x08 * 2 ^ 56)) ∧ t.images = s.images)) ∧
      (im = none → ∃ t, exec (.unload m) s = .next t ∧ sent t (leBytes 8 (0x03 * 2 ^ 56)) ∧ t.images = s.images)) ∧
    (sub = 2 → (im = none → exec (.klist m) s = .next (Claims.answered s 0x20 m 0x03 [])) ∧
      ∀ k, im = some k → exec (.klist m) s = .next (Claims.answered s 0x20 m 0
        ((((k.syms.filter (·.kernel)).drop (msgAt m 32 8)).take 7).flatMap kernelEntry)))
end

