-- ==== Sys2Proof/Laws/Mem.lean ====
section
/-! SUPPORT. Laws of memory: what a lookup finds after a write, and that every operation keeps the canonical form. -/
set_option Elab.async false
namespace Sys2Proof.Machine

/-! ### Cells -/

/-- A lookup after a put. -/
theorem cellFind_cellPut (m : List Host.Cell) (a c : Nat) (b : Byte) :
    cellFind (cellPut m a b) c = if c = a then some b else cellFind m c := by
  induction m with
  | nil => simp only [cellPut, cellFind]; split <;> simp
  | cons p r ih =>
    obtain ⟨k, d⟩ := p
    simp only [cellPut]
    rcases Nat.lt_trichotomy a k with h | h | h
    · rw [if_pos h]
      simp only [cellFind]
      split
      · rfl
      · split <;> [(rw [if_neg (by omega), if_pos (by omega)]); rfl]
    · subst h
      rw [if_neg (by omega), if_pos rfl]
      simp only [cellFind]
      split <;> rfl
    · rw [if_neg (by omega), if_neg (by omega)]
      simp only [cellFind, ih]
      by_cases hc : c = k
      · rw [if_pos hc, if_neg (by omega), if_pos hc]
      · rw [if_neg hc, if_neg hc]
        by_cases hk : c < k
        · rw [if_pos hk, if_neg (by omega), if_pos hk]
        · rw [if_neg hk, if_neg hk]

/-- What the canonical form says of a list that is not empty. -/
theorem wfAbove_cons {lo : Option Nat} {k : Nat} {b : Byte} {r : Mem} :
    wfAbove lo ((k, b) :: r) = true ↔ (∀ l, lo = some l → l < k) ∧ b ≠ 0 ∧ wfAbove (some k) r = true := by
  cases lo <;> simp [wfAbove, and_assoc]

/-- A lookup below every listed address finds nothing. -/
theorem cellFind_above {m : Mem} {l a : Nat} (h : wfAbove (some l) m = true) (ha : a ≤ l) : cellFind m a = none := by
  cases m with
  | nil => rfl
  | cons p r =>
    have := (wfAbove_cons.1 h).1 l rfl
    simp only [cellFind]
    rw [if_neg (by omega), if_pos (by omega)]

/-- The canonical form above a bound is the canonical form above every lower one. -/
theorem wfAbove_mono {m : Mem} {l : Nat} {lo : Option Nat} (h : wfAbove (some l) m = true) (hk : ∀ k, lo = some k → k ≤ l) :
    wfAbove lo m = true := by
  cases m with
  | nil => rfl
  | cons p r =>
    obtain ⟨h1, h2⟩ := wfAbove_cons.1 h
    exact wfAbove_cons.2 ⟨fun k e => Nat.lt_of_le_of_lt (hk k e) (h1 l rfl), h2⟩

/-- A put above the bound, of a byte that is not 0, keeps the canonical form. -/
theorem wfAbove_cellPut {m : Mem} {a : Nat} {b : Byte} (hb : b ≠ 0) : ∀ {lo : Option Nat}, wfAbove lo m = true →
    (∀ l, lo = some l → l < a) → wfAbove lo (cellPut m a b) = true := by
  induction m with
  | nil => intro lo _ hl; exact wfAbove_cons.2 ⟨hl, hb, rfl⟩
  | cons p r ih =>
    intro lo h hl
    obtain ⟨h1, h2, h3⟩ := wfAbove_cons.1 h
    simp only [cellPut]
    split
    · exact wfAbove_cons.2 ⟨hl, hb, wfAbove_cons.2 ⟨by rintro l ⟨⟩; assumption, h2, h3⟩⟩
    · split
      · exact wfAbove_cons.2 ⟨h1, hb, h3⟩
      · exact wfAbove_cons.2 ⟨h1, h2, ih h3 (by rintro l ⟨⟩; omega)⟩

/-- A delete keeps the canonical form. -/
theorem wfAbove_cellDel {m : Mem} {a : Nat} : ∀ {lo : Option Nat}, wfAbove lo m = true → wfAbove lo (cellDel m a) = true := by
  induction m with
  | nil => intro lo _; rfl
  | cons p r ih =>
    intro lo h
    obtain ⟨h1, h2, h3⟩ := wfAbove_cons.1 h
    simp only [cellDel]
    split
    · exact h
    · split
      · exact wfAbove_mono h3 fun k e => Nat.le_of_lt (h1 k e)
      · exact wfAbove_cons.2 ⟨h1, h2, ih h3⟩

/-- A lookup after a delete. -/
theorem cellFind_cellDel {m : Mem} {a : Nat} (c : Nat) : ∀ {lo : Option Nat}, wfAbove lo m = true →
    cellFind (cellDel m a) c = if c = a then none else cellFind m c := by
  induction m with
  | nil => intro lo _; simp [cellDel, cellFind]
  | cons p r ih =>
    intro lo h
    obtain ⟨k, d⟩ := p
    obtain ⟨-, -, h3⟩ := wfAbove_cons.1 h
    simp only [cellDel]
    rcases Nat.lt_trichotomy a k with hk | hk | hk
    · rw [if_pos hk]
      by_cases hc : c = a
      · subst hc; simp only [cellFind, if_true]; rw [if_neg (by omega), if_pos hk]
      · rw [if_neg hc]
    · subst hk
      rw [if_neg (by omega), if_pos rfl]
      by_cases hc : c = a
      · subst hc; rw [if_pos rfl]; exact cellFind_above h3 (Nat.le_refl _)
      · rw [if_neg hc]
        simp only [cellFind, if_neg hc]
        split
        · exact cellFind_above h3 (by omega)
        · rfl
    · rw [if_neg (by omega), if_neg (by omega)]
      simp only [cellFind, ih h3]
      by_cases hc : c = k
      · rw [if_pos hc, if_neg (by omega), if_pos hc]
      · rw [if_neg hc, if_neg hc]
        by_cases hk' : c < k
        · rw [if_pos hk', if_neg (by omega), if_pos hk']
        · rw [if_neg hk', if_neg hk']

/-! ### Memory -/

/-- Reset memory, which lists nothing, is in canonical form. -/
@[simp] theorem wf_nil : Mem.wf [] = true := rfl
/-- An address that is not listed reads 0. -/
@[simp] theorem memGet_nil (a : Nat) : memGet [] a = 0 := rfl

/-- A byte written keeps the canonical form. -/
theorem memSet_wf {m : Mem} (h : m.wf = true) (a : Nat) (b : Byte) : (memSet m a b).wf = true := by
  unfold memSet
  split
  · exact wfAbove_cellDel h
  · exact wfAbove_cellPut ‹_› h (by simp)

/-- A byte read after a byte written. -/
theorem memGet_memSet {m : Mem} (h : m.wf = true) (a c : Nat) (b : Byte) :
    memGet (memSet m a b) c = if c = a then b else memGet m c := by
  unfold memSet memGet
  split
  · rw [cellFind_cellDel c h]; split <;> simp_all
  · rw [cellFind_cellPut]; split <;> simp_all

/-- A fold of writes keeps the canonical form, and each byte is that of the last write to it. -/
theorem foldl_memSet {α : Type} (f : α → Nat) (g : α → Byte) (l : List α) : ∀ {m : Mem}, m.wf = true →
    (l.foldl (fun m p => memSet m (f p) (g p)) m).wf = true ∧
    ∀ c, memGet (l.foldl (fun m p => memSet m (f p) (g p)) m) c = l.foldl (fun b p => if c = f p then g p else b) (memGet m c) := by
  induction l with
  | nil => intro m h; exact ⟨h, fun _ => rfl⟩
  | cons p r ih =>
    intro m h
    have h1 := memSet_wf h (f p) (g p)
    refine ⟨(ih h1).1, fun c => ?_⟩
    rw [List.foldl_cons, (ih h1).2, memGet_memSet h]; rfl

/-- Bytes written keep the canonical form. -/
theorem memWrite_wf {m : Mem} (h : m.wf = true) (a : Nat) (bs : List Byte) : (memWrite m a bs).wf = true :=
  (foldl_memSet (fun p : Byte × Nat => a + p.2) (·.1) bs.zipIdx h).1

/-- The byte that a run of writes leaves at an address. -/
theorem foldl_zipIdx_pick (c a : Nat) (bs : List Byte) : ∀ (n : Nat) (b : Byte),
    (bs.zipIdx n).foldl (fun (b : Byte) (p : Byte × Nat) => if c = a + p.2 then p.1 else b) b =
      if a + n ≤ c ∧ c < a + n + bs.length then bs.getD (c - (a + n)) 0 else b := by
  induction bs with
  | nil => intro n b; simp
  | cons x r ih =>
    intro n b
    rw [List.zipIdx_cons, List.foldl_cons, ih]
    by_cases h0 : c = a + n
    · subst h0
      simp
    · rw [if_neg h0]
      by_cases h1 : a + (n + 1) ≤ c ∧ c < a + (n + 1) + r.length
      · rw [if_pos h1, if_pos (by simp only [List.length_cons]; omega)]
        rw [show c - (a + n) = c - (a + (n + 1)) + 1 by omega, List.getD_cons_succ]
      · rw [if_neg h1, if_neg (by simp only [List.length_cons]; omega)]

/-- A byte read after bytes written. -/
theorem memGet_memWrite {m : Mem} (h : m.wf = true) (a c : Nat) (bs : List Byte) :
    memGet (memWrite m a bs) c = if a ≤ c ∧ c < a + bs.length then bs.getD (c - a) 0 else memGet m c := by
  have := (foldl_memSet (fun p : Byte × Nat => a + p.2) (·.1) bs.zipIdx h).2 c
  unfold memWrite
  rw [this, foldl_zipIdx_pick c a bs 0]
  simp

/-- In canonical form an address is listed when it does not read 0. -/
theorem cellFind_wf {m : Mem} (a : Nat) : ∀ {lo : Option Nat}, wfAbove lo m = true →
    cellFind m a = if memGet m a = 0 then none else some (memGet m a) := by
  induction m with
  | nil => intro lo _; rfl
  | cons p r ih =>
    intro lo h
    obtain ⟨k, d⟩ := p
    obtain ⟨-, h2, h3⟩ := wfAbove_cons.1 h
    have := ih h3
    simp only [memGet, cellFind] at this ⊢
    split
    · rw [Option.getD_some, if_neg h2]
    · split
      · rfl
      · exact this

/-- Two lists in canonical form that look up alike are equal. -/
theorem cells_ext {m : Mem} : ∀ {n : Mem} {lo lo' : Option Nat}, wfAbove lo m = true → wfAbove lo' n = true →
    (∀ a, cellFind m a = cellFind n a) → m = n := by
  induction m with
  | nil =>
    intro n lo lo' _ _ he
    cases n with
    | nil => rfl
    | cons p r => have := he p.1; simp [cellFind] at this
  | cons p r ih =>
    intro n lo lo' hm hn he
    obtain ⟨k, d⟩ := p
    cases n with
    | nil => have := he k; simp [cellFind] at this
    | cons q t =>
      obtain ⟨j, e⟩ := q
      have hr := (wfAbove_cons.1 hm).2.2
      have ht := (wfAbove_cons.1 hn).2.2
      have h1 := he k
      have h2 := he j
      simp only [cellFind, if_true] at h1 h2
      obtain rfl : k = j := by
        rcases Nat.lt_trichotomy k j with h | h | h
        · rw [if_neg (by omega), if_pos h] at h1; simp at h1
        · exact h
        · rw [if_neg (by omega), if_pos h] at h2; simp at h2
      rw [if_pos rfl] at h1
      obtain rfl := Option.some.inj h1
      congr 1
      refine ih hr ht fun a => ?_
      have := he a
      simp only [cellFind] at this
      rcases Nat.lt_trichotomy a k with h | h | h
      · rw [cellFind_above hr (by omega), cellFind_above ht (by omega)]
      · subst h; rw [cellFind_above hr (Nat.le_refl _), cellFind_above ht (Nat.le_refl _)]
      · rwa [if_neg (by omega), if_neg (by omega), if_neg (by omega), if_neg (by omega)] at this

/-- Two memories in canonical form that read alike are equal. -/
theorem mem_ext {m n : Mem} (hm : m.wf = true) (hn : n.wf = true) (h : ∀ a, memGet m a = memGet n a) : m = n :=
  cells_ext hm hn fun a => by rw [cellFind_wf a hm, cellFind_wf a hn, h a]

/-! ### Homes -/

/-- A byte written at its home keeps the canonical form. -/
theorem homeSet_wf (s : State) {m : Mem} (h : m.wf = true) (pa : Nat) (b : Byte) : (s.homeSet m pa b).wf = true := by
  unfold State.homeSet
  split
  · exact memSet_wf (memSet_wf h _ _) _ _
  · exact memSet_wf h _ _

/-- A fold of writes at their homes keeps the canonical form. -/
theorem foldl_homeSet_wf {α : Type} (s : State) (f : α → Nat) (g : α → Byte) (l : List α) : ∀ {m : Mem}, m.wf = true →
    (l.foldl (fun m p => s.homeSet m (f p) (g p)) m).wf = true := by
  induction l with
  | nil => intro m h; exact h
  | cons p r ih => intro m h; exact ih (homeSet_wf s h _ _)

/-- Bytes written at their homes keep the canonical form. -/
theorem homeWrite_wf {s : State} (h : s.mem.wf = true) (pa : Nat) (bs : List Byte) : (s.homeWrite pa bs).mem.wf = true :=
  foldl_homeSet_wf s (fun p : Byte × Nat => pa + p.2) (·.1) bs.zipIdx h

/-- No migration is in SWITCH. -/
def State.settled (s : State) : Prop := ∀ g ∈ s.mig.toList, g.state ≠ .switch

/-- Without a migration in SWITCH a byte is served from its own address (03 R62). -/
theorem served_settled {s : State} (h : s.settled) (pa : Nat) : s.served pa = pa := by
  unfold State.served
  have : s.mig.toList.findSome? (·.toNew pa) = none := by
    rw [List.findSome?_eq_none_iff]
    intro g hg
    have := h g hg
    unfold Mig.toNew
    rw [if_neg (by simp [this])]
  rw [this]; rfl

/-- Without a migration in SWITCH a byte is read at its own address. -/
theorem home_settled {s : State} (h : s.settled) (pa : Nat) : s.home pa = memGet s.mem pa := by
  rw [State.home, served_settled h]

/-- Without a migration in SWITCH a byte is written at its own address (03 R62, R64). -/
theorem homeSet_settled {s : State} (h : s.settled) (m : Mem) (pa : Nat) (b : Byte) : s.homeSet m pa b = memSet m pa b := by
  unfold State.homeSet
  have : s.mig.toList.findSome? (fun g => (g.toNew pa).or (g.toOld pa)) = none := by
    rw [List.findSome?_eq_none_iff]
    intro g hg
    have := h g hg
    unfold Mig.toNew Mig.toOld
    rw [if_neg (by simp [this]), if_neg (by simp [this])]; rfl
  rw [this]

/-- What is read at the homes after bytes written at theirs, without a migration in SWITCH. -/
theorem home_homeWrite {s : State} (h : s.settled) (hm : s.mem.wf = true) (pa c : Nat) (bs : List Byte) :
    (s.homeWrite pa bs).home c = if pa ≤ c ∧ c < pa + bs.length then bs.getD (c - pa) 0 else s.home c := by
  have h' : (s.homeWrite pa bs).settled := h
  rw [home_settled h', home_settled h, ← memGet_memWrite hm]
  unfold State.homeWrite memWrite
  simp only [homeSet_settled h]

/-! ### Bytes as numbers -/

@[simp] theorem leBytes_length (n v : Nat) : (leBytes n v).length = n := by simp [leBytes]

/-- Byte `i` of a number laid out lowest first. -/
theorem leBytes_getD {n i : Nat} (v : Nat) (h : i < n) : (leBytes n v).getD i 0 = BitVec.ofNat 8 (v / 2 ^ (8 * i)) := by
  simp [leBytes, List.getD, h, Nat.shiftRight_eq_div_pow]

/-- One byte off the front of a number laid out lowest first. -/
theorem leBytes_succ (n v : Nat) : leBytes (n + 1) v = BitVec.ofNat 8 v :: leBytes n (v / 256) := by
  unfold leBytes
  rw [List.range_succ_eq_map, List.map_cons, List.map_map]
  congr 1
  apply List.map_congr_left
  intro i _
  simp only [Function.comp_apply, Nat.shiftRight_eq_div_pow]
  rw [Nat.div_div_eq_div_mul]
  congr 2
  rw [show 8 * (i + 1) = 8 + 8 * i by omega, Nat.pow_add]

/-- A number laid out in bytes and read back is the number modulo their count. -/
theorem leNat_leBytes (n : Nat) : ∀ v, leNat (leBytes n v) = v % 2 ^ (8 * n) := by
  induction n with
  | zero => intro v; simp [leBytes, leNat, Nat.mod_one]
  | succ n ih =>
    intro v
    rw [leBytes_succ, leNat, ih, BitVec.toNat_ofNat, show 8 * (n + 1) = 8 + 8 * n by omega, Nat.pow_add]
    exact (Nat.mod_mul (x := v) (a := 2 ^ 8) (b := 2 ^ (8 * n))).symm

/-- Bytes read as a number stay below their count. -/
theorem leNat_lt (bs : List Byte) : leNat bs < 2 ^ (8 * bs.length) := by
  induction bs with
  | nil => simp [leNat]
  | cons b r ih =>
    have := b.isLt
    rw [leNat, List.length_cons, show 8 * (r.length + 1) = 8 + 8 * r.length by omega, Nat.pow_add]
    omega

end Sys2Proof.Machine
end

