-- ==== Sys2Proof/Laws/Fields.lean ====
section
/-! SUPPORT. Laws of bit fields, elements and mask bits: what is read after a write. -/
set_option Elab.async false
namespace Sys2Proof.Machine

/-! ### Bit fields -/

/-- A bit after a field is replaced. -/
theorem getLsbD_setField {w : Nat} (v : BitVec w) (lo n x i : Nat) :
    (setField v lo n x).getLsbD i =
      if lo ≤ i ∧ i < lo + n then decide (i < w) && x.testBit (i - lo) else v.getLsbD i := by
  unfold setField
  simp only [BitVec.getLsbD_or, BitVec.getLsbD_and, BitVec.getLsbD_not, BitVec.getLsbD_shiftLeft, BitVec.getLsbD_ofNat,
    Nat.testBit_two_pow_sub_one, Nat.testBit_mod_two_pow]
  by_cases hw : i < w
  · by_cases h : lo ≤ i ∧ i < lo + n
    · rw [if_pos h]
      have h1 : ¬ i < lo := by omega
      have h2 : i - lo < w := by omega
      have h3 : i - lo < n := by omega
      simp [hw, h1, h2, h3]
    · rw [if_neg h]
      by_cases h1 : i < lo
      · simp [hw, h1]
      · have h3 : ¬ i - lo < n := by omega
        simp [hw, h3]
  · rw [BitVec.getLsbD_of_ge v i (by omega)]
    simp [hw]

/-- A bit of a field that is read. -/
theorem testBit_getField {w : Nat} (v : BitVec w) (lo n i : Nat) :
    (getField v lo n).testBit i = (decide (i < n) && v.getLsbD (lo + i)) := by
  unfold getField
  rw [Nat.testBit_mod_two_pow, Nat.testBit_shiftRight, BitVec.getLsbD]

/-- A field read stays below its count. -/
theorem getField_lt {w : Nat} (v : BitVec w) (lo n : Nat) : getField v lo n < 2 ^ n := Nat.mod_lt _ (Nat.two_pow_pos n)

/-- The field just written, inside the register. -/
theorem getField_setField_same {w : Nat} (v : BitVec w) {lo n : Nat} (x : Nat) (h : lo + n ≤ w) :
    getField (setField v lo n x) lo n = x % 2 ^ n := by
  apply Nat.eq_of_testBit_eq
  intro i
  rw [testBit_getField, getLsbD_setField, Nat.testBit_mod_two_pow]
  by_cases hi : i < n
  · rw [if_pos (by omega)]
    simp [hi, show lo + i < w by omega]
  · simp [hi]

/-- A field beside the one written. -/
theorem getField_setField_ne {w : Nat} (v : BitVec w) {lo n lo' n' : Nat} (x : Nat) (h : lo' + n' ≤ lo ∨ lo + n ≤ lo') :
    getField (setField v lo n x) lo' n' = getField v lo' n' := by
  apply Nat.eq_of_testBit_eq
  intro i
  rw [testBit_getField, testBit_getField, getLsbD_setField]
  by_cases hi : i < n'
  · rw [if_neg (by omega)]
  · simp [hi]

/-! ### Vectors -/

/-- An entry of a vector with one entry changed. -/
theorem toList_getD_vecMod {α : Type} {n : Nat} (v : Vector α n) (i k : Nat) (f : α → α) (d : α) :
    (vecMod v i f).toList.getD k d = if k = i ∧ i < n then f (v.toList.getD i d) else v.toList.getD k d := by
  unfold vecMod
  by_cases h : i < n
  · rw [dif_pos h]
    simp only [List.getD_eq_getElem?_getD, Vector.getElem?_toList, Vector.getElem?_set, Vector.get_eq_getElem]
    by_cases hk : i = k
    · subst hk; simp [h]
    · rw [if_neg hk, if_neg (fun e => hk e.1.symm)]
  · rw [dif_neg h, if_neg (fun e => h e.2)]

/-- Vector registers after an element is written. -/
theorem vreg_setElem (r : Regs) (n : BitVec 5) (w i x k : Nat) :
    (r.setElem n w i x).vreg k = if k = n.toNat + i * w / 16384 ∧ k < 32 then setField (r.vreg k) (i * w % 16384) w x else r.vreg k := by
  unfold Regs.vreg Regs.setElem
  rw [toList_getD_vecMod]
  by_cases h : k = n.toNat + i * w / 16384
  · subst h; rfl
  · rw [if_neg (fun e => h e.1), if_neg (fun e => h e.1)]

/-- Where an element of a width that divides a register lies. -/
theorem elem_place {w : Nat} (hw : w ∣ 16384) (hp : 0 < w) (i : Nat) :
    i * w / 16384 = i / (16384 / w) ∧ i * w % 16384 = i % (16384 / w) * w := by
  obtain ⟨q, hq⟩ := hw
  have hq' : 16384 / w = q := by rw [hq]; exact Nat.mul_div_cancel_left q hp
  rw [hq', hq, Nat.mul_comm i w]
  exact ⟨Nat.mul_div_mul_left i q hp, by rw [Nat.mul_mod_mul_left, Nat.mul_comm]⟩

/-- An element read after an element of the same group and width is written; no register stands above v31. -/
theorem elem_setElem (r : Regs) (n : BitVec 5) {w : Nat} (hw : w ∣ 16384) (hp : 0 < w) (i j x : Nat)
    (hi : n.toNat + i * w / 16384 < 32) :
    (r.setElem n w i x).elem n w j = if j = i then x % 2 ^ w else r.elem n w j := by
  unfold Regs.elem
  rw [vreg_setElem]
  obtain ⟨q, hq⟩ := hw
  have hq0 : 0 < q := by rcases Nat.eq_zero_or_pos q with h | h <;> [(subst h; omega); exact h]
  obtain ⟨hi1, hi2⟩ := elem_place ⟨q, hq⟩ hp i
  obtain ⟨hj1, hj2⟩ := elem_place ⟨q, hq⟩ hp j
  have hq' : 16384 / w = q := by rw [hq]; exact Nat.mul_div_cancel_left q hp
  rw [hq'] at hi1 hi2 hj1 hj2
  by_cases h : j = i
  · subst h
    rw [if_pos ⟨rfl, hi⟩, if_pos rfl]
    refine getField_setField_same _ _ ?_
    have := Nat.mod_lt j hq0
    rw [hj2, hq]
    calc j % q * w + w = (j % q + 1) * w := by ring
      _ ≤ q * w := Nat.mul_le_mul_right w this
      _ = w * q := Nat.mul_comm q w
  · rw [if_neg h]
    by_cases hk : n.toNat + j * w / 16384 = n.toNat + i * w / 16384 ∧ n.toNat + j * w / 16384 < 32
    · rw [if_pos hk]
      refine getField_setField_ne _ _ ?_
      rw [hi2, hj2]
      have hd : j / q = i / q := by rw [← hi1, ← hj1]; omega
      have hm : j % q ≠ i % q := by
        intro hm
        have h1 := Nat.div_add_mod j q
        have h2 := Nat.div_add_mod i q
        rw [hd, hm] at h1
        omega
      rcases Nat.lt_or_gt_of_ne hm with h1 | h1
      · left
        calc j % q * w + w = (j % q + 1) * w := by ring
          _ ≤ i % q * w := Nat.mul_le_mul_right w h1
      · right
        calc i % q * w + w = (i % q + 1) * w := by ring
          _ ≤ j % q * w := Nat.mul_le_mul_right w h1
    · rw [if_neg hk]

/-- An element stays below its width. -/
theorem elem_lt (r : Regs) (n : BitVec 5) (w i : Nat) : r.elem n w i < 2 ^ w := getField_lt _ _ _

/-! ### Masks -/

/-- A mask bit after one is written. -/
theorem maskBit_setMaskBit (r : Regs) (m n : BitVec 4) (i k : Nat) (b : Bool) (hk : k < 4096) :
    (r.setMaskBit m i b).maskBit n k = if n = m ∧ k = i then b else r.maskBit n k := by
  unfold Regs.maskBit Regs.setMaskBit
  simp only [Vector.get_eq_getElem, Vector.getElem_set]
  by_cases h : m.toNat = n.toNat
  · obtain rfl : m = n := BitVec.eq_of_toNat_eq h
    rw [if_pos rfl, getLsbD_setField]
    by_cases hi : k = i
    · subst hi
      rw [if_pos (by omega), if_pos ⟨rfl, rfl⟩]
      cases b <;> simp [hk]
    · rw [if_neg (by omega), if_neg (fun e => hi e.2)]
  · rw [if_neg h, if_neg (fun e => h (by rw [e.1]))]

end Sys2Proof.Machine
end

