-- ==== Sys2Proof/Laws/State.lean ====
section
/-! SUPPORT. What each update of the state and of the registers leaves: one lemma for each field. -/
set_option Elab.async false
namespace Sys2Proof.Machine

/-! ### Updates of the focused core -/

@[simp] theorem State.mapCore_cur (s : State) (f : Core → Core) : (s.mapCore f).cur = s.cur := rfl
@[simp] theorem State.mapCore_eng (s : State) (f : Core → Core) : (s.mapCore f).eng = s.eng := rfl
@[simp] theorem State.mapCore_core (s : State) (f : Core → Core) : (s.mapCore f).core = f s.core := rfl
@[simp] theorem State.mapCore_others (s : State) (f : Core → Core) : (s.mapCore f).others = s.others := rfl
@[simp] theorem State.mapCore_mem (s : State) (f : Core → Core) : (s.mapCore f).mem = s.mem := rfl
@[simp] theorem State.mapCore_poison (s : State) (f : Core → Core) : (s.mapCore f).poison = s.poison := rfl
@[simp] theorem State.mapCore_queues (s : State) (f : Core → Core) : (s.mapCore f).queues = s.queues := rfl
@[simp] theorem State.mapCore_owners (s : State) (f : Core → Core) : (s.mapCore f).owners = s.owners := rfl
@[simp] theorem State.mapCore_mig (s : State) (f : Core → Core) : (s.mapCore f).mig = s.mig := rfl
@[simp] theorem State.mapCore_slotst (s : State) (f : Core → Core) : (s.mapCore f).slotst = s.slotst := rfl
@[simp] theorem State.mapCore_ctxs (s : State) (f : Core → Core) : (s.mapCore f).ctxs = s.ctxs := rfl
@[simp] theorem State.mapCore_nextCtx (s : State) (f : Core → Core) : (s.mapCore f).nextCtx = s.nextCtx := rfl
@[simp] theorem State.mapCore_csn (s : State) (f : Core → Core) : (s.mapCore f).csn = s.csn := rfl
@[simp] theorem State.mapCore_hwbars (s : State) (f : Core → Core) : (s.mapCore f).hwbars = s.hwbars := rfl
@[simp] theorem State.mapCore_grants (s : State) (f : Core → Core) : (s.mapCore f).grants = s.grants := rfl
@[simp] theorem State.mapCore_jobs (s : State) (f : Core → Core) : (s.mapCore f).jobs = s.jobs := rfl
@[simp] theorem State.mapCore_setting (s : State) (f : Core → Core) : (s.mapCore f).setting = s.setting := rfl
@[simp] theorem State.mapCore_images (s : State) (f : Core → Core) : (s.mapCore f).images = s.images := rfl
@[simp] theorem State.mapCore_pool (s : State) (f : Core → Core) : (s.mapCore f).pool = s.pool := rfl
@[simp] theorem State.mapCore_frames (s : State) (f : Core → Core) : (s.mapCore f).frames = s.frames := rfl
@[simp] theorem State.mapCore_dieTlb (s : State) (f : Core → Core) : (s.mapCore f).dieTlb = s.dieTlb := rfl
@[simp] theorem State.mapCore_outside (s : State) (f : Core → Core) : (s.mapCore f).outside = s.outside := rfl
@[simp] theorem State.mapCore_inbox (s : State) (f : Core → Core) : (s.mapCore f).inbox = s.inbox := rfl
@[simp] theorem State.mapCore_ord (s : State) (f : Core → Core) : (s.mapCore f).ord = s.ord := rfl
@[simp] theorem State.mapCore_pkg (s : State) (f : Core → Core) : (s.mapCore f).pkg = s.pkg := rfl
@[simp] theorem State.mapCore_denied (s : State) (f : Core → Core) : (s.mapCore f).denied = s.denied := rfl
@[simp] theorem State.mapCore_outbox (s : State) (f : Core → Core) : (s.mapCore f).outbox = s.outbox := rfl
@[simp] theorem State.mapCore_nextTag (s : State) (f : Core → Core) : (s.mapCore f).nextTag = s.nextTag := rfl
@[simp] theorem State.mapCore_groups (s : State) (f : Core → Core) : (s.mapCore f).groups = s.groups := rfl
@[simp] theorem State.mapCore_runs (s : State) (f : Core → Core) : (s.mapCore f).runs = s.runs := rfl
@[simp] theorem State.mapCore_recd (s : State) (f : Core → Core) : (s.mapCore f).recd = s.recd := rfl
@[simp] theorem State.mapCore_power (s : State) (f : Core → Core) : (s.mapCore f).power = s.power := rfl
@[simp] theorem State.mapCore_policy (s : State) (f : Core → Core) : (s.mapCore f).policy = s.policy := rfl
@[simp] theorem State.mapCore_agenda (s : State) (f : Core → Core) : (s.mapCore f).agenda = s.agenda := rfl
@[simp] theorem State.mapCore_oracle (s : State) (f : Core → Core) : (s.mapCore f).oracle = s.oracle := rfl

@[simp] theorem State.mapRegs_cur (s : State) (f : Regs → Regs) : (s.mapRegs f).cur = s.cur := rfl
@[simp] theorem State.mapRegs_eng (s : State) (f : Regs → Regs) : (s.mapRegs f).eng = s.eng := rfl
@[simp] theorem State.mapRegs_core (s : State) (f : Regs → Regs) : (s.mapRegs f).core = { s.core with regs := f s.core.regs } := rfl
@[simp] theorem State.mapRegs_others (s : State) (f : Regs → Regs) : (s.mapRegs f).others = s.others := rfl
@[simp] theorem State.mapRegs_mem (s : State) (f : Regs → Regs) : (s.mapRegs f).mem = s.mem := rfl
@[simp] theorem State.mapRegs_poison (s : State) (f : Regs → Regs) : (s.mapRegs f).poison = s.poison := rfl
@[simp] theorem State.mapRegs_queues (s : State) (f : Regs → Regs) : (s.mapRegs f).queues = s.queues := rfl
@[simp] theorem State.mapRegs_owners (s : State) (f : Regs → Regs) : (s.mapRegs f).owners = s.owners := rfl
@[simp] theorem State.mapRegs_mig (s : State) (f : Regs → Regs) : (s.mapRegs f).mig = s.mig := rfl
@[simp] theorem State.mapRegs_slotst (s : State) (f : Regs → Regs) : (s.mapRegs f).slotst = s.slotst := rfl
@[simp] theorem State.mapRegs_ctxs (s : State) (f : Regs → Regs) : (s.mapRegs f).ctxs = s.ctxs := rfl
@[simp] theorem State.mapRegs_nextCtx (s : State) (f : Regs → Regs) : (s.mapRegs f).nextCtx = s.nextCtx := rfl
@[simp] theorem State.mapRegs_csn (s : State) (f : Regs → Regs) : (s.mapRegs f).csn = s.csn := rfl
@[simp] theorem State.mapRegs_hwbars (s : State) (f : Regs → Regs) : (s.mapRegs f).hwbars = s.hwbars := rfl
@[simp] theorem State.mapRegs_grants (s : State) (f : Regs → Regs) : (s.mapRegs f).grants = s.grants := rfl
@[simp] theorem State.mapRegs_jobs (s : State) (f : Regs → Regs) : (s.mapRegs f).jobs = s.jobs := rfl
@[simp] theorem State.mapRegs_setting (s : State) (f : Regs → Regs) : (s.mapRegs f).setting = s.setting := rfl
@[simp] theorem State.mapRegs_images (s : State) (f : Regs → Regs) : (s.mapRegs f).images = s.images := rfl
@[simp] theorem State.mapRegs_pool (s : State) (f : Regs → Regs) : (s.mapRegs f).pool = s.pool := rfl
@[simp] theorem State.mapRegs_frames (s : State) (f : Regs → Regs) : (s.mapRegs f).frames = s.frames := rfl
@[simp] theorem State.mapRegs_dieTlb (s : State) (f : Regs → Regs) : (s.mapRegs f).dieTlb = s.dieTlb := rfl
@[simp] theorem State.mapRegs_outside (s : State) (f : Regs → Regs) : (s.mapRegs f).outside = s.outside := rfl
@[simp] theorem State.mapRegs_inbox (s : State) (f : Regs → Regs) : (s.mapRegs f).inbox = s.inbox := rfl
@[simp] theorem State.mapRegs_ord (s : State) (f : Regs → Regs) : (s.mapRegs f).ord = s.ord := rfl
@[simp] theorem State.mapRegs_pkg (s : State) (f : Regs → Regs) : (s.mapRegs f).pkg = s.pkg := rfl
@[simp] theorem State.mapRegs_denied (s : State) (f : Regs → Regs) : (s.mapRegs f).denied = s.denied := rfl
@[simp] theorem State.mapRegs_outbox (s : State) (f : Regs → Regs) : (s.mapRegs f).outbox = s.outbox := rfl
@[simp] theorem State.mapRegs_nextTag (s : State) (f : Regs → Regs) : (s.mapRegs f).nextTag = s.nextTag := rfl
@[simp] theorem State.mapRegs_groups (s : State) (f : Regs → Regs) : (s.mapRegs f).groups = s.groups := rfl
@[simp] theorem State.mapRegs_runs (s : State) (f : Regs → Regs) : (s.mapRegs f).runs = s.runs := rfl
@[simp] theorem State.mapRegs_recd (s : State) (f : Regs → Regs) : (s.mapRegs f).recd = s.recd := rfl
@[simp] theorem State.mapRegs_power (s : State) (f : Regs → Regs) : (s.mapRegs f).power = s.power := rfl
@[simp] theorem State.mapRegs_policy (s : State) (f : Regs → Regs) : (s.mapRegs f).policy = s.policy := rfl
@[simp] theorem State.mapRegs_agenda (s : State) (f : Regs → Regs) : (s.mapRegs f).agenda = s.agenda := rfl
@[simp] theorem State.mapRegs_oracle (s : State) (f : Regs → Regs) : (s.mapRegs f).oracle = s.oracle := rfl

@[simp] theorem State.setX_eq (s : State) (d : BitVec 5) (v : Word) : s.setX d v = s.mapRegs (·.wr d v) := rfl
@[simp] theorem State.setPc_eq (s : State) (v : Word) : s.setPc v = s.mapRegs fun r => { r with pc := v } := rfl
@[simp] theorem State.mapChunk_eq (s : State) (f : Chunk → Chunk) : s.mapChunk f = s.mapCore fun c => { c with chunk := some (f c.chunkOr) } :=
    rfl
@[simp] theorem State.retireAt_eq (s : State) (v : Word) : s.retireAt v = s.mapCore fun c => { c with regs := { c.regs with pc := v }, prog := .retired, wait := none } :=
    rfl
@[simp] theorem State.retire_eq (s : State) : s.retire = s.retireAt (s.core.regs.pc + 4) := rfl
@[simp] theorem State.waiting_eq (s : State) (w : Wait) : s.waiting w = s.mapCore fun c => { c with prog := .waiting, wait := some w } :=
    rfl

/-- Changes of the core one after another are one change. -/
@[simp] theorem State.mapCore_mapCore (s : State) (f g : Core → Core) : (s.mapCore f).mapCore g = s.mapCore fun c => g (f c) := rfl
/-- A change of the registers is a change of the core. -/
theorem State.mapRegs_eq (s : State) (f : Regs → Regs) : s.mapRegs f = s.mapCore fun c => { c with regs := f c.regs } := rfl

/-! ### Updates of the registers -/

@[simp] theorem Regs.wr_pc (r : Regs) (d : BitVec 5) (v : Word) : (r.wr d v).pc = r.pc := by unfold Regs.wr; split <;> rfl
@[simp] theorem Regs.wr_v (r : Regs) (d : BitVec 5) (v : Word) : (r.wr d v).v = r.v := by unfold Regs.wr; split <;> rfl
@[simp] theorem Regs.wr_m (r : Regs) (d : BitVec 5) (v : Word) : (r.wr d v).m = r.m := by unfold Regs.wr; split <;> rfl
@[simp] theorem Regs.wr_t (r : Regs) (d : BitVec 5) (v : Word) : (r.wr d v).t = r.t := by unfold Regs.wr; split <;> rfl
@[simp] theorem Regs.wr_z (r : Regs) (d : BitVec 5) (v : Word) : (r.wr d v).z = r.z := by unfold Regs.wr; split <;> rfl
@[simp] theorem Regs.wr_vl (r : Regs) (d : BitVec 5) (v : Word) : (r.wr d v).vl = r.vl := by unfold Regs.wr; split <;> rfl
@[simp] theorem Regs.wr_vtype (r : Regs) (d : BitVec 5) (v : Word) : (r.wr d v).vtype = r.vtype := by unfold Regs.wr; split <;> rfl
@[simp] theorem Regs.wr_vstart (r : Regs) (d : BitVec 5) (v : Word) : (r.wr d v).vstart = r.vstart := by unfold Regs.wr; split <;> rfl
@[simp] theorem Regs.wr_vrem (r : Regs) (d : BitVec 5) (v : Word) : (r.wr d v).vrem = r.vrem := by unfold Regs.wr; split <;> rfl
@[simp] theorem Regs.wr_rps (r : Regs) (d : BitVec 5) (v : Word) : (r.wr d v).rps = r.rps := by unfold Regs.wr; split <;> rfl
@[simp] theorem Regs.wr_tk (r : Regs) (d : BitVec 5) (v : Word) : (r.wr d v).tk = r.tk := by unfold Regs.wr; split <;> rfl
@[simp] theorem Regs.wr_srseed (r : Regs) (d : BitVec 5) (v : Word) : (r.wr d v).srseed = r.srseed := by unfold Regs.wr; split <;> rfl
@[simp] theorem Regs.wr_srcnt (r : Regs) (d : BitVec 5) (v : Word) : (r.wr d v).srcnt = r.srcnt := by unfold Regs.wr; split <;> rfl
@[simp] theorem Regs.wr_fst (r : Regs) (d : BitVec 5) (v : Word) : (r.wr d v).fst = r.fst := by unfold Regs.wr; split <;> rfl
@[simp] theorem Regs.wr_stat (r : Regs) (d : BitVec 5) (v : Word) : (r.wr d v).stat = r.stat := by unfold Regs.wr; split <;> rfl
@[simp] theorem Regs.wr_epc (r : Regs) (d : BitVec 5) (v : Word) : (r.wr d v).epc = r.epc := by unfold Regs.wr; split <;> rfl
@[simp] theorem Regs.wr_cause (r : Regs) (d : BitVec 5) (v : Word) : (r.wr d v).cause = r.cause := by unfold Regs.wr; split <;> rfl
@[simp] theorem Regs.wr_tval (r : Regs) (d : BitVec 5) (v : Word) : (r.wr d v).tval = r.tval := by unfold Regs.wr; split <;> rfl
@[simp] theorem Regs.wr_tvec (r : Regs) (d : BitVec 5) (v : Word) : (r.wr d v).tvec = r.tvec := by unfold Regs.wr; split <;> rfl
@[simp] theorem Regs.wr_scratch (r : Regs) (d : BitVec 5) (v : Word) : (r.wr d v).scratch = r.scratch := by unfold Regs.wr; split <;> rfl
@[simp] theorem Regs.wr_vqpos (r : Regs) (d : BitVec 5) (v : Word) : (r.wr d v).vqpos = r.vqpos := by unfold Regs.wr; split <;> rfl
@[simp] theorem Regs.wr_saveva (r : Regs) (d : BitVec 5) (v : Word) : (r.wr d v).saveva = r.saveva := by unfold Regs.wr; split <;> rfl
@[simp] theorem Regs.wr_bpa (r : Regs) (d : BitVec 5) (v : Word) : (r.wr d v).bpa = r.bpa := by unfold Regs.wr; split <;> rfl
@[simp] theorem Regs.wr_bpctx (r : Regs) (d : BitVec 5) (v : Word) : (r.wr d v).bpctx = r.bpctx := by unfold Regs.wr; split <;> rfl
@[simp] theorem Regs.wr_chb (r : Regs) (d : BitVec 5) (v : Word) : (r.wr d v).chb = r.chb := by unfold Regs.wr; split <;> rfl
@[simp] theorem Regs.wr_ten (r : Regs) (d : BitVec 5) (v : Word) : (r.wr d v).ten = r.ten := by unfold Regs.wr; split <;> rfl
@[simp] theorem Regs.wr_asid (r : Regs) (d : BitVec 5) (v : Word) : (r.wr d v).asid = r.asid := by unfold Regs.wr; split <;> rfl
@[simp] theorem Regs.wr_ptb (r : Regs) (d : BitVec 5) (v : Word) : (r.wr d v).ptb = r.ptb := by unfold Regs.wr; split <;> rfl
@[simp] theorem Regs.wr_tiva (r : Regs) (d : BitVec 5) (v : Word) : (r.wr d v).tiva = r.tiva := by unfold Regs.wr; split <;> rfl
@[simp] theorem Regs.wr_ctxid (r : Regs) (d : BitVec 5) (v : Word) : (r.wr d v).ctxid = r.ctxid := by unfold Regs.wr; split <;> rfl
@[simp] theorem Regs.wr_ctxrank (r : Regs) (d : BitVec 5) (v : Word) : (r.wr d v).ctxrank = r.ctxrank := by unfold Regs.wr; split <;> rfl
@[simp] theorem Regs.wr_groupsz (r : Regs) (d : BitVec 5) (v : Word) : (r.wr d v).groupsz = r.groupsz := by unfold Regs.wr; split <;> rfl
@[simp] theorem Regs.wr_b (r : Regs) (d : BitVec 5) (v : Word) : (r.wr d v).b = r.b := by unfold Regs.wr; split <;> rfl
@[simp] theorem Regs.wr_win (r : Regs) (d : BitVec 5) (v : Word) : (r.wr d v).win = r.win := by unfold Regs.wr; split <;> rfl
@[simp] theorem Regs.wr_seq (r : Regs) (d : BitVec 5) (v : Word) : (r.wr d v).seq = r.seq := by unfold Regs.wr; split <;> rfl
@[simp] theorem Regs.wr_susp (r : Regs) (d : BitVec 5) (v : Word) : (r.wr d v).susp = r.susp := by unfold Regs.wr; split <;> rfl

@[simp] theorem Regs.accrue_pc (r : Regs) (fl : Nat) : (r.accrue fl).pc = r.pc := rfl
@[simp] theorem Regs.accrue_x (r : Regs) (fl : Nat) : (r.accrue fl).x = r.x := rfl
@[simp] theorem Regs.accrue_v (r : Regs) (fl : Nat) : (r.accrue fl).v = r.v := rfl
@[simp] theorem Regs.accrue_m (r : Regs) (fl : Nat) : (r.accrue fl).m = r.m := rfl
@[simp] theorem Regs.accrue_t (r : Regs) (fl : Nat) : (r.accrue fl).t = r.t := rfl
@[simp] theorem Regs.accrue_z (r : Regs) (fl : Nat) : (r.accrue fl).z = r.z := rfl
@[simp] theorem Regs.accrue_vl (r : Regs) (fl : Nat) : (r.accrue fl).vl = r.vl := rfl
@[simp] theorem Regs.accrue_vtype (r : Regs) (fl : Nat) : (r.accrue fl).vtype = r.vtype := rfl
@[simp] theorem Regs.accrue_vstart (r : Regs) (fl : Nat) : (r.accrue fl).vstart = r.vstart := rfl
@[simp] theorem Regs.accrue_vrem (r : Regs) (fl : Nat) : (r.accrue fl).vrem = r.vrem := rfl
@[simp] theorem Regs.accrue_rps (r : Regs) (fl : Nat) : (r.accrue fl).rps = r.rps := rfl
@[simp] theorem Regs.accrue_tk (r : Regs) (fl : Nat) : (r.accrue fl).tk = r.tk := rfl
@[simp] theorem Regs.accrue_srseed (r : Regs) (fl : Nat) : (r.accrue fl).srseed = r.srseed := rfl
@[simp] theorem Regs.accrue_srcnt (r : Regs) (fl : Nat) : (r.accrue fl).srcnt = r.srcnt := rfl
@[simp] theorem Regs.accrue_fst (r : Regs) (fl : Nat) : (r.accrue fl).fst = r.fst ||| BitVec.ofNat 64 (fl % 32) := rfl
@[simp] theorem Regs.accrue_stat (r : Regs) (fl : Nat) : (r.accrue fl).stat = r.stat := rfl
@[simp] theorem Regs.accrue_epc (r : Regs) (fl : Nat) : (r.accrue fl).epc = r.epc := rfl
@[simp] theorem Regs.accrue_cause (r : Regs) (fl : Nat) : (r.accrue fl).cause = r.cause := rfl
@[simp] theorem Regs.accrue_tval (r : Regs) (fl : Nat) : (r.accrue fl).tval = r.tval := rfl
@[simp] theorem Regs.accrue_tvec (r : Regs) (fl : Nat) : (r.accrue fl).tvec = r.tvec := rfl
@[simp] theorem Regs.accrue_scratch (r : Regs) (fl : Nat) : (r.accrue fl).scratch = r.scratch := rfl
@[simp] theorem Regs.accrue_vqpos (r : Regs) (fl : Nat) : (r.accrue fl).vqpos = r.vqpos := rfl
@[simp] theorem Regs.accrue_saveva (r : Regs) (fl : Nat) : (r.accrue fl).saveva = r.saveva := rfl
@[simp] theorem Regs.accrue_bpa (r : Regs) (fl : Nat) : (r.accrue fl).bpa = r.bpa := rfl
@[simp] theorem Regs.accrue_bpctx (r : Regs) (fl : Nat) : (r.accrue fl).bpctx = r.bpctx := rfl
@[simp] theorem Regs.accrue_chb (r : Regs) (fl : Nat) : (r.accrue fl).chb = r.chb := rfl
@[simp] theorem Regs.accrue_ten (r : Regs) (fl : Nat) : (r.accrue fl).ten = r.ten := rfl
@[simp] theorem Regs.accrue_asid (r : Regs) (fl : Nat) : (r.accrue fl).asid = r.asid := rfl
@[simp] theorem Regs.accrue_ptb (r : Regs) (fl : Nat) : (r.accrue fl).ptb = r.ptb := rfl
@[simp] theorem Regs.accrue_tiva (r : Regs) (fl : Nat) : (r.accrue fl).tiva = r.tiva := rfl
@[simp] theorem Regs.accrue_ctxid (r : Regs) (fl : Nat) : (r.accrue fl).ctxid = r.ctxid := rfl
@[simp] theorem Regs.accrue_ctxrank (r : Regs) (fl : Nat) : (r.accrue fl).ctxrank = r.ctxrank := rfl
@[simp] theorem Regs.accrue_groupsz (r : Regs) (fl : Nat) : (r.accrue fl).groupsz = r.groupsz := rfl
@[simp] theorem Regs.accrue_b (r : Regs) (fl : Nat) : (r.accrue fl).b = r.b := rfl
@[simp] theorem Regs.accrue_win (r : Regs) (fl : Nat) : (r.accrue fl).win = r.win := rfl
@[simp] theorem Regs.accrue_seq (r : Regs) (fl : Nat) : (r.accrue fl).seq = r.seq := rfl
@[simp] theorem Regs.accrue_susp (r : Regs) (fl : Nat) : (r.accrue fl).susp = r.susp := rfl

@[simp] theorem Regs.dirty_pc (r : Regs) (v m t : Bool) : (r.dirty v m t).pc = r.pc := rfl
@[simp] theorem Regs.dirty_x (r : Regs) (v m t : Bool) : (r.dirty v m t).x = r.x := rfl
@[simp] theorem Regs.dirty_v (r : Regs) (v m t : Bool) : (r.dirty v m t).v = r.v := rfl
@[simp] theorem Regs.dirty_m (r : Regs) (v m t : Bool) : (r.dirty v m t).m = r.m := rfl
@[simp] theorem Regs.dirty_t (r : Regs) (v m t : Bool) : (r.dirty v m t).t = r.t := rfl
@[simp] theorem Regs.dirty_z (r : Regs) (v m t : Bool) : (r.dirty v m t).z = r.z := rfl
@[simp] theorem Regs.dirty_vl (r : Regs) (v m t : Bool) : (r.dirty v m t).vl = r.vl := rfl
@[simp] theorem Regs.dirty_vtype (r : Regs) (v m t : Bool) : (r.dirty v m t).vtype = r.vtype := rfl
@[simp] theorem Regs.dirty_vstart (r : Regs) (v m t : Bool) : (r.dirty v m t).vstart = r.vstart := rfl
@[simp] theorem Regs.dirty_vrem (r : Regs) (v m t : Bool) : (r.dirty v m t).vrem = r.vrem := rfl
@[simp] theorem Regs.dirty_rps (r : Regs) (v m t : Bool) : (r.dirty v m t).rps = r.rps := rfl
@[simp] theorem Regs.dirty_tk (r : Regs) (v m t : Bool) : (r.dirty v m t).tk = r.tk := rfl
@[simp] theorem Regs.dirty_srseed (r : Regs) (v m t : Bool) : (r.dirty v m t).srseed = r.srseed := rfl
@[simp] theorem Regs.dirty_srcnt (r : Regs) (v m t : Bool) : (r.dirty v m t).srcnt = r.srcnt := rfl
@[simp] theorem Regs.dirty_fst (r : Regs) (v m t : Bool) : (r.dirty v m t).fst = r.fst := rfl
@[simp] theorem Regs.dirty_stat (r : Regs) (v m t : Bool) :
    (r.dirty v m t).stat = dirtyBit t 14 (dirtyBit m 12 (dirtyBit v 10 r.stat)) :=
    rfl
@[simp] theorem Regs.dirty_epc (r : Regs) (v m t : Bool) : (r.dirty v m t).epc = r.epc := rfl
@[simp] theorem Regs.dirty_cause (r : Regs) (v m t : Bool) : (r.dirty v m t).cause = r.cause := rfl
@[simp] theorem Regs.dirty_tval (r : Regs) (v m t : Bool) : (r.dirty v m t).tval = r.tval := rfl
@[simp] theorem Regs.dirty_tvec (r : Regs) (v m t : Bool) : (r.dirty v m t).tvec = r.tvec := rfl
@[simp] theorem Regs.dirty_scratch (r : Regs) (v m t : Bool) : (r.dirty v m t).scratch = r.scratch := rfl
@[simp] theorem Regs.dirty_vqpos (r : Regs) (v m t : Bool) : (r.dirty v m t).vqpos = r.vqpos := rfl
@[simp] theorem Regs.dirty_saveva (r : Regs) (v m t : Bool) : (r.dirty v m t).saveva = r.saveva := rfl
@[simp] theorem Regs.dirty_bpa (r : Regs) (v m t : Bool) : (r.dirty v m t).bpa = r.bpa := rfl
@[simp] theorem Regs.dirty_bpctx (r : Regs) (v m t : Bool) : (r.dirty v m t).bpctx = r.bpctx := rfl
@[simp] theorem Regs.dirty_chb (r : Regs) (v m t : Bool) : (r.dirty v m t).chb = r.chb := rfl
@[simp] theorem Regs.dirty_ten (r : Regs) (v m t : Bool) : (r.dirty v m t).ten = r.ten := rfl
@[simp] theorem Regs.dirty_asid (r : Regs) (v m t : Bool) : (r.dirty v m t).asid = r.asid := rfl
@[simp] theorem Regs.dirty_ptb (r : Regs) (v m t : Bool) : (r.dirty v m t).ptb = r.ptb := rfl
@[simp] theorem Regs.dirty_tiva (r : Regs) (v m t : Bool) : (r.dirty v m t).tiva = r.tiva := rfl
@[simp] theorem Regs.dirty_ctxid (r : Regs) (v m t : Bool) : (r.dirty v m t).ctxid = r.ctxid := rfl
@[simp] theorem Regs.dirty_ctxrank (r : Regs) (v m t : Bool) : (r.dirty v m t).ctxrank = r.ctxrank := rfl
@[simp] theorem Regs.dirty_groupsz (r : Regs) (v m t : Bool) : (r.dirty v m t).groupsz = r.groupsz := rfl
@[simp] theorem Regs.dirty_b (r : Regs) (v m t : Bool) : (r.dirty v m t).b = r.b := rfl
@[simp] theorem Regs.dirty_win (r : Regs) (v m t : Bool) : (r.dirty v m t).win = r.win := rfl
@[simp] theorem Regs.dirty_seq (r : Regs) (v m t : Bool) : (r.dirty v m t).seq = r.seq := rfl
@[simp] theorem Regs.dirty_susp (r : Regs) (v m t : Bool) : (r.dirty v m t).susp = r.susp := rfl

@[simp] theorem Regs.setElem_pc (r : Regs) (n : BitVec 5) (w i x : Nat) : (r.setElem n w i x).pc = r.pc := rfl
@[simp] theorem Regs.setElem_x (r : Regs) (n : BitVec 5) (w i x : Nat) : (r.setElem n w i x).x = r.x := rfl
@[simp] theorem Regs.setElem_v (r : Regs) (n : BitVec 5) (w i x : Nat) :
    (r.setElem n w i x).v = vecMod r.v (n.toNat + i * w / 16384) fun b => setField b (i * w % 16384) w x :=
    rfl
@[simp] theorem Regs.setElem_m (r : Regs) (n : BitVec 5) (w i x : Nat) : (r.setElem n w i x).m = r.m := rfl
@[simp] theorem Regs.setElem_t (r : Regs) (n : BitVec 5) (w i x : Nat) : (r.setElem n w i x).t = r.t := rfl
@[simp] theorem Regs.setElem_z (r : Regs) (n : BitVec 5) (w i x : Nat) : (r.setElem n w i x).z = r.z := rfl
@[simp] theorem Regs.setElem_vl (r : Regs) (n : BitVec 5) (w i x : Nat) : (r.setElem n w i x).vl = r.vl := rfl
@[simp] theorem Regs.setElem_vtype (r : Regs) (n : BitVec 5) (w i x : Nat) : (r.setElem n w i x).vtype = r.vtype := rfl
@[simp] theorem Regs.setElem_vstart (r : Regs) (n : BitVec 5) (w i x : Nat) : (r.setElem n w i x).vstart = r.vstart := rfl
@[simp] theorem Regs.setElem_vrem (r : Regs) (n : BitVec 5) (w i x : Nat) : (r.setElem n w i x).vrem = r.vrem := rfl
@[simp] theorem Regs.setElem_rps (r : Regs) (n : BitVec 5) (w i x : Nat) : (r.setElem n w i x).rps = r.rps := rfl
@[simp] theorem Regs.setElem_tk (r : Regs) (n : BitVec 5) (w i x : Nat) : (r.setElem n w i x).tk = r.tk := rfl
@[simp] theorem Regs.setElem_srseed (r : Regs) (n : BitVec 5) (w i x : Nat) : (r.setElem n w i x).srseed = r.srseed := rfl
@[simp] theorem Regs.setElem_srcnt (r : Regs) (n : BitVec 5) (w i x : Nat) : (r.setElem n w i x).srcnt = r.srcnt := rfl
@[simp] theorem Regs.setElem_fst (r : Regs) (n : BitVec 5) (w i x : Nat) : (r.setElem n w i x).fst = r.fst := rfl
@[simp] theorem Regs.setElem_stat (r : Regs) (n : BitVec 5) (w i x : Nat) : (r.setElem n w i x).stat = r.stat := rfl
@[simp] theorem Regs.setElem_epc (r : Regs) (n : BitVec 5) (w i x : Nat) : (r.setElem n w i x).epc = r.epc := rfl
@[simp] theorem Regs.setElem_cause (r : Regs) (n : BitVec 5) (w i x : Nat) : (r.setElem n w i x).cause = r.cause := rfl
@[simp] theorem Regs.setElem_tval (r : Regs) (n : BitVec 5) (w i x : Nat) : (r.setElem n w i x).tval = r.tval := rfl
@[simp] theorem Regs.setElem_tvec (r : Regs) (n : BitVec 5) (w i x : Nat) : (r.setElem n w i x).tvec = r.tvec := rfl
@[simp] theorem Regs.setElem_scratch (r : Regs) (n : BitVec 5) (w i x : Nat) : (r.setElem n w i x).scratch = r.scratch := rfl
@[simp] theorem Regs.setElem_vqpos (r : Regs) (n : BitVec 5) (w i x : Nat) : (r.setElem n w i x).vqpos = r.vqpos := rfl
@[simp] theorem Regs.setElem_saveva (r : Regs) (n : BitVec 5) (w i x : Nat) : (r.setElem n w i x).saveva = r.saveva := rfl
@[simp] theorem Regs.setElem_bpa (r : Regs) (n : BitVec 5) (w i x : Nat) : (r.setElem n w i x).bpa = r.bpa := rfl
@[simp] theorem Regs.setElem_bpctx (r : Regs) (n : BitVec 5) (w i x : Nat) : (r.setElem n w i x).bpctx = r.bpctx := rfl
@[simp] theorem Regs.setElem_chb (r : Regs) (n : BitVec 5) (w i x : Nat) : (r.setElem n w i x).chb = r.chb := rfl
@[simp] theorem Regs.setElem_ten (r : Regs) (n : BitVec 5) (w i x : Nat) : (r.setElem n w i x).ten = r.ten := rfl
@[simp] theorem Regs.setElem_asid (r : Regs) (n : BitVec 5) (w i x : Nat) : (r.setElem n w i x).asid = r.asid := rfl
@[simp] theorem Regs.setElem_ptb (r : Regs) (n : BitVec 5) (w i x : Nat) : (r.setElem n w i x).ptb = r.ptb := rfl
@[simp] theorem Regs.setElem_tiva (r : Regs) (n : BitVec 5) (w i x : Nat) : (r.setElem n w i x).tiva = r.tiva := rfl
@[simp] theorem Regs.setElem_ctxid (r : Regs) (n : BitVec 5) (w i x : Nat) : (r.setElem n w i x).ctxid = r.ctxid := rfl
@[simp] theorem Regs.setElem_ctxrank (r : Regs) (n : BitVec 5) (w i x : Nat) : (r.setElem n w i x).ctxrank = r.ctxrank := rfl
@[simp] theorem Regs.setElem_groupsz (r : Regs) (n : BitVec 5) (w i x : Nat) : (r.setElem n w i x).groupsz = r.groupsz := rfl
@[simp] theorem Regs.setElem_b (r : Regs) (n : BitVec 5) (w i x : Nat) : (r.setElem n w i x).b = r.b := rfl
@[simp] theorem Regs.setElem_win (r : Regs) (n : BitVec 5) (w i x : Nat) : (r.setElem n w i x).win = r.win := rfl
@[simp] theorem Regs.setElem_seq (r : Regs) (n : BitVec 5) (w i x : Nat) : (r.setElem n w i x).seq = r.seq := rfl
@[simp] theorem Regs.setElem_susp (r : Regs) (n : BitVec 5) (w i x : Nat) : (r.setElem n w i x).susp = r.susp := rfl

@[simp] theorem Regs.setBlock_pc (r : Regs) (n : BitVec 5) (b x : Nat) : (r.setBlock n b x).pc = r.pc := rfl
@[simp] theorem Regs.setBlock_x (r : Regs) (n : BitVec 5) (b x : Nat) : (r.setBlock n b x).x = r.x := rfl
@[simp] theorem Regs.setBlock_v (r : Regs) (n : BitVec 5) (b x : Nat) :
    (r.setBlock n b x).v = vecMod r.v (n.toNat + b / 32) fun u => setField u (512 * (b % 32)) 512 x :=
    rfl
@[simp] theorem Regs.setBlock_m (r : Regs) (n : BitVec 5) (b x : Nat) : (r.setBlock n b x).m = r.m := rfl
@[simp] theorem Regs.setBlock_t (r : Regs) (n : BitVec 5) (b x : Nat) : (r.setBlock n b x).t = r.t := rfl
@[simp] theorem Regs.setBlock_z (r : Regs) (n : BitVec 5) (b x : Nat) : (r.setBlock n b x).z = r.z := rfl
@[simp] theorem Regs.setBlock_vl (r : Regs) (n : BitVec 5) (b x : Nat) : (r.setBlock n b x).vl = r.vl := rfl
@[simp] theorem Regs.setBlock_vtype (r : Regs) (n : BitVec 5) (b x : Nat) : (r.setBlock n b x).vtype = r.vtype := rfl
@[simp] theorem Regs.setBlock_vstart (r : Regs) (n : BitVec 5) (b x : Nat) : (r.setBlock n b x).vstart = r.vstart := rfl
@[simp] theorem Regs.setBlock_vrem (r : Regs) (n : BitVec 5) (b x : Nat) : (r.setBlock n b x).vrem = r.vrem := rfl
@[simp] theorem Regs.setBlock_rps (r : Regs) (n : BitVec 5) (b x : Nat) : (r.setBlock n b x).rps = r.rps := rfl
@[simp] theorem Regs.setBlock_tk (r : Regs) (n : BitVec 5) (b x : Nat) : (r.setBlock n b x).tk = r.tk := rfl
@[simp] theorem Regs.setBlock_srseed (r : Regs) (n : BitVec 5) (b x : Nat) : (r.setBlock n b x).srseed = r.srseed := rfl
@[simp] theorem Regs.setBlock_srcnt (r : Regs) (n : BitVec 5) (b x : Nat) : (r.setBlock n b x).srcnt = r.srcnt := rfl
@[simp] theorem Regs.setBlock_fst (r : Regs) (n : BitVec 5) (b x : Nat) : (r.setBlock n b x).fst = r.fst := rfl
@[simp] theorem Regs.setBlock_stat (r : Regs) (n : BitVec 5) (b x : Nat) : (r.setBlock n b x).stat = r.stat := rfl
@[simp] theorem Regs.setBlock_epc (r : Regs) (n : BitVec 5) (b x : Nat) : (r.setBlock n b x).epc = r.epc := rfl
@[simp] theorem Regs.setBlock_cause (r : Regs) (n : BitVec 5) (b x : Nat) : (r.setBlock n b x).cause = r.cause := rfl
@[simp] theorem Regs.setBlock_tval (r : Regs) (n : BitVec 5) (b x : Nat) : (r.setBlock n b x).tval = r.tval := rfl
@[simp] theorem Regs.setBlock_tvec (r : Regs) (n : BitVec 5) (b x : Nat) : (r.setBlock n b x).tvec = r.tvec := rfl
@[simp] theorem Regs.setBlock_scratch (r : Regs) (n : BitVec 5) (b x : Nat) : (r.setBlock n b x).scratch = r.scratch := rfl
@[simp] theorem Regs.setBlock_vqpos (r : Regs) (n : BitVec 5) (b x : Nat) : (r.setBlock n b x).vqpos = r.vqpos := rfl
@[simp] theorem Regs.setBlock_saveva (r : Regs) (n : BitVec 5) (b x : Nat) : (r.setBlock n b x).saveva = r.saveva := rfl
@[simp] theorem Regs.setBlock_bpa (r : Regs) (n : BitVec 5) (b x : Nat) : (r.setBlock n b x).bpa = r.bpa := rfl
@[simp] theorem Regs.setBlock_bpctx (r : Regs) (n : BitVec 5) (b x : Nat) : (r.setBlock n b x).bpctx = r.bpctx := rfl
@[simp] theorem Regs.setBlock_chb (r : Regs) (n : BitVec 5) (b x : Nat) : (r.setBlock n b x).chb = r.chb := rfl
@[simp] theorem Regs.setBlock_ten (r : Regs) (n : BitVec 5) (b x : Nat) : (r.setBlock n b x).ten = r.ten := rfl
@[simp] theorem Regs.setBlock_asid (r : Regs) (n : BitVec 5) (b x : Nat) : (r.setBlock n b x).asid = r.asid := rfl
@[simp] theorem Regs.setBlock_ptb (r : Regs) (n : BitVec 5) (b x : Nat) : (r.setBlock n b x).ptb = r.ptb := rfl
@[simp] theorem Regs.setBlock_tiva (r : Regs) (n : BitVec 5) (b x : Nat) : (r.setBlock n b x).tiva = r.tiva := rfl
@[simp] theorem Regs.setBlock_ctxid (r : Regs) (n : BitVec 5) (b x : Nat) : (r.setBlock n b x).ctxid = r.ctxid := rfl
@[simp] theorem Regs.setBlock_ctxrank (r : Regs) (n : BitVec 5) (b x : Nat) : (r.setBlock n b x).ctxrank = r.ctxrank := rfl
@[simp] theorem Regs.setBlock_groupsz (r : Regs) (n : BitVec 5) (b x : Nat) : (r.setBlock n b x).groupsz = r.groupsz := rfl
@[simp] theorem Regs.setBlock_b (r : Regs) (n : BitVec 5) (b x : Nat) : (r.setBlock n b x).b = r.b := rfl
@[simp] theorem Regs.setBlock_win (r : Regs) (n : BitVec 5) (b x : Nat) : (r.setBlock n b x).win = r.win := rfl
@[simp] theorem Regs.setBlock_seq (r : Regs) (n : BitVec 5) (b x : Nat) : (r.setBlock n b x).seq = r.seq := rfl
@[simp] theorem Regs.setBlock_susp (r : Regs) (n : BitVec 5) (b x : Nat) : (r.setBlock n b x).susp = r.susp := rfl

@[simp] theorem Regs.setMaskBit_pc (r : Regs) (m : BitVec 4) (i : Nat) (b : Bool) : (r.setMaskBit m i b).pc = r.pc := rfl
@[simp] theorem Regs.setMaskBit_x (r : Regs) (m : BitVec 4) (i : Nat) (b : Bool) : (r.setMaskBit m i b).x = r.x := rfl
@[simp] theorem Regs.setMaskBit_v (r : Regs) (m : BitVec 4) (i : Nat) (b : Bool) : (r.setMaskBit m i b).v = r.v := rfl
@[simp] theorem Regs.setMaskBit_m (r : Regs) (m : BitVec 4) (i : Nat) (b : Bool) :
    (r.setMaskBit m i b).m = r.m.set m.toNat (setField (r.m.get ⟨m.toNat, m.isLt⟩) i 1 b.toNat) m.isLt :=
    rfl
@[simp] theorem Regs.setMaskBit_t (r : Regs) (m : BitVec 4) (i : Nat) (b : Bool) : (r.setMaskBit m i b).t = r.t := rfl
@[simp] theorem Regs.setMaskBit_z (r : Regs) (m : BitVec 4) (i : Nat) (b : Bool) : (r.setMaskBit m i b).z = r.z := rfl
@[simp] theorem Regs.setMaskBit_vl (r : Regs) (m : BitVec 4) (i : Nat) (b : Bool) : (r.setMaskBit m i b).vl = r.vl := rfl
@[simp] theorem Regs.setMaskBit_vtype (r : Regs) (m : BitVec 4) (i : Nat) (b : Bool) : (r.setMaskBit m i b).vtype = r.vtype := rfl
@[simp] theorem Regs.setMaskBit_vstart (r : Regs) (m : BitVec 4) (i : Nat) (b : Bool) : (r.setMaskBit m i b).vstart = r.vstart := rfl
@[simp] theorem Regs.setMaskBit_vrem (r : Regs) (m : BitVec 4) (i : Nat) (b : Bool) : (r.setMaskBit m i b).vrem = r.vrem := rfl
@[simp] theorem Regs.setMaskBit_rps (r : Regs) (m : BitVec 4) (i : Nat) (b : Bool) : (r.setMaskBit m i b).rps = r.rps := rfl
@[simp] theorem Regs.setMaskBit_tk (r : Regs) (m : BitVec 4) (i : Nat) (b : Bool) : (r.setMaskBit m i b).tk = r.tk := rfl
@[simp] theorem Regs.setMaskBit_srseed (r : Regs) (m : BitVec 4) (i : Nat) (b : Bool) : (r.setMaskBit m i b).srseed = r.srseed := rfl
@[simp] theorem Regs.setMaskBit_srcnt (r : Regs) (m : BitVec 4) (i : Nat) (b : Bool) : (r.setMaskBit m i b).srcnt = r.srcnt := rfl
@[simp] theorem Regs.setMaskBit_fst (r : Regs) (m : BitVec 4) (i : Nat) (b : Bool) : (r.setMaskBit m i b).fst = r.fst := rfl
@[simp] theorem Regs.setMaskBit_stat (r : Regs) (m : BitVec 4) (i : Nat) (b : Bool) : (r.setMaskBit m i b).stat = r.stat := rfl
@[simp] theorem Regs.setMaskBit_epc (r : Regs) (m : BitVec 4) (i : Nat) (b : Bool) : (r.setMaskBit m i b).epc = r.epc := rfl
@[simp] theorem Regs.setMaskBit_cause (r : Regs) (m : BitVec 4) (i : Nat) (b : Bool) : (r.setMaskBit m i b).cause = r.cause := rfl
@[simp] theorem Regs.setMaskBit_tval (r : Regs) (m : BitVec 4) (i : Nat) (b : Bool) : (r.setMaskBit m i b).tval = r.tval := rfl
@[simp] theorem Regs.setMaskBit_tvec (r : Regs) (m : BitVec 4) (i : Nat) (b : Bool) : (r.setMaskBit m i b).tvec = r.tvec := rfl
@[simp] theorem Regs.setMaskBit_scratch (r : Regs) (m : BitVec 4) (i : Nat) (b : Bool) : (r.setMaskBit m i b).scratch = r.scratch := rfl
@[simp] theorem Regs.setMaskBit_vqpos (r : Regs) (m : BitVec 4) (i : Nat) (b : Bool) : (r.setMaskBit m i b).vqpos = r.vqpos := rfl
@[simp] theorem Regs.setMaskBit_saveva (r : Regs) (m : BitVec 4) (i : Nat) (b : Bool) : (r.setMaskBit m i b).saveva = r.saveva := rfl
@[simp] theorem Regs.setMaskBit_bpa (r : Regs) (m : BitVec 4) (i : Nat) (b : Bool) : (r.setMaskBit m i b).bpa = r.bpa := rfl
@[simp] theorem Regs.setMaskBit_bpctx (r : Regs) (m : BitVec 4) (i : Nat) (b : Bool) : (r.setMaskBit m i b).bpctx = r.bpctx := rfl
@[simp] theorem Regs.setMaskBit_chb (r : Regs) (m : BitVec 4) (i : Nat) (b : Bool) : (r.setMaskBit m i b).chb = r.chb := rfl
@[simp] theorem Regs.setMaskBit_ten (r : Regs) (m : BitVec 4) (i : Nat) (b : Bool) : (r.setMaskBit m i b).ten = r.ten := rfl
@[simp] theorem Regs.setMaskBit_asid (r : Regs) (m : BitVec 4) (i : Nat) (b : Bool) : (r.setMaskBit m i b).asid = r.asid := rfl
@[simp] theorem Regs.setMaskBit_ptb (r : Regs) (m : BitVec 4) (i : Nat) (b : Bool) : (r.setMaskBit m i b).ptb = r.ptb := rfl
@[simp] theorem Regs.setMaskBit_tiva (r : Regs) (m : BitVec 4) (i : Nat) (b : Bool) : (r.setMaskBit m i b).tiva = r.tiva := rfl
@[simp] theorem Regs.setMaskBit_ctxid (r : Regs) (m : BitVec 4) (i : Nat) (b : Bool) : (r.setMaskBit m i b).ctxid = r.ctxid := rfl
@[simp] theorem Regs.setMaskBit_ctxrank (r : Regs) (m : BitVec 4) (i : Nat) (b : Bool) : (r.setMaskBit m i b).ctxrank = r.ctxrank := rfl
@[simp] theorem Regs.setMaskBit_groupsz (r : Regs) (m : BitVec 4) (i : Nat) (b : Bool) : (r.setMaskBit m i b).groupsz = r.groupsz := rfl
@[simp] theorem Regs.setMaskBit_b (r : Regs) (m : BitVec 4) (i : Nat) (b : Bool) : (r.setMaskBit m i b).b = r.b := rfl
@[simp] theorem Regs.setMaskBit_win (r : Regs) (m : BitVec 4) (i : Nat) (b : Bool) : (r.setMaskBit m i b).win = r.win := rfl
@[simp] theorem Regs.setMaskBit_seq (r : Regs) (m : BitVec 4) (i : Nat) (b : Bool) : (r.setMaskBit m i b).seq = r.seq := rfl
@[simp] theorem Regs.setMaskBit_susp (r : Regs) (m : BitVec 4) (i : Nat) (b : Bool) : (r.setMaskBit m i b).susp = r.susp := rfl

/-! ### Operations that change one part -/

/-- The level of the clock follows in the power state alone (27 R428). -/
theorem State.settleClock_eq (s : State) : s.settleClock = { s with power := s.settleClock.power } := by
  unfold State.settleClock; split <;> rfl
@[simp] theorem State.settleClock_core (s : State) : s.settleClock.core = s.core := by rw [State.settleClock_eq]
@[simp] theorem State.settleClock_cur (s : State) : s.settleClock.cur = s.cur := by rw [State.settleClock_eq]
@[simp] theorem State.settleClock_others (s : State) : s.settleClock.others = s.others := by rw [State.settleClock_eq]
@[simp] theorem State.settleClock_mem (s : State) : s.settleClock.mem = s.mem := by rw [State.settleClock_eq]
/-- TLVL is the chosen level where every core stands between instructions, and as before elsewhere (27 R428). -/
theorem State.settleClock_power (s : State) : s.settleClock.power =
    { s.power with tlvl := if s.cores.all (·.2.between) then s.power.level else s.power.tlvl } := by
  unfold State.settleClock; split <;> rfl
@[simp] theorem State.mapRing_cur (s : State) (u : Nat) (f : Ring → Ring) : (s.mapRing u f).cur = s.cur := rfl
@[simp] theorem State.mapRing_core (s : State) (u : Nat) (f : Ring → Ring) : (s.mapRing u f).core = s.core := rfl
@[simp] theorem State.mapRing_others (s : State) (u : Nat) (f : Ring → Ring) : (s.mapRing u f).others = s.others := rfl
@[simp] theorem State.mapRing_mem (s : State) (u : Nat) (f : Ring → Ring) : (s.mapRing u f).mem = s.mem := rfl
@[simp] theorem State.mapRing_csn (s : State) (u : Nat) (f : Ring → Ring) : (s.mapRing u f).csn = s.csn := rfl
/-- An instruction at whose wait events are taken is fetched again. -/
@[simp] theorem inProgress_boundary {c : Core} (h : c.boundary = true) : c.inProgress = none := by unfold Core.inProgress; simp [h]
/-- So is one whose chunk a squash replays (14 R287). -/
@[simp] theorem inProgress_midway {c : Core} (h : c.wait = some .midway) : c.inProgress = none := by unfold Core.inProgress; simp [h]
/-- An instruction whose wait takes no event goes on with the word that it holds (14 R282). -/
@[simp] theorem inProgress_held {c : Core} {h : Held} (hb : c.boundary = false) (hm : c.wait ≠ some .midway) (hh : c.held = some h) :
    c.inProgress = some h.word := by
  unfold Core.inProgress; rw [hh]; simp [hb, hm]
/-- A core that holds no instruction stands inside none. -/
@[simp] theorem within_none {c : Core} (h : c.held = none) : c.within = false := by unfold Core.within; rw [h]; rfl
/-- A core that stands inside no instruction waits for nothing once nothing holds it up, and its next chunk starts inside none. -/
@[simp] theorem goesOn_outside {c : Core} (h : c.within = false) : c.goesOn = none := by unfold Core.goesOn; simp [h]
theorem newChunk_outside {c : Core} (h : c.within = false) : c.newChunk.inside = none := by unfold Core.newChunk; simp [h]
/-- An instruction whose word is fetched holds the registers of its start (07 R157): those of now, or, of one inside which the core stands,
those that it holds. -/
theorem hold_outside {c : Core} (h : c.within = false) (w : BitVec 32) : c.hold w = ⟨w, c.regs.v, c.regs.vstart, false⟩ := by
  unfold Core.hold; split <;> simp [h]
theorem hold_within {c : Core} {k : Held} (h : c.within = true) (hk : c.held = some k) (w : BitVec 32) :
    c.hold w = { k with word := w } := by
  unfold Core.hold; rw [hk]; simp [h]
/-- A core whose chunk started inside no instruction, and is squashed, stands inside none and waits for nothing (14 R287). -/
theorem squashed_outside {c : Core} {ch : Chunk} (h : c.chunk = some ch) (hi : ch.inside = none) :
    c.squashed.held = none ∧ c.squashed.wait = none := by unfold Core.squashed; simp [h, hi]
/-- One whose chunk started inside an instruction stands inside it again, at no instruction boundary (14 R281, 27 R426). -/
theorem squashed_inside {c : Core} {ch : Chunk} {k : Held} (h : c.chunk = some ch) (hi : ch.inside = some k) :
    c.squashed.wait = some .midway ∧ c.squashed.within = true ∧ c.squashed.between = false := by
  unfold Core.squashed Core.between Core.boundary Core.within; simp [h, hi, Wait.open]
@[simp] theorem Core.openReg_regs (c : Core) (n : Nat) : (c.openReg n).regs = c.regs := rfl
@[simp] theorem Core.openReg_scratch (c : Core) (n : Nat) : (c.openReg n).scratch = c.scratch := rfl
@[simp] theorem Core.openReg_chunk (c : Core) (n : Nat) : (c.openReg n).chunk = c.chunk := rfl

/-- x0 reads 0 (02 R38). -/
@[simp] theorem Regs.rd_zero (r : Regs) : r.rd 0 = 0 := rfl
/-- A write to x0 is discarded (02 R38). -/
@[simp] theorem Regs.wr_zero (r : Regs) (v : Word) : r.wr 0 v = r := rfl
/-- A register read after a register written. -/
theorem Regs.rd_wr (r : Regs) (d a : BitVec 5) (v : Word) : (r.wr d v).rd a = if a = d ∧ d ≠ 0 then v else r.rd a := by
  unfold Regs.wr Regs.rd
  by_cases hd : d = 0
  · simp [hd]
  · by_cases ha : a = 0
    · subst ha; rw [if_pos rfl, if_neg (fun h => hd h.1.symm), if_pos rfl]
    · rw [if_neg ha, if_neg hd, if_neg ha]
      simp only [Vector.get_eq_getElem, Vector.getElem_set]
      by_cases h : a = d
      · subst h; rw [if_pos rfl, if_pos ⟨rfl, hd⟩]
      · rw [if_neg (fun e => h (BitVec.eq_of_toNat_eq e.symm)), if_neg (fun e => h e.1)]
/-- Every register but the written one is kept. -/
theorem Regs.wr_x (r : Regs) (d : BitVec 5) (v : Word) (k : Fin 32) :
    (r.wr d v).x.get k = if k.val = d.toNat ∧ d ≠ 0 then v else r.x.get k := by
  unfold Regs.wr
  by_cases hd : d = 0
  · simp [hd]
  · rw [if_neg hd]
    simp only [Vector.get_eq_getElem, Vector.getElem_set]
    by_cases h : d.toNat = k.val
    · rw [if_pos h, if_pos ⟨h.symm, hd⟩]
    · rw [if_neg h, if_neg fun e => h e.1.symm]

end Sys2Proof.Machine
end

