-- ==== Sys2Proof/Laws/Vector.lean ====
section
/-! SUPPORT. Laws of the runners and of the vector mould: how a body's end becomes the end of the instruction, what the checks of a
VQ entry come to when no register is open, and what the element loop leaves. -/
set_option Elab.async false
namespace Sys2Proof.Machine

/-! ### Runners -/

/-- A body that ends retires the instruction. -/
theorem run_ok {m : M Unit} {s t : State} (h : m s = .ok () t) : run m s = .next t.retire := by unfold run; rw [h]
/-- A body that traps takes the trap, whatever it has changed by then. -/
theorem run_trap {m : M Unit} {s t : State} {c : Cause} {v : Word} (h : m s = .error (.trap c v) t) :
    run m s = .next (takeTrap c false v none t) := by unfold run; rw [h]
/-- A body that waits leaves the instruction waiting. -/
theorem run_wait {m : M Unit} {s t : State} {w : Wait} (h : m s = .error (.wait w) t) : run m s = .next (t.waiting w) := by
  unfold run; rw [h]
/-- A scalar instruction goes on in one of four ways. -/
theorem run_cases (m : M Unit) (s : State) : (∃ t, m s = .ok () t ∧ run m s = .next t.retire) ∨
    (∃ c v t, m s = .error (.trap c v) t ∧ run m s = .next (takeTrap c false v none t)) ∨
    (∃ w t, m s = .error (.wait w) t ∧ run m s = .next (t.waiting w)) ∨
    ∃ t, m s = .error .cut t ∧ run m s = .next (takePreempt t) := by
  unfold run
  rcases h : m s with ⟨⟨⟩, t⟩ | ⟨e, t⟩
  · exact .inl ⟨t, rfl, rfl⟩
  · cases e with
    | trap c v => exact .inr (.inl ⟨c, v, t, rfl, rfl⟩)
    | wait w => exact .inr (.inr (.inl ⟨w, t, rfl, rfl⟩))
    | cut => exact .inr (.inr (.inr ⟨t, rfl, rfl⟩))
/-- A body that ends with a target goes there. -/
theorem runAt_ok {m : M Word} {s t : State} {v : Word} (h : m s = .ok v t) : runAt m s = .next (t.retireAt v) := by
  unfold runAt; rw [h]
/-- A body that ends with a target transfers control there. -/
theorem runJump_ok {m : M Word} {s t : State} {v : Word} (h : m s = .ok v t) : runJump m s = .next (t.jump v) := by
  unfold runJump; rw [h]

/-- Where no older load can be overtaken, nothing is dropped (07 R150). -/
theorem dropLends_none {s : State} (h : s.core.chunkOr.lends = []) : s.dropLends = s := by
  unfold State.dropLends
  unfold Core.chunkOr at h
  cases hc : s.core.chunk with
  | none => rfl
  | some ch => simp only [hc, Option.getD_some] at h; simp [h]
/-- What may overtake a load is no register. -/
@[simp] theorem dropLends_regs (s : State) : s.dropLends.core.regs = s.core.regs := by
  unfold State.dropLends; split <;> [skip; rfl]; split <;> rfl
/-- Where a load stands is no register. -/
@[simp] theorem noHalt_regs (s : State) : s.noHalt.core.regs = s.core.regs := rfl
/-- A VQ instruction that meets no mismatch runs its body. -/
theorem vecRun_body {e : Entry} {body : M Unit} {s : State} (hr : e.refused s.core.regs = none) (hl : s.core.lanes = []) :
    vecRun e body s = vecBody body s := by
  unfold vecRun
  rw [hr, hl]
  rcases e.lane <;> rfl
/-- A VQ instruction whose state is on and that meets no mismatch ends as its body does, and consumes its sequence number. -/
theorem vecRun_ok {e : Entry} {body : M Unit} {s t : State} (hr : e.refused s.core.regs = none) (hl : s.core.lanes = [])
    (h : body s.dropLends = .ok () t) : vecRun e body s = .next (t.noHalt.mapRegs fun r => { r with seq := r.seq + 1 }).retire := by
  rw [vecRun_body hr hl]; unfold vecBody; rw [h]
/-- Likewise when its body traps: the number is consumed. -/
theorem vecRun_trap {e : Entry} {body : M Unit} {s t : State} {c : Cause} {v : Word} (hr : e.refused s.core.regs = none)
    (hl : s.core.lanes = []) (h : body s.dropLends = .error (.trap c v) t) : vecRun e body s = .next (vecTrap c v true t) := by
  rw [vecRun_body hr hl]; unfold vecBody; rw [h]
/-- Likewise when its body waits: the number is kept. -/
theorem vecRun_wait {e : Entry} {body : M Unit} {s t : State} {w : Wait} (hr : e.refused s.core.regs = none)
    (hl : s.core.lanes = []) (h : body s.dropLends = .error (.wait w) t) : vecRun e body s = .next (t.waiting w) := by
  rw [vecRun_body hr hl]; unfold vecBody; rw [h]
/-- A check of steps 7 and 8 that fails traps with the word, and the number is kept. -/
theorem vecRun_refused {e : Entry} {body : M Unit} {s : State} {c : Cause} (hr : e.refused s.core.regs = some c) :
    vecRun e body s = .next (vecTrap c e.word false s) := by
  unfold vecRun; rw [hr]
/-- A VQ instruction whose state is on passes steps 7 and 8. -/
theorem refused_ready {e : Entry} {r : Regs} (h : r.ready e.m e.t = true) : e.refused r = none := by
  unfold Regs.ready at h
  simp only [Bool.and_eq_true, Bool.not_eq_true'] at h
  unfold Entry.refused
  rw [h.1.1.1, h.1.1.2, h.1.2, h.2]
  simp
/-- A body answers a next state. -/
theorem vecBody_next (body : M Unit) (s : State) : ∃ t, vecBody body s = .next t := by
  unfold vecBody; split <;> exact ⟨_, rfl⟩
/-- Likewise with the checks before it. -/
theorem vecRun_next (e : Entry) (body : M Unit) (s : State) : ∃ t, vecRun e body s = .next t := by
  unfold vecRun
  split
  · exact ⟨_, rfl⟩
  · split
    · split
      · exact ⟨_, rfl⟩
      · split
        · exact ⟨_, rfl⟩
        · exact vecBody_next _ _
    · exact vecBody_next _ _

/-! ### Checks when no register is open -/

/-- What calm says. -/
theorem calm_iff {s : State} : s.calm = true ↔ s.core.openV = 0 ∧ s.core.openM = 0 ∧ s.core.openT = 0 ∧ s.core.lanes = [] := by
  unfold State.calm
  simp [and_assoc]
/-- Dropping what may overtake a load leaves a calm state calm. -/
theorem calm_dropLends {s : State} (h : s.calm = true) : s.dropLends.calm = true := by
  unfold State.dropLends; split <;> [skip; exact h]; split <;> exact h
/-- No register is open in a calm state. -/
theorem isOpen_calm {s : State} (h : s.calm = true) (kind n : Nat) : s.core.isOpen kind n = false := by
  obtain ⟨hv, hm, ht, -⟩ := calm_iff.1 h
  unfold Core.isOpen
  rw [hv, hm, ht]
  simp
/-- No group of registers is open in a calm state. -/
theorem guardRegs_calm {s : State} (h : s.calm = true) (kind n k : Nat) : guardRegs kind n k s = .ok () s := by
  have : s.core.firstOpen kind n k = none := by
    unfold Core.firstOpen
    rw [List.find?_eq_none]
    intro q _
    simp [isOpen_calm h]
  simp only [guardRegs, get, getThe, MonadStateOf.get, bind, EStateM.bind, EStateM.get, this, pure, EStateM.pure]
/-- A governing mask is not open in a calm state. -/
theorem guardMask_calm {s : State} (h : s.calm = true) (m : BitVec 4) : guardMask m s = .ok () s := by
  unfold guardMask
  split
  · rfl
  · exact guardRegs_calm h _ _ _
/-- Every element is present in a calm state. -/
theorem needElems_calm {s : State} (h : s.calm = true) (n : BitVec 5) (w : Nat) (is : List Nat) : needElems n w is s = .ok () s := by
  have : s.core.absent n w is = none := by
    unfold Core.absent
    rw [if_pos (calm_iff.1 h).1]
  simp only [needElems, get, getThe, MonadStateOf.get, bind, EStateM.bind, EStateM.get, this, pure, EStateM.pure]
/-- A check that holds changes nothing. -/
theorem ensure_true {b : Bool} (h : b = true) (c : Cause) (v : Word) (s : State) : ensure b c v s = .ok () s := by
  unfold ensure; rw [if_pos h]; rfl
/-- A check that fails traps. -/
theorem ensure_false {b : Bool} (h : b = false) (c : Cause) (v : Word) (s : State) : ensure b c v s = .error (.trap c v) s := by
  unfold ensure; rw [h]; rfl
/-- A list of actions of which each changes nothing changes nothing. -/
theorem forM_ok {α : Type} {f : α → M Unit} {s : State} {l : List α} (h : ∀ a ∈ l, f a s = .ok () s) : l.forM f s = .ok () s := by
  induction l with
  | nil => rfl
  | cons a r ih =>
    show EStateM.bind (f a) (fun _ => r.forM f) s = _
    simp only [EStateM.bind, h a (by simp)]
    exact ih fun b hb => h b (by simp [hb])
/-- The checks of an element-wise instruction on well-placed groups (05 R100, 07 R133, 09 R210). -/
theorem elemGuard_calm {s : State} (h : s.calm = true) {ok : Bool} {d : BitVec 5} {vs : List (BitVec 5)} (w : Word) (m : BitVec 4)
    (hg : (ok && s.core.regs.groupOk d && vs.all s.core.regs.groupOk) = true) : elemGuard w ok d m vs s = .ok () s := by
  simp only [elemGuard, regs, get, getThe, MonadStateOf.get, bind, EStateM.bind, EStateM.get, pure, EStateM.pure,
    ensure_true hg, guardMask_calm h, guardRegs_calm h]
  exact forM_ok fun v _ => needElems_calm h _ _ _
/-- The checks of a compare on well-placed groups (09 R191). -/
theorem compareGuard_calm {s : State} (h : s.calm = true) {ok : Bool} {vs : List (BitVec 5)} (w : Word) (d m : BitVec 4)
    (hg : (ok && vs.all s.core.regs.groupOk) = true) : compareGuard w ok d m vs s = .ok () s := by
  simp only [compareGuard, regs, get, getThe, MonadStateOf.get, bind, EStateM.bind, EStateM.get, pure, EStateM.pure,
    ensure_true hg, guardMask_calm h, guardRegs_calm h]
  exact forM_ok fun v _ => needElems_calm h _ _ _

/-! ### The element loop -/

/-- Accruing flags does not change which are enabled (08 R174). -/
theorem traps_accrue (r : Regs) (a b : Nat) : (r.accrue a).traps b = r.traps b := by
  unfold Regs.traps
  congr 2
  ext i hi
  simp only [Regs.accrue_fst, BitVec.getElem_extractLsb', BitVec.getLsbD_or, BitVec.getLsbD_ofNat]
  have : (a % 32).testBit (11 + i) = false :=
    Nat.testBit_lt_two_pow (Nat.lt_of_lt_of_le (Nat.mod_lt a (by decide)) (by
      rw [show (32 : Nat) = 2 ^ 5 from rfl]; exact Nat.pow_le_pow_right (by decide) (by omega)))
  rw [this]
  simp
/-- Registers with no flag enabled never trap (08 R174). -/
theorem traps_untrapped {r : Regs} (h : r.untrapped = true) (fl : Nat) : r.traps fl = false := by
  unfold Regs.untrapped at h
  unfold Regs.traps
  rw [beq_iff_eq] at h
  rw [h]
  simp

/-- A loop that meets no token and no enabled flag writes every element in order and accrues every flag. -/
theorem mouldLoop_ok (f : Nat → Elt) (g : Nat → Nat × Nat) (put : Regs → Nat → Nat → Regs)
    (ht : ∀ r i x b, (put r i x).traps b = r.traps b) : ∀ (is : List Nat) (r : Regs),
    (∀ i ∈ is, f i = .val (g i).1 (g i).2 ∧ r.traps (g i).2 = false) →
    mouldLoop f put is r = (is.foldl (fun r i => (put r i (g i).1).accrue (g i).2) r, none) := by
  intro is
  induction is with
  | nil => intro r _; rfl
  | cons i is ih =>
    intro r h
    obtain ⟨h1, h2⟩ := h i (by simp)
    rw [mouldLoop, h1]
    simp only [h2, Bool.false_eq_true, if_false, List.foldl_cons]
    exact ih _ fun j hj => ⟨(h j (by simp [hj])).1, by rw [traps_accrue, ht]; exact (h j (by simp [hj])).2⟩

/-- A loop stops before the first element that must trap: what comes before it is written (09 R189, 17 R346). -/
theorem mouldLoop_stop (f : Nat → Elt) (g : Nat → Nat × Nat) (put : Regs → Nat → Nat → Regs)
    (ht : ∀ r i x b, (put r i x).traps b = r.traps b) (k : Nat) (after : List Nat) (c : Cause) (v : Word) : ∀ (is : List Nat) (r : Regs),
    (∀ i ∈ is, f i = .val (g i).1 (g i).2 ∧ r.traps (g i).2 = false) →
    (match f k with
      | .token x => c = .verdictOperand ∧ v = BitVec.ofNat 64 x
      | .val _ fl => r.traps fl = true ∧ c = .fp ∧ v = BitVec.ofNat 64 fl) →
    mouldLoop f put (is ++ k :: after) r = (is.foldl (fun r i => (put r i (g i).1).accrue (g i).2) r, some (k, c, v)) := by
  intro is
  induction is with
  | nil =>
    intro r _ hk
    simp only [List.nil_append, mouldLoop, List.foldl_nil]
    split <;> rename_i he <;> rw [he] at hk
    · rw [hk.1, hk.2]
    · rw [if_pos hk.1, hk.2.1, hk.2.2]
  | cons i is ih =>
    intro r h hk
    obtain ⟨h1, h2⟩ := h i (by simp)
    rw [List.cons_append, mouldLoop, h1]
    simp only [h2, Bool.false_eq_true, if_false, List.foldl_cons]
    refine ih _ (fun j hj => ⟨(h j (by simp [hj])).1, by rw [traps_accrue, ht]; exact (h j (by simp [hj])).2⟩) ?_
    split <;> rename_i he <;> rw [he] at hk
    · exact hk
    · exact ⟨by rw [traps_accrue, ht]; exact hk.1, hk.2⟩

/-- A fold that writes elements and accrues flags changes the vector registers and the flags alone, and the flags are accrued in
order. -/
theorem foldl_setElem_frame (d : BitVec 5) (w : Nat) (g : Nat → Nat × Nat) : ∀ (is : List Nat) (r : Regs),
    is.foldl (fun r i => (r.setElem d w i (g i).1).accrue (g i).2) r =
      { r with
        v := (is.foldl (fun r i => (r.setElem d w i (g i).1).accrue (g i).2) r).v
        fst := (is.foldl (fun r i => r.accrue (g i).2) r).fst } := by
  intro is
  induction is with
  | nil => intro r; rfl
  | cons i is ih =>
    intro r
    simp only [List.foldl_cons]
    rw [ih]
    have hf : ∀ (l : List Nat) (a b : Regs), a.fst = b.fst →
        (l.foldl (fun r i => r.accrue (g i).2) a).fst = (l.foldl (fun r i => r.accrue (g i).2) b).fst := by
      intro l
      induction l with
      | nil => intro a b h; exact h
      | cons j l ihl => intro a b h; exact ihl _ _ (by simp [h])
    rw [hf is ((r.setElem d w i (g i).1).accrue (g i).2) (r.accrue (g i).2) rfl]
    rfl

/-- What the fold leaves in the group: the elements of the list are their results, every other element of the group and every register
outside it is kept. -/
theorem foldl_setElem_elem (d : BitVec 5) {w k : Nat} (hw : w ∣ 16384) (hp : 0 < w) (hk : d.toNat + k ≤ 32) (g : Nat → Nat × Nat) :
    ∀ (is : List Nat) (r : Regs), (∀ i ∈ is, i * w < 16384 * k) →
    (∀ j, (is.foldl (fun r i => (r.setElem d w i (g i).1).accrue (g i).2) r).elem d w j =
      if j ∈ is then (g j).1 % 2 ^ w else r.elem d w j) ∧
    ∀ n, n < d.toNat ∨ d.toNat + k ≤ n →
      (is.foldl (fun r i => (r.setElem d w i (g i).1).accrue (g i).2) r).vreg n = r.vreg n := by
  intro is
  induction is with
  | nil => intro r _; exact ⟨fun j => by simp, fun n _ => rfl⟩
  | cons i is ih =>
    intro r h
    have hi : i * w / 16384 < k := Nat.div_lt_of_lt_mul (h i (by simp))
    obtain ⟨h1, h2⟩ := ih ((r.setElem d w i (g i).1).accrue (g i).2) fun j hj => h j (by simp [hj])
    refine ⟨fun j => ?_, fun n hn => ?_⟩
    · rw [List.foldl_cons, h1 j]
      have he : ((r.setElem d w i (g i).1).accrue (g i).2).elem d w j = (r.setElem d w i (g i).1).elem d w j := rfl
      rw [he, elem_setElem r d hw hp i j _ (by omega)]
      by_cases hj : j ∈ is
      · simp [hj]
      · by_cases hji : j = i
        · subst hji; simp [hj]
        · simp [hj, hji]
    · rw [List.foldl_cons, h2 n hn]
      have he : ((r.setElem d w i (g i).1).accrue (g i).2).vreg n = (r.setElem d w i (g i).1).vreg n := rfl
      rw [he, vreg_setElem, if_neg (by omega)]

/-- Zero maps are all that `rezero` changes. -/
theorem rezero_frame (r : Regs) (n : BitVec 5) (w lo hi : Nat) : r.rezero n w lo hi = { r with z := (r.rezero n w lo hi).z } := by
  unfold Regs.rezero
  split
  · rfl
  · generalize List.range' _ _ = l
    induction l generalizing r with
    | nil => rfl
    | cons g l ih => rw [List.foldl_cons, ih]; rfl
/-- Zero maps follow from the vector registers and the zero maps alone. -/
theorem rezero_congr {r q : Regs} (hv : r.v = q.v) (hz : r.z = q.z) (n : BitVec 5) (w lo hi : Nat) :
    (r.rezero n w lo hi).z = (q.rezero n w lo hi).z := by
  unfold Regs.rezero
  split
  · exact hz
  · generalize List.range' _ _ = l
    induction l generalizing r q with
    | nil => exact hz
    | cons g l ih =>
      rw [List.foldl_cons, List.foldl_cons]
      refine ih hv ?_
      unfold Regs.rezeroOne Regs.vreg
      simp only [hv, hz]

/-- The element-wise body whose loop does not stop: the registers that the loop leaves, zero maps rewritten, VSTART 0 and vector state
dirty (09 R189, R192). -/
theorem mouldVec_ok {m : BitVec 4} {d : BitVec 5} {w : Nat} {f : Nat → Elt} {s : State} {q : Regs}
    (h : mouldLoop f (fun r i x => r.setElem d w i x) (s.core.regs.actives m) s.core.regs = (q, none)) :
    mouldVec m d w f s =
      .ok () (s.mapRegs fun r => (q.rezero d w r.vstart.toNat r.vl.toNat).vecDone false false) := by
  simp only [mouldVec, regs, modRegs, modify, modifyGet, MonadStateOf.modifyGet, get, getThe, MonadStateOf.get, bind, EStateM.bind,
    EStateM.get, EStateM.modifyGet, pure, EStateM.pure, h]
  rfl
/-- The element-wise body whose loop stops at element `k` (17 R346). -/
theorem mouldVec_stop {m : BitVec 4} {d : BitVec 5} {w : Nat} {f : Nat → Elt} {s : State} {q : Regs} {k : Nat} {c : Cause} {v : Word}
    (h : mouldLoop f (fun r i x => r.setElem d w i x) (s.core.regs.actives m) s.core.regs = (q, some (k, c, v))) :
    mouldVec m d w f s = .error (.trap c v)
      (s.mapCore fun c => { c with
        regs := { q.rezero d w c.regs.vstart.toNat k with vstart := BitVec.ofNat 64 k }.dirty true false false, halt := none }) := by
  simp only [mouldVec, modCore, regs, modRegs, modify, modifyGet, MonadStateOf.modifyGet, get, getThe, MonadStateOf.get, bind, EStateM.bind,
    EStateM.get, EStateM.modifyGet, pure, EStateM.pure, h, stopAt]
  rfl
/-- The body of a compare whose loop does not stop (09 R191). -/
theorem mouldMask_ok {m d : BitVec 4} {f : Nat → Elt} {s : State} {q : Regs}
    (h : mouldLoop f (fun r i x => (r.setMaskBit d i (x != 0)).dirty false true false) (s.core.regs.actives m) s.core.regs = (q, none)) :
    mouldMask m d f s = .ok () (s.mapRegs fun _ => q.vecDone true false) := by
  simp only [mouldMask, regs, modRegs, modify, modifyGet, MonadStateOf.modifyGet, get, getThe, MonadStateOf.get, bind, EStateM.bind,
    EStateM.get, EStateM.modifyGet, pure, EStateM.pure, h]
  rfl

end Sys2Proof.Machine
end

