-- ==== Sys2Proof/Laws/Access.lean ====
section
/-! SUPPORT. Laws of accesses: what a load or a store of a core comes to when `plainAt` and `agrees` say that it goes through. -/
set_option Elab.async false
namespace Sys2Proof.Machine

/-! ### Translations that agree -/

/-- A translation serves an access as another does. -/
def Tlb.like (h t : Tlb) (va : Word) : Prop := h.sends va = t.sends va ∧ h.pte = t.pte

/-- The translations that the core and its die hold. -/
def State.allHeld (s : State) : List Tlb := s.core.tlb ++ s.dieHeld

/-- What `agrees` says: each access of the list has a leaf, and no translation that is held, or that an access of the list leaves,
serves it otherwise. -/
theorem agrees_iff {s : State} {x : Xl} {as : List (Acc × Word)} : s.agrees x as = true ↔
    ∀ a ∈ as, ∃ t, s.leafAt x a.1 a.2 = some t ∧
      (∀ h ∈ s.allHeld, h.covers x.ten x.asid (vaBits a.2) = true → h.like t a.2) ∧
      ∀ b ∈ as, ∀ h, s.leafAt x b.1 b.2 = some h → h.covers x.ten x.asid (vaBits a.2) = true → h.like t a.2 := by
  unfold State.agrees State.allHeld
  rw [List.all_eq_true]
  refine forall_congr' fun a => forall_congr' fun ha => ?_
  cases hl : s.leafAt x a.1 a.2 with
  | none => simp
  | some t =>
    simp only [List.all_eq_true, List.mem_append (s := s.core.tlb ++ s.dieHeld), List.mem_filterMap, Bool.or_eq_true,
      Bool.not_eq_true', Bool.and_eq_true, beq_iff_eq, Option.some.injEq, exists_eq_left', Tlb.like]
    constructor
    · intro h
      refine ⟨fun u hu hc => (h u (.inl hu)).resolve_left (by simp [hc]), fun b hb u hu hc => ?_⟩
      exact (h u (.inr ⟨b, hb, hu⟩)).resolve_left (by simp [hc])
    · rintro ⟨h1, h2⟩ u (hu | ⟨b, hb, hu⟩)
      · cases hc : u.covers x.ten x.asid (vaBits a.2)
        · exact .inl rfl
        · exact .inr (h1 u hu hc)
      · cases hc : u.covers x.ten x.asid (vaBits a.2)
        · exact .inl rfl
        · exact .inr (h2 b hb u hu hc)

/-- Fewer accesses agree. -/
theorem agrees_mono {s : State} {x : Xl} {as bs : List (Acc × Word)} (h : s.agrees x bs = true) (hs : ∀ a ∈ as, a ∈ bs) :
    s.agrees x as = true := by
  rw [agrees_iff] at h ⊢
  intro a ha
  obtain ⟨t, h1, h2, h3⟩ := h a (hs a ha)
  exact ⟨t, h1, h2, fun b hb => h3 b (hs b hb)⟩

/-- The physical address of a leaf. -/
theorem paOf_leaf {s : State} {x : Xl} {k : Acc} {va : Word} {t : Tlb} (h : s.leafAt x k va = some t) :
    s.paOf x k va = t.sends va := by unfold State.paOf; rw [h]; rfl

/-- Nothing but what a list held, and the new one, is in it after a walk. -/
theorem mem_tlbAfter {n : Nat} {x : Xl} {va : Word} {t h : Tlb} {l : List Tlb} (hm : h ∈ tlbAfter n x va (some t) l) : h = t ∨ h ∈ l := by
  unfold tlbAfter at hm
  rcases List.mem_cons.1 (List.mem_of_mem_take hm) with rfl | hm
  · exact .inl rfl
  · exact .inr (List.mem_of_mem_filter hm)
/-- Nothing but what was held, and the new one, is held after a walk. -/
theorem mem_walked {s : State} {x : Xl} {va : Word} {t h : Tlb} (hm : h ∈ (s.walked x va (some t)).allHeld) : h = t ∨ h ∈ s.allHeld := by
  unfold State.allHeld State.walked at hm
  rcases List.mem_append.1 hm with hm | hm
  · exact (mem_tlbAfter hm).imp_right fun h => List.mem_append.2 (.inl h)
  · unfold State.dieHeld at hm
    rw [toList_getD_vecMod] at hm
    split at hm
    · exact (mem_tlbAfter hm).imp_right fun h => List.mem_append.2 (.inr h)
    · exact .inr (List.mem_append.2 (.inr hm))

/-- One page of an access whose leaf no held translation contradicts: that leaf, which is then held (03 R53, R57). -/
theorem xlPage_leaf {s : State} {x : Xl} {k : Acc} {va : Word} {t : Tlb} (hl : s.leafAt x k va = some t)
    (hh : ∀ h ∈ s.allHeld, h.covers x.ten x.asid (vaBits va) = true → h.like t va) :
    xlPage x k va s = .ok (.ok t) (s.walked x va (some t)) := by
  unfold State.leafAt at hl
  split at hl
  · simp at hl
  rename_i hc
  cases hw : walk s x va with
  | fault => rw [hw] at hl; simp at hl
  | held => rw [hw] at hl; simp at hl
  | poison l => rw [hw] at hl; simp at hl
  | leaf base size pte =>
    rw [hw] at hl
    simp only at hl
    split at hl
    · rename_i hp
      obtain rfl := Option.some.inj hl
      have serves : ∀ l h, (∀ u ∈ l, u ∈ s.allHeld) → h ∈ (tlbServes x k va l).toList → h.same (tlbOf x va base size pte) va = true := by
        intro l h hs hm
        obtain ⟨h1, -⟩ := Option.filter_eq_some_iff.1 (Option.mem_toList.1 hm)
        obtain ⟨k1, k2⟩ := hh h (hs h (List.mem_of_find?_eq_some h1)) (by simpa using List.find?_some h1)
        unfold Tlb.sends at k1
        simp only [Tlb.same, k1, k2, beq_self_eq_true, Bool.and_self]
      have hall : ((tlbServes x k va s.core.tlb).toList ++ (tlbServes x k va s.dieHeld).toList).all
          (fun h => (some (tlbOf x va base size pte)).any fun n => h.same n va) = true := by
        rw [List.all_eq_true]
        intro h hm
        rw [Option.any_some]
        rcases List.mem_append.1 hm with hm | hm
        · exact serves s.core.tlb h (fun u hu => List.mem_append.2 (.inl hu)) hm
        · exact serves s.dieHeld h (fun u hu => List.mem_append.2 (.inr hu)) hm
      simp only [xlPage, hc, Bool.false_eq_true, if_false, bind, EStateM.bind, get, getThe, MonadStateOf.get, EStateM.get, hw, hp, if_true,
        hall, pure, EStateM.pure, List.getElem?_eq_none (Nat.le_refl _), modify, modifyGet, MonadStateOf.modifyGet, EStateM.modifyGet]
    · simp at hl

/-! ### Accesses of one piece -/

/-- What `plainAt` says of an access whose leaf is `t`. -/
theorem plainAt_leaf {s : State} {x : Xl} {k : Acc} {n : Nat} {va : Word} {t : Tlb} (hl : s.leafAt x k va = some t)
    (hp : s.plainAt x k n va = true) : vaBits va + n ≤ t.va + t.size ∧ placeOf (t.sends va) = .mem ∧
      t.pte.extractLsb' 54 2 ≠ 1 ∧ (t.sends va / 2 ^ 48 ≠ 0 ∨ s.hbmServed = true) ∧
      ∀ l ∈ linesOf (t.sends va) n, s.poisoned (64 * l) = false := by
  unfold State.plainAt at hp
  rw [hl] at hp
  simp only [Bool.and_eq_true, decide_eq_true_eq, beq_iff_eq, bne_iff_ne, ne_eq, Bool.or_eq_true, List.all_eq_true,
    Bool.not_eq_true'] at hp
  exact ⟨hp.1.1.1.1, hp.1.1.1.2, hp.1.1.2, hp.1.2, hp.2⟩

/-- A piece of memory of the package is neither a device's nor a window's. -/
theorem mem_piece {s : State} {p : Piece} (hp : p.place = .mem) (hd : p.tlb.pte.extractLsb' 54 2 ≠ 1) :
    p.device = false ∧ p.foreign s.cur = false ∧ p.forbidden s.cur = false ∧ windowKinds s.cur [p] = (false, false, false) := by
  unfold Piece.device Piece.foreign Piece.forbidden windowKinds
  rw [hp]
  refine ⟨by simpa using hd, rfl, rfl, ?_⟩
  simp only [List.flatMap_cons, hp, List.flatMap_nil, List.append_nil, List.any_nil]
/-- What is checked of plain memory after its pages comes out well. -/
theorem planChecks_mem {s : State} {p : Piece} (hp : p.place = .mem) (hd : p.tlb.pte.extractLsb' 54 2 ≠ 1) (k : Acc) (va : Word) (n : Nat)
    (o w : Bool) : planChecks s.cur k va n o w [p] = .ok ⟨[p], false⟩ := by
  obtain ⟨h1, h2, h3, -⟩ := mem_piece (s := s) hp hd
  simp [planChecks, hp, h1, h2, h3]
/-- No state that windows use is asked for. -/
theorem needState_none (w : Word) (s : State) : needState false false false w s = .ok () s := rfl
/-- A plain access is one piece (03 R50, R54). -/
theorem xlAccess_plain {s : State} {x : Xl} {k : Acc} {n : Nat} {va : Word} {t : Tlb} (hl : s.leafAt x k va = some t)
    (hh : ∀ h ∈ s.allHeld, h.covers x.ten x.asid (vaBits va) = true → h.like t va)
    (hn : vaBits va + n ≤ t.va + t.size) : xlAccess x k va n s = .ok (.ok [pieceOf t va n]) (s.walked x va (some t)) := by
  simp only [xlAccess, bind, EStateM.bind, xlPage_leaf hl hh]
  rw [if_pos (by omega)]
  rfl

/-- The plan of a plain access: one piece of memory inside the chunk (03 R53, R54). -/
theorem planAccess_plain {s : State} {k : Acc} {n : Nat} {va : Word} {t : Tlb} (hl : s.leafAt s.core.xl k va = some t)
    (hh : ∀ h ∈ s.allHeld, h.covers s.core.xl.ten s.core.xl.asid (vaBits va) = true → h.like t va)
    (hp : s.plainAt s.core.xl k n va = true) (w : Word) :
    planAccess w k va n s = .ok (.ok ⟨[pieceOf t va n], false⟩) (s.walked s.core.xl va (some t)) := by
  obtain ⟨h1, h2, h3, -, -⟩ := plainAt_leaf hl hp
  have hpl : (pieceOf t va n).place = .mem := h2
  have hd : (pieceOf t va n).tlb.pte.extractLsb' 54 2 ≠ 1 := h3
  simp only [planAccess, bind, EStateM.bind, get, getThe, MonadStateOf.get, EStateM.get, xlAccess_plain hl hh h1,
    (mem_piece (s := s) hpl hd).2.2.2, needState_none, planChecks_mem (s := s) hpl hd, pure, EStateM.pure]

/-- Numbering a list and forgetting the numbers gives the list. -/
theorem zipIdx_fst {α : Type} (l : List α) (n : Nat) {g : α × Nat → Nat × α} (hg : ∀ p, (g p).2 = p.1 := by intro _; rfl) :
    (l.zipIdx n).map (fun p => (g p).2) = l := by
  induction l generalizing n with
  | nil => rfl
  | cons a r ih => rw [List.zipIdx_cons, List.map_cons, ih, hg]

/-- The chunk after a plain read: its read set holds the lines, and the translation is used (14 R279, 03 R61). -/
def Chunk.afterRead (ch : Chunk) (p : Piece) : Chunk := useTlb [p] { ch with rlines := addLines ch.rlines (memLines [p]) }

/-- Memory needs no open register (05 R100). -/
theorem guardWindows_mem {s : State} {p : Piece} (hp : p.place = .mem) (b : Bool) : guardWindows b [p] s = .ok () s := by
  show EStateM.bind _ _ s = _
  simp only [EStateM.bind, hp]
  rfl
/-- What `noUpdates` says. -/
theorem noUpdates_iff {s : State} : s.noUpdates = true ↔ s.core.chunkOr.com = [] := by
  unfold State.noUpdates; simp
/-- Without a pending update no chunk ends before an access (13 R272). -/
theorem endIfCom_none {s : State} (hu : s.core.chunkOr.com = []) (ps : List Piece) : endIfCom ps s = .ok () s := by
  simp only [endIfCom, bind, EStateM.bind, get, getThe, MonadStateOf.get, EStateM.get, hu, List.any_nil, Bool.false_eq_true, if_false]
  rfl
/-- A read of one plain piece gives the bytes that the chunk sees, and leaves its mark in the chunk alone (14 R283). -/
theorem readPlan_plain {s : State} {p : Piece} (hp : p.place = .mem) (hb : p.pa / 2 ^ 48 ≠ 0 ∨ s.hbmServed = true)
    (hq : ∀ l ∈ linesOf p.pa p.n, s.poisoned (64 * l) = false) (hu : s.noUpdates = true) :
    readPlan ⟨[p], false⟩ s = .ok ((List.range p.n).map fun i => s.sees (p.pa + i))
      (s.mapCore fun c => { c with chunk := some (c.chunkOr.afterRead p) }) := by
  have h1 := guardWindows_mem (s := s) hp false
  have h2 : needHbm [p] s = .ok () s := by
    simp only [needHbm, bind, EStateM.bind, get, getThe, MonadStateOf.get, EStateM.get]
    rw [if_neg (by
      rcases hb with h | h
      · simp only [List.any_cons, List.any_nil, beq_eq_false_iff_ne.2 h, Bool.or_self, Bool.false_and]; decide
      · simp [h])]
    rfl
  have h3 : needClean [p] s = .ok () s := by
    simp only [needClean, bind, EStateM.bind, get, getThe, MonadStateOf.get, EStateM.get, List.filter_cons, hp, beq_self_eq_true,
      if_true, List.filter_nil, List.findSome?_cons, List.findSome?_nil]
    have : (linesOf p.pa p.n).find? (fun l => s.poisoned (64 * l)) = none := by
      rw [List.find?_eq_none]; intro l hl; simp [hq l hl]
    rw [this]
    rfl
  have h4 := endIfCom_none (s := s) (noUpdates_iff.1 hu) [p]
  have h5 : ([p].any fun q => q.place == .remote) = false := by simp [hp]
  simp only [readPlan, bind, EStateM.bind, h1, h2, h5, Bool.false_eq_true, if_false, h3, h4, insideRead, modify, modifyGet, MonadStateOf.modifyGet,
    EStateM.modifyGet, get, getThe, MonadStateOf.get, EStateM.get, pure, EStateM.pure]
  congr 1
  simp only [List.flatMap_cons, List.flatMap_nil, List.append_nil, chunkRead, hp, useTlb]
  rfl

/-- A choice of the oracle moves the oracle alone. -/
theorem oracle_ok (u : State) : ∃ k ora, oracle u = .ok k { u with oracle := ora } := by
  cases ho : u.oracle with
  | nil =>
    refine ⟨0, [], ?_⟩
    simp only [oracle, bind, EStateM.bind, get, getThe, MonadStateOf.get, EStateM.get, ho]
    rw [← ho]
    rfl
  | cons k ks => exact ⟨k, ks, by simp only [oracle, bind, EStateM.bind, get, getThe, MonadStateOf.get, EStateM.get, ho]; rfl⟩

/-- The bytes that a scalar load returns: each as it stands, or an old value that a P = 1 store has left; only the oracle moves
(13 R264). -/
theorem lateBytes_ok (late : List (Nat × Byte)) : ∀ (l : List (Nat × Byte)) (u : State),
    ∃ bs ora, lateBytes late l u = .ok bs { u with oracle := ora } ∧ bs.length = l.length ∧
      (∀ k, k < l.length → bs.getD k 0 = (l.getD k (0, 0)).2 ∨ ((l.getD k (0, 0)).1, bs.getD k 0) ∈ late) ∧
      (late = [] → ora = u.oracle ∧ bs = l.map (·.2)) := by
  intro l
  induction l with
  | nil => intro u; exact ⟨[], u.oracle, rfl, rfl, by simp, by simp⟩
  | cons b r ih =>
    intro u
    obtain ⟨a, b⟩ := b
    have one : ∃ c ora, (c = b ∨ (a, c) ∈ late) ∧ (late = [] → ora = u.oracle ∧ c = b) ∧
        ∀ bs t, lateBytes late r { u with oracle := ora } = .ok bs t → lateBytes late ((a, b) :: r) u = .ok (c :: bs) t := by
      by_cases he : ((late.filter (·.1 == a)).map (·.2)).isEmpty
      · refine ⟨b, u.oracle, .inl rfl, fun _ => ⟨rfl, rfl⟩, fun bs t h => ?_⟩
        unfold lateBytes
        simp only [he, if_true, bind, EStateM.bind, pure, EStateM.pure]
        rw [show lateBytes late r u = .ok bs t from h]
      · obtain ⟨k, ora, ho⟩ := oracle_ok u
        have hin : ∀ k, (b :: (late.filter (·.1 == a)).map (·.2)).getD k b = b ∨
            (a, (b :: (late.filter (·.1 == a)).map (·.2)).getD k b) ∈ late := by
          intro k
          cases k with
          | zero => exact .inl rfl
          | succ k =>
            rw [List.getD_cons_succ]
            by_cases hk : k < ((late.filter (·.1 == a)).map (·.2)).length
            · right
              rw [List.getD_eq_getElem _ _ hk, List.getElem_map]
              have hk' : k < (late.filter (·.1 == a)).length := by simpa using hk
              have hm := List.getElem_mem hk'
              obtain ⟨h1, h2⟩ := List.mem_filter.1 hm
              have h3 : (late.filter (·.1 == a))[k].1 = a := beq_iff_eq.1 h2
              rwa [show (a, (late.filter (·.1 == a))[k].2) = (late.filter (·.1 == a))[k] from Prod.ext h3.symm rfl]
            · left; exact List.getD_eq_default _ _ (by omega)
        refine ⟨_, ora, hin (k % (((late.filter (·.1 == a)).map (·.2)).length + 1)), fun h => ?_, fun bs t h => ?_⟩
        · subst h; simp at he
        · conv_lhs => unfold lateBytes
          simp only [he, Bool.false_eq_true, if_false, bind, EStateM.bind, ho, pure, EStateM.pure, h]
    obtain ⟨c, o1, h2, h3, h1⟩ := one
    obtain ⟨bs, o2, i1, i2, i3, i4⟩ := ih { u with oracle := o1 }
    refine ⟨c :: bs, o2, h1 _ _ i1, by simp [i2], ?_, ?_⟩
    · intro k hk
      cases k with
      | zero => exact h2
      | succ k =>
        simp only [List.getD_cons_succ]
        exact i3 k (by simpa using hk)
    · intro h
      obtain ⟨e1, rfl⟩ := h3 h
      obtain ⟨e2, rfl⟩ := i4 h
      exact ⟨e2.trans e1, rfl⟩

/-- A scalar load that goes through gives the bytes at its physical address as the chunk sees them, or old values that P = 1 stores of
the chunk have left there, and leaves a mark in the chunk's read set and among the translations alone (04 R85, 13 R264, 14 R283). -/
theorem memLoad_plain {s : State} {n : Nat} {va : Word} (w : Word) (hw : s.core.wait = none) (hr : s.reaches .load n [va] = true) :
    let pa := s.paOf s.core.xl .load va
    ∃ bs ora tlb die rl us, memLoad w va n s = .ok bs
      { s with
        oracle := ora, dieTlb := die
        core := { s.core with tlb := tlb, chunk := some { s.core.chunkOr with rlines := rl, used := us } } } ∧
      bs.length = n ∧ (∀ k, k < n → bs.getD k 0 = s.sees (pa + k) ∨ (pa + k, bs.getD k 0) ∈ s.core.chunkOr.late) ∧
      (s.core.chunkOr.late = [] → ora = s.oracle ∧ bs = (List.range n).map fun i => s.sees (pa + i)) := by
  intro pa
  unfold State.reaches at hr
  simp only [Bool.and_eq_true, List.map_cons, List.map_nil, List.all_cons, List.all_nil, Bool.and_true] at hr
  obtain ⟨t, hl, hh, -⟩ := agrees_iff.1 hr.1.1 (.load, va) (by simp)
  dsimp only at hl hh
  have hp := hr.1.2
  obtain ⟨-, h2, -, h4, h5⟩ := plainAt_leaf hl hp
  have h0 : (s.core.wait == some Wait.remote) = false := by rw [hw]; rfl
  have hread := readPlan_plain (s := s.walked s.core.xl va (some t)) (p := pieceOf t va n) h2 h4 h5 hr.2
  have hpa : pa = t.sends va := paOf_leaf hl
  have hbytes : bytesAt [pieceOf t va n] ((List.range n).map fun i => s.sees (pa + i)) =
      (List.range n).map fun i => (pa + i, s.sees (pa + i)) := by
    simp only [bytesAt, splitBytes, pieceOf, List.flatMap_cons, List.flatMap_nil, List.append_nil]
    apply List.ext_getElem <;> simp [hpa, Tlb.sends]
  obtain ⟨bs, ora, e1, e2, e3, e4⟩ := lateBytes_ok s.core.chunkOr.late ((List.range n).map fun i => (pa + i, s.sees (pa + i)))
    ((s.walked s.core.xl va (some t)).mapCore fun c => { c with chunk := some (c.chunkOr.afterRead (pieceOf t va n)) })
  refine ⟨bs, ora, (s.walked s.core.xl va (some t)).core.tlb, (s.walked s.core.xl va (some t)).dieTlb,
    addLines s.core.chunkOr.rlines (memLines [pieceOf t va n]), (s.core.chunkOr.afterRead (pieceOf t va n)).used, ?_, ?_, ?_, ?_⟩
  · simp only [memLoad, bind, EStateM.bind, get, getThe, MonadStateOf.get, EStateM.get, h0, Bool.false_eq_true, if_false,
      planAccess_plain hl hh hp, hread]
    have hs : ∀ q, (s.walked s.core.xl va (some t)).sees q = s.sees q := fun _ => rfl
    have hq : (pieceOf t va n).pa = pa := hpa.symm
    have hn : (pieceOf t va n).n = n := rfl
    simp only [hs, hq, hn, hbytes]
    exact e1
  · simpa using e2
  · intro k hk
    have := e3 k (by simpa using hk)
    simpa [List.getD_eq_getElem?_getD, hk] using this
  · intro h
    obtain ⟨q1, q2⟩ := e4 h
    refine ⟨q1, ?_⟩
    rw [q2]
    simp [Function.comp_def]

/-! ### Stores -/

/-- The chunk after a plain write of `bs` at `pa`: the bytes, and their lines in the write set (14 R279, R283). -/
def Chunk.afterWrite (ch : Chunk) (p : Piece) (bs : List Byte) : Chunk := chunkWrite (useTlb [p] ch) p.pa bs

/-- A write of one plain piece changes the chunk alone, when its write set has room (14 R279, R283). -/
theorem writePlan_plain {s : State} {p : Piece} {bs : List Byte} (hp : p.place = .mem)
    (hb : p.pa / 2 ^ 48 ≠ 0 ∨ s.hbmServed = true) (hu : s.noUpdates = true) (hn : bs.length = p.n)
    (hr : s.core.chunkOr.lines + newLines s.core.chunkOr [p] ≤ 4096) :
    writePlan ⟨[p], false⟩ bs s = .ok () (s.mapCore fun c => { c with chunk := some (c.chunkOr.afterWrite p bs) }) := by
  have h1 := guardWindows_mem (s := s) hp true
  have h2 : needHbm [p] s = .ok () s := by
    simp only [needHbm, bind, EStateM.bind, get, getThe, MonadStateOf.get, EStateM.get]
    rw [if_neg (by
      rcases hb with h | h
      · simp only [List.any_cons, List.any_nil, beq_eq_false_iff_ne.2 h, Bool.or_self, Bool.false_and]; decide
      · simp [h])]
    rfl
  have h4 := endIfCom_none (s := s) (noUpdates_iff.1 hu) [p]
  have h6 : lineLimit [p] s = .ok () s := by
    have : overLimit s.core.chunkOr [p] = false := by
      unfold overLimit
      rw [Bool.and_eq_false_iff]
      exact .inl (decide_eq_false (by omega))
    simp only [lineLimit, bind, EStateM.bind, get, getThe, MonadStateOf.get, EStateM.get, this, Bool.false_eq_true, if_false]
    rfl
  simp only [writePlan, bind, EStateM.bind, h1, h2, Bool.false_eq_true, if_false, h4, h6, modify, modifyGet, MonadStateOf.modifyGet,
    EStateM.modifyGet, insideWrite, splitBytes, List.take_of_length_le (Nat.le_of_eq hn), List.foldl_cons, List.foldl_nil]
  congr 1
  simp only [pieceWrite, hp]
  rfl

/-- A scalar store that overtakes P = 1 loads changes vector registers and their zero maps alone (07 R150). -/
theorem overtake_ok (ws : List (Nat × Byte)) : ∀ (ls : List Lend) (u : State),
    ∃ v z ora, overtake ws ls u = .ok () { u with
        oracle := ora, core := { u.core with regs := { u.core.regs with v := v, z := z } } } ∧
      (ls = [] → v = u.core.regs.v ∧ z = u.core.regs.z ∧ ora = u.oracle) := by
  intro ls
  induction ls with
  | nil => intro u; exact ⟨u.core.regs.v, u.core.regs.z, u.oracle, rfl, fun _ => ⟨rfl, rfl, rfl⟩⟩
  | cons l ls ih =>
    intro u
    have one : ∃ v z ora, ∀ t, overtake ws ls { u with
        oracle := ora, core := { u.core with regs := { u.core.regs with v := v, z := z } } } = .ok () t →
        overtake ws (l :: ls) u = .ok () t := by
      cases hf : ws.find? (·.1 == l.pa) with
      | none => exact ⟨u.core.regs.v, u.core.regs.z, u.oracle, fun t h => by
          conv_lhs => unfold overtake
          simp only [hf]; exact h⟩
      | some b =>
        obtain ⟨k, ora, ho⟩ := oracle_ok u
        by_cases hk : k = 0
        · exact ⟨u.core.regs.v, u.core.regs.z, ora, fun t h => by
            conv_lhs => unfold overtake
            simp only [hf, bind, EStateM.bind, ho, hk, ne_eq, not_true_eq_false, if_false]; exact h⟩
        · exact ⟨_, _, ora, fun t h => by
            conv_lhs => unfold overtake
            simp only [hf, bind, EStateM.bind, ho, hk, ne_eq, not_false_eq_true, if_true]; exact h⟩
    obtain ⟨v, z, o1, h1⟩ := one
    obtain ⟨v2, z2, o2, i1, -⟩ := ih { u with oracle := o1, core := { u.core with regs := { u.core.regs with v := v, z := z } } }
    exact ⟨v2, z2, o2, h1 _ i1, fun h => by simp at h⟩

/-- A scalar store that goes through writes its bytes in the chunk at its physical address, and changes nothing else but the
translations held and, where it overtakes P = 1 loads of the chunk, vector registers (04 R87, 07 R150, 14 R283). -/
theorem memStore_plain {s : State} {va : Word} {bs : List Byte} (w : Word) (hr : s.reaches .store bs.length [va] = true)
    (hm : s.core.chunkOr.lines + (linesOf (s.paOf s.core.xl .store va) bs.length).length ≤ 4096) :
    ∃ tlb die us v z ora, memStore w va bs s = .ok () { s with
      oracle := ora, dieTlb := die
      core := { s.core with
        regs := { s.core.regs with v := v, z := z }, tlb := tlb
        chunk := some { chunkWrite s.core.chunkOr (s.paOf s.core.xl .store va) bs with used := us } } } ∧
      (s.core.chunkOr.lends = [] → v = s.core.regs.v ∧ z = s.core.regs.z ∧ ora = s.oracle) := by
  unfold State.reaches at hr
  simp only [Bool.and_eq_true, List.map_cons, List.map_nil, List.all_cons, List.all_nil, Bool.and_true] at hr
  obtain ⟨t, hl, hh, -⟩ := agrees_iff.1 hr.1.1 (.store, va) (by simp)
  dsimp only at hl hh
  have hp := hr.1.2
  obtain ⟨-, h2, -, h4, -⟩ := plainAt_leaf hl hp
  obtain ⟨v, z, ora, e1, e2⟩ := overtake_ok (bytesAt [pieceOf t va bs.length] bs) s.core.chunkOr.lends
    ((s.walked s.core.xl va (some t)).mapCore fun c =>
      { c with chunk := some (c.chunkOr.afterWrite (pieceOf t va bs.length) bs) })
  refine ⟨(s.walked s.core.xl va (some t)).core.tlb, (s.walked s.core.xl va (some t)).dieTlb,
    (useTlb [pieceOf t va bs.length] s.core.chunkOr).used, v, z, ora, ?_, e2⟩
  rw [paOf_leaf hl] at hm ⊢
  have hnew : newLines s.core.chunkOr [pieceOf t va bs.length] ≤ (linesOf (t.sends va) bs.length).length := by
    have hpl : (pieceOf t va bs.length).place = .mem := h2
    unfold newLines memLines
    simp only [List.filter_cons, hpl, beq_self_eq_true, if_true, List.filter_nil, List.flatMap_cons, List.flatMap_nil, List.append_nil,
      List.length_nil, Nat.add_zero]
    exact List.length_filter_le _ _
  have hwr := writePlan_plain (s := s.walked s.core.xl va (some t)) (p := pieceOf t va bs.length)
    (bs := bs) h2 h4 hr.2 rfl (Nat.le_trans (Nat.add_le_add_left hnew _) hm)
  simp only [memStore, bind, EStateM.bind, planAccess_plain hl hh hp, hwr, Bool.false_eq_true, if_false, get, getThe, MonadStateOf.get,
    EStateM.get]
  exact e1

/-- What the chunk sees after bytes are written in it (14 R283). -/
theorem sees_chunkWrite (s : State) (pa q : Nat) (bs : List Byte) (us : List Tlb) (tlb : List Tlb) (die : Vector (List Tlb) 3) :
    State.sees { s with
      dieTlb := die, core := { s.core with tlb := tlb, chunk := some { chunkWrite s.core.chunkOr pa bs with used := us } } } q =
      if pa ≤ q ∧ q < pa + bs.length then bs.getD (q - pa) 0 else s.sees q := by
  have key : ∀ (bs : List Byte) (n : Nat) (m : List Host.Cell),
      cellFind ((bs.zipIdx n).foldl (fun m b => cellPut m (pa + b.2) b.1) m) q =
        if pa + n ≤ q ∧ q < pa + n + bs.length then some (bs.getD (q - (pa + n)) 0) else cellFind m q := by
    intro bs
    induction bs with
    | nil => intro n m; simp
    | cons b r ih =>
      intro n m
      rw [List.zipIdx_cons, List.foldl_cons, ih, cellFind_cellPut]
      by_cases h0 : q = pa + n
      · subst h0; simp
      · rw [if_neg h0]
        by_cases h1 : pa + (n + 1) ≤ q ∧ q < pa + (n + 1) + r.length
        · rw [if_pos h1, if_pos (by simp only [List.length_cons]; omega), show q - (pa + n) = q - (pa + (n + 1)) + 1 by omega,
            List.getD_cons_succ]
        · rw [if_neg h1, if_neg (by simp only [List.length_cons]; omega)]
  have := key bs 0 s.core.chunkOr.wr
  rw [Nat.add_zero] at this
  show (cellFind (bs.zipIdx.foldl (fun m b => cellPut m (pa + b.2) b.1) s.core.chunkOr.wr) q).getD (s.home q) = _
  rw [this]
  split <;> rfl

end Sys2Proof.Machine
end

