-- ==== Sys2Proof/Laws/Inv.lean ====
section
/-! SUPPORT. What keeps the invariant: updates of the state, chunks, squashes, commits and traps, and bodies put together from
actions that keep it. -/
set_option Elab.async false
namespace Sys2Proof.Machine

/-! ### Updates -/

/-- The invariant is about the focused core's number, memory and the cores alone. -/
theorem inv_congr {s t : State} (h : s.Inv) (hc : t.cur = s.cur) (hm : t.mem = s.mem) (hk : t.core = s.core)
    (ho : t.others = s.others) : t.Inv := by
  obtain ⟨h1, h2, h3, h4, h5⟩ := h
  exact ⟨hc ▸ h1, hm ▸ h2, hk ▸ h3, ho ▸ h4, by rw [ho, hc]; exact h5⟩
/-- A sound core in the place of the focused one. -/
theorem inv_core {s : State} (h : s.Inv) {c : Core} (hc : c.sound = true) : ({ s with core := c } : State).Inv :=
  ⟨h.1, h.2.1, hc, h.2.2.2.1, h.2.2.2.2⟩
/-- Memory in canonical form in the place of memory. -/
theorem inv_mem {s : State} (h : s.Inv) {m : Mem} (hm : m.wf = true) : ({ s with mem := m } : State).Inv :=
  ⟨h.1, hm, h.2.2.1, h.2.2.2.1, h.2.2.2.2⟩
/-- What a sound core is. -/
theorem sound_iff {c : Core} : c.sound = true ↔ c.regs.lenOk = true ∧ c.scratch.wf = true ∧
    ∀ ch, c.chunk = some ch → ch.start.lenOk = true ∧ ch.ordered = true := by
  unfold Core.sound
  cases c.chunk <;> simp [and_assoc]
/-- VL and VTYPE alone decide whether VL is within VLMAX (07 R136). -/
theorem lenOk_congr {r q : Regs} (h : r.lenOk = true) (hl : q.vl = r.vl) (ht : q.vtype = r.vtype) : q.lenOk = true := by
  unfold Regs.lenOk Regs.vlmax Regs.vill Regs.grp Regs.fmt at h ⊢
  rw [hl, ht]; exact h
/-- The focused core's registers changed, VL within VLMAX. -/
theorem inv_mapRegs {s : State} (h : s.Inv) {f : Regs → Regs} (hf : (f s.core.regs).lenOk = true) : (s.mapRegs f).Inv :=
  inv_core h (sound_iff.2 ⟨hf, (sound_iff.1 h.2.2.1).2⟩)
/-- The focused core's registers changed, VL and VTYPE kept. -/
theorem inv_mapRegs_keep {s : State} (h : s.Inv) {f : Regs → Regs} (hl : (f s.core.regs).vl = s.core.regs.vl)
    (ht : (f s.core.regs).vtype = s.core.regs.vtype) : (s.mapRegs f).Inv :=
  inv_mapRegs h (lenOk_congr (sound_iff.1 h.2.2.1).1 hl ht)
/-- The focused core changed, but for its registers, scratchpad and chunk. -/
theorem inv_mapCore {s : State} (h : s.Inv) {f : Core → Core} (hr : (f s.core).regs = s.core.regs)
    (hs : (f s.core).scratch = s.core.scratch) (hc : (f s.core).chunk = s.core.chunk) : (s.mapCore f).Inv := by
  refine inv_core h (sound_iff.2 ?_)
  rw [hr, hs, hc]
  exact sound_iff.1 h.2.2.1
/-- Bytes written at their homes. -/
theorem inv_homeWrite {s : State} (h : s.Inv) (pa : Nat) (bs : List Byte) : (s.homeWrite pa bs).Inv :=
  inv_mem h (homeWrite_wf h.2.1 pa bs)
/-- The instruction retires. -/
theorem inv_retireAt {s : State} (h : s.Inv) (v : Word) : (s.retireAt v).Inv :=
  inv_core h (sound_iff.2 ⟨lenOk_congr (sound_iff.1 h.2.2.1).1 rfl rfl, (sound_iff.1 h.2.2.1).2⟩)
/-- The instruction waits. -/
theorem inv_waiting {s : State} (h : s.Inv) (w : Wait) : (s.waiting w).Inv := inv_mapCore h rfl rfl rfl
/-- The level of the clock settled. -/
theorem inv_settleClock {s : State} (h : s.Inv) : s.settleClock.Inv := inv_congr h (by simp) (by simp) (by simp) (by simp)

/-! ### The other cores -/

/-- The keys of a list with one put in rise. -/
theorem keyPut_sorted {α : Type} {l : List (Nat × α)} (h : (l.map (·.1)).Pairwise (· < ·)) (n : Nat) (c : α) :
    ((keyPut l n c).map (·.1)).Pairwise (· < ·) ∧ ∀ p ∈ keyPut l n c, p = (n, c) ∨ p ∈ l := by
  induction l with
  | nil => simp [keyPut]
  | cons p r ih =>
    obtain ⟨k, d⟩ := p
    simp only [List.map_cons, List.pairwise_cons] at h
    obtain ⟨h1, h2⟩ := ih h.2
    simp only [keyPut]
    split
    · refine ⟨?_, by simp⟩
      simp only [List.map_cons, List.pairwise_cons]
      refine ⟨?_, h⟩
      intro a ha
      rcases List.mem_cons.1 ha with rfl | ha
      · assumption
      · exact Nat.lt_trans ‹n < k› (h.1 a ha)
    · split
      · subst_vars
        refine ⟨?_, fun p hp => ?_⟩
        · simp only [List.map_cons, List.pairwise_cons]; exact h
        · rcases List.mem_cons.1 hp with rfl | hp
          · exact .inl rfl
          · exact .inr (List.mem_cons_of_mem _ hp)
      · refine ⟨?_, fun p hp => ?_⟩
        · simp only [List.map_cons, List.pairwise_cons]
          refine ⟨fun a ha => ?_, h1⟩
          obtain ⟨p, hp, rfl⟩ := List.mem_map.1 ha
          rcases h2 p hp with rfl | hp
          · show k < n; omega
          · exact h.1 _ (List.mem_map_of_mem hp)
        · rcases List.mem_cons.1 hp with rfl | hp
          · exact .inr (by simp)
          · exact (h2 p hp).imp_right (List.mem_cons_of_mem _)

/-- A core in its reset state is sound. -/
theorem sound_reset : Core.reset.sound = true := by decide +kernel
/-- Every core of a state in the invariant is sound. -/
theorem coreAt_sound {s : State} (h : s.Inv) (n : Nat) : (s.coreAt n).sound = true := by
  unfold State.coreAt
  split
  · exact h.2.2.1
  · cases hf : s.others.find? fun p => p.1 == n with
    | none => exact sound_reset
    | some p => exact (h.2.2.2.2 p (List.mem_of_find?_eq_some hf)).2
/-- A sound core put at its number. -/
theorem inv_setCoreAt {s : State} (h : s.Inv) (n : Nat) {c : Core} (hc : c.sound = true) : (s.setCoreAt n c).Inv := by
  unfold State.setCoreAt
  split
  · exact inv_core h hc
  · obtain ⟨h1, h2⟩ := keyPut_sorted h.2.2.2.1 n c
    refine ⟨h.1, h.2.1, h.2.2.1, h1, fun p hp => ?_⟩
    rcases h2 p hp with rfl | hp
    · exact ⟨‹_›, hc⟩
    · exact h.2.2.2.2 p hp
/-- Another core of the package focused. -/
theorem inv_focus {s : State} (h : s.Inv) {n : Nat} (hn : n < 144) : (s.focus n).Inv := by
  unfold State.focus
  split
  · exact h
  · obtain ⟨h1, h2⟩ := keyPut_sorted h.2.2.2.1 s.cur s.core
    refine ⟨hn, h.2.1, coreAt_sound h n, ?_, fun p hp => ?_⟩
    · exact h1.sublist (List.Sublist.map _ List.filter_sublist)
    · obtain ⟨hp, hk⟩ := List.mem_filter.1 hp
      refine ⟨by simpa using hk, ?_⟩
      rcases h2 p hp with rfl | hp
      · exact h.2.2.1
      · exact (h.2.2.2.2 p hp).2

/-! ### Records, squashes, commits and traps -/

/-- The ring of a unit changed: the recorder alone changes. -/
theorem mapRing_frame (s : State) (u : Nat) (f : Ring → Ring) : s.mapRing u f = { s with recd := (s.mapRing u f).recd } := rfl
/-- A record put into a ring changes the recorder alone. -/
theorem push_frame (u : Nat) (k : BitVec 6) (t : BitVec 16) (p : Word) (s : State) :
    push u k t p s = { s with recd := (push u k t p s).recd } := by
  unfold push
  simp only
  split
  · rfl
  · exact mapRing_frame _ _ _
/-- So does the CSNHI record before it. -/
theorem pushHi_frame (u : Nat) (t : BitVec 16) (c : Word) (s : State) : pushHi u t c s = { s with recd := (pushHi u t c s).recd } := by
  unfold pushHi
  simp only
  split
  · rfl
  · rw [mapRing_frame, push_frame]
/-- A unit that a freeze wave reaches changes the recorder alone. -/
theorem freezeUnit_frame (s : State) (u : Nat) : freezeUnit s u = { s with recd := (freezeUnit s u).recd } := by
  unfold freezeUnit
  simp only
  split
  · rfl
  · split
    · rw [mapRing_frame, push_frame]
    · rw [mapRing_frame, push_frame, pushHi_frame]
/-- So does a wave that comes nearer. -/
theorem tick_frame (u : Nat) (s : State) : tick u s = { s with recd := (tick u s).recd } := by
  unfold tick
  split
  · rfl
  · split
    · exact freezeUnit_frame _ _
    · exact mapRing_frame _ _ _
/-- A record changes the recorder alone. -/
theorem record_frame (u : Nat) (k : BitVec 6) (t : BitVec 16) (p : Word) (s : State) :
    record u k t p s = { s with recd := (record u k t p s).recd } := by
  unfold record
  rw [tick_frame, push_frame]
/-- The CSNHI record before one that carries a CSN changes the recorder alone. -/
theorem recordHi_frame (u : Nat) (t : BitVec 16) (c : Word) (s : State) : recordHi u t c s = { s with recd := (recordHi u t c s).recd } := by
  unfold recordHi
  split
  · rfl
  · rw [tick_frame, pushHi_frame]
/-- A record that carries a CSN changes the recorder alone. -/
theorem recordCsn_frame (u : Nat) (k : BitVec 6) (t : BitVec 16) (hi : BitVec 32) (c : Word) (s : State) :
    recordCsn u k t hi c s = { s with recd := (recordCsn u k t hi c s).recd } := by
  unfold recordCsn
  rw [record_frame, recordHi_frame]
/-- A COMMIT record changes the recorder alone. -/
theorem recordCommit_frame (u : Nat) (t : BitVec 16) (hi : BitVec 32) (c : Word) (s : State) :
    recordCommit u t hi c s = { s with recd := (recordCommit u t hi c s).recd } := by
  unfold recordCommit
  simp only
  split
  · exact recordHi_frame _ _ _ _
  · rw [tick_frame, mapRing_frame, push_frame, recordHi_frame]
/-- A record keeps the invariant. -/
theorem inv_record {s : State} (h : s.Inv) (u : Nat) (k : BitVec 6) (t : BitVec 16) (p : Word) : (record u k t p s).Inv := by
  rw [record_frame]; exact h
theorem inv_recordCur {s : State} (h : s.Inv) (k : BitVec 6) (p : Word) : (recordCur k p s).Inv := inv_record h _ _ _ _
theorem inv_recordCsn {s : State} (h : s.Inv) (u : Nat) (k : BitVec 6) (t : BitVec 16) (hi : BitVec 32) (c : Word) :
    (recordCsn u k t hi c s).Inv := by
  rw [recordCsn_frame]; exact h
theorem inv_recordCommit {s : State} (h : s.Inv) (u : Nat) (t : BitVec 16) (hi : BitVec 32) (c : Word) : (recordCommit u t hi c s).Inv := by
  rw [recordCommit_frame]; exact h
/-- Changes of the recorder alone, one after another, change the recorder alone. -/
theorem foldl_recd {α : Type} (f : State → α → State) (hf : ∀ s u, f s u = { s with recd := (f s u).recd }) :
    ∀ (l : List α) (s : State), l.foldl f s = { s with recd := (l.foldl f s).recd }
  | [], _ => rfl
  | u :: l, s => by rw [List.foldl_cons, foldl_recd f hf l, hf s u]
/-- A freeze changes the recorder alone. -/
theorem freeze_frame (o : Nat) (k : BitVec 4) (t : BitVec 16) (s : State) : freeze o k t s = { s with recd := (freeze o k t s).recd } := by
  unfold freeze
  split
  · rfl
  · simp only
    rw [foldl_recd _ fun s u => by
      split
      · exact freezeUnit_frame _ _
      · split
        · exact freezeUnit_frame _ _
        · exact mapRing_frame _ _ _]
theorem inv_freeze {s : State} (h : s.Inv) (o : Nat) (k : BitVec 4) (t : BitVec 16) : (freeze o k t s).Inv := by
  rw [freeze_frame]; exact h

/-- A squashed core is sound: its registers are those of the chunk's start (14 R287). -/
theorem sound_squashed {c : Core} (h : c.sound = true) : c.squashed.sound = true := by
  unfold Core.squashed
  cases hc : c.chunk with
  | none => exact h
  | some ch =>
    obtain ⟨-, h2, h3⟩ := sound_iff.1 h
    have h4 : (c.restored ch.start).lenOk = true := by
      refine lenOk_congr (h3 ch hc).1 ?_ ?_
      · unfold Core.restored; rfl
      · unfold Core.restored; rfl
    exact sound_iff.2 ⟨h4, (foldl_memSet (fun p : Host.Cell => p.1) (·.2) ch.undo h2).1, fun _ e => by simp at e⟩
/-- A squash keeps the invariant. -/
theorem inv_squashAt {s : State} (h : s.Inv) (src : BitVec 2) (csn : Word) (n : Nat) : (squashAt src csn s n).Inv := by
  unfold squashAt
  simp only
  split
  · exact h
  · exact inv_recordCsn (inv_setCoreAt h n (sound_squashed (coreAt_sound h n))) _ _ _ _ _
/-- Squashes keep the invariant. -/
theorem inv_squashes {s : State} (h : s.Inv) (src : BitVec 2) (csn : Word) (l : List Nat) : (l.foldl (squashAt src csn) s).Inv := by
  induction l generalizing s with
  | nil => exact h
  | cons n l ih => exact ih (inv_squashAt h src csn n)
theorem inv_squashOthers {s : State} (h : s.Inv) (src : BitVec 2) (csn : Word) (hit : Nat → Core → Chunk → Bool) :
    (squashOthers src csn hit s).Inv := inv_squashes h src csn _
/-- Taking a CSN keeps the invariant (14 R284). -/
theorem inv_takeCsn {s : State} (h : s.Inv) (k : BitVec 4) (n : Nat) (wl cl : List Nat) : (takeCsn k n wl cl s).Inv := by
  unfold takeCsn
  simp only
  have h1 : ({ s with
      csn := s.csn + 1, grants := s.grants.filter (· != s.cur)
      core := { s.core with csn := s.csn + 1, squashes := 0, reserved := false } } : State).Inv :=
    inv_core (s := { s with csn := s.csn + 1, grants := s.grants.filter (· != s.cur) }) h (sound_iff.2 (sound_iff.1 h.2.2.1))
  have h2 := inv_squashOthers h1 0 (s.csn + 1) fun _ _ ch => ch.hitBy wl cl
  generalize squashOthers _ _ _ _ = s2 at h2 ⊢
  exact inv_recordCommit h2 _ _ _ _
/-- The writes of a chunk pass to their homes in canonical form (14 R284). -/
theorem inv_applyChunk {s : State} (h : s.Inv) (ch : Chunk) : (applyChunk ch s).Inv := by
  unfold applyChunk
  have h1 : ({ s with mem := ch.wr.foldl (fun m p => s.homeSet m p.1 p.2) s.mem } : State).Inv :=
    inv_mem h (foldl_homeSet_wf s (fun p : Host.Cell => p.1) (·.2) ch.wr h.2.1)
  have hf : ∀ (l : List ComUpd) (s : State), s.Inv → (l.foldl applyCom s).Inv := by
    intro l
    induction l with
    | nil => intro s h; exact h
    | cons u l ih => intro s h; exact ih _ (inv_homeWrite h _ _)
  exact hf _ _ h1
/-- A chunk that ends keeps the invariant, and leaves no chunk (14 R279, R284). -/
theorem inv_endChunk {s t : State} (h : s.Inv) {k : BitVec 4} (he : endChunk k s = some t) : t.Inv ∧ t.core.chunk = none := by
  unfold endChunk at he
  split at he
  · obtain rfl := Option.some.inj he
    exact ⟨h, ‹_›⟩
  · split at he
    · obtain rfl := Option.some.inj he
      obtain ⟨h1, h2, -⟩ := sound_iff.1 h.2.2.1
      exact ⟨inv_core h (sound_iff.2 ⟨h1, h2, fun _ e => by simp at e⟩), rfl⟩
    · split at he
      · simp at he
      · obtain rfl := Option.some.inj he
        rename_i ch _ _ _
        have h1 := inv_applyChunk (inv_takeCsn h k ch.lines ch.wlines ch.comLines) ch
        obtain ⟨h2, h3, -⟩ := sound_iff.1 h1.2.2.1
        exact ⟨inv_core h1 (sound_iff.2 ⟨h2, h3, fun _ e => by simp at e⟩), rfl⟩
/-- A singleton chunk keeps the invariant. -/
theorem inv_commitSingle {s t : State} (h : s.Inv) {k : BitVec 4} {wl : List Nat} (he : commitSingle k wl s = some t) : t.Inv := by
  unfold commitSingle at he
  split at he
  · simp at he
  · obtain rfl := Option.some.inj he
    exact inv_takeCsn h _ _ _ _
/-- The records of a trap change the recorder alone. -/
theorem trapRecords_frame (c : Cause) (a : Bool) (e v : Word) (s : State) :
    trapRecords c a e v s = { s with recd := (trapRecords c a e v s).recd } := by
  unfold trapRecords recordCur
  simp only
  split
  · rw [freeze_frame, record_frame, record_frame, record_frame]
  · rw [record_frame, record_frame]
/-- A trap keeps the invariant (17 R338). -/
theorem inv_takeTrap {s : State} (h : s.Inv) (c : Cause) (a : Bool) (v : Word) (q : Option (BitVec 32)) : (takeTrap c a v q s).Inv := by
  unfold takeTrap
  split
  · exact inv_waiting h _
  · rename_i s1 he
    have h1 := (inv_endChunk h he).1
    simp only
    rw [trapRecords_frame]
    obtain ⟨h2, h3, -⟩ := sound_iff.1 h1.2.2.1
    exact inv_core h1 (sound_iff.2 ⟨lenOk_congr h2 rfl rfl, h3, fun _ e => by simp [Core.noChunk] at e⟩)
/-- An event keeps the invariant, when its change to the core does (17 R339). -/
theorem inv_takeEvent {s : State} (h : s.Inv) (c : Cause) (v : Word) {f : Core → Core} (hf : (s.mapCore f).Inv) :
    (takeEvent c v f s).Inv := by
  unfold takeEvent
  split
  · exact inv_waiting h _
  · exact inv_takeTrap hf _ _ _ _
/-- A PREEMPT keeps the invariant. -/
theorem inv_takePreempt {s : State} (h : s.Inv) : (takePreempt s).Inv := inv_takeEvent h _ _ (inv_mapCore h rfl rfl rfl)
/-- A trap of a VQ instruction keeps the invariant. -/
theorem inv_vecTrap {s : State} (h : s.Inv) (c : Cause) (v : Word) (u : Bool) : (vecTrap c v u s).Inv := by
  unfold vecTrap
  simp only
  split
  · exact inv_waiting h _
  · refine inv_takeTrap ?_ _ _ _ _
    split
    · exact inv_mapRegs_keep h rfl rfl
    · exact h

/-! ### Bodies -/

/-- A body keeps the invariant, however it ends. -/
def Keeps {α : Type} (m : M α) : Prop := ∀ s, s.Inv → match m s with
  | .ok _ t => t.Inv
  | .error _ t => t.Inv

theorem Keeps.ok {α : Type} {m : M α} (h : Keeps m) {s t : State} (hs : s.Inv) {a : α} (e : m s = .ok a t) : t.Inv := by
  have := h s hs; rw [e] at this; exact this
theorem Keeps.error {α : Type} {m : M α} (h : Keeps m) {s t : State} (hs : s.Inv) {a : Stop} (e : m s = .error a t) : t.Inv := by
  have := h s hs; rw [e] at this; exact this

theorem keeps_pure {α : Type} (a : α) : Keeps (pure a : M α) := fun _ h => h
theorem keeps_get : Keeps (get : M State) := fun _ h => h
theorem keeps_regs : Keeps regs := fun _ h => h
theorem keeps_raise {α : Type} (c : Cause) (v : Word) : Keeps (raise c v : M α) := fun _ h => h
theorem keeps_await {α : Type} (w : Wait) : Keeps (await w : M α) := fun _ h => h
theorem keeps_ensure (b : Bool) (c : Cause) (v : Word) : Keeps (ensure b c v) := by
  unfold ensure; split
  · exact keeps_pure _
  · exact keeps_raise _ _
/-- One action after another. -/
theorem keeps_bind {α β : Type} {m : M α} {f : α → M β} (hm : Keeps m) (hf : ∀ a, Keeps (f a)) : Keeps (m >>= f) := by
  intro s h
  have := hm s h
  show match EStateM.bind m f s with
    | .ok _ t => t.Inv
    | .error _ t => t.Inv
  unfold EStateM.bind
  cases e : m s with
  | ok a t => rw [e] at this; exact hf a t this
  | error a t => rw [e] at this; exact this
/-- An action on a state in the invariant, which it reads. -/
theorem keeps_get_bind {β : Type} {f : State → M β} (hf : ∀ a : State, a.Inv → ∀ s, s = a → match f a s with
    | .ok _ t => t.Inv
    | .error _ t => t.Inv) : Keeps (get >>= f) := fun s h => hf s h s rfl
theorem keeps_modify {f : State → State} (hf : ∀ s, s.Inv → (f s).Inv) : Keeps (modify f : M PUnit) := fun s h => hf s h
theorem keeps_modRegs {f : Regs → Regs} (hl : ∀ r, (f r).vl = r.vl) (ht : ∀ r, (f r).vtype = r.vtype) : Keeps (modRegs f) :=
  fun _ h => inv_mapRegs_keep h (hl _) (ht _)
theorem keeps_modCore {f : Core → Core} (hr : ∀ c, (f c).regs = c.regs) (hs : ∀ c, (f c).scratch = c.scratch)
    (hc : ∀ c, (f c).chunk = c.chunk) : Keeps (modCore f) := fun _ h => inv_mapCore h (hr _) (hs _) (hc _)
theorem keeps_putX (d : BitVec 5) (v : Word) : Keeps (putX d v) := keeps_modRegs (by simp) (by simp)
theorem keeps_ite {α : Type} {c : Prop} [Decidable c] {a b : M α} (ha : Keeps a) (hb : Keeps b) : Keeps (if c then a else b) := by
  split
  · exact ha
  · exact hb
/-- A list of actions. -/
theorem keeps_forM {α : Type} {f : α → M Unit} (hf : ∀ a, Keeps (f a)) : ∀ l : List α, Keeps (l.forM f)
  | [] => keeps_pure _
  | a :: l => keeps_bind (hf a) fun _ => keeps_forM hf l
theorem keeps_endChunkM (k : BitVec 4) : Keeps (endChunkM k) := by
  intro s h
  unfold endChunkM
  simp only [bind, EStateM.bind, get, getThe, MonadStateOf.get, EStateM.get]
  cases e : endChunk k s with
  | none => exact h
  | some t => exact (inv_endChunk h e).1
theorem keeps_singleM (k : BitVec 4) (wl : List Nat) : Keeps (singleM k wl) := by
  intro s h
  unfold singleM
  simp only [bind, EStateM.bind, get, getThe, MonadStateOf.get, EStateM.get]
  cases e : commitSingle k wl s with
  | none => exact h
  | some t => exact inv_commitSingle h e
theorem keeps_endAfter (k : BitVec 4) : Keeps (endAfter k) := keeps_modCore (fun _ => rfl) (fun _ => rfl) (fun _ => rfl)
theorem keeps_oracle : Keeps oracle := by
  intro s h
  unfold oracle
  simp only [bind, EStateM.bind, get, getThe, MonadStateOf.get, EStateM.get]
  cases s.oracle with
  | nil => exact h
  | cons k r => exact h

/-- A scalar instruction whose body keeps the invariant keeps it. -/
theorem inv_run {m : M Unit} (hm : Keeps m) {s t : State} (h : s.Inv) (e : run m s = .next t) : t.Inv := by
  rcases run_cases m s with ⟨u, hu, he⟩ | ⟨c, v, u, hu, he⟩ | ⟨w, u, hu, he⟩ | ⟨u, hu, he⟩ <;> rw [he] at e <;> cases e
  · exact inv_retireAt (hm.ok h hu) _
  · exact inv_takeTrap (hm.error h hu) _ _ _ _
  · exact inv_waiting (hm.error h hu) _
  · exact inv_takePreempt (hm.error h hu)
/-- A change of the chunk's list of loads that may be overtaken keeps the invariant. -/
theorem inv_dropLends {s : State} (h : s.Inv) : s.dropLends.Inv := by
  unfold State.dropLends
  split
  · rename_i ch hc
    split
    · exact h
    · obtain ⟨h1, h2, h3⟩ := sound_iff.1 h.2.2.1
      exact inv_core h (sound_iff.2 ⟨h1, h2, fun c e => by obtain rfl := Option.some.inj e; exact h3 ch hc⟩)
  · exact h
/-- Where a load stands is no part of the invariant. -/
theorem inv_noHalt {s : State} (h : s.Inv) : s.noHalt.Inv := inv_mapCore h rfl rfl rfl
/-- The body of a VQ instruction that keeps the invariant. -/
theorem inv_vecBody {m : M Unit} (hm : Keeps m) {s t : State} (h : s.Inv) (he : vecBody m s = .next t) : t.Inv := by
  have hd := inv_dropLends h
  unfold vecBody at he
  split at he <;> cases he
  · exact inv_retireAt (inv_mapRegs_keep (inv_noHalt (hm.ok hd ‹_›)) rfl rfl) _
  · exact inv_vecTrap (hm.error hd ‹_›) _ _ _
  · exact inv_waiting (hm.error hd ‹_›) _
  · exact inv_takePreempt (hm.error hd ‹_›)
/-- A check-lane mismatch keeps the invariant (17 R355). -/
theorem inv_meetLane {s : State} (h : s.Inv) (f : LaneFault) : (meetLane f s).2.Inv := by
  have hn : ∀ {u : State} (b : Bool) (p : Word), u.Inv → ((if b then id else recordCur 0x09 p) u : State).Inv := by
    intro u b p hu; cases b <;> [exact inv_recordCur hu _ _; exact hu]
  unfold meetLane
  simp only
  split
  · exact hn _ _ h
  · refine inv_mapCore (hn _ _ (hn _ _ h)) ?_ ?_ ?_ <;> split <;> rfl
/-- A VQ instruction whose body keeps the invariant keeps it. -/
theorem inv_vecRun {e : Entry} {m : M Unit} (hm : Keeps m) {s t : State} (h : s.Inv) (he : vecRun e m s = .next t) : t.Inv := by
  unfold vecRun at he
  split at he
  · cases he; exact inv_vecTrap h _ _ _
  · split at he
    · split at he
      · cases he; exact inv_waiting h _
      · rename_i f r _ _ _
        have hl := inv_meetLane (s := s.mapCore fun c => { c with lanes := r }) (inv_mapCore h rfl rfl rfl) f
        split at he
        · rename_i hq
          cases he; rw [hq] at hl; exact inv_vecTrap hl _ _ _
        · rename_i hq
          rw [hq] at hl; exact inv_vecBody hm hl he
    · exact inv_vecBody hm h he

end Sys2Proof.Machine
end

