-- ==== Sys2Proof/Laws/AccessInv.lean ====
section
/-! SUPPORT. Accesses keep the invariant: chunks stay in order, and what is read or written, in memory, the windows or beyond the
package, leaves sound cores. -/
set_option Elab.async false
namespace Sys2Proof.Machine

/-! ### Chunks -/

/-- A put into rising addresses leaves them rising, and adds at most its own. -/
theorem cellPut_sorted {m : List Host.Cell} (h : (m.map (·.1)).Pairwise (· < ·)) (a : Nat) (b : Byte) :
    ((cellPut m a b).map (·.1)).Pairwise (· < ·) ∧ ∀ p ∈ cellPut m a b, p.1 = a ∨ p ∈ m := by
  induction m with
  | nil => simp [cellPut]
  | cons p r ih =>
    obtain ⟨k, d⟩ := p
    simp only [List.map_cons, List.pairwise_cons] at h
    obtain ⟨h1, h2⟩ := ih h.2
    simp only [cellPut]
    split
    · refine ⟨?_, fun p hp => (List.mem_cons.1 hp).imp (fun e => by rw [e]) id⟩
      simp only [List.map_cons, List.pairwise_cons]
      refine ⟨fun c hc => ?_, h⟩
      rcases List.mem_cons.1 hc with rfl | hc
      · assumption
      · exact Nat.lt_trans ‹a < k› (h.1 c hc)
    · split
      · subst_vars
        refine ⟨by simp only [List.map_cons, List.pairwise_cons]; exact h, fun p hp => ?_⟩
        rcases List.mem_cons.1 hp with rfl | hp
        · exact .inl rfl
        · exact .inr (List.mem_cons_of_mem _ hp)
      · refine ⟨?_, fun p hp => ?_⟩
        · simp only [List.map_cons, List.pairwise_cons]
          refine ⟨fun c hc => ?_, h1⟩
          obtain ⟨p, hp, rfl⟩ := List.mem_map.1 hc
          rcases h2 p hp with hp | hp
          · rw [hp]; omega
          · exact h.1 _ (List.mem_map_of_mem hp)
        · rcases List.mem_cons.1 hp with rfl | hp
          · exact .inr (by simp)
          · exact (h2 p hp).imp_right (List.mem_cons_of_mem _)

/-- Lines are added to a set of lines. -/
theorem mem_addLine {l : List Nat} {x y : Nat} : y ∈ addLine l x ↔ y = x ∨ y ∈ l := by
  unfold addLine
  split
  · rename_i h
    constructor
    · exact .inr
    · rintro (rfl | hy)
      · simpa using h
      · exact hy
  · simp
theorem mem_addLines {xs l : List Nat} {y : Nat} : y ∈ addLines l xs ↔ y ∈ l ∨ y ∈ xs := by
  unfold addLines
  induction xs generalizing l with
  | nil => simp
  | cons x xs ih => rw [List.foldl_cons, ih, mem_addLine]; simp; tauto
/-- A byte of an access lies on one of its lines. -/
theorem mem_linesOf {a n i : Nat} (hi : i < n) : (a + i) / 64 ∈ linesOf a n := by
  unfold linesOf
  rw [if_neg (by omega), List.mem_map]
  refine ⟨(a + i) / 64 - a / 64, List.mem_range.2 ?_, ?_⟩ <;>
    have := Nat.div_le_div_right (c := 64) (show a ≤ a + i by omega) <;>
    have := Nat.div_le_div_right (c := 64) (show a + i ≤ a + n - 1 by omega) <;> omega

/-- What an ordered chunk is. -/
theorem ordered_iff {ch : Chunk} : ch.ordered = true ↔ (ch.wr.map (·.1)).Pairwise (· < ·) ∧ ∀ c ∈ ch.wr, c.1 / 64 ∈ ch.wlines := by
  unfold Chunk.ordered
  simp
/-- A chunk stays in order when bytes are written in it (14 R283). -/
theorem ordered_chunkWrite {ch : Chunk} (h : ch.ordered = true) (pa : Nat) (bs : List Byte) : (chunkWrite ch pa bs).ordered = true := by
  obtain ⟨h1, h2⟩ := ordered_iff.1 h
  have key : ∀ (bs : List Byte) (n : Nat) (m : List Host.Cell), (m.map (·.1)).Pairwise (· < ·) →
      (((bs.zipIdx n).foldl (fun m b => cellPut m (pa + b.2) b.1) m).map (·.1)).Pairwise (· < ·) ∧
      ∀ p ∈ (bs.zipIdx n).foldl (fun m b => cellPut m (pa + b.2) b.1) m, p ∈ m ∨ ∃ i, n ≤ i ∧ i < n + bs.length ∧ p.1 = pa + i := by
    intro bs
    induction bs with
    | nil => intro n m hm; exact ⟨hm, fun p hp => .inl hp⟩
    | cons b r ih =>
      intro n m hm
      obtain ⟨k1, k2⟩ := cellPut_sorted hm (pa + n) b
      obtain ⟨i1, i2⟩ := ih (n + 1) _ k1
      rw [List.zipIdx_cons, List.foldl_cons]
      refine ⟨i1, fun p hp => ?_⟩
      rcases i2 p hp with hp | ⟨i, hi, hj, he⟩
      · rcases k2 p hp with hp | hp
        · exact .inr ⟨n, Nat.le_refl _, by simp, hp⟩
        · exact .inl hp
      · exact .inr ⟨i, by omega, by simp only [List.length_cons]; omega, he⟩
  obtain ⟨k1, k2⟩ := key bs 0 ch.wr h1
  refine ordered_iff.2 ⟨k1, fun p hp => ?_⟩
  show _ ∈ addLines ch.wlines _
  rw [mem_addLines]
  rcases k2 p hp with hp | ⟨i, -, hi, he⟩
  · exact .inl (h2 p hp)
  · right; rw [he]; exact mem_linesOf (by omega)

/-- The current chunk of a sound core, or one that starts now, starts within VLMAX and is in order. -/
theorem chunkOr_sound {c : Core} (h : c.sound = true) : c.chunkOr.start.lenOk = true ∧ c.chunkOr.ordered = true := by
  obtain ⟨h1, -, h3⟩ := sound_iff.1 h
  unfold Core.chunkOr
  cases hc : c.chunk with
  | none => exact ⟨h1, rfl⟩
  | some ch => exact h3 ch hc
/-- The chunk changed, its start kept and its bytes in order. -/
theorem inv_mapChunk {s : State} (h : s.Inv) {f : Chunk → Chunk} (hs : (f s.core.chunkOr).start = s.core.chunkOr.start)
    (ho : (f s.core.chunkOr).ordered = true) : (s.mapChunk f).Inv := by
  obtain ⟨h1, h2, -⟩ := sound_iff.1 h.2.2.1
  refine inv_core h (sound_iff.2 ⟨h1, h2, fun ch e => ?_⟩)
  obtain rfl := Option.some.inj e
  rw [hs]
  exact ⟨(chunkOr_sound h.2.2.1).1, ho⟩
/-- The chunk changed, but for its start and its writes. -/
theorem inv_mapChunk_keep {s : State} (h : s.Inv) {f : Chunk → Chunk} (hs : ∀ ch, (f ch).start = ch.start)
    (hw : ∀ ch, (f ch).wr = ch.wr) (hl : ∀ ch, (f ch).wlines = ch.wlines) : (s.mapChunk f).Inv := by
  refine inv_mapChunk h (hs _) ?_
  have := ordered_iff.1 (chunkOr_sound h.2.2.1).2
  exact ordered_iff.2 (by rw [hw, hl]; exact this)

/-! ### Checks and translation -/

theorem keeps_needState (v m t : Bool) (w : Word) : Keeps (needState v m t w) :=
  keeps_bind keeps_regs fun _ => keeps_bind (keeps_ensure _ _ _) fun _ => keeps_bind (keeps_ensure _ _ _) fun _ => keeps_ensure _ _ _
theorem keeps_guardReg (k n : Nat) (w : Bool) : Keeps (guardReg k n w) := keeps_bind keeps_get fun _ => keeps_ensure _ _ _
theorem keeps_needPresent (n g : Nat) : Keeps (needPresent n g) :=
  keeps_bind keeps_get fun _ => keeps_ite (keeps_await _) (keeps_pure _)
theorem keeps_guardRegs (k n j : Nat) : Keeps (guardRegs k n j) := by
  refine keeps_bind keeps_get fun s => ?_
  split
  · exact keeps_raise _ _
  · exact keeps_pure _
theorem keeps_guardMask (m : BitVec 4) : Keeps (guardMask m) := keeps_ite (keeps_pure _) (keeps_guardRegs _ _ _)
theorem keeps_needElems (n : BitVec 5) (w : Nat) (is : List Nat) : Keeps (needElems n w is) := by
  refine keeps_bind keeps_get fun s => ?_
  split
  · exact keeps_await _
  · exact keeps_pure _
theorem keeps_guardWindows (b : Bool) (ps : List Piece) : Keeps (guardWindows b ps) := by
  refine keeps_forM (fun p => ?_) ps
  split
  · refine keeps_bind (keeps_forM (fun r => keeps_guardReg _ _ _) _) fun _ => ?_
    refine keeps_ite ?_ (keeps_pure _)
    exact keeps_forM (fun g => keeps_ite (keeps_needPresent _ _) (keeps_pure _)) _
  · exact keeps_pure _
theorem keeps_needHbm (ps : List Piece) : Keeps (needHbm ps) := keeps_bind keeps_get fun _ => keeps_ite (keeps_await _) (keeps_pure _)
theorem keeps_needClean (ps : List Piece) : Keeps (needClean ps) := by
  refine keeps_bind keeps_get fun s => ?_
  split
  · exact keeps_raise _ _
  · exact keeps_pure _
theorem keeps_newChunkM (k : BitVec 4) : Keeps (newChunkM k) :=
  keeps_bind keeps_get fun _ => keeps_bind (keeps_endChunkM _) fun _ => keeps_modify fun _ h =>
    inv_mapChunk_keep h (fun _ => rfl) (fun _ => rfl) fun _ => rfl
theorem keeps_endIfCom (ps : List Piece) : Keeps (endIfCom ps) :=
  keeps_bind keeps_get fun _ => keeps_ite (keeps_newChunkM _) (keeps_pure _)
theorem keeps_lineLimit (ps : List Piece) : Keeps (lineLimit ps) :=
  keeps_bind keeps_get fun _ => keeps_ite (keeps_newChunkM _) (keeps_pure _)

/-- What a walk leaves held keeps the invariant (03 R57). -/
theorem inv_walked {s : State} (h : s.Inv) (x : Xl) (va : Word) (t : Option Tlb) : (s.walked x va t).Inv :=
  inv_core (s := { s with dieTlb := vecMod s.dieTlb (dieOf s.cur) (tlbAfter Config.dieTlbEntries x va t) }) h
    (sound_iff.2 (sound_iff.1 h.2.2.1))
theorem keeps_xlPage (x : Xl) (k : Acc) (va : Word) : Keeps (xlPage x k va) := by
  unfold xlPage
  simp only
  refine keeps_ite (keeps_pure _) (keeps_bind keeps_get fun s => ?_)
  have hpick : ∀ (l : List Tlb) (now : Option Tlb) (n : Nat), Keeps (match l[n]? with
      | some t => do
        modCore fun c => { c with tlb := tlbAfter Config.tlbEntries x va (some t) c.tlb }
        return .ok t
      | none => do
        modify (·.walked x va now)
        match now, walk s x va with
        | some t, _ => return .ok t
        | none, .held => await .reduced
        | none, .poison l => raise .machineCheck (poisonTval l)
        | none, .fault => return .error (pageCause k)
        | none, .leaf _ _ pte => return .error ((permit k x.user pte).getD (pageCause k)) : M (Except Cause Tlb)) := by
    intro l now n
    split
    · exact keeps_bind (keeps_modCore (fun _ => rfl) (fun _ => rfl) fun _ => rfl) fun _ => keeps_pure _
    · refine keeps_bind (keeps_modify fun s h => inv_walked h _ _ _) fun _ => ?_
      split
      · exact keeps_pure _
      · exact keeps_await _
      · exact keeps_raise _ _
      · exact keeps_pure _
      · exact keeps_pure _
  exact keeps_ite (keeps_bind (keeps_pure _) fun _ => hpick _ _ _)
    (keeps_bind keeps_oracle fun _ => keeps_bind (keeps_pure _) fun _ => hpick _ _ _)

theorem keeps_xlAccess (x : Xl) (k : Acc) (va : Word) (n : Nat) : Keeps (xlAccess x k va n) := by
  unfold xlAccess
  refine keeps_bind (keeps_xlPage _ _ _) fun r => ?_
  split
  · exact keeps_pure _
  · refine keeps_ite (keeps_pure _) (keeps_bind (keeps_xlPage _ _ _) fun r => ?_)
    split <;> exact keeps_pure _
theorem keeps_planAccess (w : Word) (k : Acc) (va : Word) (n : Nat) : Keeps (planAccess w k va n) := by
  refine keeps_bind keeps_get fun s => keeps_bind (keeps_xlAccess _ _ _ _) fun r => ?_
  split
  · exact keeps_pure _
  · exact keeps_bind (keeps_needState _ _ _ _) fun _ => keeps_pure _

/-! ### Reads -/

/-- Messages change neither cores nor memory. -/
theorem foldl_sendMsg_inv {α β : Type} (f : State × β → α → State × β) (hf : ∀ a p, a.1.Inv → (f a p).1.Inv) (l : List α) :
    ∀ a : State × β, a.1.Inv → (l.foldl f a).1.Inv := by
  induction l with
  | nil => intro a h; exact h
  | cons p l ih => intro a h; exact ih _ (hf a p h)
theorem inv_sendMsg {s : State} (h : s.Inv) (ty : BitVec 8) (dst : BitVec 12) (tag addr : Word) (len : Nat) (ord : Bool) (st : BitVec 8)
    (p : List Byte) : (sendMsg ty dst tag addr len ord st p s).Inv := h
theorem inv_sendReads {s : State} (h : s.Inv) (o : Bool) (q : Piece) : (sendReads o q s).1.Inv := by
  unfold sendReads
  refine foldl_sendMsg_inv _ (fun a p ha => ?_) _ _ ?_
  · exact ha
  · exact h
theorem inv_sendWrites {s : State} (h : s.Inv) (o : Bool) (q : Piece) (bs : List Byte) : (sendWrites o q bs s).1.Inv := by
  unfold sendWrites
  refine foldl_sendMsg_inv _ (fun a p ha => ?_) _ _ ?_
  · exact ha
  · exact h

/-- A fold of changes that keep the invariant. -/
theorem inv_foldl {α : Type} {f : State → α → State} (hf : ∀ s a, s.Inv → (f s a).Inv) (l : List α) : ∀ {s : State}, s.Inv →
    (l.foldl f s).Inv := by
  induction l with
  | nil => intro s h; exact h
  | cons a l ih => intro s h; exact ih (hf s a h)

theorem keeps_takeRemote : Keeps takeRemote := by
  refine keeps_bind (keeps_endChunkM _) fun _ => ?_
  intro s h
  simp only [bind, EStateM.bind, get, getThe, MonadStateOf.get, EStateM.get]
  cases e : takeReplies s with
  | none => exact h
  | some p =>
    unfold takeReplies at e
    simp only at e
    split at e
    · simp at e
    · obtain rfl := Option.some.inj e
      exact inv_mapCore h rfl rfl rfl
/-- The messages of a read keep the invariant. -/
theorem inv_sendRead {s : State} (h : s.Inv) (p : Piece) : (sendRead s p).Inv := by
  unfold sendRead
  simp only
  split
  · exact inv_mapCore (inv_sendReads h _ _) rfl rfl rfl
  · exact inv_mapCore h rfl rfl rfl
theorem keeps_remoteRead (ps : List Piece) : Keeps (remoteRead ps) := by
  refine keeps_bind keeps_get fun s => ?_
  refine keeps_ite ?_ keeps_takeRemote
  refine keeps_bind (keeps_endChunkM _) fun _ => keeps_bind (keeps_singleM _ _) fun _ => keeps_bind (keeps_modify fun s h => ?_) fun _ =>
    keeps_bind (keeps_await _) fun _ => keeps_takeRemote
  exact inv_foldl (fun s p h => inv_sendRead h p) ps h
theorem keeps_insideRead (ps : List Piece) : Keeps (insideRead ps) :=
  keeps_bind (keeps_modify fun _ h => inv_mapChunk_keep h (fun _ => rfl) (fun _ => rfl) fun _ => rfl) fun _ =>
    keeps_bind keeps_get fun _ => keeps_pure _
theorem keeps_readPlan (pl : Plan) : Keeps (readPlan pl) := by
  refine keeps_bind (keeps_guardWindows _ _) fun _ => keeps_bind (keeps_needHbm _) fun _ => keeps_bind (keeps_needClean _) fun _ => ?_
  refine keeps_ite (keeps_remoteRead _) (keeps_ite ?_ ?_)
  · exact keeps_bind (keeps_endChunkM _) fun _ => keeps_bind (keeps_singleM _ _) fun _ => keeps_bind keeps_get fun _ => keeps_pure _
  · exact keeps_bind (keeps_endIfCom _) fun _ => keeps_insideRead _
theorem keeps_lateBytes (late : List (Nat × Byte)) : ∀ l, Keeps (lateBytes late l)
  | [] => keeps_pure _
  | (a, b) :: r => by
    unfold lateBytes
    simp only
    refine keeps_ite (keeps_bind (keeps_pure _) fun _ => ?_) (keeps_bind keeps_oracle fun _ => keeps_bind (keeps_pure _) fun _ => ?_) <;>
      exact keeps_bind (keeps_lateBytes late r) fun _ => keeps_pure _
theorem keeps_memLoad (w va : Word) (n : Nat) : Keeps (memLoad w va n) := by
  refine keeps_bind keeps_get fun s => keeps_ite keeps_takeRemote (keeps_bind (keeps_planAccess _ _ _ _) fun r => ?_)
  split
  · exact keeps_raise _ _
  · exact keeps_bind (keeps_readPlan _) fun _ => keeps_ite (keeps_pure _) (keeps_bind keeps_get fun _ => keeps_lateBytes _ _)

/-! ### Writes -/

theorem inv_leaveBound {s : State} (h : s.Inv) : (leaveBound s).Inv := by
  unfold leaveBound
  split
  · exact inv_mapCore (inv_recordCur h _ _) rfl rfl rfl
  · exact h
theorem inv_devStore {s : State} (h : s.Inv) (d o : Nat) (v : Word) : (devStore s d o v).Inv := by
  unfold devStore yieldWrite
  split
  · simp only
    split
    · exact inv_leaveBound h
    · exact h
  · exact h
/-- A core whose registers are written through their windows keeps VL and VTYPE. -/
theorem winPut_len (r : Regs) (o : Nat) (b : Byte) : (winPut r o b).vl = r.vl ∧ (winPut r o b).vtype = r.vtype := by
  unfold winPut
  simp only
  split
  · exact ⟨rfl, rfl⟩
  · split <;> exact ⟨rfl, rfl⟩
theorem foldl_winPut_len (o : Nat) (l : List (Byte × Nat)) (r : Regs) :
    (l.foldl (fun r b => winPut r (o + b.2) b.1) r).vl = r.vl ∧ (l.foldl (fun r b => winPut r (o + b.2) b.1) r).vtype = r.vtype := by
  induction l generalizing r with
  | nil => exact ⟨rfl, rfl⟩
  | cons p l ih =>
    obtain ⟨h1, h2⟩ := ih (winPut r (o + p.2) p.1)
    obtain ⟨h3, h4⟩ := winPut_len r (o + p.2) p.1
    exact ⟨h1.trans h3, h2.trans h4⟩
/-- A core that differs from a sound one in its full/empty bits and its bad-operation flag is sound. -/
theorem sound_fe {c : Core} (h : c.sound = true) (fe : BitVec 196608) (b : Bool) : ({ c with fe := fe, badop := b } : Core).sound = true :=
  sound_iff.2 (sound_iff.1 h)
theorem sound_ctlWrite {c : Core} (h : c.sound = true) (o : Nat) (v : Word) : (ctlWrite c o v).sound = true := by
  unfold ctlWrite feop
  simp only
  split
  · split
    · exact sound_fe h c.fe true
    · exact sound_fe h _ c.badop
  · split
    · exact sound_fe h c.fe false
    · exact h
theorem sound_fePuts {c : Core} (h : c.sound = true) (o : Nat) (l : List (Byte × Nat)) :
    (l.foldl (fun k b => fePut k (o + b.2) b.1) c).sound = true := by
  induction l generalizing c with
  | nil => exact h
  | cons p l ih => exact ih (sound_fe h _ c.badop)
/-- Bytes written to a scratchpad from outside its core's chunk keep a core sound. -/
theorem sound_finalScratch {c : Core} (h : c.sound = true) (o : Nat) (bs : List Byte) : (c.finalScratch o bs).sound = true := by
  obtain ⟨h1, h2, h3⟩ := sound_iff.1 h
  refine sound_iff.2 ⟨h1, memWrite_wf h2 _ _, fun ch e => ?_⟩
  obtain ⟨k, hk, rfl⟩ := Option.map_eq_some_iff.1 e
  exact h3 k hk
/-- A piece written outside a chunk keeps the invariant. -/
theorem inv_directWrite {s : State} (h : s.Inv) (p : Piece) (bs : List Byte) : (directWrite s p bs).Inv := by
  unfold directWrite
  split
  · exact inv_setCoreAt h _ (sound_finalScratch (coreAt_sound h _) _ _)
  · simp only
    exact inv_mapRegs_keep (inv_noHalt h) (foldl_winPut_len _ _ _).1 (foldl_winPut_len _ _ _).2
  · exact inv_setCoreAt h _ (sound_fePuts (coreAt_sound h _) _ _)
  · exact inv_setCoreAt h _ (sound_ctlWrite (coreAt_sound h _) _ _)
  · simp only
    split
    · exact inv_devStore (inv_devStore h _ _ _) _ _ _
    · exact inv_devStore h _ _ _
  · exact inv_homeWrite h _ _
/-- Taking undo images keeps a chunk's start and writes (04 R74). -/
theorem undoLines_frame (sp : Mem) (l : List Nat) (ch : Chunk) :
    (l.foldl (undoLine sp) ch).start = ch.start ∧ (l.foldl (undoLine sp) ch).wr = ch.wr ∧ (l.foldl (undoLine sp) ch).wlines = ch.wlines := by
  induction l generalizing ch with
  | nil => exact ⟨rfl, rfl, rfl⟩
  | cons x l ih =>
    obtain ⟨h1, h2, h3⟩ := ih (undoLine sp ch x)
    have h : (undoLine sp ch x).start = ch.start ∧ (undoLine sp ch x).wr = ch.wr ∧ (undoLine sp ch x).wlines = ch.wlines := by
      unfold undoLine
      split <;> exact ⟨rfl, rfl, rfl⟩
    exact ⟨h1.trans h.1, h2.trans h.2.1, h3.trans h.2.2⟩
theorem inv_scratchStore {s : State} (h : s.Inv) (o : Nat) (bs : List Byte) : (scratchStore o bs s).Inv := by
  unfold scratchStore
  have h1 : (s.mapChunk fun ch => (linesOf o bs.length).foldl (undoLine s.core.scratch) ch).Inv :=
    inv_mapChunk_keep h (fun ch => (undoLines_frame _ _ ch).1) (fun ch => (undoLines_frame _ _ ch).2.1) fun ch => (undoLines_frame _ _ ch).2.2
  obtain ⟨h2, h3, h4⟩ := sound_iff.1 h1.2.2.1
  exact inv_core h1 (sound_iff.2 ⟨h2, memWrite_wf h3 _ _, h4⟩)
theorem inv_pieceWrite {s : State} (h : s.Inv) (p : Piece) (bs : List Byte) : (pieceWrite s p bs).Inv := by
  unfold pieceWrite
  split
  · exact inv_scratchStore h _ _
  · exact inv_mapChunk h rfl (ordered_chunkWrite (chunkOr_sound h.2.2.1).2 _ _)
theorem inv_singleWrite {s : State} (h : s.Inv) (p : Piece × List Byte) : (singleWrite s p).Inv := by
  unfold singleWrite
  split
  · exact inv_mapCore (inv_sendWrites h _ _ _) rfl rfl rfl
  · exact inv_directWrite h _ _
/-- A write inside the chunk keeps the invariant (14 R283, 04 R74). -/
theorem inv_insideWrite {s : State} (h : s.Inv) (ps : List Piece) (bs : List Byte) : (insideWrite ps bs s).Inv :=
  inv_foldl (fun _ _ h => inv_pieceWrite h _ _) _ (inv_mapChunk_keep h (fun _ => rfl) (fun _ => rfl) fun _ => rfl)
theorem keeps_writePlan (pl : Plan) (bs : List Byte) : Keeps (writePlan pl bs) := by
  refine keeps_bind (keeps_guardWindows _ _) fun _ => keeps_bind (keeps_needHbm _) fun _ => keeps_ite ?_ ?_
  · refine keeps_bind (keeps_endChunkM _) fun _ => keeps_bind (keeps_singleM _ _) fun _ => keeps_modify fun s h => ?_
    exact inv_foldl (fun s p h => inv_singleWrite h _) _ h
  · exact keeps_bind (keeps_endIfCom _) fun _ => keeps_bind (keeps_lineLimit _) fun _ => keeps_modify fun s h => inv_insideWrite h _ _
theorem keeps_overtake (ws : List (Nat × Byte)) (l : List Lend) : Keeps (overtake ws l) := by
  induction l with
  | nil => exact keeps_pure _
  | cons l ls ih =>
    rw [overtake]
    cases ws.find? (·.1 == l.pa) with
    | none => exact keeps_bind (f := fun _ => overtake ws ls) (keeps_pure ()) fun _ => ih
    | some p =>
      refine keeps_bind keeps_oracle fun _ => keeps_ite (keeps_bind (keeps_modRegs (fun _ => rfl) fun _ => rfl) fun _ => ?_) ?_
      all_goals exact ih
theorem keeps_memStore (w va : Word) (bs : List Byte) : Keeps (memStore w va bs) := by
  refine keeps_bind (keeps_planAccess _ _ _ _) fun r => ?_
  split
  · exact keeps_raise _ _
  · exact keeps_bind (keeps_writePlan _ _) fun _ => keeps_ite (keeps_pure _) (keeps_bind keeps_get fun _ => keeps_overtake _ _)
/-- A write on a path outside the chunks keeps the invariant (14 R289). -/
theorem inv_outsideWrite {s : State} (h : s.Inv) (c u : Nat) (k : Word) (pa : Nat) (bs : List Byte) : (outsideWrite c u k pa bs s).Inv :=
  inv_congr (inv_homeWrite h pa bs) rfl rfl rfl rfl

end Sys2Proof.Machine
end

