-- ==== Sys2Proof/Laws/Commit.lean ====
section
/-! SUPPORT. What the end of a chunk and the entry of a trap change, when no other core holds a reservation. -/
set_option Elab.async false
namespace Sys2Proof.Machine

/-- Without a reservation of another core no commit waits (14 R288). -/
theorem blocked_unreserved {s : State} (h : s.unreserved = true) (wl cl : List Nat) : s.blocked wl cl = false := by
  unfold State.unreserved at h
  rw [List.all_eq_true] at h
  unfold State.blocked
  rw [List.any_eq_false]
  intro p hp
  have := h p hp
  simp only [Bool.and_eq_true, Bool.not_eq_true'] at this
  split
  · simp [this.2]
  · simp
/-- A chunk that ends finds no reservation in its way. -/
theorem endChunk_unreserved {s : State} (h : s.unreserved = true) (k : BitVec 4) : ∃ t, endChunk k s = some t := by
  unfold endChunk
  split
  · exact ⟨_, rfl⟩
  · split
    · exact ⟨_, rfl⟩
    · rw [blocked_unreserved h]; exact ⟨_, rfl⟩

/-- A squash of another core changes the other cores and the recorder alone. -/
theorem squashAt_frame (src : BitVec 2) (csn : Word) (s : State) {n : Nat} (hn : n ≠ s.cur) :
    squashAt src csn s n = { s with others := (squashAt src csn s n).others, recd := (squashAt src csn s n).recd } := by
  unfold squashAt
  simp only
  split
  · rfl
  · rw [recordCsn_frame]
    unfold State.setCoreAt
    rw [if_neg hn]
/-- Squashes of other cores likewise. -/
theorem squashes_frame (src : BitVec 2) (csn : Word) (l : List Nat) : ∀ s : State, (∀ n ∈ l, n ≠ s.cur) →
    l.foldl (squashAt src csn) s =
      { s with others := (l.foldl (squashAt src csn) s).others, recd := (l.foldl (squashAt src csn) s).recd } := by
  induction l with
  | nil => intro s _; rfl
  | cons n l ih =>
    intro s h
    have h1 := squashAt_frame src csn s (h n (by simp))
    have h2 : (squashAt src csn s n).cur = s.cur := by rw [h1]
    rw [List.foldl_cons, ih (squashAt src csn s n) fun m hm => by rw [h2]; exact h m (by simp [hm])]
    rw [h1]
/-- Taking a CSN changes the CSNs, the other cores and the recorder, and ends the squash count and the reservation of the focused core
(14 R284, R288). -/
theorem takeCsn_frame {s : State} (h : s.unreserved = true) (k : BitVec 4) (n : Nat) (wl cl : List Nat) :
    takeCsn k n wl cl s = { s with
      csn := s.csn + 1, grants := s.grants.filter (· != s.cur)
      core := { s.core with csn := s.csn + 1, squashes := 0, reserved := false }
      others := (takeCsn k n wl cl s).others, recd := (takeCsn k n wl cl s).recd } := by
  unfold State.unreserved at h
  rw [List.all_eq_true] at h
  unfold takeCsn
  simp only
  have hq : ∀ u : State, u.cur = s.cur → u.others = s.others → squashOthers 0 (s.csn + 1) (fun _ _ ch => ch.hitBy wl cl) u =
      { u with
        others := (squashOthers 0 (s.csn + 1) (fun _ _ ch => ch.hitBy wl cl) u).others
        recd := (squashOthers 0 (s.csn + 1) (fun _ _ ch => ch.hitBy wl cl) u).recd } := by
    intro u hu ho
    unfold squashOthers
    refine squashes_frame _ _ _ _ fun m hm => ?_
    obtain ⟨p, hp, he⟩ := List.mem_filterMap.1 hm
    have hc := h p (ho ▸ hp)
    simp only [Bool.and_eq_true, bne_iff_ne, ne_eq] at hc
    split at he
    · split at he
      · rw [← Option.some.inj he, hu]; exact hc.1
      · simp at he
    · simp at he
  have hq := hq { s with
    csn := s.csn + 1, grants := s.grants.filter (· != s.cur)
    core := { s.core with csn := s.csn + 1, squashes := 0, reserved := false } } rfl rfl
  generalize squashOthers _ _ _ _ = s2 at hq ⊢
  rw [recordCommit_frame, hq]
/-- Writes at their homes change memory alone. -/
theorem applyChunk_frame (ch : Chunk) (s : State) : applyChunk ch s = { s with mem := (applyChunk ch s).mem } := by
  unfold applyChunk
  have hf : ∀ (l : List ComUpd) (s : State), l.foldl applyCom s = { s with mem := (l.foldl applyCom s).mem } := by
    intro l
    induction l with
    | nil => intro s; rfl
    | cons u l ih => intro s; rw [List.foldl_cons, ih (applyCom s u)]; rfl
  rw [hf]
/-- The end of a chunk changes its memory, the CSNs, the other cores, the recorder and the order of grants; of the focused core, its
chunk, CSN, squash count and reservation alone (14 R279, R284, R286, R288). -/
theorem endChunk_frame {s t : State} (h : s.unreserved = true) {k : BitVec 4} (he : endChunk k s = some t) :
    t = { s with
      mem := t.mem, csn := t.csn, others := t.others, recd := t.recd, grants := t.grants
      core := { s.core with chunk := none, csn := t.core.csn, squashes := t.core.squashes, reserved := t.core.reserved } } := by
  unfold endChunk at he
  split at he
  · rename_i hc
    obtain rfl := Option.some.inj he
    rw [← hc]
  · split at he
    · obtain rfl := Option.some.inj he; rfl
    · rw [blocked_unreserved h] at he
      simp only [Bool.false_eq_true, if_false] at he
      obtain rfl := Option.some.inj he
      rw [applyChunk_frame, takeCsn_frame h]
/-- A trap that finds no reservation in its way is taken: the registers of the handler's entry, no chunk, and the rest of the core as it
was but for its CSN (17 R338). -/
theorem takeTrap_enters {s : State} (h : s.unreserved = true) (c : Cause) (a : Bool) (v : Word) (q : Option (BitVec 32)) :
    (takeTrap c a v q s).cur = s.cur ∧ (takeTrap c a v q s).core = { s.core with
      regs := s.core.regs.enter c a v q, chunk := none, csn := (takeTrap c a v q s).core.csn, squashes := 0, reserved := false
      prog := .trapped, wait := none, held := none, endAfter := none, entering := true } := by
  obtain ⟨t, ht⟩ := endChunk_unreserved h 3
  have hf := endChunk_frame h ht
  unfold takeTrap
  rw [ht]
  simp only
  rw [trapRecords_frame]
  unfold Core.noChunk
  simp only
  rw [hf]
  exact ⟨rfl, rfl⟩

end Sys2Proof.Machine
end

