-- ==== Sys2Proof/Laws/Encoding.lean ====
section
/-! SUPPORT. Laws of words put together from fields: what a field or a bit of the whole is. -/
set_option Elab.async false
namespace Sys2Proof

/-- A field inside the low part. -/
theorem field_low {n m : Nat} (a : BitVec n) (b : BitVec m) (lo len : Nat) (h : lo + len ≤ m) :
    (a ++ b).extractLsb' lo len = b.extractLsb' lo len := by
  apply BitVec.eq_of_getLsbD_eq
  intro i hi
  simp only [BitVec.getLsbD_extractLsb', BitVec.getLsbD_append, hi, decide_true, Bool.true_and]
  rw [if_pos (by omega)]
/-- A field inside the high part. -/
theorem field_high {n m : Nat} (a : BitVec n) (b : BitVec m) (lo len : Nat) (h : m ≤ lo) :
    (a ++ b).extractLsb' lo len = a.extractLsb' (lo - m) len := by
  apply BitVec.eq_of_getLsbD_eq
  intro i hi
  simp only [BitVec.getLsbD_extractLsb', BitVec.getLsbD_append, hi, decide_true, Bool.true_and]
  rw [if_neg (by omega), show lo + i - m = lo - m + i by omega]
/-- The field that is the whole. -/
theorem field_all {n : Nat} (a : BitVec n) : a.extractLsb' 0 n = a := by
  apply BitVec.eq_of_getLsbD_eq
  intro i hi
  simp [hi]
/-- A bit inside the low part. -/
theorem bit_low {n m : Nat} (a : BitVec n) (b : BitVec m) (i : Nat) (h : i < m) : (a ++ b).getLsbD i = b.getLsbD i := by
  rw [BitVec.getLsbD_append, if_pos h]
/-- A bit inside the high part. -/
theorem bit_high {n m : Nat} (a : BitVec n) (b : BitVec m) (i : Nat) (h : m ≤ i) : (a ++ b).getLsbD i = a.getLsbD (i - m) := by
  rw [BitVec.getLsbD_append, if_neg (by omega)]
/-- The bit that a truth value is. -/
theorem bit_ofBool (o : Bool) : (BitVec.ofBool o).getLsbD 0 = o := by cases o <;> rfl
/-- The immediate of format S, divided between two fields (02 R22). -/
theorem immS_join (i : BitVec 12) : (i.extractLsb' 7 5 ++ i.extractLsb' 0 7 : BitVec 12) = i := by
  apply BitVec.eq_of_getLsbD_eq
  intro k hk
  simp only [BitVec.getLsbD_append, BitVec.getLsbD_extractLsb']
  split
  · simp [*]
  · rw [show 7 + (k - 7) = k by omega]
    simp only [decide_eq_true (show k - 7 < 5 by omega), Bool.true_and]

end Sys2Proof
end

