-- ==== Sys2Proof/Laws/Recorder.lean ====
section
/-! SUPPORT. Laws of the waggle recorder: what a record and a freeze wave do to the ring of a unit, and to no other (26 R410, R413, R415). -/
namespace Sys2Proof.Machine

/-- Reading a key after one key is set. -/
theorem keyGet_keyPut {α : Type} (l : List (Nat × α)) (n m : Nat) (c d : α) :
    keyGet (keyPut l n c) m d = if m = n then c else keyGet l m d := by
  unfold keyGet
  induction l with
  | nil => by_cases h : m = n <;> simp [keyPut, h, List.find?, Ne.symm]
  | cons p l ih =>
    obtain ⟨k, e⟩ := p
    simp only [keyPut]
    by_cases h : m = n
    · subst h
      simp only [if_true] at ih ⊢
      split
      · simp
      · split
        · rename_i h2; simp [h2]
        · rename_i h2; have : ¬ k = m := fun h3 => h2 h3.symm
          simpa [this] using ih
    · rw [if_neg h] at ih ⊢
      have hn : ¬ n = m := fun e => h e.symm
      split
      · simp [hn]
      · split
        · rename_i h2; subst h2; simp [hn]
        · by_cases hk : k = m
          · simp [hk]
          · simpa [hk] using ih

/-- The ring of a unit after one ring is changed. -/
theorem ring_mapRing (s : State) (u v : Nat) (f : Ring → Ring) :
    (s.mapRing u f).ring v = if v = u then f (s.ring u) else s.ring v := keyGet_keyPut ..
@[simp] theorem ring_mapRing_same (s : State) (u : Nat) (f : Ring → Ring) : (s.mapRing u f).ring u = f (s.ring u) := by
  rw [ring_mapRing, if_pos rfl]

/-- A record put into one ring: no other ring changes, and the recorder's own registers stay. -/
theorem push_recd (u : Nat) (k : BitVec 6) (t : BitVec 16) (p : Word) (s : State) :
    (∃ rs, (push u k t p s).recd = { s.recd with rings := rs }) ∧
    ∀ v, v ≠ u → (push u k t p s).ring v = s.ring v := by
  unfold push
  simp only
  split
  · exact ⟨⟨_, rfl⟩, fun _ _ => rfl⟩
  · exact ⟨⟨_, rfl⟩, fun v h => by rw [ring_mapRing, if_neg h]⟩

/-- So it is with a CSNHI record. -/
theorem pushHi_recd (u : Nat) (t : BitVec 16) (c : Word) (s : State) :
    (∃ rs, (pushHi u t c s).recd = { s.recd with rings := rs }) ∧
    ∀ v, v ≠ u → (pushHi u t c s).ring v = s.ring v := by
  unfold pushHi
  simp only
  split
  · exact ⟨⟨_, rfl⟩, fun _ _ => rfl⟩
  · obtain ⟨⟨rs, h1⟩, h2⟩ := push_recd u 0x0D t ((c.extractLsb' 32 32).setWidth 64) s
    exact ⟨⟨_, by simp only [State.mapRing, h1]; rfl⟩, fun v h => by rw [ring_mapRing, if_neg h, h2 v h]⟩

/-- A freeze wave that reaches a unit leaves it frozen, with its FREEZE written unless it was frozen before; no other ring and no register
of the recorder changes (26 R415). -/
theorem freezeUnit_ring (s : State) (u : Nat) :
    ((freezeUnit s u).ring u).frozen = true ∧ (∀ v, v ≠ u → (freezeUnit s u).ring v = s.ring v) ∧
    ((s.ring u).frozen = true → freezeUnit s u = s) ∧
    ∃ rs, (freezeUnit s u).recd = { s.recd with rings := rs } := by
  unfold freezeUnit
  simp only
  split
  · rename_i h; exact ⟨h, fun _ _ => rfl, fun _ => rfl, _, rfl⟩
  · rename_i h
    split
    all_goals refine ⟨by rw [ring_mapRing_same], fun v hv => ?_, fun hf => absurd hf h, ?_⟩
    · rw [ring_mapRing, if_neg hv, (push_recd ..).2 v hv]
    · obtain ⟨rs, h1⟩ := (push_recd u 0x0E _ _ s).1
      exact ⟨_, by simp only [State.mapRing]; rw [h1]⟩
    · rw [ring_mapRing, if_neg hv, (push_recd ..).2 v hv, (pushHi_recd ..).2 v hv]
    · obtain ⟨rs, h1⟩ := (push_recd u 0x0E _ _ (pushHi u _ _ s)).1
      obtain ⟨ts, h2⟩ := (pushHi_recd u _ _ s).1
      exact ⟨_, by simp only [State.mapRing]; rw [h1, h2]⟩

/-- A wave that reaches the units of a list leaves them frozen, and those that were (26 R415). -/
theorem foldl_freezeUnit_frozen (l : List Nat) (s : State) :
    ∀ u, u ∈ l ∨ (s.ring u).frozen = true → ((l.foldl freezeUnit s).ring u).frozen = true := by
  induction l generalizing s with
  | nil => intro u h; simpa using h
  | cons k l ih =>
    intro u h
    rw [List.foldl_cons]
    apply ih
    by_cases hk : u = k
    · subst hk; exact .inr (freezeUnit_ring s u).1
    · rw [(freezeUnit_ring s k).2.1 u hk]
      rcases h with h | h
      · rcases List.mem_cons.1 h with h | h
        · exact absurd h hk
        · exact .inl h
      · exact .inr h
/-- It changes the rings alone. -/
theorem foldl_freezeUnit_recd (l : List Nat) (s : State) : ∃ rs, (l.foldl freezeUnit s).recd = { s.recd with rings := rs } := by
  induction l generalizing s with
  | nil => exact ⟨_, rfl⟩
  | cons k l ih =>
    obtain ⟨rs, h⟩ := ih (freezeUnit s k)
    obtain ⟨ts, h2⟩ := (freezeUnit_ring s k).2.2.2
    exact ⟨rs, by rw [List.foldl_cons, h, h2]⟩
/-- Where every unit of the list is frozen, it changes nothing. -/
theorem foldl_freezeUnit_done (l : List Nat) (s : State) (h : ∀ u ∈ l, (s.ring u).frozen = true) :
    l.foldl freezeUnit s = s := by
  induction l with
  | nil => rfl
  | cons k l ih => rw [List.foldl_cons, (freezeUnit_ring s k).2.2.1 (h k (by simp))]; exact ih fun u hu => h u (by simp [hu])

end Sys2Proof.Machine
end

