-- ==== Sys2Proof/Laws/Text.lean ====
section
/-! SUPPORT. What a fetch of text leaves (17 R351, R352), and what the policy firmware's lists are part of (16 R335). -/
set_option Elab.async false
namespace Sys2Proof.Machine

/-- A line that is fetched changes what the core's fetch units hold alone. -/
theorem keepLine_frame (u : Fin 4) (n : Nat) (s : State) :
    s.keepLine u n = { s with core := { s.core with text := (s.keepLine u n).core.text } } := by
  unfold State.keepLine; split <;> rfl
/-- So does what runs ahead of a fetch. -/
theorem runAhead_frame (u : Fin 4) (pa : Nat) (s : State) :
    s.runAhead u pa = { s with core := { s.core with text := (s.runAhead u pa).core.text } } := by
  unfold State.runAhead
  simp only
  split
  · exact keepLine_frame _ _ _
  · rw [keepLine_frame u (pa / 64 + 1), keepLine_frame u (pa / 64)]
/-- A fetch changes no other fetch unit's lines. -/
theorem keepLine_other {u v : Fin 4} (h : v ≠ u) (n : Nat) (s : State) : (s.keepLine u n).core.text.get v = s.core.text.get v := by
  unfold State.keepLine
  split
  · rfl
  · simp only [State.mapCore, Core.mapText, Vector.get_eq_getElem]
    exact Vector.getElem_set_ne _ _ fun e => h (Fin.ext e.symm)
theorem runAhead_other {u v : Fin 4} (h : v ≠ u) (pa : Nat) (s : State) : (s.runAhead u pa).core.text.get v = s.core.text.get v := by
  unfold State.runAhead
  simp only
  split
  · exact keepLine_other h _ _
  · rw [keepLine_other h, keepLine_other h]
theorem inv_runAhead {s : State} (h : s.Inv) (u : Fin 4) (pa : Nat) : (s.runAhead u pa).Inv := by
  rw [runAhead_frame]; exact inv_core h (sound_iff.2 (sound_iff.1 h.2.2.1))

/-- A fetch of a clean word, of which the unit holds no other value, finds the home's (02 R26). -/
theorem textWord_home {s : State} {u : Fin 4} {pa : Nat} (hp : s.poisoned pa = false)
    (hh : ∀ w, s.core.heldWord u pa = some w → w = s.wordAt pa) : textWord u pa s = .ok (some (s.wordAt pa)) (s.runAhead u pa) := by
  have hf : (s.core.heldWord u pa).filter (fun w => s.poisoned pa || w != s.wordAt pa) = none := by
    rw [Option.filter_eq_none_iff]
    intro w hw
    simp [hp, hh w hw]
  unfold textWord
  simp only [bind, EStateM.bind, get, getThe, MonadStateOf.get, EStateM.get, hf]
  simp only [homeFetch, bind, EStateM.bind, get, getThe, MonadStateOf.get, EStateM.get, hp, Bool.false_eq_true, if_false, modify, modifyGet,
    MonadStateOf.modifyGet, EStateM.modifyGet]
  rfl
/-- A fetch may take a word that the unit holds though the home's has changed (17 R351). -/
theorem textWord_held {s : State} {u : Fin 4} {pa k : Nat} {w : BitVec 32} {r : List Nat} (hw : s.core.heldWord u pa = some w)
    (hn : w ≠ s.wordAt pa) (ho : s.oracle = k :: r) (hk : k ≠ 0) :
    textWord u pa s = .ok (some w) (({ s with oracle := r } : State).runAhead u pa) := by
  have hf : (s.core.heldWord u pa).filter (fun w => s.poisoned pa || w != s.wordAt pa) = some w := by
    rw [hw]; simp [Option.filter, hn]
  simp only [textWord, bind, EStateM.bind, get, getThe, MonadStateOf.get, EStateM.get, hf, oracle, ho, set, EStateM.set, pure, EStateM.pure,
    hk, if_false, modify, modifyGet, MonadStateOf.modifyGet, EStateM.modifyGet]

theorem keeps_homeFetch (u : Fin 4) (pa : Nat) : Keeps (homeFetch u pa) :=
  keeps_bind keeps_get fun _ => keeps_ite (keeps_pure _) (keeps_bind (keeps_modify fun _ h => inv_runAhead h _ _) fun _ => keeps_pure _)
theorem keeps_textWord (u : Fin 4) (pa : Nat) : Keeps (textWord u pa) := by
  refine keeps_bind keeps_get fun s => ?_
  split
  · exact keeps_homeFetch _ _
  · refine keeps_bind keeps_oracle fun _ => keeps_ite ?_ ?_
    · exact keeps_bind (keeps_modCore (fun _ => rfl) (fun _ => rfl) fun _ => rfl) fun _ => keeps_homeFetch _ _
    · exact keeps_bind (keeps_modify fun _ h => inv_runAhead h _ _) fun _ => keeps_pure _
theorem keeps_fetchWord (x : Xl) (pc : Word) : Keeps (fetchWord x pc) := by
  refine keeps_bind (keeps_xlPage _ _ _) fun r => ?_
  split
  · exact keeps_pure _
  · exact keeps_bind keeps_get fun _ => keeps_ite (keeps_bind (keeps_await _) fun _ => keeps_pure _) (keeps_pure _)
/-- A fetch keeps the invariant, whether it finds its word or not. -/
theorem keeps_fetchText (u : Fin 4) (x : Xl) (pc : Word) : Keeps (fetchText u x pc) := by
  refine keeps_bind (keeps_fetchWord _ _) fun r => ?_
  split
  · exact keeps_pure _
  · refine keeps_bind (keeps_textWord _ _) fun r => ?_
    split
    · exact keeps_raise _ _
    · exact keeps_pure _

/-- Once fetched words are gone, no fetch unit of the cores named holds one (17 R352). -/
theorem textDrop_held (hit : Nat → Bool) (s : State) (u : Fin 4) (pa : Nat) :
    (hit s.cur = true → (textDrop hit s).core.heldWord u pa = none) ∧
    ∀ p ∈ (textDrop hit s).others, hit p.1 = true → p.2.heldWord u pa = none := by
  have hnone : ∀ c : Core, ({ c with text := Vector.replicate 4 [] } : Core).heldWord u pa = none := by
    intro c; simp [Core.heldWord, Vector.get_eq_getElem]
  unfold textDrop
  refine ⟨fun h => ?_, fun p hp h => ?_⟩
  · simp only [h, if_true]; exact hnone _
  · obtain ⟨q, -, rfl⟩ := List.mem_map.1 hp
    simp only at h ⊢
    simp only [h, if_true]; exact hnone _
theorem inv_textDrop {s : State} (h : s.Inv) (hit : Nat → Bool) : (textDrop hit s).Inv := by
  have hs : ∀ n (c : Core), c.sound = true → (if hit n then { c with text := Vector.replicate 4 [] } else c).sound = true := by
    intro n c hc; split
    · exact sound_iff.2 (sound_iff.1 hc)
    · exact hc
  obtain ⟨h1, h2, h3, h4, h5⟩ := h
  refine ⟨h1, h2, hs _ _ h3, ?_, ?_⟩
  · show ((s.others.map _).map _).Pairwise _
    rw [List.map_map]; exact h4
  · intro p hp
    obtain ⟨q, hq, rfl⟩ := List.mem_map.1 hp
    exact ⟨(h5 q hq).1, hs _ _ (h5 q hq).2⟩

/-- The firmware's lists are the policy's alone (16 R335). -/
theorem refreshPolicy_frame (s : State) : refreshPolicy s = { s with policy := (refreshPolicy s).policy } := rfl
theorem inv_refreshPolicy {s : State} (h : s.Inv) : (refreshPolicy s).Inv := h

end Sys2Proof.Machine
end

