-- ==== Sys2Proof/Laws/VecMem.lean ====
section
/-! SUPPORT. Laws of vector memory instructions: what planning, the sight of windows and the checks before the first access come to
when every element goes through. -/
set_option Elab.async false
namespace Sys2Proof.Machine

/-- Accesses that agree still agree once one of them is held (03 R57). -/
theorem agrees_walked {s : State} {x : Xl} {as : List (Acc × Word)} (h : s.agrees x as = true) {a : Acc × Word} (ha : a ∈ as) {t : Tlb}
    (ht : s.leafAt x a.1 a.2 = some t) : (s.walked x a.2 (some t)).agrees x as = true := by
  rw [agrees_iff] at h ⊢
  intro b hb
  obtain ⟨u, h1, h2, h3⟩ := h b hb
  refine ⟨u, h1, fun v hv hc => ?_, h3⟩
  rcases mem_walked hv with rfl | hv
  · exact h3 a ha v ht hc
  · exact h2 v hv hc

/-- The elements of an access lie in plain memory and agree. -/
def State.elemsPlain (s : State) (md : Mode) (ac : ElemAccess) (is : List Nat) : Prop :=
  s.agrees s.core.xl (is.map fun i => (md.acc, ac.addr i)) = true ∧
  ∀ i ∈ is, ac.check i = none ∧ s.plainAt s.core.xl md.acc (ac.n i) (ac.addr i) = true

/-- The translations that planning elements leaves held. -/
def State.walkedAll (s : State) (md : Mode) (ac : ElemAccess) (is : List Nat) : State :=
  is.foldl (fun u i => u.walked s.core.xl (ac.addr i) (s.leafAt s.core.xl md.acc (ac.addr i))) s

/-- The plan of a plain element. -/
def State.planOf (s : State) (md : Mode) (ac : ElemAccess) (i : Nat) : Nat × Plan :=
  (i, ⟨((s.leafAt s.core.xl md.acc (ac.addr i)).map fun t => pieceOf t (ac.addr i) (ac.n i)).toList, false⟩)

/-- The pieces of a plain element. -/
theorem pieces_plain {s u : State} {md : Mode} {ac : ElemAccess} {i : Nat} {t : Tlb} (hx : u.core.xl = s.core.xl)
    (hl : u.leafAt s.core.xl md.acc (ac.addr i) = some t) (hc : ac.check i = none)
    (hh : ∀ h ∈ u.allHeld, h.covers s.core.xl.ten s.core.xl.asid (vaBits (ac.addr i)) = true → h.like t (ac.addr i))
    (hp : u.plainAt s.core.xl md.acc (ac.n i) (ac.addr i) = true) :
    ac.pieces md.acc i u = .ok (.ok [pieceOf t (ac.addr i) (ac.n i)]) (u.walked s.core.xl (ac.addr i) (some t)) := by
  have h1 := (plainAt_leaf hl hp).1
  unfold ElemAccess.pieces
  rw [hc]
  simp only [bind, EStateM.bind, get, getThe, MonadStateOf.get, EStateM.get, hx]
  exact xlAccess_plain hl hh h1

/-- Plain elements are planned one by one, and only the translations held change (07 R148, R149). -/
theorem planElems_plain {s : State} {md : Mode} {ac : ElemAccess} {as : List Nat} (h : s.elemsPlain md ac as) :
    ∀ (is : List Nat), (∀ i ∈ is, i ∈ as) → ∀ u : State,
      u.core.xl = s.core.xl → u.cur = s.cur → u.agrees s.core.xl (as.map fun i => (md.acc, ac.addr i)) = true →
      (∀ k va, u.leafAt s.core.xl k va = s.leafAt s.core.xl k va) →
      (∀ k n va, u.plainAt s.core.xl k n va = s.plainAt s.core.xl k n va) →
      planElems md ac is u = .ok (is.map (s.planOf md ac), none)
        (is.foldl (fun u i => u.walked s.core.xl (ac.addr i) (s.leafAt s.core.xl md.acc (ac.addr i))) u) ∧
      ∃ v, elemKinds md ac is u = .ok (false, false) v := by
  intro is
  induction is with
  | nil => intro _ u _ _ _ _ _; exact ⟨rfl, u, rfl⟩
  | cons i is ih =>
    intro hs u hx hcur ha hl hp
    have hi := hs i (by simp)
    obtain ⟨hc, hpl⟩ := h.2 i hi
    obtain ⟨t, ht, hh, -⟩ := agrees_iff.1 ha (md.acc, ac.addr i) (List.mem_map.2 ⟨i, hi, rfl⟩)
    dsimp only at ht hh
    have hts : s.leafAt s.core.xl md.acc (ac.addr i) = some t := by rw [← hl]; exact ht
    have hpu : u.plainAt s.core.xl md.acc (ac.n i) (ac.addr i) = true := by rw [hp]; exact hpl
    have hpieces := pieces_plain (ac := ac) hx ht hc hh hpu
    obtain ⟨-, k2, k3, -, -⟩ := plainAt_leaf ht hpu
    have hplace : (pieceOf t (ac.addr i) (ac.n i)).place = .mem := k2
    have hdev : (pieceOf t (ac.addr i) (ac.n i)).tlb.pte.extractLsb' 54 2 ≠ 1 := k3
    obtain ⟨i1, v, i2⟩ := ih (fun j hj => hs j (by simp [hj])) (u.walked s.core.xl (ac.addr i) (some t)) hx hcur
      (agrees_walked ha (List.mem_map.2 ⟨i, hi, rfl⟩) ht) hl hp
    refine ⟨?_, v, ?_⟩
    · simp only [planElems, bind, EStateM.bind, hpieces, get, getThe, MonadStateOf.get, EStateM.get,
        planChecks_mem (s := u.walked s.core.xl (ac.addr i) (some t)) hplace hdev, i1, pure, EStateM.pure, List.map_cons,
        List.foldl_cons, State.planOf, hts, Option.map_some, Option.toList_some]
    · simp only [elemKinds, bind, EStateM.bind, hpieces, get, getThe, MonadStateOf.get, EStateM.get,
        planChecks_mem (s := u.walked s.core.xl (ac.addr i) (some t)) hplace hdev,
        (mem_piece (s := u.walked s.core.xl (ac.addr i) (some t)) hplace hdev).2.2.2, i2, pure, EStateM.pure, Bool.or_self]

/-- The plans of plain elements, and the translations then held (07 R148, R149). -/
theorem planElems_ok {s : State} {md : Mode} {ac : ElemAccess} {is : List Nat} (h : s.elemsPlain md ac is) :
    planElems md ac is s = .ok (is.map (s.planOf md ac), none) (s.walkedAll md ac is) :=
  (planElems_plain h is (fun _ h => h) s rfl rfl h.1 (fun _ _ => rfl) fun _ _ _ => rfl).1
/-- Plain elements use no state through windows (17 R348). -/
theorem elemKinds_ok {s : State} {md : Mode} {ac : ElemAccess} {is : List Nat} (h : s.elemsPlain md ac is) :
    ∃ v, elemKinds md ac is s = .ok (false, false) v :=
  (planElems_plain h is (fun _ h => h) s rfl rfl h.1 (fun _ _ => rfl) fun _ _ _ => rfl).2

/-- An entry that uses nothing through windows is itself. -/
@[simp] theorem using_none (e : Entry) : e.using (false, false) = e := by unfold Entry.using; simp
/-- A vector memory instruction that waits for no remote element, and whose sight finds no window, runs as any VQ instruction. -/
theorem memRun_plain {e : Entry} {resume : M Unit} {sight : M (Bool × Bool)} {body : M Unit} {s v : State}
    (hw : s.core.wait ≠ some .remote) (h : sight s = .ok (false, false) v) : memRun e resume sight body s = vecRun e body s := by
  unfold memRun peek; rw [if_neg (by simpa using hw), h]; simp
/-- One that waits performs its awaited element first, and goes on as any VQ instruction (14 R282, R293). -/
theorem memRun_resumed {e : Entry} {resume : M Unit} {sight : M (Bool × Bool)} {body : M Unit} {s t v : State}
    (hw : s.core.wait = some .remote) (hr : resume s = .ok () t) (h : sight t = .ok (false, false) v) :
    memRun e resume sight body s = vecRun e body t := by
  unfold memRun peek; rw [if_pos (by simp [hw]), hr]; simp [h]
/-- An instruction that does not go on after a wait finds the registers as they are. -/
@[simp] theorem origin_none {c : Core} (h : c.wait = none) : c.origin = c.regs := by unfold Core.origin; rw [h]
/-- Only the vector registers and VSTART of an instruction's start are held (07 R157, R159). -/
theorem origin_eq (c : Core) : c.origin = { c.regs with v := c.origin.v, vstart := c.origin.vstart } := by
  unfold Core.origin; split <;> rfl
/-- An instruction that no UNBIND reaches from inside has no stop of its own (16 R333). -/
theorem cutPoint_none {s : State} (h : s.core.cuts = false) (place : Nat → Nat) (lo hi : Nat) : cutPoint place lo hi s = .ok none s := by
  simp only [cutPoint, bind, EStateM.bind, get, getThe, MonadStateOf.get, EStateM.get, h]
  rfl
/-- A PREEMPT stops an O = 0 load or a store at an element still to be performed, or at the end (07 R154, 13 R266). -/
theorem nextActive_cases (act : List Nat) (hi k : Nat) :
    nextActive act hi k = hi ∨ (nextActive act hi k ∈ act ∧ k ≤ nextActive act hi k ∧ nextActive act hi k < hi) := by
  unfold nextActive
  cases h : act.find? fun i => decide (k ≤ i) with
  | none => exact .inl (by simp)
  | some i =>
    have h1 := List.find?_some h
    have h2 := List.mem_of_find?_eq_some h
    simp only [decide_eq_true_eq] at h1
    simp only [Option.getD_some]
    by_cases hi' : hi ≤ i
    · exact .inl (Nat.min_eq_left hi')
    · rw [Nat.min_eq_right (by omega)]; exact .inr ⟨h2, h1, by omega⟩
/-- Without a stop every planned element is performed. -/
@[simp] theorem belowStop_none (ps : List (Nat × Plan)) : belowStop ps none = ps := rfl

end Sys2Proof.Machine
end

