-- ==== Sys2Proof/Laws/Windows.lean ====
section
/-! SUPPORT. Laws of accumulation windows and of a frame that is resumed: what the fold of a merge leaves as it is, and when a
resumption changes nothing. -/
namespace Sys2Proof.Machine

/-- Writes of pieces in order change memory alone and keep its form (13 R276). -/
theorem mergeWrites_keeps (ps : List (Piece × List Byte)) {s : State} (h : s.Inv) :
    (ps.foldl (fun s q => s.homeWrite q.1.pa q.2) s).Inv ∧ (ps.foldl (fun s q => s.homeWrite q.1.pa q.2) s).core = s.core := by
  induction ps generalizing s with
  | nil => exact ⟨h, rfl⟩
  | cons p ps ih => exact ⟨(ih (inv_homeWrite h _ _)).1, (ih (inv_homeWrite h _ _)).2⟩

/-- The folds of a merge keep the invariant and every register and byte of the core (13 R276). -/
theorem mergeFold_keeps (d : Window) (mode : Nat) (es : List (List Piece × List Nat)) {s : State} (h : s.Inv) :
    (mergeFold d mode es s).1.Inv ∧ (mergeFold d mode es s).1.core = s.core := by
  unfold mergeFold
  suffices hs : ∀ a : State × Nat, a.1.Inv → a.1.core = s.core →
      (es.foldl (fun a e =>
        let q := mergeValue d.fmt.toNat mode d.op (leNat (e.1.flatMap (directRead a.1))) e.2
        ((splitBytes e.1 (leBytes d.width q.1)).foldl (fun s q => s.homeWrite q.1.pa q.2) a.1, a.2 ||| q.2)) a).1.Inv ∧
      (es.foldl (fun a e =>
        let q := mergeValue d.fmt.toNat mode d.op (leNat (e.1.flatMap (directRead a.1))) e.2
        ((splitBytes e.1 (leBytes d.width q.1)).foldl (fun s q => s.homeWrite q.1.pa q.2) a.1, a.2 ||| q.2)) a).1.core = s.core from
    hs (s, 0) h rfl
  induction es with
  | nil => exact fun a hi hc => ⟨hi, hc⟩
  | cons e es ih => exact fun a hi hc => ih _ (mergeWrites_keeps _ hi).1 ((mergeWrites_keeps _ hi).2.trans hc)

/-- Outside a frame a boundary changes no register (15 R320). -/
theorem resumed_of_not_inFrame {r : Regs} (h : r.inFrame = false) : r.resumed = r := by simp [Regs.resumed, h]

/-- A frame that stands at one of its words, with an iteration left, goes on there (15 R320). -/
theorem resumed_at_word {r : Regs} (hp : (r.rps.extractLsb' 49 4).toNat < frameLen (r.rps.extractLsb' 53 4))
    (hi : (r.rps.extractLsb' 24 24).toNat < (r.rps.extractLsb' 0 24).toNat) : r.resumed = r := by
  unfold Regs.resumed; rw [decide_eq_false (by omega), decide_eq_false (by omega)]; simp

end Sys2Proof.Machine
end

