-- ==== Sys2Proof/Tests/Slice0.lean ====
section
/-! SUPPORT. Tests: the operand limits, words written out from the spec's encodings, worked examples of the spec, and for every
statement with hypotheses a state and operands that meet them. -/
set_option Elab.async false
namespace Sys2Proof.Machine

/-! ### Operand limits: a term that breaks each is refused -/

/-- Register pairs (04 R86, R87), and the registers of engines (05 R104, R105, 06 R124, R125). -/
theorem test_limits_registers : ([.slLq 5 6 0, .slLqf 5 6 false 0, .ssSq 0 6 5, .ceFork 1 2 29 0, .emCopy 1 1 2 false false,
    .emCopy2 1 2 3 15 false false, .emCopy2 1 2 4 3 false false, .emFill 1 2 1 false, .gwLb 1 1 false true, .gwLh 2 2 true true,
    .gwLw 3 3 false true, .gwLd 4 4 false true, .gwSq 1 3 false false, .gwSprb 1 2 3 1 false false, .gwSprh 1 1 3 4 false false,
    .gwSprw 1 2 2 4 false false, .gwSprd 1 2 3 2 false false] : List Instr).all (fun i => !i.wellFormed) = true := by decide +kernel
/-- Rounding modes and formats of conversions (09 R187, R206, 08 R168). -/
theorem test_limits_rounding : ([.sfAdd 1 2 3 1 7, .sfSub 1 2 3 1 7, .sfMul 1 2 3 1 7, .sfDiv 1 2 3 1 7, .sfSqrt 1 2 1 7, .sfFma 1 2 3 1 7,
    .sfAdd 1 2 3 1 6, .sfSub 1 2 3 1 6, .sfMul 1 2 3 1 6, .sfDiv 1 2 3 1 6, .sfSqrt 1 2 1 6, .sfFma 1 2 3 1 6,
    .sfCvti 1 2 1 7, .sfCvtu 1 2 1 7, .sfIcvt 1 2 1 7, .sfUcvt 1 2 1 7, .sfWiden 1 2 0, .sfNarrow 1 2 1 7, .sfNarrow 1 2 0 1,
    .vvCvt 1 2 5 0 7, .vvF32f4 1 2 10 0 7, .vvTobfp 1 2 16 0 7, .vvFtoi 1 2 2 0 7, .vvFtou 1 2 2 0 7, .vvItof 1 2 5 0 7,
    .vvUtof 1 2 5 0 7, .vrDotb 1 2 3 0 false 7] : List Instr).all (fun i => !i.wellFormed) = true := by decide +kernel
/-- No-return atomics, system register numbers, scopes and handles (13 R269, 17 R342, 14 R290, 05 R95). -/
theorem test_limits_system : ([.amAdd 1 2 3 false true, .amMin 1 2 3 false true, .amMax 1 2 3 false true, .amMinu 1 2 3 true true,
    .amMaxu 1 2 3 true true, .amAnd 1 2 3 true true, .amOr 1 2 3 true true, .amXor 1 2 3 true true, .sySrd 1 0x008, .sySwr 1 0x075,
    .syFence 0, .syFence 6, .syIcinv 2, .ceFork 1 2 3 3, .ceOpen 1 3 0, .ceOpen 1 0 3, .ceOpen 16 0 1, .ceClose 16 2 2, .ceErd 1 2 18,
    .ceFencex 6 0 3, .ceFencex 0 6 3, .ceFencex 0 0 2, .ceColl 1 2 3] : List Instr).all (fun i => !i.wellFormed) = true := by
  decide +kernel
/-- Tile pairs, predicates and the fields of events (11 R229, R233, 12 R244, 26 R413, 27 R423, 05 R110). -/
theorem test_limits_tiles : ([.mxOpa 1 2 3 0 1, .mxSlide 3 2 3 0 1, .mtZero 1 0 true, .mtLd 1 2 3 0 true, .mtSt 5 2 3 0 true false,
    .mtRdrow 1 2 3 true, .mtWrrow 1 2 3 true, .vdDotv 1 2 3 0 3 4, .vdDotv 1 2 3 0 0 31, .chunkCommit 10, .hbmTrainingComplete 12 true,
    .quadStart 3, .illegalWord 3, .fetchError 3] : List Instr).all (fun i => !i.wellFormed) = true := by decide +kernel

/-! ### Words that the spec writes out -/

/-- Scalar families: 09 R182, R183, R184, R187, 20 R366, 23 R379. -/
theorem test_words_scalar : [decode 0x04A63800, decode 0x0788380E, decode 0x08A00064, decode 0x08AA103F, decode 0x0D27FFFF,
    decode 0x0CB00011, decode 0x28E84831, decode 0x294A5800, decode 0x2D4B6245, decode 0x2E529A07].map Except.toOption =
    [.saAdd 5 6 7, .saMinu 28 8 7, .siAddi 5 0 100, .siAndi 5 10 63, .suAhi 9 0x7FFFF, .suApc 5 0x00011, .smMulh 7 8 9 true true,
      .smMul 10 10 11, .sfFma 10 11 12 1 1, .sfMax 18 18 19 1].map some := by decide +kernel
/-- Loads, stores, atomics, control flow: 04 R84, R87, 13 R269, 15 R310-R316, 10 R212. -/
theorem test_words_memory : [decode 0x11523010, decode 0x1145F200, decode 0x126A6040, decode 0x17E249E8, decode 0x16065180,
    decode 0x30A63829, decode 0x300F7013, decode 0x18A03FFD, decode 0x1BB5A01A, decode 0x1C200040, decode 0x1C1FFFED,
    decode 0x20010000, decode 0x214B3801, decode 0x247FFFFA, decode 0x79250000].map Except.toOption =
    [.slLd 10 18 16, .slLqf 10 5 true 0x200, .slLwu 19 10 64, .ssSd 0xFE8 2 9, .ssSd 0x800 6 10, .amCas 5 6 7 true,
      .amMinu 0 15 14 false true, .brNe 5 0 0x1FFD, .brGeu 29 21 26, .jlJal 1 64, .jlJal 0 0x1FFFED, .jrJalr 0 1,
      .jrJtab 10 11 7, .lpLoop 1 0x3FFFFA, .rpRep 9 1 2].map some := by decide +kernel
/-- System and barrier instructions: 17 R342, R345, 16 R324, 14 R296. -/
theorem test_words_system : [decode 0x36600081, decode 0x341F1005, decode 0x34007000, decode 0x34009000, decode 0x35285000,
    decode 0x38450000, decode 0x38401000].map Except.toOption =
    [.sySrd 19 0x81, .sySwr 31 5, .syRet, .syPark, .syLaunch 9 8, .sqCfg 2 5, .sqArv 2].map some := by decide +kernel
/-- Vector state, loads and stores: 07 R136, R144, R156, R158, 13 R260, R264, R268. -/
theorem test_words_vector_memory : [decode 0x3CA00145, decode 0x3C0B6800, decode 0x3C000112, decode 0x400C0000, decode 0x400C0003,
    decode 0x446C0000, decode 0x446C6941, decode 0x490C2080, decode 0x48CC2042, decode 0x486A0082, decode 0x7C4D3000,
    decode 0x7C4D3001].map Except.toOption =
    [.vcSetti 5 2 5, .vcSetl 0 11 13, .vcSetti 0 0 18, .vlLd 0 12 0 false false, .vlLdff 0 12 0 false false,
      .vsSt 3 12 0 false false, .vsSts 3 12 13 2 true false, .vgGath 8 12 4 1 false false, .vgScat 6 12 4 0 true false,
      .vgScat 3 10 0 1 false false, .tlLd 2 13 6 0 false false, .tlSt 2 13 6 0 false false].map some := by decide +kernel
/-- Vector arithmetic, moves, reductions, masks and conversions: 09 R191, R196, R198, R205, 10 R216-R221, 09 R209. -/
theorem test_words_vector : [decode 0x4C20E049, decode 0x4C4438E2, decode 0x4C232021, decode 0x50611003, decode 0x54A00089,
    decode 0x54200004, decode 0x58C10140, decode 0x5922018B, decode 0x5C821803, decode 0x5CE30009, decode 0x5CA41098,
    decode 0x5CA40050, decode 0x5C640059, decode 0x5D40400A, decode 0x5C0A400B, decode 0x61229012].map Except.toOption =
    [.vaSrl 1 0 28 0 true, .vaClt 2 4 7 1 true, .vaCne 1 3 4 0 false, .vfDiv 3 1 2 0 false, .vxCompress 5 0 1, .vxIdx 1 0,
      .vrSum 6 1 2 true, .vrLasta 9 2 3, .vpAndn 4 2 3 0, .vpFfs 7 3 0, .vpConf 5 4 2 1, .vpUpto 5 4 0 true, .vpPart 3 4 0 0 true,
      .vpMrd 10 0 8, .vpMwr 0 10 8, .vvTobfp 9 2 18 0 1].map some := by decide +kernel
/-- The comb, verdicts, engine control and windows: 11 R230, R239, 12 R246, R253-R258, 05 R95, R98, 14 R291, 25 R401, 13 R274-R276. -/
theorem test_words_units : [decode 0x64885030, decode 0x68D4000A, decode 0x6E88602A, decode 0x6D800160, decode 0x6C802861,
    decode 0x6C120062, decode 0x6C147863, decode 0x728A5A00, decode 0x70010106, decode 0x728B0007, decode 0x740A5800,
    decode 0x74602021].map Except.toOption =
    [.mxOpa 2 4 5 0 3, .mtSt 3 10 0 0 false true, .vdDotv 20 8 12 0 1 10, .vdTail 12 2, .vdTest 4 0 5 0, .vdTkset 18,
      .vdTkupd 20 15 0, .ceFork 20 10 11 2, .ceFencex 1 0 1, .ceColl 20 11 0, .awWin 10 11 0 0, .awUpd 3 4 0 1].map some := by
  decide +kernel
/-- Engine programs: 05 R105, R106, 06 R124-R128; EA.ADD e4, e3, e6 and GB.EQ g2, g15, +2 by their formats. -/
theorem test_words_engines : [decode 0xC0410020, decode 0xCD544100, decode 0xC898FFFB, decode 0xC50D8000,
    decode 0xD10C0090, decode 0xD07B1EF0, decode 0xD0070230, decode 0xDC010000].map Except.toOption =
    [.emCopy 1 0 4 true false, .esOri 5 5 256, .ebNe 2 6 0x7FFB, .eaAdd 4 3 6, .gwLw 4 3 false true, .gwSprw 1 14 12 7 true true,
      .gwSq 1 12 true true, .geEnd].map some := by decide +kernel

/-! ### States for the tests -/

/-- Service FULL, a bound core, vector, mask and tile state clean, a handler, and the registers set by `f`. -/
def demo (f : Regs → Regs) : State := { State.reset with
  power := { Power.reset with svc := 4, dieOn := 7, quads := Vector.replicate 3 12 }
  core := { Core.reset with
    slot := { Slot.reset with state := .bound, ctxid := 77 }
    supvec := 0x9000
    regs := f { Regs.reset with stat := 0x5401, tvec := 0x9000, pc := 0x20000, ten := 5, asid := 6 } } }
/-- A vector state with VTYPE `c`, VL `n` and VSTART 0, and registers set by `f`. -/
def vecDemo (c n : Nat) (f : Regs → Regs) : State :=
  demo fun r => f { r with vtype := BitVec.ofNat 64 c, vl := BitVec.ofNat 64 n }
/-- The registers with elements of width `w` written from element 0 of v[n] on. -/
def layElems (n : BitVec 5) (w : Nat) (vs : List Nat) (r : Regs) : Regs := vs.zipIdx.foldl (fun r p => r.setElem n w p.2 p.1) r
/-- Page tables that map 64 KiB of memory at 0x30000 for loads and stores, and at 0x20000 for fetches; the rest of level 0 is empty. -/
def paged (s : State) : State :=
  (((((s.mapRegs fun r => { r with ptb := BitVec.ofNat 64 demoRoot }).homeWrite demoRoot (leBytes 8 (demoTable + 1))).homeWrite
    demoTable (leBytes 8 (demoLeaves + 1))).homeWrite (demoLeaves + 24) (leBytes 8 (0x1000000030000 + 0x1DB))).homeWrite
    (demoLeaves + 16) (leBytes 8 (0x1000000020000 + 0x123)))
/-- The state that an outcome goes on with. -/
def after (o : Out) : State := match o with
  | .next t => t
  | _ => State.reset
/-- The register file of that state. -/
def regsAfter (o : Out) : Regs := (after o).core.regs

/-! ### Scalar instructions: hand calculation from the tables of 09 R182-R187 -/

/-- Wraps, saturations and signs. -/
theorem test_scalar_results :
    let s := demo fun r => (((r.wr 1 0x7FFFFFFFFFFFFFFF).wr 2 1).wr 3 0x8000000000000000).wr 4 0xFFFFFFFFFFFFFFFF
    [.saAdd 5 1 2, .saAdds 5 1 2, .saSubs 5 3 2, .saAddw 5 4 2, .saSra 5 3 2, .saSlt 5 3 2, .saSltu 5 3 2, .saClz 5 2, .siAddi 5 0 0xFFF,
      .suAhi 5 0x80000, .smMulh 5 4 4 true false, .smDiv 5 3 4 true, .smRem 5 3 4 true].map (fun i => (regsAfter (exec i s)).x.get 5) =
    [0x8000000000000000, 0x7FFFFFFFFFFFFFFF, 0x8000000000000000, 0, 0xC000000000000000, 1, 0, 63, 0xFFFFFFFFFFFFFFFF,
      0xFFFFFFFF80000000, 0xFFFFFFFFFFFFFFFF, 0x8000000000000000, 0] := by decide +kernel
/-- x0 stays zero, and the next word follows (02 R38). -/
theorem test_x0 : let t := after (exec (.saAdd 0 1 2) (demo fun r => (r.wr 1 3).wr 2 4)); t.x 0 = 0 ∧ t.core.regs.pc = 0x20004 := by
  decide +kernel
/-- A zero divisor traps RANGE (0x12) with the dividend at this word (09 R184). -/
theorem test_divide_by_zero : let r := regsAfter (exec (.smDiv 5 1 2 false) (demo fun r => r.wr 1 9))
    r.cause = 0x12 ∧ r.tval = 9 ∧ r.epc = 0x20000 ∧ r.pc = 0x9000 ∧ r.x.get 5 = 0 := by decide +kernel
/-- 1/3 in binary32 rounded to nearest is 0x3EAAAAAB with NX; the fused product of 1.5 and 1.5 with 0.25 is 2.5 (09 R187). -/
theorem test_scalar_float :
    let s := demo fun r => (((r.wr 1 0x3F800000).wr 2 0x40400000).wr 3 0x3FC00000).wr 4 0x3E800000
    (regsAfter (exec (.sfDiv 5 1 2 1 1) s)).x.get 5 = 0x3EAAAAAB ∧ (regsAfter (exec (.sfDiv 5 1 2 1 1) s)).fst = 1 ∧
    (regsAfter (exec (.sfFma 4 3 3 1 1) s)).x.get 4 = 0x40200000 := by decide +kernel
/-- A taken branch, a jump through its own link register, and a misaligned target (15 R310, R313). -/
theorem test_jumps :
    let s := demo fun r => (r.wr 1 0x30000).wr 2 0x30002
    (regsAfter (exec (.brNe 1 0 0x1FFD) s)).pc = 0x1FFF4 ∧ (regsAfter (exec (.jrJalr 1 1) s)).pc = 0x30000 ∧
    (regsAfter (exec (.jrJalr 1 1) s)).x.get 1 = 0x20004 ∧ (regsAfter (exec (.jrJalr 1 2) s)).cause = 8 ∧
    (regsAfter (exec (.jrJalr 1 2) s)).x.get 1 = 0x30000 := by decide +kernel
/-- The swap of a binary value and the comparison of CAS: old values come back, sign-extended under .W (13 R269, R270). -/
theorem test_atomics :
    let s := (paged (demo fun r => ((r.wr 1 0x30008).wr 2 0x5).wr 3 0xFFFFFFFF80000000)).homeWrite 0x1000000030008 (leBytes 4 0x80000000)
    let t := after (exec (.amCas 3 1 2 true) s)
    t.x 3 = 0xFFFFFFFF80000000 ∧ t.seesNat 0x1000000030008 4 = 5 ∧ t.home 0x1000000030008 = 0 := by decide +kernel
/-- A store at an odd address, read back by a signed load; memory itself changes only at the commit (04 R84, R87, 14 R283). -/
theorem test_store_load :
    let s := paged (demo fun r => (r.wr 1 0x30003).wr 2 0x1234FF80)
    let t := after (exec (.ssSw 0 1 2) s)
    (regsAfter (exec (.slLh 5 1 0) t)).x.get 5 = 0xFFFFFFFFFFFFFF80 ∧ t.home 0x1000000030003 = 0 ∧
    (after (exec (.syFence 1) (t.mapChunk fun c => { c with count := 1 }))).home 0x1000000030003 = 0x80 := by decide +kernel

/-! ### Vector instructions: worked examples of the spec -/

/-- The division of 09 R196: the trap FP at element 2, and the results of the elements below it. -/
theorem test_vf_div :
    let s := vecDemo 5 6 fun r => layElems 1 32 [0x3F800000, 0x40000000, 0x40400000, 0x40800000, 0x40A00000, 0x40C00000]
      (layElems 2 32 [0x3F800000, 0x40000000, 0, 0x40800000, 0, 0x3F800000] { r with fst := 0x4000 })
    let r := regsAfter (exec (.vfDiv 3 1 2 0 false) s)
    r.cause = 0x0C ∧ r.vstart = 2 ∧ r.tval = 8 ∧ (List.range 6).map (r.elem 3 32) = [0x3F800000, 0x3F800000, 0, 0, 0, 0] := by
  decide +kernel
/-- The shift of 09 R199: 0x81, 0x01 by one bit. -/
theorem test_vx_shlw :
    let r := regsAfter (exec (.vxShlw 2 1 5) (vecDemo 0 2 fun r => layElems 1 8 [0x81, 0x01] (r.wr 5 1)))
    r.elem 2 8 0 = 2 ∧ r.elem 2 8 1 = 3 := by decide +kernel
/-- The segmented sum of 09 R205: 10.0, 10.0 and 25.0. -/
theorem test_vr_sum :
    let v := [0x3F800000, 0x40000000, 0x40400000, 0x40800000, 0x41200000, 0x40A00000, 0x40A00000, 0x40A00000, 0x40A00000, 0x40A00000]
    let r := regsAfter (exec (.vrSum 6 1 2 true) (vecDemo 5 10 fun r => layElems 1 32 v { r with m := r.m.set 2 0x31 }))
    (List.range 4).map (r.elem 6 32) = [0x41200000, 0x41200000, 0x41C80000, 0] := by decide +kernel
/-- The block of 09 R209: header and planes of 1.25 and −0.75 in bfp4. -/
theorem test_vv_tobfp :
    let r := regsAfter (exec (.vvTobfp 9 2 18 0 1) (vecDemo 5 32 (layElems 2 32 [0x3FA00000, 0xBF400000])))
    (List.range 5).map (r.elem 9 32) = [0x000FF37D, 3, 0, 3, 2] ∧ r.fst = 0 := by decide +kernel
/-- The outer product of 11 R231: the exact sum 2^24 + 2, in row 0 alone. -/
theorem test_mx_opa :
    let s := vecDemo 7 256 fun r => { layElems 4 16 [0x3F80, 0x3F80, 0x3F80, 0x3F80] (layElems 5 16 [0x3F00, 0x3F00, 0x3F00, 0x3F00] r) with
      t := r.t.set 2 0x4B800000, m := r.m.set 1 1 }
    let r := regsAfter (exec (.mxOpa 2 4 5 1 3) s)
    ((r.row 2 0 false).take 2) = [0x4B800001, 0] ∧ r.fst = 0 := by decide +kernel
/-- The tensor of 07 R160: element offsets 0x44 to 0xC8 in order, and VL trimmed to 7. -/
theorem test_tl_ld :
    let s := (List.range 12).foldl (fun s k => s.homeWrite (0x1000000030000 + 64 * (k % 4) + 4 * (k / 4)) [BitVec.ofNat 8 (k + 1)])
      (paged (vecDemo 5 8 fun r => layElems 6 64 [0x30000, 0x205, 4, 3, 0, 0, 64, 4] (r.wr 13 5)))
    let r := regsAfter (exec (.tlLd 2 13 6 0 false false) s)
    r.vl = 7 ∧ r.vstart = 0 ∧ (List.range 8).map (r.elem 2 32) = [6, 7, 8, 9, 10, 11, 12, 0] := by decide +kernel
/-- The token of 12 R249 is refused by an addition as binary32 (08 R172). -/
theorem test_token :
    let r := regsAfter (exec (.vfAdd 3 1 2 0 false) (vecDemo 5 2 (layElems 1 32 [0x3F800000, 0x7F8A0003])))
    r.cause = 0x0B ∧ r.tval = 0x7F8A0003 ∧ r.vstart = 1 := by decide +kernel
/-- The merge of 13 R276: two copies hold 1.0, memory 2^24; the fold rounds twice to 2^24, with NX. -/
theorem test_aw_merge :
    let w : Window := ⟨true, 0x30000, 1, 0x10000, 0, 5⟩
    let s := (paged (vecDemo 5 1 fun r => { r with win := r.win.set 0 w })).homeWrite 0x1000000030000 (leBytes 4 0x4B800000)
    let s1 := { s with core := { s.core with scratch := memWrite (memWrite [] 0x10000 w.fresh) 0x10000 (leBytes 8 0x3F8000003F800000) } }
    let t := after (exec (.awMerge 0) s1)
    t.homeNat 0x1000000030000 4 = 0x4B800000 ∧ t.core.regs.fst = 1 ∧ memRead t.core.scratch 0x10000 8 = leBytes 8 0x8000000080000000 := by
  decide +kernel
/-- The relocations of 24: the words patched at B = 0x41_2345_6000, and the overflow of entry 2 at B = 0x52_0000_0000. -/
theorem test_relocations :
    let rels : List Rel := [⟨8, 1, 5, 0, 2, 2 ^ 32 - 1, 0⟩, ⟨16, 1, 6, 0, 2, 2 ^ 32 - 1, 0⟩, ⟨56, 1, 7, 0, 1, 2 ^ 32 - 1, 0⟩,
      ⟨72, 1, 2, 0, 6, 2 ^ 32 - 1, 0⟩, ⟨76, 1, 3, 0, 6, 3, 0⟩, ⟨56, 2, 1, 0, 7, 2 ^ 32 - 1, 0⟩]
    let word (w : Nat) := leBytes 4 w
    let text := List.replicate 8 0 ++ word 0x0CC00000 ++ List.replicate 4 0 ++ word 0x10C63000 ++ List.replicate 36 0 ++ word 0x1C200000 ++
      List.replicate 12 0 ++ word 0x0CB00000 ++ word 0x08A50000 ++ List.replicate 4 0
    let run (b : Nat) := let at' (k : Nat) := alignUp b 65536 + 65536 * k
      relocateAll ⟨[0, 0x4123200000, 0x4123200008, b, b + 40, b + 72, at' 0, at' 1], [2], at' 2, rels⟩ 8 0
        [⟨1, b, 84, text⟩, ⟨2, at' 0, 64, List.replicate 64 0⟩, ⟨3, at' 1, 16, List.replicate 16 0⟩] rels
    (match run 0x4123456000 with
      | .ok ps => ps.map (fun p => (p.kind, p.va)) == [(1, 0x4123456000), (2, 0x4123460000), (3, 0x4123470000)] &&
        [8, 16, 56, 72, 76].map (fun o => field ((ps.map (·.data)).getD 0 []) o 4) ==
          [0x0CC00000, 0x10C63008, 0x1C36A7F2, 0x0CB0000A, 0x08A50FB8] && field ((ps.map (·.data)).getD 1 []) 56 8 == 0x4123470000
      | .error _ => false) = true ∧
    (match run 0x5200000000 with
      | .error (true, 2) => true
      | _ => false) = true := by decide +kernel

/-! ### Witnesses: for every statement with hypotheses, states and operands that meet them together, each clause by itself -/

/-- A state that can run: the demonstration with pages. -/
def mem0 : State := paged (demo fun r => ((r.wr 1 0x30000).wr 2 0x3FFF8).wr 3 5)
/-- The same with vector state of VTYPE `c` and VL `n`. -/
def vmem (c n : Nat) : State := mem0.mapRegs fun r => { r with vtype := BitVec.ofNat 64 c, vl := BitVec.ofNat 64 n }

theorem witness_DecodeOfEncode : ([.saAdd 31 31 31, .ssSd 0xFFF 31 31, .gwSprd 0 1 2 3 false true, .vdDotv 31 31 31 15 2 30, .lpLoop 15 0x3FFFFF,
    .emCopy2 15 14 13 11 true true] : List Instr).all (fun i => i.wellFormed && (encode i).isSome) = true := by
  decide +kernel
theorem witness_EncodeOfDecode : decode 0x6E88602A = .ok (.vdDotv 20 8 12 0 1 10) := by decide +kernel

theorem witness_StepRunsTheDecodedInstruction :
    let s := mem0.homeWrite 0x1000000020000 (leBytes 4 0x04A63800)
    s.core.event = none ∧ s.agenda = [] ∧ s.canRun = true ∧ s.core.endAfter = none ∧ s.core.entering = false ∧
    (match atBoundary s with
      | .going u => decide (u = s)
      | _ => false) = true ∧ s.core.needsGrant = false ∧
    s.core.regs.inFrame = false ∧ s.agrees s.core.xl [(.fetch, s.pc)] = true ∧ s.plainAt s.core.xl .fetch 4 s.pc = true ∧
    engineMajor (BitVec.ofNat 32 (s.homeNat (s.paOf s.core.xl .fetch s.pc) 4)) = false ∧
    decode (BitVec.ofNat 32 (s.homeNat (s.paOf s.core.xl .fetch s.pc) 4)) = .ok (.saAdd 5 6 7) := by decide +kernel
/-- A core whose write of TINV has been acknowledged, whose own text is mapped no more. -/
def held0 : State := (demo fun r => r.wr 3 5).mapCore fun c => { c with
  wait := some .tinv, held := some ⟨((encode (.sySwr 3 0x73)).getD 0), c.regs.v, 0, false⟩ }
theorem witness_StepRunsTheDecodedInstruction_held : held0.core.boundary = false ∧ held0.core.event = none ∧ held0.agenda = [] ∧
    held0.canRun = true ∧ held0.core.needsGrant = false ∧ held0.core.regs.inFrame = false ∧
    (match atBoundary held0 with
      | .going u => decide (u = held0)
      | _ => false) = true ∧
    (held0.core.held.map (·.word)).map decode = some (.ok (.sySwr 3 0x73)) := by decide +kernel
theorem witness_StepRunsTheDecodedInstruction_fetches : let s := mem0.homeWrite 0x1000000020000 (leBytes 4 0x04A63800)
    Claims.fetches s 0x04A63800 [] ∧ Claims.holds s.core 0x04A63800 ⟨0x04A63800, s.core.regs.v, 0, false⟩ ∧
    Claims.fetches held0 ((encode (.sySwr 3 0x73)).getD 0) [] := by
  refine ⟨?_, ⟨fun _ => rfl, fun k h => nomatch h.1⟩, ?_⟩
  · unfold Claims.fetches Claims.reads; decide +kernel
  · unfold Claims.fetches; exact ⟨rfl, _, rfl, rfl⟩
/-- A word of memory has changed since the core, and its engine 1, fetched its line; the oracle picks what they hold, or is empty. -/
def stale0 (ora : List Nat) : State := { (mem0.homeWrite 0x1000000020000 (leBytes 4 0x04A63800)).mapCore fun c => { c with
  text := (c.text.set 3 [⟨0x40000000800, [0x04A63801]⟩]).set 1 [⟨0x40000000800, [0xC50D8001]⟩] } with oracle := ora }
theorem witness_StepRunsTheDecodedInstruction_stale :
    Claims.fetches (stale0 [1]) 0x04A63801 [] ∧ Claims.fetches (stale0 []) 0x04A63800 [] ∧ Claims.fetches (stale0 [0, 4]) 0x04A63800 [4] ∧
    Claims.reads (stale0 [2]) 1 0x1000000020000 0xC50D8001 [] := by
  unfold Claims.fetches Claims.reads; decide +kernel
/-- The held word runs where the oracle picks it, SA.SUB for SA.ADD, and the home's elsewhere (17 R351). -/
theorem test_stale_text : let s (ora : List Nat) := (stale0 ora).mapRegs (·.wr 7 1)
    (regsAfter (step (s [1]))).x.get 5 = BitVec.allOnes 64 ∧ (regsAfter (step (s []))).x.get 5 = 1 ∧
    (after (step (stale0 []))).core.heldWord 3 0x1000000020000 = some 0x04A63800 ∧
    (after (step (stale0 [1]))).core.heldWord 3 0x1000000020000 = some 0x04A63801 := by decide +kernel
/-- An acknowledged SY.ICINV takes every fetched word away (17 R352). -/
theorem test_icinv_drops : let s := (stale0 []).mapCore fun c => { c with icinv := some 3 }
    (after (exec .icinvAcknowledged s)).core.heldWord 3 0x1000000020000 = none ∧
    (after (exec .icinvAcknowledged s)).core.heldWord 1 0x1000000020000 = none ∧
    (after (exec .icinvAcknowledged s)).core.icinv = none := by decide +kernel
/-- A core whose chunk started at element 2 of an instruction that began at 0. -/
def inside0 : Core := let c := { mem0.core with
    regs := { mem0.core.regs with vstart := 2 }, held := some ⟨0x400C0000, mem0.core.regs.v, 0, false⟩ }
  { c with chunk := some { c.newChunk with begun := true } }
/-- A squash puts it back inside: no clock changes there, and a wait that ends leaves it there (14 R281, 27 R426). -/
theorem test_squash_inside : inside0.squashed.between = false ∧ inside0.squashed.wait = some .midway ∧
    inside0.squashed.regs.vstart = 2 ∧ inside0.goesOn = some .midway ∧ mem0.core.goesOn = none ∧ mem0.core.between = true := by
  decide +kernel
theorem witness_ServiceRisesAndFalls_inside : Claims.inside inside0 ⟨0x400C0000, mem0.core.regs.v, 0, false⟩ ∧
    (inside0.chunk.bind (·.inside)).isSome = true ∧ Claims.onward inside0 = some .midway ∧ Claims.onward mem0.core = none ∧
    Claims.fetching { inside0 with wait := some .midway } := by
  refine ⟨⟨rfl, .inr (by decide +kernel)⟩, ?_⟩; decide +kernel
/-- A singleton chunk ends the squash count and the reservation of the chunk in whose place it stands (14 R288). -/
theorem test_singleton_ends_count : let s : State := { mem0.mapCore fun c => { c with squashes := 3, reserved := true } with grants := [4, 0] }
    (commitSingle 2 [] s).map (fun t => (t.core.squashes, t.core.reserved, t.grants)) = some (0, false, [4]) := by decide +kernel
/-- A queue launched later waits behind one that waits already, whatever the queues' first launches were (16 R335). -/
theorem test_launch_waits : let k (q n : Nat) (st : CtxState) : Ctx := ⟨BitVec.ofNat 64 n, q, st, BitVec.ofNat 64 n, 0, 1, 0, none, 0, 0, 5, 6, 0,
      Vector.replicate 32 0, 3, 0⟩
    (refreshPolicy { mem0 with
      ctxs := [k 2 1 .ended, k 1 2 .pending, k 2 3 .pending], policy := { Policy.reset with waiting := [(1, 0)] } }).policy.waiting =
      [(1, 0), (2, 0)] := by decide +kernel
/-- The write retires with no fetch, though its text is mapped no more (03 R61, 14 R282). -/
theorem test_held : (after (step held0)).core.prog = .retired ∧ (after (step held0)).core.regs.pc = held0.core.regs.pc + 4 ∧
    (after (step held0)).core.held = none := by decide +kernel
/-- Engine 1 runs a word at 0x20000. -/
def engDemo (w : Nat) : State := (((mem0.homeWrite 0x1000000020000 (leBytes 4 w)).mapEngine 1 fun g => { g with
  run := .running, serial := 3, pc := 0x20000, ten := 5, asid := 6, ptb := BitVec.ofNat 64 demoRoot, sup := true }))
theorem witness_StepRunsWhatTheAgendaNames :
    let s := { engDemo 0xC50D8000 with agenda := [⟨0, .engine 1⟩, ⟨143, .event .bind⟩] }
    let f := ({ s with agenda := [⟨143, .event .bind⟩] } : State).focus (0 % 144)
    let w := BitVec.ofNat 32 (f.homeNat (f.paOf (f.engine 1).xl .fetch (f.engine 1).pc) 4)
    f.engineRuns 1 = true ∧ f.fenced (pathOf 1) f.cur f.core.slot.ctxid = false ∧ (f.engine 1).pc.extractLsb' 0 2 = 0 ∧ f.agrees (f.engine 1).xl [(.fetch, (f.engine 1).pc)] = true ∧
    f.plainAt (f.engine 1).xl .fetch 4 (f.engine 1).pc = true ∧ engineTakes 1 w = true ∧ decode w = .ok (.eaAdd 4 3 6) ∧
    Claims.reads f 1 (f.paOf (f.engine 1).xl .fetch (f.engine 1).pc) w [] ∧
    encode .bind = none ∧ s.stopped = false := by unfold Claims.reads; decide +kernel
theorem witness_StepsGoOn :
    (match step { State.reset with agenda := [⟨0, .event (.registerWrite (.dev 0x4000000000000) 1)⟩] } with
      | .fault f => decide (f = .unbacked 0x4000000000000)
      | _ => false) = true := by decide +kernel
theorem witness_EveryStepKeepsTheInvariant : mem0.Inv ∧ State.reset.Inv ∧
    (match step (mem0.homeWrite 0x1000000020000 (leBytes 4 0x04A63800)) with
      | .next t => decide (t.core.regs.pc = 0x20004)
      | _ => false) = true := by unfold State.Inv; decide +kernel
theorem witness_ResetsKeepWhatTheyMust : mem0.Inv ∧ mem0.power.svc ≠ 0 ∧ mem0.power.svc ≠ 5 ∧
    Instr.warmReset ∈ [Instr.coldReset, .warmReset, .fabricCommandedReset] ∧
    Instr.coldReset ∈ [Instr.coldReset, .warmReset, .fabricCommandedReset] := by unfold State.Inv; decide +kernel

theorem witness_ScalarIntegerResults : (∃ v, Claims.integerResult mem0 (.saAdd 31 1 2) = some (31, v)) ∧
    (∃ v, Claims.integerResult mem0 (.smDiv 0 1 3 true) = some (0, v)) ∧ mem0.x 0 = 0 ∧ ∃ v, Claims.integerResult mem0 (.sqRd 5 7) = some (5, v) :=
  ⟨⟨_, rfl⟩, ⟨_, rfl⟩, rfl, ⟨_, rfl⟩⟩
/-- Scalar registers with binary32 values, x4 a token; DZ is enabled. -/
def fp0 : State := demo fun r => { (((r.wr 1 0x3F800000).wr 2 0x40000000).wr 4 0x7F8A0002) with fst := 0x4000 }
theorem witness_ScalarFloatResults : ∃ ops v, Claims.scalarFp fp0 (.sfNarrow 31 1 1 6) = some (31, 1, ops, v, 6) ∧
    (∀ x ∈ ops, isToken x = false) ∧ (fp0.core.regs.fst.toNat / 2 ^ 11) &&& (v.2 % 32) = 0 := ⟨_, _, rfl, by decide +kernel, by decide +kernel⟩
theorem witness_ScalarFloatResults_numbers : Claims.finite 5 0x7F7FFFFF = true ∧ Claims.finite 5 0x80000001 = true ∧
    Claims.finite 9 0x7E = true ∧ Claims.finite 10 7 = true ∧ Claims.finite 4 1 = true := by decide +kernel
theorem witness_ScalarFloatResults_signs : 0 ≤ Claims.value 5 0x3F800000 ∧ Claims.value 5 0x3F800000 ≠ 0 := by
  have h : (0x3F800000 : Nat).testBit 31 = false := by decide
  simp only [Claims.value, fpFrac, fpWidth, fpBias]; norm_num [h]
theorem witness_ScalarTraps : fp0.x 3 = 0 ∧ (∃ ops v, Claims.scalarFp fp0 (.sfAdd 5 1 4 1 0) = some (5, 1, ops, v, 0) ∧
      ops.find? isToken = some 0x7F8A0002) ∧
    ∃ ops v, Claims.scalarFp fp0 (.sfDiv 5 1 3 1 0) = some (5, 1, ops, v, 0) ∧ ops.find? isToken = none ∧
      (fp0.core.regs.fst.toNat / 2 ^ 11) &&& (v.2 % 32) ≠ 0 :=
  ⟨by decide +kernel, ⟨_, _, rfl, by decide +kernel⟩, _, _, rfl, by decide +kernel, by decide +kernel⟩

theorem witness_Branches : ∃ c, Claims.branch mem0 (.brGeu 1 2 0x1000) = some (c, 0x1000) := ⟨_, rfl⟩
theorem witness_Jumps : (mem0.x 1).toNat % 4 = 0 ∧ (mem0.x 3).toNat % 4 ≠ 0 := by decide +kernel
/-- A table of one entry at 0x30000. -/
def jt : State := (mem0.mapRegs fun r => r.wr 4 1).homeWrite 0x1000000030000 (leBytes 4 0x100)
theorem witness_Jumps_table : (jt.x 4).toNat ≤ (jt.x 3).toNat ∧ (jt.x 0).toNat < (jt.x 4).toNat ∧ jt.core.wait = none ∧
    (jt.x 1 + 4 * jt.x 0).toNat % 4 = 0 ∧ ((jt.setX 5 1).x 5 + 4 * jt.x 0).toNat % 4 ≠ 0 ∧ jt.unreserved = true ∧ jt.reaches .load 4 [jt.x 1 + 4 * jt.x 0] = true ∧
    (jt.core.regs.pc + (BitVec.ofNat 32 (jt.seesNat (jt.paOf jt.core.xl .load (jt.x 1 + 4 * jt.x 0)) 4)).signExtend 64).toNat % 4 = 0 := by
  decide +kernel
/-- VL 16 of 100 elements left. -/
def strip : State := vecDemo 5 16 fun r => { r with vrem := 100 }
theorem witness_LoopTakesAStrip : let r := strip.core.regs
    r.off 10 = false ∧ r.vill = false ∧ (r.vl.toNat = 0 → r.count = 0) ∧
    ((0xF : BitVec 4) = 0 ∨ r.vl.toNat % (fmtUnit r.fmt).1 = 0 ∨ r.count - min r.vl.toNat r.count = 0) := by decide +kernel
/-- VC.SETTI leaves vector state dirty and VC.VLMAX, which writes none of it, does not (07 R139, 17 R348). -/
theorem test_vlmax_status : let s := strip.mapRegs fun r => { r with stat := setField r.stat 10 2 1 }
    (regsAfter (exec (.vcSetti 5 0 1) s)).stat.extractLsb' 10 2 = 2 ∧ (regsAfter (exec (.vcVlmax 5) s)).stat.extractLsb' 10 2 = 1 ∧
    (regsAfter (exec (.vcVlmax 5) s)).x.get 5 = BitVec.ofNat 64 s.core.regs.vlmax := by decide +kernel
theorem witness_VectorLengthIsGranted : strip.core.regs.off 10 = false ∧ (strip.x 1).toNat < 2 ^ 48 := by decide +kernel

theorem witness_TrapEntersTheHandler : mem0.unreserved = true := by decide +kernel
/-- The demonstration in user mode. -/
def user0 : State := mem0.mapRegs fun r => { r with stat := 0x5400 }
theorem witness_SystemCallsAndReturns : mem0.unreserved = true ∧ mem0.core.regs.stat.getLsbD 0 = true ∧ user0.unreserved = true ∧
    user0.core.regs.stat.getLsbD 0 = false := by decide +kernel
theorem witness_SystemRegisters : (!(mem0.core.regs.user && privRead 0x82) && !(mem0.core.regs.off 10 && vecReg 0x82)) = true ∧
    (0x82 : BitVec 12) ≠ 0x41 ∧ mem0.unreserved = true ∧ (!(mem0.core.regs.user && privWrite 0x10) && !(mem0.core.regs.off 10 && vecReg 0x10)) = true ∧
    Claims.plainSys 0x10 = true ∧ isToken (mem0.x 3).toNat = false ∧ isToken ((mem0.setX 3 0x7F8A0003).x 3).toNat = true ∧ (0x70 : BitVec 12).toNat ∈ [0x70, 0x71, 0x72] ∧ user0.core.regs.user = true ∧
    privRead 0x02 = true ∧ privWrite 0x72 = true := by decide +kernel
theorem witness_SystemRegisters_tinv : let s := mem0.mapCore fun c => { c with wait := some .tinv }
    (!(s.core.regs.user && privWrite 0x73) && !(s.core.regs.off 10 && vecReg 0x73)) = true ∧ s.unreserved = true ∧
    s.core.wait = some .tinv ∧ s.core.tinv = none := by decide +kernel
theorem witness_FencesCommit : mem0.unreserved = true ∧ mem0.core.out = [] ∧
    (let s := mem0.mapCore fun c => { c with wait := some .icinv };
      s.unreserved = true ∧ s.core.regs.user = false ∧ s.core.wait = some .icinv ∧ s.core.icinv = none) := by decide +kernel
/-- The demonstration inside a chunk that has performed an instruction, as the fetch of a word leaves it, and a launch record at
0x30000. -/
def launch0 (ok : Bool) : State :=
  let s := ((mem0.homeWrite 0x1000000030000 (leBytes 8 0x20000)).homeWrite 0x1000000030008 (leBytes 8 (5 * 2 ^ 35 + 2 ^ 32 + 1)))
  ({ s with queues := if ok then [(5, ⟨true, 0, 5, 6, 0⟩)] else [] } : State).mapChunk fun c => { c with count := 1 }
theorem witness_LaunchAnswers : [true, false].all (fun ok => let s := launch0 ok
    let u := (endChunk 2 s).getD s
    let pa := u.paOf u.core.xl .load (s.x 1)
    let bs := (List.range 112).map fun k => s.sees (pa + k)
    s.core.chunk.all (fun ch => !ch.empty || ch.wr.isEmpty) && s.noUpdates && s.mig.toList.all (·.state != .switch) &&
    s.unreserved && !s.fenced 4 0 0 && (s.x 1).toNat % 16 == 0 && u.agrees u.core.xl [(.load, s.x 1)] &&
    u.plainAt u.core.xl .load 112 (s.x 1) &&
    (launchRefused bs (s.core.regs.ten.setWidth 16) s).isNone == ok) = true := by decide +kernel
theorem witness_LaunchAnswers_inv : (launch0 true).Inv ∧ (launch0 false).Inv := by unfold State.Inv; decide +kernel
theorem witness_ContextsLeaveTheirSlot : mem0.unreserved = true ∧ (∀ g ∈ mem0.core.eng.toList, g.run ≠ .running) ∧
    (let s := mem0.mapCore fun c => { c with slot := { c.slot with state := .unbinding } };
      s.core.regs.user = false ∧ s.core.slot.state = .unbinding ∧ s.core.parkHeld = false) := by decide +kernel
/-- Barrier register 2: valid, scope QUAD, COUNT 2, as SQ.CFG leaves it. -/
def bar0 : State := after (exec (.sqCfg 2 4) (mem0.mapRegs fun r => r.wr 4 0x8000002))
theorem witness_Barriers : let f (w : Nat) (lo k : Nat) : Nat := w / 2 ^ lo % 2 ^ k
    let beyond (c : Nat) : Bool := (Claims.barLimits (f c 0 3)).any fun p => p.1 ≤ f c 10 16 || f c 26 20 = 0 || p.2 < f c 26 20
    let other := { mem0 with owners := [(devKey 0 0x102000, 0x8000000000000006)] }
    mem0.unreserved = true ∧ mem0.cur < 144 ∧ mem0.core.regs.user = false ∧
    ([0x8000002, 0x8003C02, 0x10000002].all fun c => f c 46 18 == 0 && f c 3 7 == 0 && (Claims.barLimits (f c 0 3)).isSome && !beyond c) = true ∧
    ([0x8004002, 2, 0x14000002, 0x8000001].all beyond) = true ∧ Claims.barLimits (f 0x8000006 0 3) = none ∧ f 0x800000A 3 7 ≠ 0 ∧
    f 0x400008000002 46 18 ≠ 0 ∧ (mem0.core.regs.bar 7).getLsbD 62 = false ∧ Claims.barForeign mem0 2 0 0 = false ∧
    Claims.barForeign other 2 0 0 = true ∧
    (let v := bar0.core.regs.bar 2; v.getLsbD 63 = true ∧ v.getLsbD 62 = false ∧ Claims.barLimits (f v.toNat 0 3) ≠ none ∧
      f v.toNat 0 3 ≠ 5 ∧ Claims.barForeign bar0 2 (Claims.barInstance 2 (f v.toNat 46 8)) (f v.toNat 10 16) = false) := by decide +kernel
/-- Barrier register 2 after the arrival of the first of two; with GEN of another generation; and with a SCOPE that no barrier has. -/
def bar1 (x : Word) : State := (after (exec (.sqArv 2) bar0)).mapRegs fun r => r.setBar 2 (r.bar 2 ^^^ x)
theorem witness_Barriers_waits : let f (w : Nat) (lo k : Nat) : Nat := w / 2 ^ lo % 2 ^ k
    let v (x : Word) := (bar1 x).core.regs.bar 2
    let h (x : Word) := (bar1 x).hwbar (BitVec.ofNat 3 (f (v x).toNat 0 3)) (Claims.barInstance (f (v x).toNat 0 3) (f (v x).toNat 46 8)) (f (v x).toNat 10 16)
    [0, 0x40000000000000].all (fun x => (v x).getLsbD 62 && (Claims.barLimits (f (v x).toNat 0 3)).isSome) = true ∧
    (h 0).gen = (v 0).extractLsb' 54 8 ∧ (h 0).arr = 1 ∧ (h 0x40000000000000).gen ≠ (v 0x40000000000000).extractLsb' 54 8 ∧
    (v 4).getLsbD 62 = true ∧ Claims.barLimits (f (v 4).toNat 0 3) = none := by decide +kernel

theorem witness_ScalarLoadsRead : mem0.core.wait = none ∧ mem0.reaches .load 8 [mem0.x 2 + (0 : BitVec 12).signExtend 64] = true ∧
    mem0.reaches .load 16 [mem0.x 1 + (0x7FF : BitVec 12).signExtend 64] = true ∧
    Claims.load (.slLd 31 2 0) = some (31, 2, 0, 8, true) := by decide +kernel
theorem witness_ScalarLoads_consuming : let s := demo fun r => ((r.wr 1 0x2FFFF8).wr 2 0x2FFFF0)
    let s := s.mapCore fun c => { c with fe := setField c.fe 0x2FFFF 1 1 }
    s.unreserved = true ∧ s.core.fe.getLsbD ((s.x 1 + (0 : BitVec 12).signExtend 64).toNat / 16) = true ∧ (s.x 1).toNat + 8 ≤ 0x300000 ∧
    (s.x 1).toNat % 8 = 0 ∧ s.core.fe.getLsbD ((s.x 2).toNat / 16) = true ∧ (s.x 2).toNat + 16 ≤ 0x300000 ∧ (s.x 2).toNat % 16 = 0 := by
  decide +kernel
theorem witness_ScalarStoresWrite : mem0.Inv ∧ Claims.store mem0 (.ssSq 0xFF8 2 4) = some (2, 0xFF8, 16, 0) ∧
    mem0.reaches .store 16 [mem0.x 2 + (0xFF8 : BitVec 12).signExtend 64] = true ∧ mem0.room 2 = true := by
  unfold State.Inv; decide +kernel
theorem witness_AtomicsUpdate : mem0.Inv ∧ mem0.core.wait = none ∧ (mem0.x 2).toNat % 8 = 0 ∧
    (mem0.x 1).toNat % 4 = 0 ∧ [mem0.x 1, mem0.x 2].all (fun ea => mem0.agrees mem0.core.xl [(.store, ea)]) = true ∧
    mem0.plainAt mem0.core.xl .store 8 (mem0.x 2) = true ∧ mem0.plainAt mem0.core.xl .store 4 (mem0.x 1) = true ∧
    mem0.room 2 = true ∧ mem0.noUpdates = true := by unfold State.Inv; decide +kernel
theorem witness_AtomicsUpdate_forms : Claims.atomic (.amCas 31 2 3 false) = some (9, 31, 2, 3, false, false) ∧
    Claims.atomic (.amAdd 0 1 3 true true) = some (0, 0, 1, 3, true, true) := ⟨rfl, rfl⟩

/-- The hypotheses that the vector statements share. -/
def vecOk (s : State) (m t : Bool) : Bool := s.calm && s.core.regs.ready m t && s.core.regs.untrapped && s.core.regs.lenOk
/-- Vector state with elements of width `w` in v[1], v[2] and v[3]. -/
def trio (c n w : Nat) (a b d : List Nat) : State := vecDemo c n fun r => layElems 1 w a (layElems 2 w b (layElems 3 w d r))

theorem witness_VectorIntegerResults : let s := trio 3 4 64 [0, 1, 2 ^ 63, 2 ^ 64 - 1] [1, 2, 3, 2 ^ 63] []
    vecOk s true false = true ∧ s.core.regs.fmt ≤ 3 ∧ ([1, 2, 31] : List (BitVec 5)).all s.core.regs.groupOk = true ∧
    (∃ f, Claims.vectorInteger (.vaMulh 31 1 2 15 false) = some (31, 1, 2, 15, false, f)) := by
  refine ⟨?_, ?_, ?_, _, rfl⟩ <;> decide +kernel
theorem witness_VectorComparesWriteAMask : let s := trio 5 4 32 [0x3F800000, 0x7FC00000] [0x80000000, 0] []
    let r := s.core.regs
    vecOk s true false = true ∧ 4 ≤ r.fmt ∧ r.fmt ≤ 7 ∧ r.groupOk 1 = true ∧ r.groupOk 2 = true ∧
    (∀ k ∈ r.actives 0, isToken (r.elem 1 32 k) = false ∧ isToken (r.elem 2 32 k) = false) ∧
    (∃ f, Claims.compare (.vfClt 15 1 2 0 false) = some (15, 1, 2, 0, false, true, f)) ∧
    (vecOk (trio 0 2048 8 [] [] []) true false = true ∧ (trio 0 2048 8 [] [] []).core.regs.fmt ≤ 3) := by
  refine ⟨?_, ?_, ?_, ?_, ?_, ?_, ⟨_, rfl⟩, ?_⟩ <;> decide +kernel
theorem witness_WideningAccumulationsAdd : let s := trio 0 5 8 [255, 128] [255, 127] []
    let r := s.core.regs
    vecOk s true false = true ∧ r.grp * (32 / 8) ≤ 8 ∧ groupOk 4 4 = true ∧ r.groupOk 1 = true ∧ overlap 4 4 1 r.grp = false ∧
    r.groupOk 2 = true ∧ overlap 4 4 2 r.grp = false ∧ r.fmt ≤ 2 := by decide +kernel
theorem witness_WideningAccumulationsAdd_float : let s := trio 5 2 32 [0x3F800000, 0x40000000] [0x3F800000] []
    let r := s.core.regs
    vecOk s true false = true ∧ 5 ≤ r.fmt ∧ r.fmt ≤ 10 ∧ groupOk (r.grp * 2) 4 = true ∧ overlap 4 2 1 r.grp = false ∧
    overlap 4 2 2 r.grp = false ∧ wideFp r.fmt = 4 ∧
    (∀ j ∈ r.actives 0, isToken (r.elem 1 32 j) = false ∧ isToken (r.elem 2 32 j) = false) := by decide +kernel
theorem witness_WideningAccumulationsAdd_forms : Claims.widening (.vaWmaccu 4 1 2 1 false) = some (4, 1, 2, 1, false, some false) ∧
    Claims.widening (.vfWmacc 4 1 2 0 false) = some (4, 1, 2, 0, false, none) := ⟨rfl, rfl⟩
theorem witness_VectorFloatResults : let s := trio 5 2 32 [0x3F800000, 0x40000000] [0, 0x3F800000] []
    let r := s.core.regs
    vecOk s true false = true ∧ 4 ≤ r.fmt ∧ r.fmt ≤ 7 ∧ r.groupOk 1 = true ∧ r.groupOk 2 = true ∧ r.groupOk 3 = true ∧
    (∃ ops f, Claims.vectorFloat (.vfDiv 3 1 2 0 false) = some (3, 1, some 2, 0, false, ops, f) ∧
      ∀ k ∈ r.actives 0, ∀ v ∈ ops (r.elem 1 32 k) (r.elem 2 32 k) (r.elem 3 32 k), isToken v = false) := by
  refine ⟨?_, ?_, ?_, ?_, ?_, ?_, _, _, rfl, ?_⟩ <;> decide +kernel
theorem witness_VectorFloatResults_stop : let s := trio 5 3 32 [0x3F800000, 0x7F8A0003] [] []
    let r := s.core.regs
    s.unreserved = true ∧ vecOk s true false = true ∧ r.fmt = 5 ∧ r.groupOk 3 = true ∧ r.groupOk 1 = true ∧
    r.groupOk 2 = true ∧ r.actives 0 = [0] ++ 1 :: [2] ∧
    ∃ ops f, Claims.vectorFloat (.vfAdd 3 1 2 0 false) = some (3, 1, some 2, 0, false, ops, f) ∧
      (ops (r.elem 1 32 0) (r.elem 2 32 0) (r.elem 3 32 0)).find? isToken = none ∧
      (ops (r.elem 1 32 1) (r.elem 2 32 1) (r.elem 3 32 1)).find? isToken = some 0x7F8A0003 := by
  refine ⟨?_, ?_, ?_, ?_, ?_, ?_, ?_, _, _, rfl, ?_⟩ <;> decide +kernel
theorem witness_VectorFloatResults_flag : let s := (trio 5 2 32 [0x3F800000, 0x3F800000] [0x3F800000, 0] []).mapRegs fun r =>
      { r with fst := 0x4000 }
    let r := s.core.regs
    r.actives 0 = [0] ++ 1 :: [] ∧ ∃ ops f, Claims.vectorFloat (.vfDiv 3 1 2 0 false) = some (3, 1, some 2, 0, false, ops, f) ∧
      (∀ j ∈ [0, 1], (ops (r.elem 1 32 j) (r.elem 2 32 j) (r.elem 3 32 j)).find? isToken = none) ∧
      (r.fst.toNat / 2 ^ 11) &&& ((f r.fmt r.rm (r.elem 1 32 0) (r.elem 2 32 0) (r.elem 3 32 0)).2 % 32) = 0 ∧
      (r.fst.toNat / 2 ^ 11) &&& ((f r.fmt r.rm (r.elem 1 32 1) (r.elem 2 32 1) (r.elem 3 32 1)).2 % 32) ≠ 0 := by
  refine ⟨?_, _, _, rfl, ?_⟩ <;> decide +kernel

theorem witness_VectorMovesPlaceElements : let s := trio 3 3 64 [7, 8, 9] [2, 0, 5] []
    let r := s.core.regs
    vecOk s true false = true ∧ r.groupOk 3 = true ∧ r.fmt ≤ 3 ∧ r.groupOk 1 = true ∧ r.groupOk 2 = true ∧
    (∃ f, Claims.move s (.vxPerm 3 1 2 0) = some (3, 0, false, [1, 2], f)) ∧ ∃ f, Claims.move s (.vxIdx 3 1) = some (3, 1, true, [], f) := by
  refine ⟨?_, ?_, ?_, ?_, ?_, ⟨_, rfl⟩, _, rfl⟩ <;> decide +kernel
theorem witness_VectorSelectionsAndShifts : let s := trio 10 4 4 [7, 8, 9, 15] [] []
    let r := s.core.regs
    vecOk s true false = true ∧ r.fmt ≤ 10 ∧ r.vstart = 0 ∧ r.groupOk 3 = true ∧ r.groupOk 1 = true ∧
    overlap 3 r.grp 1 r.grp = false := by decide +kernel
theorem witness_ReductionsAndScans : let s := trio 5 4 32 [0x3F800000, 0x40000000] [0x3F800000] []
    let r := s.core.regs
    vecOk s true false = true ∧ r.fmt ≤ 7 ∧ r.groupOk 3 = true ∧ (∀ f ∈ [Fold.sum, .max, .dot, .dotb], f.accepts r.fmt = true ∧
      groupOk (foldGroup r (fmtWidth (f.result r.fmt))) 4 = true) ∧ r.groupOk 1 = true ∧ r.groupOk 2 = true ∧
    groupOk (max 1 (r.vlmax / 1024)) 2 = true ∧
    foldToken r.fmt r.fmt true (termsOf r r.fmt r.fmt 1 2) (r.actives (governing 1 true)) = none ∧
    foldToken r.fmt 18 true (termsOf r r.fmt 18 1 2) (r.actives (governing 0 false)) = none ∧
    foldToken r.fmt r.fmt false (termsOf r r.fmt r.fmt 1 1) (r.actives (governing 1 true)) = none := by decide +kernel
theorem witness_ReductionsAndScans_forms : Claims.fold 5 (.vrDotb 4 1 2 0 false 2) = some (.dotb, 4, 1, 2, 0, false, 18) ∧
    Claims.fold 5 (.vrDot 4 1 2 1 true) = some (.dot, 4, 1, 2, 1, true, 5) := ⟨rfl, rfl⟩
theorem witness_ReductionsAndScans_terms : let r := (trio 5 40 32 [0x3F800000, 0x40000000] [0x3F800000] []).core.regs
    Fold.dot ∈ [Fold.sum, .dot, .dotb] ∧ [3, 31, 32, 39].Pairwise (· < ·) ∧ ∀ i ∈ [3, 31, 32, 39], 3 ≤ i ∧
      Claims.exact ((termsOf r 5 5 1 2).xa i) = true ∧ (Fold.dot.two = true → Claims.exact ((termsOf r 5 5 1 2).xb i) = true) := by
  decide +kernel
theorem witness_MasksAreReadAndWritten : let s := trio 5 4 32 [] [] []
    vecOk s true false = true ∧ s.core.regs.groupOk 31 = true ∧ (s.x 0).toNat < 64 ∧
    vecOk (s.setX 4 64) true false = true ∧ 64 ≤ ((s.setX 4 64).x 4).toNat ∧
    ∃ f, Claims.maskLogic s.core.regs (.vpAndn 15 0 14 0) = some (15, 0, f) := by
  refine ⟨?_, ?_, ?_, ?_, ?_, _, rfl⟩ <;> decide +kernel
theorem witness_PartitionsAndConflicts : let s := trio 2 4 32 [1, 1, 2, 0x80000000] [] []
    let r := s.core.regs
    vecOk s true false = true ∧ r.vstart = 0 ∧ r.fmt = 2 ∧ (trio 3 4 64 [] [] []).core.regs.fmt = 3 ∧ r.groupOk 1 = true ∧
    r.groupOk 31 = true := by decide +kernel
theorem witness_ConversionsConvert : let s := trio 5 4 32 [0x3F800000, 0x40000000] [0x3F800000] []
    let r := s.core.regs
    vecOk s true false = true ∧ cvtOk r.fmt 7 = true ∧ convPlaced r 3 1 7 = true ∧
    (∀ j ∈ r.actives 0, isToken (r.elem 1 32 j) = false) ∧ (∃ f, Claims.convert (.vvCvt 3 1 7 0 6) = some (3, 1, 7, 0, 6, cvtOk, f)) ∧
    convPlaced r 3 1 18 = true ∧ isBfp 18 = true := by
  refine ⟨?_, ?_, ?_, ?_, ⟨_, rfl⟩, ?_⟩ <;> decide +kernel
theorem witness_ConversionsConvert_blocks : let xs : List (Nat × Nat × Fp) := [(0, 0, fpDecode 5 0x3F800000), (31, 0, .zero true)]
    (xs.map (·.1)).Nodup ∧ (∀ t ∈ xs, t.1 < 32 ∧ Claims.exact t.2.2 = true) ∧ (formBlock 8 0 0 xs).2 / 4 % 2 = 0 ∧
    1 < (formBlock 8 0 0 xs).1 % 2 ^ 8 ∧ Claims.finite 4 0x7FEFFFFFFFFFFFFF = true := by decide +kernel
theorem witness_ConversionsConvert_bfp : let s := trio 18 32 32 [] [] []
    vecOk s true false = true ∧ isBfp s.core.regs.fmt = true ∧ convPlaced s.core.regs 4 1 5 = true := by decide +kernel

/-- A vector load whose form and accesses meet what the statement asks for. -/
def loadGoes (s : State) (i : Instr) : Bool :=
  vecOk s true false && s.core.wait.isNone && !s.core.cuts && match Claims.vectorLoad s i with
  | some (d, m, ok, vs, f) => ok && s.core.regs.groupOk d && vs.all s.core.regs.groupOk &&
    s.reaches .load (elemBytes s.core.regs.fmt) ((s.core.regs.actives m).map f)
  | none => false
/-- A vector store likewise. -/
def storeGoes (s : State) (i : Instr) : Bool :=
  vecOk s true false && s.core.wait.isNone && !s.core.cuts && match Claims.vectorStore s i with
  | some (ok, _, ks, n, f, _) => ok && s.reaches .store n (ks.map f) && s.room (2 * ks.length)
  | none => false
/-- Three binary32 elements, a tensor record in v[6], a stride of −4 in x5 and x13 5. -/
def vt : State := (vmem 5 3).mapRegs fun r => layElems 6 64 [0x30000, 0x205, 4, 3, 0, 0, 64, 4] ((r.wr 5 0xFFFFFFFFFFFFFFFC).wr 13 5)
theorem witness_VectorLoadsReadElements : ([.vlLd 31 1 0 true false, .vlLdff 31 1 0 false false, .vlLds 31 2 5 0 false true,
    .vgGath 3 1 4 0 false false, .vgGathb 3 1 31 0 false false, .tlLd 31 13 6 0 false false] : List Instr).all (loadGoes vt) = true ∧
    loadGoes (vmem 18 40) (.vlLd 31 1 0 false false) = true ∧ loadGoes (vmem 10 5) (.vlLd 0 1 1 false false) = true := by decide +kernel
theorem witness_RegisterAndScratchpadLoads : let s := (vmem 5 3).mapRegs fun r => r.wr 4 0x100
    let r := s.core.regs
    vecOk s true false = true ∧ s.core.wait = none ∧ s.core.cuts = false ∧ r.ready false false = true ∧ r.fmt ≤ 10 ∧ r.groupOk 3 = true ∧
    s.reaches .load 64 (r.groupsFrom.map fun g => s.x 1 + BitVec.ofNat 64 (64 * g)) = true ∧ s.unreserved = true ∧
    (r.actives 0).all (fun k => (scratchFault s 4 k).isNone) = true ∧
    (let s := s.mapCore fun c => { c with fe := setField c.fe 16 1 1 };
      (r.actives 0).all (fun k => s.core.fe.getLsbD (granuleOf s 4 k)) = true) := by decide +kernel
theorem witness_VectorStoresWriteElements : ([.vsSt 31 1 0 true false, .vsSts 31 2 5 0 false true, .vsStr 31 1 true false,
    .vgScat 3 1 4 0 true false, .vgScatb 3 1 31 0 false false, .tlSt 31 13 6 0 false false] : List Instr).all (storeGoes vt) = true ∧
    storeGoes (vmem 18 40) (.vsSt 31 1 0 false false) = true ∧ storeGoes (vmem 10 5) (.vsSt 0 1 0 true false) = true := by decide +kernel
theorem witness_VectorStoresWriteElements_inv : vt.Inv ∧ (vmem 18 40).Inv ∧ (vmem 10 5).Inv := by unfold State.Inv; decide +kernel

/-- Tile, mask and vector state on, VTYPE bf16 and VL 256. -/
theorem witness_OuterProductsAccumulate : let s := vecDemo 7 256 id
    vecOk s true true = true ∧ s.core.regs.fmt = mxFmt 3 ∧ s.core.regs.grp = 1 ∧ s.core.regs.vl.toNat % 64 = 0 ∧ s.core.regs.vstart = 0 ∧
    ([.mxOpa 15 4 5 15 3, .mxSlide 0 31 5 0 3] : List Instr).all (·.wellFormed) = true ∧
    (let s := trio 5 128 32 [1, 2] [3] [];
      vecOk s true true = true ∧ s.core.regs.fmt = mxFmt 0 ∧ s.core.regs.grp = 1 ∧
      ∀ x ∈ (mxReads 0 0 2 (s.core.regs.rows 0 (List.range 64))).1.map (s.core.regs.elem 1 32) ++
        (mxReads 0 0 2 (s.core.regs.rows 0 (List.range 64))).2.map (s.core.regs.elem 2 32), isToken x = false) ∧
    (vecDemo 7 0 id).core.regs.vl = 0 ∧ (vecDemo 7 0 id).core.regs.grp = 1 ∧
    (let s := vecDemo 4 64 id;
      vecOk s true true = true ∧ s.core.regs.fmt = mxFmt 1 ∧ s.core.regs.grp = 1 ∧ s.hbmServed = true ∧
      (Instr.mxOpa 2 4 5 0 1).wellFormed = true ∧
      ({ s with power := { s.power with svc := 2 } } : State).hbmServed = false) := by decide +kernel
theorem witness_OuterProductsAccumulate_numbers : let r := (trio 5 128 32 [0x3F800000] [0x7F7FFFFF] []).core.regs
    Claims.finite (mxAcc 0) ((r.row 0 63 false).getD 63 0) = true ∧
    ∀ k, k < 2 → Claims.exact (mxValue r 0 1 (63 * 2 + k)) = true ∧ Claims.exact (mxValue r 0 2 ((63 + 1) * 2 + k)) = true := by decide +kernel
theorem witness_TilesMove : let s := (vmem 5 3).mapRegs fun r => { r with vstart := 62 }
    let r := s.core.regs
    let row (k : Nat) : Word := s.x 1 + BitVec.ofNat 64 k * BitVec.ofNat 64 512
    let ns := r.rows 0 r.rowsFrom
    s.calm = true ∧ s.core.cuts = false ∧ Claims.comb r false 15 = true ∧ r.off 10 = false ∧ s.core.wait = none ∧ (14 : BitVec 4).toNat % 2 = 0 ∧
    s.agrees s.core.xl ((ns.map row ++ [row 64]).map fun v => (.store, v)) = true ∧ s.noUpdates = true ∧
    (ns.map row).all (s.plainAt s.core.xl .store 512) = true ∧ s.plainAt s.core.xl .store 8 (row 64) = true ∧
    s.reaches .load 512 (ns.map row) = true ∧ s.room (9 * 2 + 2) = true ∧ (s.x 3).toNat < 64 := by decide +kernel

/-- Scores beside a token; and 32 bfp4 elements in v[8] against binary32 ones in v[4]. -/
theorem witness_VerdictsAreReached : let s := trio 5 3 32 [0x3F800000, 0x7F8A0003, 0xBF800000] [] []
    let r := s.core.regs
    vecOk s true false = true ∧ r.fmt = 5 ∧ r.groupOk 1 = true ∧ r.off 12 = false ∧ (15 : BitVec 4) ≠ 0 ∧
    isToken ((s.x 1).toNat % 2 ^ 32) = false ∧ s.unreserved = true ∧ (s.mapRegs (·.wr 1 0x7F8A0003)).unreserved = true ∧
    isToken (((s.mapRegs (·.wr 1 0x7F8A0003)).x 1).toNat % 2 ^ 32) = true ∧ (encode (.vdTest 4 1 4 0)).isSome = true := by decide +kernel
theorem witness_VerdictsAreReached_dot : let s := vecDemo 18 32 fun r => layElems 4 32 [0x3F800000] (r.wr 11 0x540000000)
    let r := s.core.regs
    let cfg := s.x 11
    vecOk s true false = true ∧ dotvOk r cfg 4 8 0 = true ∧ isToken (threshold r 1 (s.x 10)) = false ∧
    foldToken (dotvAf cfg) r.fmt false (termsOf r (dotvAf cfg) r.fmt 4 8) (List.range r.vl.toNat) = none ∧
    isBfp r.fmt = true ∧ r.vl.toNat % 32 = 0 ∧ flagsPlaced r 2 = true ∧ r.vstart = 0 ∧ r.groupOk 8 = true ∧ s.unreserved = true ∧
    dotvOk { r with vl := 33 } cfg 4 8 0 = false ∧ (encode (.vdDotv 4 4 8 0 1 10)).isSome = true ∧ (encode (.vdTail 8 2)).isSome = true ∧
    (let r : Regs := { r with fst := 0x8000 };
      r.lenOk = true ∧ (r.fst.toNat / 2 ^ 11) &&& (flagUnion ((segments r none).map (dotvSegment ⟨false, .zero false, .zero false, 0⟩
        (termsOf r 5 r.fmt 5 9) fun j => r.block 9 j % 2 ^ 32)) % 32) = 0) := by decide +kernel
/-- A monitor that decides 1, 0 and nothing, with TE 0, so that Q is 0 and the margin small; T is 1, the sums 2, 0 and 1 (12 R247). -/
theorem witness_VerdictsAreReached_monitor : let f (v : Nat) : Fp := fpDecode 5 v
    [0x3F800000, 0x40000000, 0, 0x7F800000, 0x7FC00000].all (fun v => !(f v).isFin || Claims.exact (f v)) = true ∧
    monitor false (f 0x3F800000) (f 0x3F800000) (f 0x40000000) 0 1 = some 1 ∧ monitor false (f 0x3F800000) (f 0x3F800000) (f 0) 0 1 = some 0 ∧
    monitor false (f 0x3F800000) (f 0x3F800000) (f 0x3F800000) 0 1 = none ∧ monitor true (f 0x3F800000) (f 0x3F800000) (f 0x40000000) 0 1 = none ∧
    monitor false (f 0x3F800000) (f 0x3F800000) (f 0x40000000) 0xFF000 1 = none := by decide +kernel
/-- A product beyond binary32 overflows, so that with OF enabled the instruction traps (08 R174). -/
theorem witness_VerdictsAreReached_flags : let s := vecDemo 18 32 fun r => (layElems 4 32 [0x7F7FFFFF] r).setBlock 8 0 (setMant 4 0xFF3FE 0 7)
    let r := { s.core.regs with fst := 0x2000 }
    let rs := (segments r none).map (dotvSegment ⟨false, .zero false, .zero false, 0⟩ (termsOf r 5 r.fmt 4 8) fun j => r.block 8 j % 2 ^ 32)
    (r.fst.toNat / 2 ^ 11) &&& (flagUnion rs % 32) ≠ 0 := by decide +kernel

/-- Engine 1 has run 5, in state `r`; its handle is in x1 and 0x30000 in x3; e[1] to e[4] are 0x30040, 0x30000, 8 and 2. -/
def eng0 (r : RunState) : State := ({ mem0 with eng := 1 }.mapRegs fun q => (q.wr 1 0x501).wr 3 0x30000).mapEngine 1 fun g => { g with
  run := r, serial := 5, pc := 0x20000, ten := 5, asid := 6, ptb := BitVec.ofNat 64 demoRoot, sup := true, openV := 3
  r := #v[0, 0x30040, 0x30000, 8, 2, 0x30080, 0, 0, 0, 0, 0, 0, 0, 0, 0, 0] }
theorem witness_EnginesAreForkedAndJoined : (eng0 .ended).unreserved = true ∧ (1 : BitVec 2) = (1 : BitVec 3).setWidth 2 ∧
    ((eng0 .ended).x 3).toNat % 4 = 0 ∧ ((eng0 .joined).engine 1).run ∈ [RunState.idle, .joined, .joinedFailed] ∧
    ((eng0 .idle).engine 1).run ∈ [RunState.idle, .joined, .joinedFailed] ∧
    [RunState.ended, .failed, .joined, .joinedFailed].all (fun r => Claims.handleOf (eng0 r) 1 ((eng0 r).x 1) &&
      ((eng0 r).engine 1).run != .running && ((eng0 r).engine 1).out.all fun o => !o.put) = true ∧
    Claims.handleOf (eng0 .running) 1 ((eng0 .running).x 1) = true ∧ ((eng0 .ended).x 1).toNat % 4 = 1 ∧
    (let s := (eng0 .ended).mapRegs fun q => q.wr 1 0x401; (s.x 1).toNat % 4 = 1 ∧ Claims.handleOf s 1 (s.x 1) = false) ∧
    ((eng0 .ended).x 1).toNat % 4 ≠ 0 ∧ ((eng0 .ended).engine 1).run ∉ [RunState.idle, .joined, .joinedFailed] := by decide +kernel
theorem witness_RegistersAreOpenedAndFenced : (Instr.ceOpen 31 1 0).wellFormed = true ∧ (Instr.ceClose 15 2 2).wellFormed = true ∧
    mem0.core.isOpen 0 31 = false ∧ mem0.core.isOpen 2 15 = false ∧ mem0.core.regs.off 10 = false ∧ mem0.core.regs.off 14 = false ∧
    mem0.core.out = [] ∧ fenceWaits 1 (mem0.fenceOf 1 0 3) mem0 = false ∧ fenceWaits 4 (mem0.fenceOf 4 0 5) mem0 = false ∧
    (let get (n : Nat) : Remote := ⟨n, 0, 8, false, ⟨5, 6, 0x30000, 0x10000, 0, 0⟩, none⟩
      let s (l : List Remote) := mem0.mapEngine 1 fun g => { g with out := l }
      let held := (s [get 7, get 8]).mapCore fun c => { c with wait := some .fence, fence := some ⟨3, 0, [7]⟩ }
      fenceWaits 1 ((s [get 7]).fenceOf 1 0 3) (s [get 7]) = true ∧ (s [get 7]).unreserved = true ∧ (s [get 7]).core.wait ≠ some .fence ∧
      fenceWaits 1 (held.fenceOf 1 0 3) held = true ∧ held.fenceOf 1 0 3 = ⟨3, 0, [7]⟩ ∧
      fenceWaits 1 ⟨3, 0, [7]⟩ (s [get 8]) = false) := by decide +kernel
/-- A collective record at 0x30000: COUNT 2, format 5, group 9, SEG 64. -/
def coll0 : State := ((mem0.homeWrite 0x1000000030010 (leBytes 8 2)).homeWrite 0x1000000030018
  (leBytes 8 (5 + 9 * 2 ^ 16 + 64 * 2 ^ 32))).mapChunk fun c => { c with count := 1 }
theorem witness_CollectivesRun : let u := (endChunk 2 coll0).getD coll0
    coll0.Inv ∧ Claims.settled coll0 ∧ coll0.unreserved = true ∧ coll0.core.wait = none ∧ coll0.core.isBound = true ∧ (coll0.x 1).toNat % 64 = 0 ∧
    u.agrees u.core.xl [(.load, coll0.x 1)] = true ∧ u.plainAt u.core.xl .load 64 (coll0.x 1) = true ∧ (coll0.engine 3).run ∈ [RunState.idle, .joined, .joinedFailed] ∧
    collOk ((List.range 64).map fun k => coll0.sees (u.paOf u.core.xl .load (coll0.x 1) + k)) = true ∧
    (coll0.oracle.take 2).all (· == 0) = true := by
  unfold State.Inv Claims.settled; decide +kernel
/-- A message with its payload padded to whole flits. -/
def msg (p : List Byte) : Msg := let n := (p.length + 31) / 32
  ⟨3, 0, 33, 0x30, 0, BitVec.ofNat 4 n, false, 0, 0, p ++ List.replicate (32 * n - p.length) 0⟩
/-- A run of group 9, whose members are packages 0 and 3, and the bytes of member 3. -/
def run0 : CollRun := ⟨0, 77, 1, 5, 6, 0, true, 0, 0x30000, 0x30100, 2, 5, 0, 9, 0, 0, false, [], .running, 0⟩
def run1 : CollRun := { run0 with segs := [⟨1, [], [(0, 8)]⟩], ptb := BitVec.ofNat 64 demoRoot }
def group0 (r : CollRun) : State := { mem0 with groups := [⟨9, true, 0, [0, 3], 1⟩], runs := [{ r with ptb := BitVec.ofNat 64 demoRoot }] }
theorem witness_CollectivesRun_segments : let m := msg (leBytes 1 9 ++ leBytes 1 0 ++ leBytes 1 5 ++ leBytes 5 0 ++ leBytes 8 0 ++ leBytes 8 2 ++ leBytes 16 0)
    let s := group0 run0
    s.groupOf (msgAt m 0 1) = some ⟨9, true, 0, [0, 3], 1⟩ ∧ msgClean m = true ∧ m.src.toNat < 2048 ∧
    m.src.setWidth 11 ≠ s.pkg ∧ (s.oracle.take 2).all (· == 0) = true ∧
    (s.runs.find? fun r => r.core == s.cur && r.run == .running && r.group == 9 && r.index == msgAt m 8 8 &&
      r.epoch.toNat == msgAt m 4 4).isSome = true ∧ msgAt m 16 8 = 2 ∧ run0.complete 2 0 = false ∧ run1.complete 2 0 = true ∧
    (match collMove ⟨9, true, 0, [0, 3], 1⟩ (fun _ => true) (fun _ => true) run1 (group0 run1) with
      | .ok _ _ => true
      | _ => false) = true := by decide +kernel
theorem witness_CollectivesRun_result : let s := group0 run1
    let reads := (List.range 8).map fun o => run1.src + BitVec.ofNat 64 o
    let writes := [run1.dst, run1.dst + 4]
    s.Inv ∧ s.groupOf 9 = some ⟨9, true, 0, [0, 3], 1⟩ ∧ run1.core = s.cur ∧ (∀ f ∈ run1.segs, f.rank ≠ 0) ∧ (∀ m ∈ s.mig.toList, m.state ≠ .switch) ∧
    s.fenced 3 s.cur run1.ctxid = false ∧
    s.agrees run1.xl (reads.map (fun a => (.load, a)) ++ writes.map fun a => (.store, a)) = true ∧ reads.all (s.plainAt run1.xl .load 1) = true ∧
    writes.all (s.plainAt run1.xl .store 4) = true ∧ Claims.apart s run1.xl writes (writes.map fun a => (a, 4)) = true ∧
    (collSources 0 2 0 2).map (·.1) = [0, 1] := by unfold State.Inv; decide +kernel
theorem witness_CollectivesRun_reduced : ∀ x ∈ [0x3F800000, 0x40000000], x < 2 ^ fmtWidth 5 ∧ Claims.finite 5 x = true := by decide +kernel
/-- The sum of two binary32 elements of two members, 1 and 2, is 3 (25 R405). -/
theorem test_coll_result : ((after (exec .collectiveComplete ((group0 { run1 with segs := [⟨1, memWrite [] 0 (leBytes 4 0x40000000), [(0, 8)]⟩] }).homeWrite
    0x1000000030000 (leBytes 4 0x3F800000)))).homeNat 0x1000000030100 4) = 0x40400000 := by decide +kernel

/-- Windows: one declared at x1 with the configuration of x3, and window 0 of two binary32 elements at 0x30000. -/
def win0 : State := (paged (vecDemo 5 2 fun r => { (layElems 4 32 [1, 0] ((r.wr 1 0x30000).wr 3 (0x10000 * 2 ^ 24 + 2))) with
  win := r.win.set 0 ⟨true, 0x30000, 2, 0x10000, 0, 5⟩ }))
theorem witness_WindowsAccumulate : let r := win0.core.regs
    let d := r.window 0
    let u := (endChunk 1 win0.dropLends).getD win0
    win0.Inv ∧ win0.unreserved = true ∧ vecOk win0 true false = true ∧ awFmt r.fmt 2 = true ∧ (win0.x 1).toNat % 4 = 0 ∧
    (win0.x 3).toNat < 2 ^ 46 ∧ ((win0.x 3).extractLsb' 24 22).toNat % 64 = 0 ∧
    ((win0.x 3).extractLsb' 24 22).toNat + 32 * (2 * 4) ≤ 0x300000 ∧ d.valid = true ∧ d.off.toNat % 64 = 0 ∧ Claims.settled win0 ∧
    u.agrees u.core.xl [(.store, d.base), (.store, d.base + 4)] = true ∧
    u.plainAt u.core.xl .store 4 (d.base + 4) = true ∧ d.fmt.toNat = r.fmt ∧ r.untrapped = true ∧ awFmt 5 0 = true ∧
    (∀ x ∈ [0x3F800000, 0x7FC00001], x < 2 ^ fmtWidth 5) := by
  unfold State.Inv Claims.settled; decide +kernel
theorem witness_WindowsAccumulate_elements : let r := win0.core.regs
    let token := win0.homeWrite 0x1000000030004 (leBytes 4 0x7F8A0003)
    (∀ s ∈ [win0, token], (∀ j ∈ [0, 1], ∀ x ∈ (List.range 32).map (fun l => leNat (memRead s.core.scratch (0x10000 + (l * 2 + j) * 4) 4)),
      isToken x = false)) ∧ isToken (win0.seesNat 0x1000000030000 4) = false ∧ isToken (win0.seesNat 0x1000000030004 4) = false ∧
    isToken (token.seesNat 0x1000000030004 4) = true ∧
    r.groupOk 4 = true ∧ ∀ e ∈ r.actives 0, r.elem 4 32 e < (r.window 0).nel.toNat ∧ isToken (r.elem 5 32 e) = false := by decide +kernel

/-- A frame of one VA.ADD, iterated twice with stride 1 over the destination; x5 has bits above 27, x6 no iterations. -/
def frame0 : State := ((vmem 2 4).homeWrite 0x1000000020004 (leBytes 4 ((encode (.vaAdd 8 9 10 0 false)).getD 0).toNat)).mapRegs fun r =>
  ((r.wr 4 (2 ^ 24 + 2)).wr 5 (2 ^ 28)).wr 6 (2 ^ 24)
theorem witness_FramesBegin : 2 ^ 28 ≤ (frame0.x 5).toNat ∧ (frame0.x 6).toNat < 2 ^ 28 ∧ (frame0.x 6).toNat % 2 ^ 24 = 0 ∧
    (frame0.x 4).toNat < 2 ^ 28 ∧ (frame0.x 4).toNat % 2 ^ 24 = 2 ∧
    (let at' := frame0.core.regs.pc + 4
      let w := BitVec.ofNat 32 (frame0.homeNat (frame0.paOf frame0.core.xl .fetch at') 4)
      frame0.agrees frame0.core.xl [(.fetch, at')] = true ∧ frame0.plainAt frame0.core.xl .fetch 4 at' = true ∧
      frame0.core.heldWord 3 (frame0.paOf frame0.core.xl .fetch at') = none ∧
      [0, 1].all (fun q => ((stagger 1 4 q w).bind (eligible frame0.core.regs)).isSome) = true ∧
      frame0.core.regs.off 10 = false ∧ frame0.core.regs.vill = false) := by decide +kernel

/-- Inside the frame: its second iteration of two, at its first word. -/
def frame1 : State := frame0.mapRegs fun r => { r with pc := r.pc + 4, rps := 0x9840000001000002 }
theorem witness_FramesBegin_inside : let r := frame1.core.regs
    let w := BitVec.ofNat 32 (frame1.homeNat (frame1.paOf frame1.core.xl .fetch frame1.pc) 4)
    r.inFrame = true ∧ (r.rps.extractLsb' 24 24).toNat < (r.rps.extractLsb' 0 24).toNat ∧ frameLen (r.rps.extractLsb' 53 4) = 2 ∧
    frame1.agenda = [] ∧ frame1.canRun = true ∧ frame1.core.endAfter = none ∧ frame1.core.entering = false ∧
    (match atBoundary frame1 with
      | .going u => decide (u = frame1)
      | _ => false) = true ∧ frame1.core.needsGrant = false ∧ frame1.agrees frame1.core.xl [(.fetch, frame1.pc)] = true ∧
    frame1.plainAt frame1.core.xl .fetch 4 frame1.pc = true ∧
    (stagger (r.rps.extractLsb' 60 3) (r.rps.extractLsb' 57 3) 1 w).bind (eligible r) = some (.vaAdd 9 9 10 0 false) ∧
    (stagger (r.rps.extractLsb' 60 3) (r.rps.extractLsb' 57 3) 1 w).bind (eligible { r with vtype := 0x45 }) = none := by
  decide +kernel
/-- The same word while vector state is off: its decoding and its kind alone admit it (log 74). -/
theorem witness_FramesBegin_off : let r : Regs := { frame1.core.regs with stat := setField frame1.core.regs.stat 10 2 0, vtype := 0x45 }
    let x := (stagger (r.rps.extractLsb' 60 3) (r.rps.extractLsb' 57 3) 1
      (BitVec.ofNat 32 (frame1.homeNat (frame1.paOf frame1.core.xl .fetch frame1.pc) 4))).getD 0
    r.inFrame = true ∧ r.off 10 = true ∧ (frameState x).1 = true ∧ frameDecode x = some (.vaAdd 9 9 10 0 false) ∧
    (framePlaces (.vaAdd 9 9 10 0 false)).isSome = true ∧ eligible r x = none := by decide +kernel
/-- The same frame at a word that RPS names, past its last word, and with no iteration left. -/
def past (p : BitVec 4) (q : BitVec 24) : Regs := { frame1.core.regs with rps := rpsWord true 1 4 2 p q 2 }
theorem witness_FramesBegin_resumed : (past 2 0).inFrame = true ∧ Claims.resumes (past 1 1) (past 1 1) ∧
    Claims.resumes (past 2 0) { past 0 1 with pc := frame1.core.regs.pc - 8 } ∧
    Claims.resumes (past 0 2) { past 0 2 with rps := 0, pc := frame1.core.regs.pc + 8 } := by
  refine ⟨by decide +kernel, ⟨fun _ _ => rfl, fun h => absurd h (by decide +kernel), fun h => absurd h (by decide +kernel)⟩,
    ⟨fun h => absurd h (by decide +kernel), fun _ _ => ⟨by decide +kernel, by decide +kernel, by decide +kernel, fun k h g => ?_⟩,
      fun h => absurd h (by decide +kernel)⟩,
    ⟨fun _ h => absurd h (by decide +kernel), fun h => absurd h (by decide +kernel), fun _ => by decide +kernel⟩⟩
  by_cases hk : k < 64
  · exact (by decide +kernel : ∀ k < 64, (k < 24 ∨ 48 ≤ k) → (k < 49 ∨ 53 ≤ k) →
      (past 0 1).rps.getLsbD k = (past 2 0).rps.getLsbD k) k hk h g
  · rw [BitVec.getLsbD_of_ge _ _ (by omega), BitVec.getLsbD_of_ge _ _ (by omega)]
/-- A step past the last word goes on at the first word of the next iteration (15 R320). -/
theorem test_frame_resumed : let r := regsAfter (step (frame1.mapRegs fun r => { past 2 0 with pc := r.pc + 8 }))
    r.pc = frame1.core.regs.pc + 4 ∧ (r.rps.extractLsb' 49 4).toNat = 1 ∧ (r.rps.extractLsb' 24 24).toNat = 1 := by decide +kernel
/-- The step of that word writes v9, goes on to the next word of the frame, and keeps the iteration (15 R317, R319). -/
theorem test_frame_step : let r := regsAfter (step frame1)
    r.pc = frame1.core.regs.pc + 4 ∧ (r.rps.extractLsb' 49 4).toNat = 1 ∧ (r.rps.extractLsb' 24 24).toNat = 1 := by decide +kernel

theorem witness_EngineWordsCompute : (∃ f, Claims.engineOp (.eaSra 15 1 2) = some (15, 1, 2, f)) ∧
    (∃ f, Claims.engineBranch (.gbLtu 2 1 0x7FFF) = some (2, 1, f, 0x7FFF) ∧ f ((eng0 .running).engine 1 |>.reg 2) ((eng0 .running).engine 1 |>.reg 1)) ∧
    ((eng0 .running).engine 1).out.all (fun r => !r.put) = true ∧ (Instr.esErr 0x3FFF = .esErr 0x3FFF ∨ Instr.esErr 0x3FFF = .geErr 0x3FFF) ∧
    (Instr.geEnd = .esEnd ∨ Instr.geEnd = .geEnd) ∧ (Instr.esDrain = .esDrain ∨ Instr.esDrain = .geDrain) := by
  refine ⟨⟨_, rfl⟩, ⟨_, rfl, ?_⟩, ?_⟩ <;> decide +kernel
theorem witness_CopyEnginesMoveBytes : let s := eng0 .running
    let g := s.engine 1
    s.Inv ∧ 0 < (g.reg 3).toNat ∧ Claims.engineReaches s false .load 8 [g.reg 2] = true ∧
    Claims.engineReaches s false .store 8 [g.reg 1] = true ∧ s.agrees g.xl [(.load, g.reg 2), (.store, g.reg 1)] = true ∧
    Claims.engineReaches s true .load 8 [g.reg 1] = true ∧ (g.reg 6).toNat = 0 ∧ (g.reg 3).toNat ≤ 65536 ∧ g.reg 4 ≠ 0 ∧ g.part < 8 ∧
    (g.reg 2).toNat % 8 = 0 := by unfold State.Inv; decide +kernel
theorem witness_ForagersMoveBytes : let s := eng0 .running
    let g := s.engine 1
    let ids := (List.range 2).map fun k => g.reg 2 + BitVec.ofNat 64 k
    let vals := (List.range 2).map fun k => g.reg 1 + BitVec.ofNat 64 (4 * k)
    s.Inv ∧ (g.reg 2).toNat % 16 = 0 ∧ Claims.engineReaches s false .load 8 [g.reg 2] = true ∧ Claims.engineReaches s true .store 16 [g.reg 2] = true ∧
    (Instr.gwSprw 5 2 1 4 false true).wellFormed = true ∧ (g.reg 4).toNat = 2 ∧ (g.reg 5).toNat % 16 = 0 ∧ (g.reg 1).toNat % 4 = 0 ∧
    Claims.engineReaches s false .load 1 ids = true ∧ Claims.engineReaches s false .load 4 vals = true ∧
    ids.all (fun a => leNat (Claims.engineBytes s false a 1) < 64) = true ∧
    ((Claims.steps (g.reg 5) (List.replicate 256 0)).all fun w => Claims.engineReaches s false .store w.2.length [w.1]) = true ∧
    s.agrees g.xl (ids.map (fun a => (.load, a)) ++ vals.map (fun a => (.load, a)) ++
      (Claims.steps (g.reg 5) (List.replicate 256 0)).map fun w => (.store, w.1)) = true ∧
    (let ws := Claims.steps (g.reg 5) (List.replicate 256 0);
      Claims.apart s g.xl (ws.map (·.1)) (ws.map fun w => (w.1, w.2.length)) = true) := by unfold State.Inv; decide +kernel
theorem witness_ForagersMoveBytes_forms : Claims.gwSpread (.gwSprw 5 2 1 4 false true) = some (5, 2, 1, 4, 4, false, true) ∧
    Claims.gwLoad (.gwLd 4 2 false true) = some (4, 2, 8, false, true) ∧ Claims.gwStore (.gwSq 2 4 true false) = some (2, 4, 16, true, false) :=
  ⟨rfl, rfl, rfl⟩

theorem witness_RegisterWritesApply : mem0.Inv ∧ mem0.unreserved = true ∧ isToken (0x7F8A0002 : Word).toNat = true ∧
    isToken (0x7F8A0102 : Word).toNat = false ∧ Claims.plainSys 0x10 = true ∧ mem0.core.regs.user = false ∧ user0.Inv ∧
    user0.unreserved = true ∧ (user0.core.regs.user && privWrite 0x10) = true ∧ (user0.core.regs.user && privWrite 0x40) = false := by unfold State.Inv; decide +kernel
theorem witness_RegisterWritesApply_places : ([(2, 47, 0x100800), (0, 0, 0x100C00), (2, 191, 0x102000)] : List (Nat × Nat × Nat)).all (fun p =>
    let pa := BitVec.ofNat 52 (3 * 2 ^ 48 + p.1 * 2 ^ 32 + (p.2.2 + 8 * p.2.1))
    pa.toNat == 3 * 2 ^ 48 + p.1 * 2 ^ 32 + (p.2.2 + 8 * p.2.1)) = true ∧ (mem0.owners.map (·.1)).Pairwise (· < ·) ∧
    ([0x4000000000000, 0x30002003FFFF9, 0x2FFFFFFFFFFFF] : List (BitVec 52)).all (fun pa => [0, 1, 2].all fun d =>
      decide (pa.toNat < 3 * 2 ^ 48 + d * 2 ^ 32 ∨ 3 * 2 ^ 48 + d * 2 ^ 32 + 0x400000 < pa.toNat + 8)) = true := by decide +kernel
/-- A core that an event may stop: user mode, bits `intr` pending, the slot in state `t`, a breakpoint at pc. -/
def ev0 (t : SlotState) (intr : Word) : State :=
  (user0.mapRegs fun r => { r with ctxid := 77, bpctx := 77, bpa := r.bpa.set 0 0x20001 }).mapCore fun c => { c with
    intr := intr, slot := { c.slot with state := t } }
theorem witness_EventsTrap : [ev0 .unbinding 8, ev0 .bound 0x8000000000000008, ev0 .bound 0].all (fun s => s.unreserved && s.core.isBound &&
      s.core.boundary && !s.core.mcheck) = true ∧
    (ev0 .unbinding 8).core.preemptible = true ∧ (ev0 .bound 8).core.preemptible = false ∧ (ev0 .bound 8).core.interruptible = true ∧
    (ev0 .bound 0).core.interruptible = false ∧ (ev0 .bound 0).core.breaks = true ∧ mem0.core.breaks = false ∧
    mem0.core.isBound = true ∧ mem0.core.boundary = true ∧ (mem0.mapCore fun c => { c with wait := some .remote }).core.boundary = false ∧
    (ev0 .empty 0).core.isBound = false ∧ mem0.recd.state = .armed ∧ (engDemo 0).unreserved = true ∧
    ((engDemo 0).engine 1).run = .running ∧ (mem0.engine 1).run ≠ .running := by decide +kernel

/-- A slot in state `t` whose save area in LPDDR is that of context 77. -/
def slot0 (t : SlotState) : State := (mem0.homeWrite 0x1000001000150 (leBytes 8 77)).mapCore fun c => { c with
  slot := { c.slot with state := t, savepa := 0x1000001000 } }
theorem witness_SlotsAreBoundAndLeft : let s := slot0 .empty
    s.core.slot.state = .empty ∧ bindRefused s = (none, false) ∧ s.core.slot.ctxid = 77 ∧ s.core.slot.area = 0x1000001000000 ∧
    bindRefused (s.mapCore fun c => { c with supvec := 0 }) = (some 4, false) ∧
    bindRefused { s with others := [(1, { Core.reset with slot := { Slot.reset with state := .bound, ctxid := 77 } })] } = (some 1, false) ∧
    bindRefused (s.mapCore fun c => { c with slot := { c.slot with savepa := 0x2000000000 } }) = (some 2, false) ∧
    bindRefused ({ s with power := { s.power with svc := 2 } }.mapCore fun c => { c with slot := { c.slot with savepa := 0 } }) =
      (none, true) ∧
    bindRefused (s.mapCore fun c => { c with slot := { c.slot with ctxid := 78 } }) = (some 3, false) ∧
    bindRefused (s.homeWrite 0x1000001000300 [7]) = (some 5, false) ∧
    bindRefused (s.mapCore fun c => { c with lost := true }) = (some 0, false) ∧
    (slot0 .binding).core.slot.state = .binding ∧ (slot0 .binding).core.slot.asked = false ∧ (slot0 .binding).hbmServed = true ∧
    (slot0 .bound).core.regs.user = false ∧ (slot0 .bound).core.isBound = true ∧ (slot0 .unbinding).core.slot.state ≠ .empty := by
  decide +kernel
theorem witness_SlotsAreBoundAndLeft_inv : (slot0 .empty).Inv ∧ (slot0 .binding).Inv ∧
    ((0x800000000000FFFF : Word).toNat / 2 ^ 36 % 2 ^ 27 = 0) ∧ (0xFFFFFFFFFFFFFFFF : Word).toNat / 2 ^ 36 % 2 ^ 27 ≠ 0 := by
  unfold State.Inv; decide +kernel
/-- A migration of a frame of HBM to LPDDR, the engine of die 0 in state `k`; and another frame under redirection. -/
def mig0 (k : MigState) : State := { mem0 with mig := mem0.mig.set 0 { Mig.reset with
  old := 0x200000, new := 0x1000001000000, state := k, opOld := 0x200000, opNew := 0x1000001000000, opSize := 0x10000
  redir := [(0x300000, 0x1000002000000, 0x10000)] } }
theorem witness_MigrationsMoveFrames : (mig0 .idle).Inv ∧ (mig0 .idle).hbmServed = true ∧
    (let m := (mig0 .idle).migOf 0; let old := migFrame m.old; let new := migFrame m.new; let size := migSize m.old;
      size ≠ 0 ∧ frameOk old size = true ∧ frameOk new size = true ∧ m.state ≠ .copy ∧ m.state ≠ .switch ∧
      (mig0 .idle).frameHeld old size = false ∧ (mig0 .idle).frameHeld new size = false ∧ m.redir.length < 64 ∧
      (m.redir.any fun p => p.1 == old) = false) ∧
    ((mig0 .copy).migOf 0).state = .copy ∧ (mig0 .copy).frameHeld 0x200000 0x10000 = true ∧ ((mig0 .switch).migOf 0).state = .switch ∧
    (mig0 .copy).fenced 5 0 0 = false ∧ (((mig0 .done).migOf 0).redir.any fun p => p.1 == 0x300000) = true ∧ migSize 3 = 0 ∧
    ({ mig0 .idle with power := Power.reset } : State).hbmServed = false := by unfold State.Inv; decide +kernel
/-- A put of engine 1 that used a translation of tenant 5 is out. -/
def put0 : State := mem0.mapEngine 1 fun g => { g with out := [⟨1, 0, 8, true, ⟨5, 6, 0x30000, 0x10000, 0, 0⟩, none⟩] }
theorem witness_TranslationsAreInvalidated : mem0.Inv ∧ mem0.unreserved = true ∧ canonical mem0.core.regs.tiva = true ∧
    (∃ w f, Claims.names mem0.core.regs.tiva (.tinvVa 5 6 3) = some (3, w, f)) ∧
    (∃ f, Claims.names mem0.core.regs.tiva (.tinvTenant 5 4) = some (4, 0x500000080, f) ∧ Claims.engineUses put0 4 f) ∧
    ([0, 1, 2, 5, 6, 7] : List (BitVec 3)).all (fun c => decide (c ∉ ([3, 4] : List (BitVec 3)))) = true ∧
    canonical 0x2000000000000 = false ∧ (mem0.core.eng.toList.all fun g => g.out.isEmpty) = true ∧ mem0.others = [] ∧
    (mem0.mapCore fun c => { c with tinv := some ⟨1, 5, 6, 0, 4⟩ }).core.tinv ≠ none ∧ mem0.core.tinv = none ∧
    (mem0.mapCore fun c => { c with icinv := some 4 }).core.icinv = some 4 ∧ mem0.core.icinv = none ∧
    (mem0.coreAt 7).chunk = none ∧ mem0.core.regs.user = false ∧ put0.core.regs.user = false ∧ user0.core.regs.user = true := by
  refine ⟨by unfold State.Inv; decide +kernel, by decide +kernel, by decide +kernel, ⟨_, _, rfl⟩,
    ⟨_, rfl, ⟨0, by decide, put0.engine 1, by decide +kernel, _, List.mem_singleton.2 rfl, by decide +kernel⟩⟩, ?_⟩
  decide +kernel
theorem witness_ChunksEndAndWaitsEnd : let s (n : Nat) (ls : List Nat) := mem0.mapCore fun c => { c with
      chunk := some { c.chunkOr with count := n, wlines := ls } };
    (s 0x10000 []).unreserved = true ∧ mem0.core.regs.chb.toNat % 2 ^ 17 ≤ (s 0x10000 []).core.chunkOr.count ∧
    (s 1 []).core.chunkOr.count < mem0.core.regs.chb.toNat % 2 ^ 17 ∧ 4096 ≤ (s 1 (List.range 4096)).core.chunkOr.lines ∧
    (s 1 []).core.chunkOr.lines < 4096 ∧
    (let g := { mem0 with grants := [0] };
      (g.grants.filter fun n => dieOf n == dieOf g.cur).head? = some g.cur ∧ g.core.reserved = false) ∧
    (mem0.mapCore fun c => { c with wait := some (.fullEmpty 7), fe := setField c.fe 7 1 1 }).core.fe.getLsbD 7 = true ∧
    (bar0.mapCore fun c => { c with wait := some (.barrier 2) }).core.wait = some (.barrier 2) := by decide +kernel
theorem witness_ChunksEndAndWaitsEnd_inv : let s := mem0.mapCore fun c => { c with chunk := some { c.chunkOr with count := 0x10000 } }
    s.Inv ∧ Claims.settled s := by unfold State.Inv Claims.settled; decide +kernel

/-- A state of service with stacks trained and quads started. -/
def pow0 (svc : BitVec 3) (trained : BitVec 12) (q1 q2 : Nat) : State := { State.reset with
  power := { Power.reset with svc := svc, trained := trained, quads := #v[12, q1, q2] } }
theorem witness_ServiceRisesAndFalls : (pow0 1 0 0 0).power.svc = 1 ∧ (pow0 1 0 0 0).power.trained ≠ 0xFFF ∧ (pow0 1 0 0 0).recd.state = .armed ∧
    (pow0 2 0x7FF 0 0).power.svc = 2 ∧ (pow0 2 0x7FF 0 0).power.hbmFail = 0 ∧ ((pow0 2 0x7FF 0 0).power.trained ||| (1#12 <<< 11)) = 0xFFF ∧
    (pow0 3 0xFFF 12 11).power.quads.toList.getD 2 0 < 12 ∧ (pow0 3 0xFFF 12 11).power.svc = 3 ∧
    (pow0 3 0xFFF 12 11).power.quads.toList.getD 1 0 = 12 ∧ (pow0 4 0xFFF 12 12).power.hot = false ∧
    (pow0 4 0xFFF 12 12).power.level.toNat ≤ 4 ∧ 2800 < (2801 : BitVec 16).toNat ∧ (2599 : BitVec 16).toNat < 2600 ∧
    95 ≤ (95 : BitVec 8).toNat ∧ (89 : BitVec 8).toNat < 90 ∧ 105 ≤ (105 : BitVec 8).toNat ∧
    ({ State.reset with recd := { Recorder.reset with state := .freezing } } : State).recd.state = .freezing ∧
    (let s := { State.reset with recd := { Recorder.reset with rings := (List.range 147).map fun u => (u, { Ring.reset with frozen := true }) } };
      (List.range 147).all fun u => (State.ring s u).frozen) = true ∧
    mem0.mcUp = true ∧ (pow0 1 0 0 0).mcUp = false ∧ mem0.inbox = [] ∧ mem0.fenced 4 0 0 = false ∧
    ({ mem0 with oracle := [3] } : State).choice.1 = 3 ∧ (slot0 .binding).core.slot.state = .binding := by decide +kernel
/-- A unit that the freeze wave reaches after one more record takes that record and then its FREEZE, and no more (26 R413, R415). -/
theorem test_freeze_wave : let s := record 3 0x05 0 7 (record 3 0x05 0 6 (State.reset.mapRing 3 fun g => { g with due := some 1 }))
    (s.ring 3).frozen = true ∧ (s.ring 3).due = none ∧ (s.ring 3).recs.map recKind = [0x0E, 0x05] ∧
    (s.ring 3).recs.map (·.1.setWidth 8) = [0#8, 6#8] := by decide +kernel
/-- A read, a write and an atomic of 8 bytes at 0x1000, with the payload `p`. -/
def remote0 (p : List Byte) : Msg := { msg p with addr := 0x1000, len := 8 }
theorem witness_RemoteAccessesAreServed : mem0.Inv ∧ mem0.hbmServed = true ∧ mem0.fenced 4 0 0 = false ∧ (pow0 2 0 0 0).hbmServed = false ∧ (∀ g ∈ mem0.mig.toList, g.state ≠ .switch) ∧
    ([leBytes 8 8, leBytes 8 256].all fun p => msgClean (remote0 p)) = true ∧ msgAt (remote0 (leBytes 8 8)) 0 8 = 8 ∧
    (remote0 []).addr.toNat % 256 + 256 ≤ 256 ∧ (remote0 (leBytes 8 5)).nflit.toNat = (8 + 31) / 32 ∧ amValid 0x11 = true ∧ amValid 9 = true ∧
    0xC000000000 < ({ remote0 (leBytes 8 8) with addr := 0xC000000000 } : Msg).addr.toNat + 8 ∧
    msgClean { remote0 (leBytes 8 8) with rsv := 1 } = false ∧
    (remote0 (leBytes 8 5)).nflit.toNat ≠ (257 + 31) / 32 ∧ amValid 10 = false ∧ ({ remote0 [] with addr := 0x1001 } : Msg).addr.toNat % 4 ≠ 0 ∧
    ({ remote0 (leBytes 8 8) with addr := 0xC000000000 } : Msg).addr.toNat % 256 + 8 ≤ 256 := by unfold State.Inv; decide +kernel
/-- A message of the management service: code, subcode and the rest of its payload. -/
def mgmt0 (code sub : Nat) (p : List Byte) : Msg := msg (leBytes 8 code ++ leBytes 8 sub ++ p)
/-- A GROUP-SET of group 9 with VAL and N, from a first rank on. -/
def groupSet0 (n first : Nat) (ids : List Nat) : Msg :=
  mgmt0 6 9 (leBytes 8 (2 ^ 63 + n * 2 ^ 32) ++ leBytes 8 first ++ ids.flatMap (leBytes 2))
theorem witness_ManagementIsAnswered : mem0.mcUp = true ∧ (pow0 1 0 0 0).mcUp = false ∧ msgClean (msg (List.replicate 112 0)) = true ∧
    msgClean { msg [] with rsv := 1 } = false ∧ ({ mem0 with denied := [(3, 2)] } : State).mayDo 3 2 = false ∧
    [2, 3, 4, 5, 6, 7, 8].all (mem0.mayDo 3) = true ∧ groupRuns 9 mem0 = false ∧ groupRuns 9 (group0 run0) = true ∧
    112 ≤ (msg (List.replicate 112 0)).payload.length ∧ (launchRefused (List.replicate 112 0) 0 mem0).isSome = true ∧
    (∀ m, Claims.mgmt m (.queueSet m)) ∧ (∀ m, Claims.mgmt m (.load m)) := by
  refine ⟨?_, ?_, ?_, ?_, ?_, ?_, ?_, ?_, ?_, ?_, by simp [Claims.mgmt], by simp [Claims.mgmt]⟩ <;> decide +kernel
theorem witness_ManagementIsAnswered_codes : ([1, 2, 3, 4, 5, 6, 7, 8] : List Nat).all (fun c =>
      msgAt (mgmt0 c 1 []) 0 8 == c && msgAt (mgmt0 c 3 []) 8 8 == 3 && msgClean (mgmt0 c 0 [])) = true ∧
    msgAt (mgmt0 2 1023 []) 8 8 < 1024 ∧ 1024 ≤ msgAt (mgmt0 2 1024 []) 8 8 ∧ msgAt (mgmt0 9 0 []) 0 8 = 9 ∧ mem0.setting = [] ∧
    (let m := groupSet0 2 0 [0, 3]; msgAt m 8 8 < 256 ∧ msgAt m 16 8 / 2 ^ 44 % 2 ^ 19 = 0 ∧ msgAt m 16 8 / 2 ^ 32 % 2 ^ 12 = 2 ∧
      (BitVec.ofNat 64 (msgAt m 16 8)).getLsbD 63 = true ∧ msgAt m 24 8 = 0 ∧ 32 + 2 * 2 ≤ m.payload.length) ∧
    (let m := groupSet0 200 0 (List.replicate 112 1); msgClean m = true ∧ m.payload.length = 256 ∧ msgAt m 16 8 / 2 ^ 32 % 2 ^ 12 = 200) ∧
    (let m := mgmt0 6 9 (leBytes 8 0); (BitVec.ofNat 64 (msgAt m 16 8)).getLsbD 63 = false) ∧
    msgAt (mgmt0 6 256 []) 8 8 = 256 := by decide +kernel
theorem witness_ManagementIsAnswered_members : let s (p : BitVec 11) : State := { group0 run0 with pkg := p }
    let hit (n : Nat) (g : Group) : Bool := g.num == n && g.val && g.members.elem 3
    ((s 0).groups.find? (hit 9)).isSome = true ∧ (s 0).groups.all (fun g => !hit 8 g) = true ∧ (s 0).oracle = [] ∧ ((s 0).runs.map (·.ctxid)).Nodup ∧
    (s 0).runs.all (fun r => r.group == 9 && r.run == .running) = true ∧ (3 : BitVec 11) ≠ (s 0).pkg ∧ (3 : BitVec 11) = (s 3).pkg ∧
    (((mig0 .done).migOf 0).redir.any (·.1 == 0x300000)) = true ∧ 0x300000 % 2 ^ 16 = 0 ∧ (mig0 .done).hbmServed = true ∧
    ((List.range 3).all fun d => !(mem0.migOf d).redir.any (·.1 == 0x300000)) = true := by decide +kernel
theorem witness_ManagementIsAnswered_inbox : let full : State := { mem0 with inbox := List.replicate 256 (msg []) }
    256 ≤ full.inbox.length ∧ mem0.inbox = [] ∧ mem0.choice.1 = 0 ∧ mem0.fenced 4 0 0 = false ∧
    ({ mem0 with oracle := [1] } : State).choice.1 = 1 := by decide +kernel
theorem witness_ManagementIsAnswered_launch :
    let bs := leBytes 8 0x20000 ++ leBytes 8 (5 * 2 ^ 35 + 2 ^ 32 + 1) ++ List.replicate 96 0
    launchRefused bs 0 { mem0 with queues := [(5, ⟨true, 0, 5, 6, 0⟩)] } = none := by decide +kernel
theorem witness_ManagementIsAnswered_capsules : let c : Capsule := ⟨4, 5, 3, false, [1, 2, 3]⟩
    let s := { mem0 with recd := { mem0.recd with caps := [c] } }
    s.capsule 4 = some c ∧ s.mayTenant 3 c.tenant.toNat = true ∧ c.dropped = false ∧
    ({ s with denied := [(3, 256 + 5)] } : State).mayTenant 3 5 = false ∧ s.capsule 5 = none := by decide +kernel
/-- An object of one kernel, `k1`, at PREF 0x600000000, and its load into tenant 7 and ASID 9 (23 R374-R376, R385). -/
def object0 : List Byte :=
  let sect (k al fo fs ms : Nat) : List Byte := leBytes 1 k ++ leBytes 1 al ++ leBytes 6 0 ++ leBytes 8 fo ++ leBytes 8 fs ++ leBytes 8 ms
  leBytes 4 0x31464F44 ++ leBytes 4 0 ++ leBytes 2 1 ++ leBytes 1 2 ++ leBytes 1 1 ++ leBytes 4 0 ++ leBytes 8 64 ++ leBytes 8 1 ++
    leBytes 24 0 ++ leBytes 8 0x600000000 ++ sect 1 2 128 4 4 ++ sect 6 0 132 60 0 ++ leBytes 4 0x34008000 ++ leBytes 8 2 ++
    leBytes 24 0 ++ leBytes 4 1 ++ [1, 1, 1, 0] ++ leBytes 8 0 ++ leBytes 8 4 ++ [0, 0x6B, 0x31, 0]
def load0 (o : List Byte) : Msg := msg (leBytes 8 1 ++ leBytes 8 0 ++ leBytes 2 7 ++ leBytes 2 9 ++ leBytes 4 0 ++ leBytes 8 0 ++
  leBytes 8 o.length ++ leBytes 8 0 ++ o)
def space0 : State := { mem0 with queues := [(5, ⟨true, 0, 7, 9, 1⟩)] }
theorem witness_ObjectsAreLoaded : let m := load0 object0
    let m1 := load0 (object0.set 8 2)
    space0.mcUp = true ∧ loadReaches object0 7 9 0 space0 = true ∧ msgClean m = true ∧ msgAt m 16 2 = 7 ∧ msgAt m 18 2 = 9 ∧
    msgAt m 0 8 = 1 ∧ msgAt m 8 8 = 0 ∧ msgAt m 20 4 = 0 ∧ space0.mayDo m.src 1 = true ∧ space0.mayTenant m.src 7 = true ∧
    (space0.jobs.find? fun k => k.src == m.src && k.tag == m.tag) = none ∧ msgAt m 40 8 = 0 ∧ 64 ≤ msgAt m 32 8 ∧
    48 + msgAt m 32 8 ≤ m.payload.length ∧ (loadCheck object0 7 9 0 space0).isOk = true ∧
    (loadCheck ((m1.payload.drop 48).take 192) 7 9 0 space0).isOk = false ∧ msgClean m1 = true ∧
    loadReaches object0 7 9 0 { space0 with power := { space0.power with svc := 2 } } = false := by decide +kernel
theorem witness_ObjectsAreLoaded_checks : let ss := sectsOf object0
    let ps := placeAll object0 ss 0x600000000
    headerOk object0 = true ∧ headerOk (object0.set 8 2) = false ∧ featuresOk object0 = true ∧ featuresOk (object0.set 0x0B 4) = false ∧
    baseOk ss 0x600000000 ps = true ∧ baseOk ss 0x600000001 ps = false ∧ (spaceRoot space0 7 9).isSome = true ∧ spaceRoot space0 7 8 = none ∧
    framesFit space0 1 = true ∧ symCount object0 ss = 2 ∧ (List.range 2).all (fun i => (symAddr object0 ss ps [] i).isSome) = true := by
  decide +kernel
theorem witness_ObjectsAreLoaded_page : let q : Placed := ⟨1, 0x600000000, 4, leBytes 4 0x34008000⟩
    let f := (takeFrame space0).1
    let pool := (takeFrame space0).2.pool
    let path := tablesOn space0 0x600000000 2 0x4000
    0x600000000 ∈ pagesOf q ∧ mappedFrom space0 0x600000000 2 0x4000 = false ∧ path.Nodup ∧ (∀ m ∈ space0.mig.toList, m.state ≠ .switch) ∧
    f % 0x10000 = 0 ∧ f + 0x10000 ≤ pool ∧ (∀ t ∈ path, t % 0x4000 = 0 ∧ t + 0x4000 ≤ pool ∧ (t + 0x4000 ≤ f ∨ f + 0x10000 ≤ t)) ∧
    pool + 0xC000 ≤ 2 ^ 52 ∧ space0.mem.wf = true := by decide +kernel
theorem witness_ObjectsAreLoaded_image : let im : Image := ⟨7, 9, 0x600000000, 0x600000004, 0x4000, [(0x600000000, 0x40000)], [], 0, []⟩
    let s := { space0 with images := [im] }
    let k : Ctx := ⟨1, 5, .bound, 1, 0, 1, 1, none, 0, 0x600000000, 7, 9, 0, Vector.replicate 32 0, 0, 0⟩
    (s.imagesOf 7 9).find? (·.base == 0x600000000) = some im ∧ imageBusy im s = false ∧
    imageBusy im { s with ctxs := [k] } = true ∧ (s.imagesOf 7 9).find? (·.base == 0) = none ∧
    tablesServed s im.root (im.pages.map (·.1)) = true ∧
    tablesServed { s with power := { s.power with svc := 2 } } im.root (im.pages.map (·.1)) = false ∧
    msgAt (mgmt0 1 1 []) 8 8 = 1 ∧ msgAt (mgmt0 1 2 []) 8 8 = 2 := by decide +kernel
end Sys2Proof.Machine
end

namespace Sys2Proof.Machine

/-! ### Scalar integer arithmetic: what an operation of the model gives, in numbers (09 R182-R184, 04 R89) -/

/-- Ending an integer instruction changes x[d], and the program counter, alone. -/
theorem alu_eq_retiredWith (d : BitVec 5) (v : Word) (s : State) :
    alu d v s = .next (s.retiredWith { s.core.regs with
      pc := s.core.regs.pc + 4, x := if d = 0 then s.core.regs.x else s.core.regs.x.set d.toNat v d.isLt }) := by
  unfold alu State.setX Regs.wr
  split <;> rfl

theorem alu_congr {d : BitVec 5} {v w : Word} {s : State} (h : v = w) : alu d v s = alu d w s := h ▸ rfl

theorem amount_eq_mod (v : Word) : amount v = v.toNat % 64 := by
  simp [amount, BitVec.extractLsb'_toNat]

theorem flag_slt (a b : Word) : flag (a.slt b) = if a.toInt < b.toInt then 1 else 0 := by
  by_cases h : a.toInt < b.toInt <;> simp [flag, BitVec.slt_eq_decide, h]

theorem flag_ult (a b : Word) : flag (a.ult b) = if a.toNat < b.toNat then 1 else 0 := by
  by_cases h : a.toNat < b.toNat <;> simp [flag, BitVec.ult_eq_decide, h]

theorem sshiftRight_eq_ofInt_div (v : Word) (n : Nat) : v.sshiftRight n = BitVec.ofInt 64 (v.toInt / 2 ^ n) := by
  rw [BitVec.sshiftRight_eq, Int.shiftRight_eq_div_pow, Nat.cast_pow, Nat.cast_ofNat]

theorem rotateRight_eq_or (v : Word) {n : Nat} (h : n < 64) : v.rotateRight n = v >>> n ||| v <<< (64 - n) := by
  rw [BitVec.rotateRight_def, Nat.mod_eq_of_lt h]

theorem ite_sle_eq_min (a b : Word) : (if a.sle b then a else b) = BitVec.ofInt 64 (min a.toInt b.toInt) := by
  by_cases h : a.toInt ≤ b.toInt <;> simp [BitVec.sle_iff_toInt_le, h, min_def]

theorem ite_sle_eq_max (a b : Word) : (if a.sle b then b else a) = BitVec.ofInt 64 (max a.toInt b.toInt) := by
  by_cases h : a.toInt ≤ b.toInt <;> simp [BitVec.sle_iff_toInt_le, h, max_def]

theorem ite_ule_eq_min (a b : Word) : (if a.ule b then a else b) = BitVec.ofNat 64 (min a.toNat b.toNat) := by
  by_cases h : a.toNat ≤ b.toNat <;> simp [BitVec.ule_eq_decide, h, min_def]

theorem ite_ule_eq_max (a b : Word) : (if a.ule b then b else a) = BitVec.ofNat 64 (max a.toNat b.toNat) := by
  by_cases h : a.toNat ≤ b.toNat <;> simp [BitVec.ule_eq_decide, h, max_def]

/-- The highest set bit is the first one met from bit 63 down. -/
theorem clz_eq_find (v : Word) : clz v = ((List.range 64).find? fun k => v.getLsbD (63 - k)).getD 64 := by
  unfold clz
  by_cases h : v = 0
  · have hnone : ((List.range 64).find? fun k => v.getLsbD (63 - k)) = none := by simp [h]
    rw [if_pos h, hnone, Option.getD_none]
  · have hv : v.toNat ≠ 0 := by simpa [BitVec.toNat_eq] using h
    have hlt : v.toNat.log2 < 64 := (Nat.log2_lt hv).2 v.isLt
    have hfind : ((List.range 64).find? fun k => v.getLsbD (63 - k)) = some (63 - v.toNat.log2) := by
      rw [List.find?_range_eq_some]
      refine ⟨?_, List.mem_range.2 (by omega), fun j hj => ?_⟩
      · rw [Nat.sub_sub_self (by omega)]
        exact Nat.testBit_log2 hv
      · have hout : v.toNat < 2 ^ (63 - j) := (Nat.log2_lt hv).1 (by omega)
        simp [BitVec.getLsbD, Nat.testBit_lt_two_pow hout]
    rw [if_neg h, hfind, Option.getD_some]

/-- `v &&& -v` keeps the lowest set bit alone. -/
theorem and_neg_eq_twoPow (v : Word) {k : Nat} (hk : v.getLsbD k = true) (hlow : ∀ j < k, v.getLsbD j = false) :
    v &&& -v = BitVec.twoPow 64 k := by
  refine BitVec.eq_of_getLsbD_eq fun i hi => ?_
  rw [BitVec.getLsbD_and, BitVec.getLsbD_neg, BitVec.getLsbD_twoPow]
  rcases Nat.lt_trichotomy i k with h | rfl | h
  · simp [hlow i h, h.ne']
  · have hnone : ¬ ∃ j < i, v.getLsbD j = true := fun ⟨j, hj, hset⟩ => by simp [hlow j hj] at hset
    simp [hk, hi, hnone]
  · have hsome : ∃ j < i, v.getLsbD j = true := ⟨k, h, hk⟩
    simp [hi, hsome, h.ne]

theorem ctz_eq_find (v : Word) : ctz v = ((List.range 64).find? fun k => v.getLsbD k).getD 64 := by
  unfold ctz
  cases hf : (List.range 64).find? fun k => v.getLsbD k with
  | none =>
    have h : v = 0 := BitVec.eq_of_getLsbD_eq fun i hi => by
      simpa using List.find?_range_eq_none.1 hf i hi
    rw [if_pos h, Option.getD_none]
  | some k =>
    obtain ⟨hk, hmem, hlow⟩ := List.find?_range_eq_some.1 hf
    have h : v ≠ 0 := by rintro rfl; simp at hk
    rw [if_neg h, and_neg_eq_twoPow v hk (by simpa using hlow), BitVec.toNat_twoPow_of_lt (List.mem_range.1 hmem),
      Nat.log2_two_pow, Option.getD_some]

/-- Twelve zero bits under the immediate of format U are a shift of it by twelve. -/
theorem signExtend_append_zero (i : BitVec 20) : i.signExtend 64 <<< 12 = (i ++ 0#12).signExtend 64 := by
  refine BitVec.eq_of_getLsbD_eq fun k hk => ?_
  have hmsb : (i ++ 0#12).msb = i.msb := by rw [BitVec.msb_append, if_neg (by decide)]
  rw [BitVec.getLsbD_shiftLeft, BitVec.getLsbD_signExtend, BitVec.getLsbD_signExtend, hmsb, BitVec.getLsbD_append]
  by_cases h : k < 12
  · have h32 : k < 20 + 12 := by omega
    simp [h, h32]
  · have h20 : k - 12 < 20 ↔ k < 20 + 12 := by omega
    have h64 : k - 12 < 64 := by omega
    simp [h, h20, h64, hk]

theorem sdiv_eq_ofInt_tdiv (a b : Word) : a.sdiv b = BitVec.ofInt 64 (a.toInt.tdiv b.toInt) :=
  BitVec.eq_of_toInt_eq (by rw [BitVec.toInt_sdiv, BitVec.toInt_ofInt])

theorem srem_eq_ofInt_tmod (a b : Word) : a.srem b = BitVec.ofInt 64 (a.toInt.tmod b.toInt) := by
  rw [← BitVec.toInt_srem, BitVec.ofInt_toInt]

theorem udiv_eq_ofNat_div (a b : Word) : a / b = BitVec.ofNat 64 (a.toNat / b.toNat) :=
  BitVec.eq_of_toNat_eq (by
    rw [BitVec.toNat_udiv, BitVec.toNat_ofNat, Nat.mod_eq_of_lt ((Nat.div_le_self _ _).trans_lt a.isLt)])

theorem umod_eq_ofNat_mod (a b : Word) : a % b = BitVec.ofNat 64 (a.toNat % b.toNat) :=
  BitVec.eq_of_toNat_eq (by
    rw [BitVec.toNat_umod, BitVec.toNat_ofNat, Nat.mod_eq_of_lt ((Nat.mod_le _ _).trans_lt a.isLt)])

/-! ### Scalar integer instructions -/

/-- A divisor of zero traps RANGE, with the dividend (09 R184). -/
theorem exec_smDiv_of_zero (d a : BitVec 5) {b : BitVec 5} (sg : Bool) {s : State} (hb : s.x b = 0) :
    exec (.smDiv d a b sg) s = .next (takeTrap .range false (s.x a) none s) := if_pos hb

theorem exec_smRem_of_zero (d a : BitVec 5) {b : BitVec 5} (sg : Bool) {s : State} (hb : s.x b = 0) :
    exec (.smRem d a b sg) s = .next (takeTrap .range false (s.x a) none s) := if_pos hb

theorem exec_smDiv_of_ne_zero (d a : BitVec 5) {b : BitVec 5} (sg : Bool) {s : State} (hb : s.x b ≠ 0) :
    exec (.smDiv d a b sg) s = alu d (if sg then (s.x a).sdiv (s.x b) else s.x a / s.x b) s := if_neg hb

theorem exec_smRem_of_ne_zero (d a : BitVec 5) {b : BitVec 5} (sg : Bool) {s : State} (hb : s.x b ≠ 0) :
    exec (.smRem d a b sg) s = alu d (if sg then (s.x a).srem (s.x b) else s.x a % s.x b) s := if_neg hb

/-- An instruction that the tables of 09 R182-R184, 04 R89 and 14 R301 give a result ends by writing that result. -/
theorem exec_eq_alu_of_integerResult {s : State} {i : Instr} {d : BitVec 5} {v : Word}
    (h : Claims.integerResult s i = some (d, v)) : exec i s = alu d v s := by
  cases i with
  | saAdd | saSub | saAnd | saOr | saXor | saAndn | saAddw | saSubw | saAdds | saSubs
  | siAddi | siAndi | siOri | siXori | siSlli | siSrli | siAddiw | smMulh | smMadd | sqRd => cases h; rfl
  | saSll | saSrl => cases h; exact alu_congr (by rw [amount_eq_mod])
  | saSra => cases h; exact alu_congr (by rw [sshiftRight_eq_ofInt_div, amount_eq_mod])
  | saRotr =>
    cases h
    exact alu_congr (by rw [amount_eq_mod, rotateRight_eq_or _ (Nat.mod_lt _ (by decide))])
  | saSlt => cases h; exact alu_congr (flag_slt _ _)
  | saSltu => cases h; exact alu_congr (flag_ult _ _)
  | saMin => cases h; exact alu_congr (ite_sle_eq_min _ _)
  | saMax => cases h; exact alu_congr (ite_sle_eq_max _ _)
  | saMinu => cases h; exact alu_congr (ite_ule_eq_min _ _)
  | saMaxu => cases h; exact alu_congr (ite_ule_eq_max _ _)
  | saClz => cases h; exact alu_congr (by rw [clz_eq_find])
  | saCtz => cases h; exact alu_congr (by rw [ctz_eq_find])
  | saPopc => cases h; exact alu_congr (by rw [popc, List.countP_eq_length_filter])
  | siSlti =>
    cases h
    exact alu_congr (by rw [flag_slt, immI, BitVec.toInt_signExtend_of_le (by decide)])
  | siSltiu => cases h; exact alu_congr (flag_ult _ _)
  | siSrai => cases h; exact alu_congr (sshiftRight_eq_ofInt_div _ _)
  | siRotri _ _ n => cases h; exact alu_congr (rotateRight_eq_or _ n.isLt)
  | suAhi => cases h; exact alu_congr (signExtend_append_zero _)
  | suApc => cases h; exact alu_congr (by rw [signExtend_append_zero])
  | smMul => cases h; exact alu_congr (by rw [BitVec.ofNat_mul, BitVec.ofNat_toNat, BitVec.ofNat_toNat, BitVec.setWidth_eq, BitVec.setWidth_eq])
  | smDiv _ _ b =>
    by_cases hb : s.x b = 0
    · cases h.symm.trans (if_pos hb)
    · cases h.symm.trans (if_neg hb)
      rw [exec_smDiv_of_ne_zero _ _ _ hb, sdiv_eq_ofInt_tdiv, udiv_eq_ofNat_div]
  | smRem _ _ b =>
    by_cases hb : s.x b = 0
    · cases h.symm.trans (if_pos hb)
    · cases h.symm.trans (if_neg hb)
      rw [exec_smRem_of_ne_zero _ _ _ hb, srem_eq_ofInt_tmod, umod_eq_ofNat_mod]
  | _ => cases h

/-- Settles O10: each instruction with a result ends by `alu`, whose next state is the one stated; a zero divisor leaves the table
without a result and traps. -/
theorem scalarIntegerResults : Obligations.ScalarIntegerResults := by
  refine ⟨fun s i d v h => ?_, fun s d a b sg hb i hi => ?_⟩
  · rw [exec_eq_alu_of_integerResult h, alu_eq_retiredWith]
  · rcases List.mem_pair.1 hi with rfl | rfl
    · exact ⟨if_pos hb, exec_smDiv_of_zero d a sg hb⟩
    · exact ⟨if_pos hb, exec_smRem_of_zero d a sg hb⟩

end Sys2Proof.Machine

namespace Sys2Proof.Machine

/-! ### Branches: a transfer of control, and the conditions of the six forms (15 R309, R310) -/

/-- A transfer of control changes the program counter among the registers, and owes its record unless it goes to the next word. -/
theorem jump_eq_moved (s : State) (t : Word) : s.jump t = Claims.moved s { s.core.regs with pc := t } := by
  unfold State.jump Claims.moved
  by_cases h : t = s.core.regs.pc + 4
  · rw [if_pos (beq_iff_eq.2 h), if_pos h]; rfl
  · rw [if_neg (mt beq_iff_eq.1 h), if_neg h]; rfl

theorem branch_eq_moved (c : Bool) (o : BitVec 13) (s : State) :
    branch c o s = .next (Claims.moved s { s.core.regs with
      pc := if c then s.core.regs.pc + BitVec.ofInt 64 (o.toInt * 4) else s.core.regs.pc + 4 }) :=
  congrArg Host.Outcome.next (jump_eq_moved s _)

theorem branch_congr {c k : Bool} {o : BitVec 13} {s : State} (h : c = k) : branch c o s = branch k o s := h ▸ rfl

theorem bne_eq_decide_ne (a b : Word) : (a != b) = decide (a ≠ b) := by
  rw [bne, beq_eq_decide, ← decide_not]

theorem not_slt_eq_decide_le (a b : Word) : (!a.slt b) = decide (b.toInt ≤ a.toInt) := by
  rw [← BitVec.sle_eq_not_slt, BitVec.sle_eq_decide]

theorem not_ult_eq_decide_le (a b : Word) : (!a.ult b) = decide (b.toNat ≤ a.toNat) := by
  rw [← BitVec.ule_eq_not_ult, BitVec.ule_eq_decide]

/-- An instruction to which 15 R309 gives a condition and a displacement is the branch of the two. -/
theorem exec_eq_branch {s : State} {i : Instr} {c : Bool} {o : BitVec 13} (h : Claims.branch s i = some (c, o)) :
    exec i s = branch c o s := by
  cases i with
  | brEq => cases h; exact branch_congr (beq_eq_decide _ _)
  | brNe => cases h; exact branch_congr (bne_eq_decide_ne _ _)
  | brLt => cases h; exact branch_congr BitVec.slt_eq_decide
  | brGe => cases h; exact branch_congr (not_slt_eq_decide_le _ _)
  | brLtu => cases h; exact branch_congr BitVec.ult_eq_decide
  | brGeu => cases h; exact branch_congr (not_ult_eq_decide_le _ _)
  | _ => cases h

/-- Settles O13: each of the six forms is the `branch` of its condition, which is a transfer of control and no more. -/
theorem branchesSetTheProgramCounter : Obligations.BranchesSetTheProgramCounter := fun s _ c o h =>
  (exec_eq_branch h).trans (branch_eq_moved c o s)

end Sys2Proof.Machine

namespace Sys2Proof.Machine

/-! ### What a chunk that ends leaves at the homes (14 R279, R283, R284) -/

/-- Nothing is found below every listed address. -/
theorem cellFind_eq_none_of_lt {m : List Host.Cell} {a : Nat} (h : ∀ p ∈ m, a < p.1) : cellFind m a = none := by
  cases m with
  | nil => rfl
  | cons p r =>
    have hp : a < p.1 := h p List.mem_cons_self
    rw [cellFind, if_neg hp.ne, if_pos hp]

/-- On rising addresses the last write to an address is the one that a lookup finds. -/
theorem foldl_pick_eq_cellFind (c : Nat) : ∀ {l : List Host.Cell} (b : Byte), (l.map (·.1)).Pairwise (· < ·) →
    l.foldl (fun b p => if c = p.1 then p.2 else b) b = (cellFind l c).getD b
  | [], _, _ => rfl
  | (k, d) :: r, b, h => by
    rw [List.map_cons, List.pairwise_cons, List.forall_mem_map] at h
    obtain ⟨hk, hr⟩ := h
    rw [List.foldl_cons, foldl_pick_eq_cellFind c _ hr, cellFind]
    rcases Nat.lt_trichotomy c k with hc | rfl | hc
    · rw [if_neg hc.ne, if_neg hc.ne, if_pos hc, cellFind_eq_none_of_lt fun p hp => hc.trans (hk p hp)]
    · rw [if_pos rfl, if_pos rfl, cellFind_eq_none_of_lt hk, Option.getD_none, Option.getD_some]
    · rw [if_neg hc.ne', if_neg hc.ne', if_neg hc.asymm]

/-- What stands at the homes after a chunk without commutative updates is what its written bytes say, and memory beside them. -/
theorem home_applyChunk {ch : Chunk} {s : State} (hcom : ch.com = []) (hord : ch.ordered = true) (hs : s.settled)
    (hm : s.mem.wf = true) (q : Nat) : (applyChunk ch s).home q = (cellFind ch.wr q).getD (s.home q) := by
  have hset : (applyChunk ch s).settled := by rw [applyChunk_frame]; exact hs
  rw [home_settled hset, home_settled hs, ← foldl_pick_eq_cellFind q _ (ordered_iff.1 hord).1,
    ← (foldl_memSet (fun p : Host.Cell => p.1) (·.2) ch.wr hm).2 q]
  simp only [applyChunk, hcom, List.foldl_nil, homeSet_settled hs]

/-! ### The end of a chunk, one equation for each case -/

theorem endChunk_of_none {s : State} (hc : s.core.chunk = none) (k : BitVec 4) : endChunk k s = some s := by
  unfold endChunk; rw [hc]

theorem endChunk_of_empty {s : State} {ch : Chunk} (hc : s.core.chunk = some ch) (hemp : ch.empty = true) (k : BitVec 4) :
    endChunk k s = some { s with core := { s.core with chunk := none } } := by
  unfold endChunk; rw [hc]; exact if_pos hemp

/-- A chunk that holds something takes the next CSN, and its writes pass to their homes (14 R284). -/
theorem endChunk_of_full {s : State} {ch : Chunk} (h : s.unreserved = true) (hc : s.core.chunk = some ch) (hemp : ch.empty = false)
    (k : BitVec 4) : endChunk k s = some ((applyChunk ch (takeCsn k ch.lines ch.wlines ch.comLines s)).mapCore
      fun c => { c with chunk := none }) := by
  unfold endChunk
  rw [hc]
  simp only [hemp, blocked_unreserved h, Bool.false_eq_true, if_false]
  rfl

/-! ### The end of a chunk commits it (14 R279, R284, R286) -/

/-- Whether a chunk has been committed shows in the CSNs and at the homes alone. -/
theorem committed_congr {s t u : State} (h : Claims.committed s t) (hcsn : u.csn = t.csn) (hcore : u.core.csn = t.core.csn)
    (hmem : u.mem = t.mem) (hmig : u.mig = t.mig) : Claims.committed s u := by
  have hhome : ∀ q, u.home q = t.home q := fun q => by simp only [State.home, State.served, hmem, hmig]
  simpa only [Claims.committed, hcsn, hcore, hhome] using h

theorem sees_of_chunk {s : State} {ch : Chunk} (hc : s.core.chunk = some ch) (q : Nat) :
    s.sees q = (cellFind ch.wr q).getD (s.home q) := by
  unfold State.sees Core.chunkOr; rw [hc, Option.getD_some]

/-- Taking a CSN leaves every byte at its home. -/
theorem home_takeCsn {s : State} (h : s.unreserved = true) (k : BitVec 4) (n : Nat) (wl cl : List Nat) (q : Nat) :
    (takeCsn k n wl cl s).home q = s.home q := by
  rw [takeCsn_frame h]; rfl

/-- The commit of a chunk puts at the homes what the chunk has seen. -/
theorem home_applyChunk_takeCsn {s : State} {ch : Chunk} (h : s.unreserved = true) (hc : s.core.chunk = some ch) (hinv : s.Inv)
    (hu : s.noUpdates = true) (hs : s.settled) (k : BitVec 4) (q : Nat) :
    (applyChunk ch (takeCsn k ch.lines ch.wlines ch.comLines s)).home q = s.sees q := by
  obtain ⟨-, hmem, hcore, -⟩ := hinv
  obtain ⟨-, -, hch⟩ := sound_iff.1 hcore
  have hcom : ch.com = [] := by simpa only [Core.chunkOr, hc, Option.getD_some] using noUpdates_iff.1 hu
  rw [home_applyChunk hcom (hch ch hc).2 (by rw [takeCsn_frame h]; exact hs) (by rw [takeCsn_frame h]; exact hmem),
    home_takeCsn h, sees_of_chunk hc]

/-- When no other core holds a reservation, the end of a chunk commits it. -/
theorem committed_endChunk {s t : State} (h : s.unreserved = true) {k : BitVec 4} (he : endChunk k s = some t) :
    Claims.committed s t := by
  cases hc : s.core.chunk with
  | none =>
    obtain rfl := Option.some.inj ((endChunk_of_none hc k).symm.trans he)
    exact ⟨fun _ => ⟨rfl, rfl⟩, fun ch hch => by cases hc.symm.trans hch⟩
  | some ch =>
    cases hemp : ch.empty with
    | true =>
      obtain rfl := Option.some.inj ((endChunk_of_empty hc hemp k).symm.trans he)
      refine ⟨fun _ => ⟨rfl, rfl⟩, fun ch' hch hfull => ?_⟩
      cases hc.symm.trans hch
      cases hemp.symm.trans hfull
    | false =>
      obtain rfl := Option.some.inj ((endChunk_of_full h hc hemp k).symm.trans he)
      refine ⟨fun hall => ?_, fun ch' hch _ => ?_⟩
      · rw [hc, Option.all_some] at hall
        cases hemp.symm.trans hall
      · cases hc.symm.trans hch
        refine ⟨?_, ?_, fun hinv hu hs q => home_applyChunk_takeCsn h hc hinv hu hs k q⟩
        · rw [applyChunk_frame, takeCsn_frame h]; rfl
        · rw [applyChunk_frame, takeCsn_frame h]; rfl

/-- A trap that is taken commits the chunk before the instruction: its records and the entry move no CSN and no byte. -/
theorem committed_takeTrap {s : State} (h : s.unreserved = true) (c : Cause) (a : Bool) (v : Word) (seq : Option (BitVec 32)) :
    Claims.committed s (takeTrap c a v seq s) := by
  obtain ⟨t, ht⟩ := endChunk_unreserved h 3
  have hcom := committed_endChunk h ht
  unfold takeTrap
  rw [ht]
  simp only
  rw [trapRecords_frame]
  exact committed_congr hcom rfl rfl rfl rfl

/-! ### The registers of a trap's entry (17 R338) -/

/-- A bit after a field of one bit is replaced. -/
theorem getLsbD_setField_one (v : Word) {i : Nat} (hi : i < 64) (x k : Nat) :
    (setField v i 1 x).getLsbD k = if k = i then x.testBit 0 else v.getLsbD k := by
  rw [getLsbD_setField]
  by_cases h : k = i
  · subst h; simp [hi]
  · rw [if_neg h, if_neg (by omega)]

/-- SKIP after the trap of a user instruction is 0; other traps leave it (17 R353). -/
theorem getLsbD_skipCleared (async : Bool) (st : Word) (k : Nat) :
    (if !st.getLsbD 0 && !async then setField st 5 1 0 else st).getLsbD k =
      if k = 5 then st.getLsbD 5 && (st.getLsbD 0 || async) else st.getLsbD k := by
  rw [← Bool.not_or]
  cases h : st.getLsbD 0 || async with
  | false => simp [getLsbD_setField_one]
  | true =>
    by_cases hk : k = 5 <;> simp [hk]

/-- STAT in the handler, bit by bit: MODE, IE, PMODE, PIE, SKIP, and the rest as it was (17 R338, R353). -/
theorem getLsbD_statEnter (async : Bool) (st : Word) (k : Nat) : (statEnter async st).getLsbD k =
    if k = 0 then true else if k = 1 then false else if k = 3 then st.getLsbD 0 else if k = 4 then st.getLsbD 1
    else if k = 5 then st.getLsbD 5 && (st.getLsbD 0 || async) else st.getLsbD k := by
  simp only [statEnter]
  rw [getLsbD_setField_one _ (by decide), getLsbD_setField_one _ (by decide), getLsbD_setField_one _ (by decide),
    getLsbD_setField_one _ (by decide), getLsbD_skipCleared]
  by_cases h1 : k = 1
  · simp [h1]
  by_cases h0 : k = 0
  · simp [h0]
  by_cases h4 : k = 4
  · cases st.getLsbD 1 <;> simp [h4]
  by_cases h3 : k = 3
  · cases st.getLsbD 0 <;> simp [h3]
  · simp only [h0, h1, h3, h4, if_false]

/-- The cause word: ASYNC at bit 63, the code in the low byte (17 R346). -/
theorem causeWord_eq_ofNat (async : Bool) (code : BitVec 8) :
    BitVec.ofBool async ++ 0#55 ++ code = BitVec.ofNat 64 (async.toNat * 2 ^ 63 + code.toNat) := by
  have hcode := code.isLt
  refine BitVec.eq_of_toNat_eq ?_
  rw [BitVec.toNat_append, BitVec.toNat_append, BitVec.toNat_ofBool, BitVec.toNat_ofNat, Nat.zero_mod, Nat.or_zero,
    ← Nat.shiftLeft_add_eq_or_of_lt hcode, ← Nat.shiftLeft_add, Nat.shiftLeft_eq, BitVec.toNat_ofNat]
  have hasync := async.toNat_le
  omega

/-- VQPOS: its valid bit over the sequence number (17 R344). -/
theorem validSeq_eq_ofNat (q : BitVec 32) : 0x80000000#32 ++ q = BitVec.ofNat 64 (2 ^ 63 + q.toNat) := by
  have hq := q.isLt
  refine BitVec.eq_of_toNat_eq ?_
  rw [BitVec.toNat_append, ← Nat.shiftLeft_add_eq_or_of_lt hq, Nat.shiftLeft_eq, BitVec.toNat_ofNat, BitVec.toNat_ofNat]
  omega

/-- The base of a vector or return address: its two low bits read 0. -/
theorem extract_append_zero_eq_and (v : Word) : v.extractLsb' 2 62 ++ 0#2 = v &&& ~~~3#64 := by
  refine BitVec.eq_of_getLsbD_eq fun i hi => ?_
  rw [BitVec.getLsbD_append, BitVec.getLsbD_and, BitVec.getLsbD_not]
  by_cases h : i < 2
  · have hset : (3#64).getLsbD i = true := by interval_cases i <;> rfl
    simp [h, hset]
  · have hlt : 3 < 2 ^ i := calc
      3 < 2 ^ 2 := by decide
      _ ≤ 2 ^ i := Nat.pow_le_pow_right (by decide) (Nat.le_of_not_lt h)
    have hclear : (3#64).getLsbD i = false := Nat.testBit_lt_two_pow hlt
    have hback : 2 + (i - 2) = i := by omega
    have hin : i - 2 < 62 := by omega
    rw [if_neg h, BitVec.getLsbD_extractLsb', hback, hclear]
    simp [hin, hi]

/-- The registers of the handler's entry, in numbers (17 R338, R344, R346). -/
theorem enter_eq (r : Regs) (c : Cause) (async : Bool) (tval : Word) (seq : Option (BitVec 32)) :
    r.enter c async tval seq = { r with
      epc := r.pc
      cause := BitVec.ofNat 64 (async.toNat * 2 ^ 63 + (causeCode c).toNat)
      tval := tval
      vqpos := (seq.map fun q => BitVec.ofNat 64 (2 ^ 63 + q.toNat)).getD 0
      stat := statEnter async r.stat
      pc := r.tvec &&& ~~~3#64
      susp := true } := by
  unfold Regs.enter
  rw [causeWord_eq_ofNat, extract_append_zero_eq_and]
  cases seq with
  | none => rfl
  | some q => rw [Option.map_some, Option.getD_some, ← validSeq_eq_ofNat]

/-- Settles O17: without a reservation in its way the chunk commits, and the core is that of `takeTrap_enters`; the rest is what the
entry writes, STAT bit by bit. -/
theorem trapEntersTheHandler : Obligations.TrapEntersTheHandler := by
  intro s c async tval seq h
  obtain ⟨-, hcore⟩ := takeTrap_enters h c async tval seq
  have hregs : (takeTrap c async tval seq s).core.regs = s.core.regs.enter c async tval seq := by rw [hcore]
  have hstat : (takeTrap c async tval seq s).core.regs.stat = statEnter async s.core.regs.stat := by rw [hregs]; rfl
  refine ⟨committed_takeTrap h c async tval seq, by rw [hcore], by rw [hcore], ?_, ?_⟩
  · rw [hstat, hregs, enter_eq]
  · simp only [hstat, getLsbD_statEnter]
    refine ⟨rfl, rfl, rfl, rfl, rfl, fun k hk => ?_⟩
    simp only [List.mem_cons, List.not_mem_nil, or_false, not_or] at hk
    obtain ⟨h0, h1, h3, h4, h5⟩ := hk
    rw [if_neg h0, if_neg h1, if_neg h3, if_neg h4, if_neg h5]

end Sys2Proof.Machine
